-- ==== Sys2Proof/Word.lean ====
section
/-! DEFINITION. The word types of the block and their plainest operations. Every value of the block is an
unsigned number of a stated width (`00_scope.md` R12). -/

namespace Sys2Proof

/-- A byte: one symbol, one transfer of a stream (`00_scope.md` R11, `20_memory.md` R72). -/
abbrev Byte := BitVec 8

/-- An unsigned 32-bit value: a count, a weight, a result (`00_scope.md` R11, `CNT_W`). -/
abbrev U32 := BitVec 32

/-- A 9-bit node index: 0 to 255 a leaf, 256 to 510 an internal node (`10_state.md` R26). -/
abbrev Node := BitVec 9

/-- A 16-bit command word (`30_encoding.md` R90). -/
abbrev Command := BitVec 16

/-- Command bits 15 to 8 (`30_encoding.md` R90). -/
def Command.opcode (w : Command) : BitVec 8 := w.extractLsb' 8 8

/-- Command bits 7 to 0 (`30_encoding.md` R90). -/
def Command.operand (w : Command) : BitVec 8 := w.extractLsb' 0 8

end Sys2Proof
end

