-- ==== Sys2Proof/Config.lean ====
section
/-! DEFINITION. The implementation parameters of `00_scope.md` R11, all fixed. The one open parameter,
`IoOracle` (R66), is no constant: it is data of the environment in `State`, so that a claim over all states
is a claim over every oracle. The manual leaves no value of the block undefined, so there is no free value
here. -/

namespace Sys2Proof.Config

/-- Number of symbols (`NSYM`). -/
def nSym : Nat := 256

/-- Longest input the block takes, `2^32 − 1` bytes (`MAX_TOTAL`). -/
def maxTotal : U32 := 0xFFFFFFFF#32

/-- Internal nodes take the indices from here (`NNODE`). -/
def firstInternal : Nat := 256

/-- One above the last node index (`NNODE`). -/
def nodeLimit : Nat := 511

/-- Entries of the priority queue (`PQ_CAP`). -/
def pqCap : Nat := 256

/-- Longest code in bits (`MAXLEN`). -/
def maxLen : Nat := 255

/-- 32-bit words of the header (`HDR_WORDS`). -/
def hdrWords : Nat := 257

/-- Bytes of the header (`HDR_BYTES`). -/
def hdrBytes : Nat := 1028

end Sys2Proof.Config
end

