-- ==== Sys2Proof/Machine/State.lean ====
section
/-! DEFINITION. The state of the machine as plain data: the block's own elements (`10_state.md` R20 to R41),
the environment's streams (R43, `20_memory.md` R61 to R66) and the host's side of the ports (R86). -/

namespace Sys2Proof.Machine

/-- An indexed table of the block as a list of (index, entry) pairs: indices strictly rising, no entry equal
to the table's reset entry, which is what an unlisted index reads as. The operations are in Ops.lean. -/
abbrev Table (α : Type) := List (Nat × α)

/-- An internal node: `nd_freq`, `nd_left`, `nd_right` (`10_state.md` R26). -/
structure NodeRec where
  freq : U32
  left : Node
  right : Node
  deriving DecidableEq, Repr

/-- `ht_phase` (`10_state.md` R31). -/
inductive Phase where
  /-- 0: no tree matches the frequency table. -/
  | none
  /-- 1: the queue is loaded and two or more nodes remain. -/
  | merging
  /-- 2: the build has finished. -/
  | done
  deriving DecidableEq, Repr

/-- The frequency table (`10_state.md` R23, R24). -/
structure Scanner where
  /-- `ft[0..255]` (R23). -/
  ft : Table U32
  /-- `total` (R24). -/
  total : U32
  deriving DecidableEq, Repr

/-- The node arena, the priority queue, the root and the tree phase (`10_state.md` R26 to R31). -/
structure Builder where
  /-- `nd_freq`, `nd_left`, `nd_right` at 256 to 510 (R26). -/
  nd : Table NodeRec
  /-- `nn` (R27). -/
  nn : BitVec 9
  /-- `pq[0..255]` (R29). -/
  pq : Table Node
  /-- `pq_n` (R29). -/
  pqN : BitVec 9
  /-- `root` (R30). -/
  root : Node
  /-- `root_valid` (R30). -/
  rootValid : Bool
  /-- `ht_phase` (R31). -/
  phase : Phase
  deriving DecidableEq, Repr

/-- The code book (`10_state.md` R32, R33). -/
structure CodeBook where
  /-- `cb_has`, `cb_len`, `cb_code` at 0 to 255 (R32): `none` is `cb_has = 0`, `some c` is `cb_has = 1` with
  the code bits `c`, first bit first, and `cb_len` their number. -/
  cb : Table (Option (List Bool))
  /-- `cb_done` (R33). -/
  done : Bool
  deriving DecidableEq, Repr

/-- The bit writer and its stream's flag (`10_state.md` R34, R35). -/
structure BitWriter where
  /-- `bw_buf` (R34). -/
  buf : Byte
  /-- `bw_cnt` (R34). -/
  cnt : BitVec 3
  /-- `snk_open` (R35). -/
  isOpen : Bool
  deriving DecidableEq, Repr

/-- The bit reader and its stream's flag (`10_state.md` R36, R37). -/
structure BitReader where
  /-- `br_buf` (R36). -/
  buf : Byte
  /-- `br_pos` (R36). -/
  pos : BitVec 4
  /-- `br_eos` (R36). -/
  eos : Bool
  /-- `src_open` (R37). -/
  isOpen : Bool
  deriving DecidableEq, Repr

/-- The decoder cursor (`10_state.md` R39). -/
structure Decoder where
  /-- `dec_cur` (R39). -/
  cur : Node
  /-- `dec_rem` (R39). -/
  rem : U32
  deriving DecidableEq, Repr

/-- The fault flags and the result (`10_state.md` R40, R41). -/
structure Status where
  /-- `err` (R40). -/
  err : BitVec 3
  /-- `fault` (R40). -/
  fault : Bool
  /-- `incomplete` (R40). -/
  incomplete : Bool
  /-- `result` (R41). -/
  result : U32
  deriving DecidableEq, Repr

/-- The elements of the block, each at its width (`10_state.md` R23 to R41, R46), by unit (`00_scope.md`
R2). -/
structure Engine where
  scan : Scanner
  tree : Builder
  book : CodeBook
  bw : BitWriter
  br : BitReader
  dec : Decoder
  stat : Status
  deriving DecidableEq, Repr

/-- The environment's answer to one call of a primitive (`20_memory.md` R61 to R66). -/
inductive Answer where
  /-- the normal answer of R61 to R65 -/
  | normal
  /-- `IOERR`; to `SrcClose`, which cannot fail (decision D17), the same as `normal` (log entry 7) -/
  | ioErr
  /-- no answer ever (`70_reset_and_hazards.md` R300, `93_implementation_defined.md` U20) -/
  | silent
  /-- hardware reset strikes before the call is carried out (`70_reset_and_hazards.md` R290, U10) -/
  | hwReset
  deriving DecidableEq, Repr

/-- The environment (`10_state.md` R43). -/
structure Env where
  /-- `src`, the source content (`20_memory.md` R61). -/
  src : List Byte
  /-- `src_pos` (R61). -/
  srcPos : Nat
  /-- `snk`, the sink content (R64). -/
  snk : List Byte
  /-- `snk_done` (R64, R65). -/
  snkDone : Bool
  /-- `IoOracle` (R66): the answers to the coming calls, the next first; calls beyond the list are answered
  normally (log entry 3). -/
  answers : List Answer
  deriving DecidableEq, Repr

/-- The response to a command (`30_encoding.md` R93, `20_memory.md` R86). -/
inductive Response where
  | ok
  | fault
  | refused
  deriving DecidableEq, Repr

/-- A move of the host between commands (`00_scope.md` R10, `20_memory.md` R86, `70_reset_and_hazards.md`
R294). -/
inductive HostMove where
  /-- present a command word -/
  | command (w : Command)
  /-- assert hardware reset (R290) -/
  | hwReset
  /-- read a word of the register window (R80) -/
  | regRead (a : BitVec 12)
  /-- bind other content to the source port, while the source is closed (R294 (2), program P5) -/
  | bindSource (bytes : List Byte)
  /-- bind a fresh sink to the sink port, while the sink is closed (R294 (2), program P5) -/
  | bindSink
  deriving DecidableEq, Repr

/-- The host's side of the ports: the model's own fields, no state of the block. -/
structure HostPort where
  /-- The host's coming moves, the next first (log entry 1). -/
  moves : List HostMove
  /-- The last response given (log entry 2). -/
  rsp : Option Response
  /-- The last word read from the register window (log entry 2). -/
  rdata : Option U32
  deriving DecidableEq, Repr

/-- The machine: the block, its environment, its host. -/
structure State where
  eng : Engine
  env : Env
  host : HostPort
  deriving DecidableEq, Repr

/-- The fault kinds of the block (`60_exceptions.md` R260). They are no stop of the model: a raise takes the
machine to a next state, by `FaultEntry` (R262). -/
inductive FaultKind where
  | ioUnavailable
  | corruptHeader
  | truncatedStream
  | streamClosed
  | countOverflow
  | badCommand
  | badSequence
  deriving DecidableEq, Repr

/-- Where the model stops with a fault. -/
inductive Fault where
  /-- Raised by any command one of whose stream calls, `SrcClose` and the calls of the release among them, the
  environment never answers (`70_reset_and_hazards.md` R300, `93_implementation_defined.md` U20, treatment
  `stuck`: the command never responds). Safe: the model stops where the block hangs. -/
  | environmentSilent
  /-- Raised by `CB_BUILD` alone, when the arena below `root` has a path longer than 255 branches, so is no
  tree of R28 and the traversal of R181 has no end or leaves its path register. No state reached from reset
  has such an arena. Safe. -/
  | arenaNotATree
  /-- Raised by no command: the loops of the model that count down a bound end here if the bound is too
  small, and each bound is large enough in every state. Safe. -/
  | loopBoundExceeded
  deriving DecidableEq, Repr

/-- Where the model refuses. -/
inductive Refusal where
  /-- An instruction whose arm of `exec` has no meaning. Safe. No arm is left so. -/
  | notModelled (mnemonic : String)
  /-- Raised by a host move that binds a stream while the block holds it open: `93_implementation_defined.md`
  U9 gives the host no such move (`00_scope.md` R10, `20_memory.md` R88). Safe. -/
  | bindingOpenStream
  deriving DecidableEq, Repr

/-- The block after reset (`10_state.md` R46): all zero but `nn = 256` and `br_pos = 8`. -/
def Engine.reset : Engine :=
  { scan := { ft := [], total := 0#32 }
    tree := { nd := [], nn := 256#9, pq := [], pqN := 0#9, root := 0#9, rootValid := false, phase := .none }
    book := { cb := [], done := false }
    bw := { buf := 0#8, cnt := 0#3, isOpen := false }
    br := { buf := 0#8, pos := 8#4, eos := false, isOpen := false }
    dec := { cur := 0#9, rem := 0#32 }
    stat := { err := 0#3, fault := false, incomplete := false, result := 0#32 } }

/-- The machine right after reset: the block of R46; an environment with an empty source and sink that
answers every call normally (log entries 3 and 4, DESIGN CHOICE, the start state of `95_test_vectors.md`);
a host with no move to make and nothing received (log entries 1 and 2). -/
def State.reset : State :=
  { eng := Engine.reset
    env := { src := [], srcPos := 0, snk := [], snkDone := false, answers := [] }
    host := { moves := [], rsp := none, rdata := none } }

end Sys2Proof.Machine
end

