-- ==== Sys2Proof/Machine/Registers.lean ====
section
/-! DEFINITION. The one way each part of the state is written. An update takes the old part apart and puts the
new one together, so that a part it leaves alone is passed on as it is. -/

namespace Sys2Proof.Machine

/-- Write the block. -/
def modEngine (f : Engine → Engine) : State → State
  | ⟨eng, env, host⟩ => ⟨f eng, env, host⟩

/-- Write the environment. -/
def modEnviron (f : Env → Env) : State → State
  | ⟨eng, env, host⟩ => ⟨eng, f env, host⟩

/-- Write the host's side of the ports. -/
def modHost (f : HostPort → HostPort) : State → State
  | ⟨eng, env, host⟩ => ⟨eng, env, f host⟩

/-- Write the frequency table and `total`. -/
def modScan (f : Scanner → Scanner) : Engine → Engine
  | ⟨scan, tree, book, bw, br, dec, stat⟩ => ⟨f scan, tree, book, bw, br, dec, stat⟩

/-- Write the tree builder's elements. -/
def modTree (f : Builder → Builder) : Engine → Engine
  | ⟨scan, tree, book, bw, br, dec, stat⟩ => ⟨scan, f tree, book, bw, br, dec, stat⟩

/-- Write the code book. -/
def modBook (f : CodeBook → CodeBook) : Engine → Engine
  | ⟨scan, tree, book, bw, br, dec, stat⟩ => ⟨scan, tree, f book, bw, br, dec, stat⟩

/-- Write the bit writer. -/
def modBw (f : BitWriter → BitWriter) : Engine → Engine
  | ⟨scan, tree, book, bw, br, dec, stat⟩ => ⟨scan, tree, book, f bw, br, dec, stat⟩

/-- Write the bit reader. -/
def modBr (f : BitReader → BitReader) : Engine → Engine
  | ⟨scan, tree, book, bw, br, dec, stat⟩ => ⟨scan, tree, book, bw, f br, dec, stat⟩

/-- Write the decoder cursor. -/
def modDec (f : Decoder → Decoder) : Engine → Engine
  | ⟨scan, tree, book, bw, br, dec, stat⟩ => ⟨scan, tree, book, bw, br, f dec, stat⟩

/-- Write the fault flags and the result. -/
def modStat (f : Status → Status) : Engine → Engine
  | ⟨scan, tree, book, bw, br, dec, stat⟩ => ⟨scan, tree, book, bw, br, dec, f stat⟩

/-- `bw_buf <- v; bw_cnt <- c`. -/
def setWaiting (v : Byte) (c : BitVec 3) : Engine → Engine :=
  modBw fun ⟨_, _, isOpen⟩ => { buf := v, cnt := c, isOpen := isOpen }

/-- `snk_open <- b`. -/
def setSnkOpen (b : Bool) : Engine → Engine :=
  modBw fun ⟨buf, cnt, _⟩ => { buf := buf, cnt := cnt, isOpen := b }

/-- `src_open <- b`. -/
def setSrcOpen (b : Bool) : Engine → Engine :=
  modBr fun ⟨buf, pos, eos, _⟩ => { buf := buf, pos := pos, eos := eos, isOpen := b }

/-- `br_buf <- v; br_pos <- p`. -/
def setReader (v : Byte) (p : BitVec 4) : Engine → Engine :=
  modBr fun ⟨_, _, eos, isOpen⟩ => { buf := v, pos := p, eos := eos, isOpen := isOpen }

/-- `br_eos <- 1`. -/
def setEos : Engine → Engine :=
  modBr fun ⟨buf, pos, _, isOpen⟩ => { buf := buf, pos := pos, eos := true, isOpen := isOpen }

/-- `ft <- t`. -/
def setFt (t : Table U32) : Engine → Engine := modScan fun ⟨_, total⟩ => { ft := t, total := total }

/-- `total <- v`. -/
def setTotal (v : U32) : Engine → Engine := modScan fun ⟨ft, _⟩ => { ft := ft, total := v }

/-- `nd_* <- t`. -/
def setNd (t : Table NodeRec) : Engine → Engine :=
  modTree fun ⟨_, nn, pq, pqN, root, rootValid, phase⟩ => ⟨t, nn, pq, pqN, root, rootValid, phase⟩

/-- `nn <- n`. -/
def setNn (n : BitVec 9) : Engine → Engine :=
  modTree fun ⟨nd, _, pq, pqN, root, rootValid, phase⟩ => ⟨nd, n, pq, pqN, root, rootValid, phase⟩

/-- `pq <- t; pq_n <- n`. -/
def setQueue (t : Table Node) (n : BitVec 9) : Engine → Engine :=
  modTree fun ⟨nd, nn, _, _, root, rootValid, phase⟩ => ⟨nd, nn, t, n, root, rootValid, phase⟩

/-- `root <- r; root_valid <- b`. -/
def setRoot (r : Node) (b : Bool) : Engine → Engine :=
  modTree fun ⟨nd, nn, pq, pqN, _, _, phase⟩ => ⟨nd, nn, pq, pqN, r, b, phase⟩

/-- `ht_phase <- p`. -/
def setPhase (p : Phase) : Engine → Engine :=
  modTree fun ⟨nd, nn, pq, pqN, root, rootValid, _⟩ => ⟨nd, nn, pq, pqN, root, rootValid, p⟩

/-- `cb_done <- b`. -/
def setCbDone (b : Bool) : Engine → Engine := modBook fun ⟨cb, _⟩ => { cb := cb, done := b }

/-- `cb_* <- t; cb_done <- 1`. -/
def setBook (t : Table (Option (List Bool))) : Engine → Engine := modBook fun _ => { cb := t, done := true }

/-- `dec_cur <- n`. -/
def setDecCur (n : Node) : Engine → Engine := modDec fun ⟨_, rem⟩ => { cur := n, rem := rem }

/-- `dec_rem <- n`. -/
def setDecRem (n : U32) : Engine → Engine := modDec fun ⟨cur, _⟩ => { cur := cur, rem := n }

/-- `result <- v`. -/
def setResult (v : U32) : Engine → Engine :=
  modStat fun ⟨err, fault, incomplete, _⟩ => ⟨err, fault, incomplete, v⟩

end Sys2Proof.Machine
end

