-- ==== Sys2Proof/Machine/Flags.lean ====
section
/-! DEFINITION. The numeric codes of the block's fields and the flag updates that several commands share. -/

namespace Sys2Proof.Machine

/-- The code `err` holds for each fault kind (`60_exceptions.md` R260). -/
def FaultKind.code : FaultKind → BitVec 3
  | .ioUnavailable => 1#3
  | .corruptHeader => 2#3
  | .truncatedStream => 3#3
  | .streamClosed => 4#3
  | .countOverflow => 5#3
  | .badCommand => 6#3
  | .badSequence => 7#3

/-- The two bits of `ht_phase` (`10_state.md` R31). -/
def Phase.code : Phase → BitVec 2
  | .none => 0#2
  | .merging => 1#2
  | .done => 2#2

/-- The two bits of `rsp_code` (`20_memory.md` R86). -/
def Response.code : Response → BitVec 2
  | .ok => 0#2
  | .fault => 1#2
  | .refused => 2#2

/-- The fault flags a `raise` leaves (`60_exceptions.md` R262): `incomplete` only for `TruncatedStream`. -/
def setFaultFlags (k : FaultKind) : Engine → Engine :=
  modStat fun _ => { err := k.code, fault := true, incomplete := decide (k = .truncatedStream), result := 0#32 }

/-- `Invalidate()` (`41_freq.md` R141): the tree and the code book no longer match the table. -/
def invalidate (e : Engine) : Engine :=
  setCbDone false (setRoot e.tree.root false (setPhase .none e))

/-- `Finalize()` (`42_tree.md` R161): whether the build is over, from the number of nodes left in the queue
and the node at its top. -/
def finalizeWith (top : Node) (e : Engine) : Engine :=
  if e.tree.pqN = 0#9 then setPhase .done (setRoot e.tree.root false e)
  else if e.tree.pqN = 1#9 then setPhase .done (setRoot top true e)
  else setPhase .merging e

/-- A flag as a field of a window word. -/
def flagBit (b : Bool) (pos : Nat) : U32 := (BitVec.ofBool b).setWidth 32 <<< pos

/-- The `STATUS` word (`20_memory.md` R77). -/
def statusWord (e : Engine) : U32 :=
  e.stat.err.setWidth 32
    ||| flagBit e.stat.fault 3
    ||| flagBit e.stat.incomplete 4
    ||| flagBit e.br.isOpen 5
    ||| flagBit e.bw.isOpen 6
    ||| flagBit e.br.eos 7
    ||| (e.tree.phase.code.setWidth 32 <<< 8)
    ||| flagBit e.book.done 10
    ||| flagBit e.tree.rootValid 11

end Sys2Proof.Machine
end

