-- ==== Sys2Proof/Machine/Operands.lean ====
section
/-! DEFINITION. The operand forms of the commands and the numbers they stand for (`30_encoding.md` R91), and
the two readings of a node index (`10_state.md` R26). -/

namespace Sys2Proof.Machine

/-- Kind `bit`: the bit an operand 0 or 1 stands for, none for an operand above 1 (`30_encoding.md` R91). -/
def bitOperand (a : BitVec 8) : Option Bool :=
  if a.toNat ≤ 1 then some (a.getLsbD 0) else none

/-- Kind `sym`: the table index of the symbol an operand names (`30_encoding.md` R91, `20_memory.md` R87). -/
def symIndex (a : BitVec 8) : Nat := a.toNat

/-- A bit in the low position of a byte, as `WriteBit` puts it in (`40_bitio.md` R121). -/
def lowBit (b : Bool) : Byte := (BitVec.ofBool b).setWidth 8

/-- The leaf of a symbol is the node of the same number (`10_state.md` R26). -/
def leafOf (s : Nat) : Node := BitVec.ofNat 9 s

/-- Whether a node index is a leaf (`10_state.md` R26). -/
def isLeaf (n : Node) : Bool := decide (n.toNat < Config.firstInternal)

/-- The symbol of a leaf, its low eight bits (`45_decompress.md` R223). -/
def symbolOf (n : Node) : Byte := n.setWidth 8

end Sys2Proof.Machine
end

