-- ==== Sys2Proof/Machine/Ops.lean ====
section
/-! DEFINITION. The named operations over tables, streams and registers that every command is made of: the six
stream primitives, the release of both streams, taking a fault, leaving the fault state, and `Exec`. -/

namespace Sys2Proof.Machine

/-! ### Tables -/

/-- Entry `i` of a table, `d` where it is not listed. -/
def tableGet {α : Type} (d : α) : Table α → Nat → α
  | [], _ => d
  | (k, v) :: rest, i => if k == i then v else tableGet d rest i

/-- Put an entry in, before the first larger index. -/
def tableInsert {α : Type} (i : Nat) (v : α) : Table α → Table α
  | [] => [(i, v)]
  | (k, w) :: rest => if i < k then (i, v) :: (k, w) :: rest else (k, w) :: tableInsert i v rest

/-- Write entry `i`: what was listed for it goes, and the new entry is listed unless it is what an unlisted
index reads as. -/
def tableSet {α : Type} [DecidableEq α] (d : α) (t : Table α) (i : Nat) (v : α) : Table α :=
  let cleared := t.filter fun e => e.1 != i
  if v = d then cleared else tableInsert i v cleared

/-- What every field of an internal node reads as at reset (`10_state.md` R26). -/
def nodeZero : NodeRec := { freq := 0#32, left := 0#9, right := 0#9 }

/-- `ft[s]` (`10_state.md` R23). -/
def ftGet (e : Engine) (s : Nat) : U32 := tableGet 0#32 e.scan.ft s

/-- `ft[s] <- v`. -/
def ftSet (e : Engine) (s : Nat) (v : U32) : Engine :=
  setFt (tableSet 0#32 e.scan.ft s v) e

/-- `nd_freq[i]`, `nd_left[i]`, `nd_right[i]` (`10_state.md` R26). -/
def ndGet (e : Engine) (i : Nat) : NodeRec := tableGet nodeZero e.tree.nd i

/-- Write the three fields of node `i`. -/
def ndSet (e : Engine) (i : Nat) (r : NodeRec) : Engine :=
  setNd (tableSet nodeZero e.tree.nd i r) e

/-- `pq[k]` of a queue array (`10_state.md` R29). -/
def pqGet (pq : Table Node) (k : Nat) : Node := tableGet 0#9 pq k

/-- `pq[k] <- n` of a queue array. -/
def pqSet (pq : Table Node) (k : Nat) (n : Node) : Table Node := tableSet 0#9 pq k n

/-- The code book's entry of symbol `s` (`10_state.md` R32). -/
def cbGet (e : Engine) (s : Nat) : Option (List Bool) := tableGet none e.book.cb s

/-- `cb_has[s]` (`10_state.md` R32). -/
def cbHas (e : Engine) (s : Nat) : Bool := (cbGet e s).isSome

/-- The code bits of symbol `s`, first bit first; none where it has no code (`10_state.md` R32). -/
def cbCode (e : Engine) (s : Nat) : List Bool := (cbGet e s).getD []

/-- `cb_len[s]` (`10_state.md` R32). -/
def cbLen (e : Engine) (s : Nat) : BitVec 8 := BitVec.ofNat 8 (cbCode e s).length

/-! ### Procedures -/

/-- What ends a command without a response: the model's stop, or hardware reset (`70_reset_and_hazards.md`
R290). -/
inductive Cut where
  | fault (f : Fault)
  | hwReset
  deriving DecidableEq, Repr

/-- What ends a procedure before its end: a `raise` (`00_scope.md` R16) or a cut. -/
inductive Stop where
  | raise (k : FaultKind)
  | cut (c : Cut)
  deriving DecidableEq, Repr

/-- A call of the environment: it answers, or the command is cut. -/
abbrev Prim := EStateM Cut State

/-- A procedure of the pseudocode (`00_scope.md` R16): it returns a value, or stops and keeps the state it
had reached (`60_exceptions.md` R264). -/
abbrev Proc := EStateM Stop State

/-- `raise k`. -/
def raise {α : Type} (k : FaultKind) : Proc α := fun s => .error (.raise k) s

/-- `require c else raise k`. -/
def require (c : Bool) (k : FaultKind) : Proc Unit := if c then pure () else raise k

/-- End the run of the model. -/
def stuck {α : Type} (f : Fault) : Proc α := fun s => .error (.cut (.fault f)) s

/-- Read the registers. -/
def getEng : Proc Engine := fun s => .ok s.eng s

/-- Write registers. -/
def modEng (f : Engine → Engine) : Proc Unit := fun s => .ok () (modEngine f s)

/-- A procedure makes a call of the environment. -/
def call {α : Type} (p : Prim α) : Proc α := fun s =>
  match p s with
  | .ok a t => .ok a t
  | .error c t => .error (.cut c) t

/-! ### The environment's primitives (`20_memory.md` R61 to R66) -/

/-- The answers that remain after one call. -/
def setAnswers (rest : List Answer) : State → State :=
  modEnviron fun ⟨src, srcPos, snk, snkDone, _⟩ => ⟨src, srcPos, snk, snkDone, rest⟩

/-- The environment's answer to the next call: true for the normal answer, false for `IOERR` (R66). -/
def nextAnswer : Prim Bool := fun s =>
  match s.env.answers with
  | [] => .ok true s
  | a :: rest =>
    match a with
    | .normal => .ok true (setAnswers rest s)
    | .ioErr => .ok false (setAnswers rest s)
    | .silent => .error (.fault .environmentSilent) (setAnswers rest s)
    | .hwReset => .error .hwReset (setAnswers rest s)

/-- Change the environment. -/
def modEnv (f : Env → Env) : Prim Unit := fun s => .ok () (modEnviron f s)

/-- `SrcOpen()`: true for `OK`, false for `IOERR` (R61). -/
def srcOpenCall : Prim Bool := do
  let ok ← nextAnswer
  if ok then do
    modEnv fun ⟨src, _, snk, snkDone, answers⟩ => ⟨src, 0, snk, snkDone, answers⟩
    pure true
  else pure false

/-- The answers of `SrcRead()` (R62). -/
inductive ReadAnswer where
  | byte (b : Byte)
  | eos
  | ioErr
  deriving DecidableEq, Repr

/-- `src_pos <- src_pos + 1`. -/
def advanceSource : Env → Env
  | ⟨src, srcPos, snk, snkDone, answers⟩ => ⟨src, srcPos + 1, snk, snkDone, answers⟩

/-- `SrcRead()` (R62). -/
def srcReadCall : Prim ReadAnswer := do
  let ok ← nextAnswer
  if ok then fun s =>
    match s.env.src[s.env.srcPos]? with
    | some b => .ok (.byte b) (modEnviron advanceSource s)
    | none => .ok .eos s
  else pure .ioErr

/-- `SrcClose()`: it changes neither stream and its answer is not looked at (R63); that it may never be answered
is `70_reset_and_hazards.md` R300. No oracle answers it `IOERR` (decision D17), and an `ioErr` listed for it counts
as its answer (log entry 7, DESIGN CHOICE). -/
def srcCloseCall : Prim Unit := do
  let _ ← nextAnswer
  pure ()

/-- `SnkOpen()`: true for `OK`, false for `IOERR` (R64). -/
def snkOpenCall : Prim Bool := do
  let ok ← nextAnswer
  if ok then do
    modEnv fun ⟨src, srcPos, _, _, answers⟩ => ⟨src, srcPos, [], false, answers⟩
    pure true
  else pure false

/-- `SnkWrite(b)`: true for `OK`, false for `IOERR` (R64). -/
def snkWriteCall (b : Byte) : Prim Bool := do
  let ok ← nextAnswer
  if ok then do
    modEnv fun ⟨src, srcPos, snk, snkDone, answers⟩ => ⟨src, srcPos, snk ++ [b], snkDone, answers⟩
    pure true
  else pure false

/-- `SnkClose()`: the sink is released whichever way it is answered (R65). -/
def snkCloseCall : Prim Bool := do
  let ok ← nextAnswer
  modEnv fun ⟨src, srcPos, snk, _, answers⟩ => ⟨src, srcPos, snk, true, answers⟩
  pure ok

/-- The bytes the source still holds. -/
def bytesLeft (s : State) : Nat := s.env.src.length - s.env.srcPos

/-! ### Release, fault entry, reset -/

/-- Write registers between two calls of the environment. -/
def modEngPrim (f : Engine → Engine) : Prim Unit := fun s => .ok () (modEngine f s)

/-- `bw_buf <- 0; bw_cnt <- 0`. -/
def clearWriter : Engine → Engine := setWaiting 0#8 0#3

/-- The sink's part of `Release()` (`46_control.md` R247). -/
def releaseSink : Prim Unit := fun s =>
  if s.eng.bw.isOpen then
    (do
      modEngPrim clearWriter
      let _ ← snkCloseCall
      modEngPrim (setSnkOpen false)) s
  else .ok () s

/-- The source's part of `Release()` (`46_control.md` R247). -/
def releaseSource : Prim Unit := fun s =>
  if s.eng.br.isOpen then
    (do
      srcCloseCall
      modEngPrim (setSrcOpen false)) s
  else .ok () s

/-- `Release()` (`46_control.md` R247): the sink first, then the source; answers are ignored. -/
def release : Prim Unit := do
  releaseSink
  releaseSource

/-- `FaultEntry(code)` (`60_exceptions.md` R262): the one way a fault is taken. -/
def faultEntry (k : FaultKind) : Prim Unit := do
  modEngPrim (setFaultFlags k)
  release

/-- Every element of the block at its reset value (`10_state.md` R46). -/
def resetEngine : Prim Unit := modEngPrim fun _ => Engine.reset

/-- `P_RESET()` (`46_control.md` R242): the return from the fault state (`60_exceptions.md` R266). -/
def softReset : Prim Unit := do
  release
  resetEngine

/-- Hardware reset (`70_reset_and_hazards.md` R290, R291): the block at its reset values, the environment as
it stands, no response to a command that was running. -/
def hwReset (s : State) : State :=
  modHost (fun h => { h with rsp := none }) (modEngine (fun _ => Engine.reset) s)

/-! ### `Exec` (`30_encoding.md` R93) -/

/-- Give the host its response. -/
def respond (r : Response) (s : State) : State :=
  modHost (fun h => { h with rsp := some r }) s

/-- Run a command's procedure: `result` is written once, after the procedure returns (R94); a raise enters
the fault state (R262). -/
def runProc (p : Proc U32) : Prim Response := fun s =>
  match p s with
  | .ok v t => .ok .ok (modEngine (setResult v) t)
  | .error (.raise k) t => (do faultEntry k; pure Response.fault : Prim Response) t
  | .error (.cut c) t => .error c t

/-- The outcome of a command: its response, or the cut that kept it from one. -/
def finish : EStateM.Result Cut State Response → Host.Outcome State Fault Refusal
  | .ok r s => .next (respond r s)
  | .error (.fault f) _ => .fault f
  | .error .hwReset s => .next (hwReset s)

/-- `Exec(cmd)` for every word but RESET: refused in the fault state with no other change (R93, R263), else
run. -/
def execute (p : Prim Response) (s : State) : Host.Outcome State Fault Refusal :=
  if s.eng.stat.fault then .next (respond .refused s) else finish (p s)

/-- `Exec(cmd)` for an illegal word: `BadCommand`, or refused in the fault state (R93, R95). -/
def execIllegal (s : State) : Host.Outcome State Fault Refusal :=
  execute (runProc (raise .badCommand)) s

end Sys2Proof.Machine
end

