-- ==== Sys2Proof/Machine/BitIo.lean ====
section
/-! DEFINITION. The bit writer and the bit reader (`40_bitio.md`): `WriteBit`, `ReadBit`, BW_BIT, BW_CLOSE,
BR_BIT. -/

namespace Sys2Proof.Machine

/-- The buffer of the writer with a new bit entering at bit 0 (R121). -/
def shiftIn (e : Engine) (b : Bool) : Byte := (e.bw.buf <<< 1) ||| lowBit b

/-- The writer with one bit more waiting (R121). -/
def holdBit (v : Byte) (e : Engine) : Engine := setWaiting v (e.bw.cnt + 1#3) e

/-- The flush of a byte to the sink (R121, R123): on `IOERR` the writer is unchanged. -/
def flushByte (v : Byte) : Proc Unit := do
  let ok ← call (snkWriteCall v)
  require ok .ioUnavailable
  modEng clearWriter

/-- `WriteBit(b)` (R121). -/
def writeBit (b : Bool) : Proc Unit := fun s =>
  if s.eng.bw.isOpen then
    if s.eng.bw.cnt = 7#3 then flushByte (shiftIn s.eng b) s
    else .ok () (modEngine (holdBit (shiftIn s.eng b)) s)
  else raise .streamClosed s

/-- Write bits in order. -/
def writeBits : List Bool → Proc Unit
  | [] => pure ()
  | b :: rest => do
    writeBit b
    writeBits rest

/-- `P_BW_BIT(b)` (R122); an operand above 1 is an illegal word (`30_encoding.md` R95 (c)). -/
def pBwBit (a : BitVec 8) : Proc U32 :=
  match bitOperand a with
  | some b => do
    writeBit b
    pure 0#32
  | none => raise .badCommand

/-- The flush of BW_CLOSE (R123): the waiting bits, padded with zeros on the right, and how many zeros. -/
def flushPadded : Proc U32 := do
  let e ← getEng
  if e.bw.cnt = 0#3 then pure 0#32
  else do
    let pad := 8 - e.bw.cnt.toNat
    flushByte (e.bw.buf <<< pad)
    pure (BitVec.ofNat 32 pad)

/-- `P_BW_CLOSE()` (R123). -/
def pBwClose : Proc U32 := do
  let e ← getEng
  require e.bw.isOpen .streamClosed
  let pad ← flushPadded
  let ok ← call snkCloseCall
  modEng (setSnkOpen false)
  require ok .ioUnavailable
  pure pad

/-- The end of `ReadBit` (R127): the next bit of the buffered byte, most significant first. -/
def deliverBit : Proc (Option Bool) := do
  let e ← getEng
  modEng (setReader e.br.buf (e.br.pos + 1#4))
  pure (some (e.br.buf.getLsbD (7 - e.br.pos.toNat)))

/-- `ReadBit()` (R127): none is `EOS`. -/
def readBit : Proc (Option Bool) := do
  let e ← getEng
  if e.br.eos then pure none
  else if e.br.pos = 8#4 then do
    require e.br.isOpen .ioUnavailable
    let r ← call srcReadCall
    match r with
    | .ioErr => raise .ioUnavailable
    | .eos => do
      modEng setEos
      pure none
    | .byte b => do
      modEng (setReader b 0#4)
      deliverBit
  else deliverBit

/-- The result of BR_BIT: the bit, or 2 at end of stream (R128). -/
def bitResult : Option Bool → U32
  | none => 2#32
  | some false => 0#32
  | some true => 1#32

/-- `P_BR_BIT()` (R128). -/
def pBrBit : Proc U32 := do
  let r ← readBit
  pure (bitResult r)

/-- BW_BIT b (R122). -/
def execBwBit (bit : BitVec 8) (s : State) : Host.Outcome State Fault Refusal :=
  execute (runProc (pBwBit bit)) s

/-- BW_CLOSE (R123). -/
def execBwClose (s : State) : Host.Outcome State Fault Refusal := execute (runProc pBwClose) s

/-- BR_BIT (R128). -/
def execBrBit (s : State) : Host.Outcome State Fault Refusal := execute (runProc pBrBit) s

end Sys2Proof.Machine
end

