-- ==== Sys2Proof/Machine/Codebook.lean ====
section
/-! DEFINITION. The code-book generator (`43_codebook.md`): CB_BUILD. -/

namespace Sys2Proof.Machine

/-- The book under construction and the number of codes recorded. -/
structure Book where
  cb : Table (Option (List Bool))
  count : Nat
  deriving DecidableEq, Repr

/-- Record the path as the code of leaf `n` (R181). -/
def recordCode (n : Node) (path : List Bool) (b : Book) : Book :=
  { cb := tableSet none b.cb n.toNat (some path), count := b.count + 1 }

/-- The traversal of R181 below node `n`, reached by the branches `path`: the left subtree first, `false`
(bit 0) on the left and `true` (bit 1) on the right. The first argument is how many branches the path may
still take, 255 at the root (`MAXLEN`); a path that needs more ends the traversal with none. -/
def codeWalk (e : Engine) : Nat → Node → List Bool → Book → Option Book
  | 0, n, path, b => if isLeaf n then some (recordCode n path b) else none
  | d + 1, n, path, b =>
    if isLeaf n then some (recordCode n path b)
    else
      match codeWalk e d (ndGet e n.toNat).left (path ++ [false]) b with
      | none => none
      | some b' => codeWalk e d (ndGet e n.toNat).right (path ++ [true]) b'

/-- The whole book of the current tree: empty where there is no root (R181). -/
def buildBook (e : Engine) : Option Book :=
  if e.tree.rootValid then codeWalk e Config.maxLen e.tree.root [] { cb := [], count := 0 }
  else some { cb := [], count := 0 }

/-- `P_CB_BUILD()` (R181). -/
def pCbBuild : Proc U32 := do
  let e ← getEng
  require (e.tree.phase == .done) .badSequence
  match buildBook e with
  | none => stuck .arenaNotATree
  | some b => do
    modEng (setBook b.cb)
    pure (BitVec.ofNat 32 b.count)

/-- CB_BUILD (R181). -/
def execCbBuild (s : State) : Host.Outcome State Fault Refusal := execute (runProc pCbBuild) s

end Sys2Proof.Machine
end

