-- ==== Sys2Proof/Machine/Control.lean ====
section
/-! DEFINITION. The control and stream commands (`46_control.md`): NOP, RESET, SRC_OPEN, SRC_CLOSE, SNK_OPEN,
SNK_CLOSE. -/

namespace Sys2Proof.Machine

/-- `P_SRC_OPEN()` (R243). -/
def pSrcOpen : Proc U32 := do
  let e ← getEng
  require (!e.br.isOpen) .badSequence
  let ok ← call srcOpenCall
  require ok .ioUnavailable
  modEng (modBr fun _ => { buf := 0#8, pos := 8#4, eos := false, isOpen := true })
  pure 0#32

/-- `P_SRC_CLOSE()` (R244): the source's part of the release. -/
def pSrcClose : Proc U32 := do
  call releaseSource
  pure 0#32

/-- `P_SNK_OPEN()` (R245). -/
def pSnkOpen : Proc U32 := do
  let e ← getEng
  require (!e.bw.isOpen) .badSequence
  let ok ← call snkOpenCall
  require ok .ioUnavailable
  modEng (modBw fun _ => { buf := 0#8, cnt := 0#3, isOpen := true })
  pure 0#32

/-- `P_SNK_CLOSE()` (R246): waiting bits are dropped. -/
def pSnkClose : Proc U32 := do
  let e ← getEng
  if e.bw.isOpen then do
    modEng clearWriter
    let ok ← call snkCloseCall
    modEng (setSnkOpen false)
    require ok .ioUnavailable
    pure 0#32
  else pure 0#32

/-- NOP (R241): response OK, `result` kept. -/
def execNop (s : State) : Host.Outcome State Fault Refusal := execute (pure .ok) s

/-- RESET (R242): accepted in the fault state too, `result` not written after it. -/
def execReset (s : State) : Host.Outcome State Fault Refusal :=
  finish ((do softReset; pure .ok : Prim Response) s)

/-- SRC_OPEN (R243). -/
def execSrcOpen (s : State) : Host.Outcome State Fault Refusal := execute (runProc pSrcOpen) s

/-- SRC_CLOSE (R244). -/
def execSrcClose (s : State) : Host.Outcome State Fault Refusal := execute (runProc pSrcClose) s

/-- SNK_OPEN (R245). -/
def execSnkOpen (s : State) : Host.Outcome State Fault Refusal := execute (runProc pSnkOpen) s

/-- SNK_CLOSE (R246). -/
def execSnkClose (s : State) : Host.Outcome State Fault Refusal := execute (runProc pSnkClose) s

end Sys2Proof.Machine
end

