-- ==== Sys2Proof/Machine/Freq.lean ====
section
/-! DEFINITION. The frequency-table scanner (`41_freq.md`): `SrcByte`, FT_CLR, FT_INC, FT_SCAN. -/

namespace Sys2Proof.Machine

/-- `SrcByte()` (R146): none is `EOS`. -/
def srcByte : Proc (Option Byte) := do
  let e ← getEng
  require e.br.isOpen .ioUnavailable
  let r ← call srcReadCall
  match r with
  | .ioErr => raise .ioUnavailable
  | .eos => pure none
  | .byte b => pure (some b)

/-- The registers after FT_CLR (R142): every count 0, `total` 0, the tree invalidated. -/
def clearTable (e : Engine) : Engine := invalidate (setTotal 0#32 (setFt [] e))

/-- `P_FT_CLR()` (R142). -/
def pFtClr : Proc U32 := do
  modEng clearTable
  pure 0#32

/-- The registers after one count of symbol `a` (R143). -/
def countSymbol (a : Byte) (e : Engine) : Engine :=
  invalidate (setTotal (e.scan.total + 1#32) (ftSet e (symIndex a) (ftGet e (symIndex a) + 1#32)))

/-- `P_FT_INC(s)` (R143). -/
def pFtInc (a : Byte) : Proc U32 := do
  let e ← getEng
  require (e.scan.total != Config.maxTotal) .countOverflow
  modEng (countSymbol a)
  pure (ftGet (countSymbol a e) (symIndex a))

/-- The loop of FT_SCAN (R147), over a source of fewer than the given number of bytes left. -/
def scanLoop : Nat → Proc Unit
  | 0 => stuck .loopBoundExceeded
  | n + 1 => do
    let r ← srcByte
    match r with
    | none => pure ()
    | some b => do
      let _ ← pFtInc b
      scanLoop n

/-- `P_FT_SCAN()` (R147). -/
def pFtScan : Proc U32 := do
  (fun s => scanLoop (bytesLeft s + 1) s : Proc Unit)
  let e ← getEng
  pure e.scan.total

/-- FT_CLR (R142). -/
def execFtClr (s : State) : Host.Outcome State Fault Refusal := execute (runProc pFtClr) s

/-- FT_INC s (R143). -/
def execFtInc (sym : BitVec 8) (s : State) : Host.Outcome State Fault Refusal :=
  execute (runProc (pFtInc sym)) s

/-- FT_SCAN (R147). -/
def execFtScan (s : State) : Host.Outcome State Fault Refusal := execute (runProc pFtScan) s

end Sys2Proof.Machine
end

