-- ==== Sys2Proof/Machine/Tree.lean ====
section
/-! DEFINITION. The Huffman-tree builder (`42_tree.md`): keys, the array heap, HT_INIT, HT_STEP, HT_BUILD. -/

namespace Sys2Proof.Machine

/-- `Freq(i)` (R156): a leaf's weight is its count, read live. -/
def freq (e : Engine) (i : Node) : U32 :=
  if isLeaf i then ftGet e i.toNat else (ndGet e i.toNat).freq

/-- `Less(a, b)` (R157): the key `(Freq(i), i)` compared lexicographically, unsigned. -/
def less (e : Engine) (a b : Node) : Bool :=
  decide ((freq e a).toNat < (freq e b).toNat)
    || ((freq e a).toNat == (freq e b).toNat && decide (a.toNat < b.toNat))

/-- Exchange two entries of the queue array. -/
def pqSwap (pq : Table Node) (k p : Nat) : Table Node := pqSet (pqSet pq k (pqGet pq p)) p (pqGet pq k)

/-- The loop of `PqInsert` (R159) from position `k`; the first argument bounds its turns, and `k` is bound
enough, since every turn lowers `k`. -/
def siftUp (e : Engine) : Nat → Nat → Table Node → Table Node
  | 0, _, pq => pq
  | n + 1, k, pq =>
    if k = 0 then pq
    else if less e (pqGet pq k) (pqGet pq ((k - 1) / 2)) then
      siftUp e n ((k - 1) / 2) (pqSwap pq k ((k - 1) / 2))
    else pq

/-- `PqInsert(x)` (R159). -/
def pqInsert (x : Node) (e : Engine) : Engine :=
  let k := e.tree.pqN.toNat
  setQueue (siftUp e k k (pqSet e.tree.pq k x)) (e.tree.pqN + 1#9) e

/-- The child of the loop of `PqExtract` (R160): the least of position `k` and its two children below `n`. -/
def leastChild (e : Engine) (n k : Nat) (pq : Table Node) : Nat :=
  let l := 2 * k + 1
  let r := 2 * k + 2
  let c := if decide (l < n) && less e (pqGet pq l) (pqGet pq k) then l else k
  if decide (r < n) && less e (pqGet pq r) (pqGet pq c) then r else c

/-- The loop of `PqExtract` (R160) from position `k` with `n` live entries; the first argument bounds its
turns, and `n` is bound enough, since every turn raises `k` and keeps it below `n`. -/
def siftDown (e : Engine) (n : Nat) : Nat → Nat → Table Node → Table Node
  | 0, _, pq => pq
  | m + 1, k, pq =>
    if leastChild e n k pq = k then pq
    else siftDown e n m (leastChild e n k pq) (pqSwap pq k (leastChild e n k pq))

/-- The registers after `PqExtract()` (R160). -/
def pqRemove (e : Engine) : Engine :=
  let n := e.tree.pqN - 1#9
  if n = 0#9 then setQueue e.tree.pq n e
  else
    let pq := pqSet e.tree.pq 0 (pqGet e.tree.pq n.toNat)
    setQueue (siftDown e n.toNat n.toNat 0 pq) n e

/-- What `PqExtract()` returns (R160). -/
def pqTop (e : Engine) : Node := pqGet e.tree.pq 0

/-- `Finalize()` (R161). -/
def finalize (e : Engine) : Engine := finalizeWith (pqTop e) e

/-- The leaves HT_INIT places: the symbols with a count that is not zero, ascending (R162). -/
def leaves (e : Engine) : List Node :=
  ((List.range Config.nSym).filter fun s => ftGet e s != 0#32).map leafOf

/-- Insert nodes in order. -/
def insertAll : List Node → Engine → Engine
  | [], e => e
  | x :: rest, e => insertAll rest (pqInsert x e)

/-- The registers after HT_INIT (R162). -/
def loadQueue (e : Engine) : Engine :=
  finalize (insertAll (leaves e) (setQueue e.tree.pq 0#9 (setNn 256#9 (setRoot 0#9 false (setCbDone false e)))))

/-- `P_HT_INIT()` (R162). -/
def pHtInit : Proc U32 := do
  modEng loadQueue
  let e ← getEng
  pure (e.tree.pqN.setWidth 32)

/-- The registers after one merge (R163): the first extracted node is the left child. -/
def mergeTwo (e : Engine) : Engine :=
  let a := pqTop e
  let e1 := pqRemove e
  let b := pqTop e1
  let e2 := pqRemove e1
  let e3 := ndSet e2 e.tree.nn.toNat { freq := freq e2 a + freq e2 b, left := a, right := b }
  finalize (pqInsert e.tree.nn (setNn (e.tree.nn + 1#9) e3))

/-- `P_HT_STEP()` (R163). -/
def pHtStep : Proc U32 := do
  let e ← getEng
  require (e.tree.phase == .merging) .badSequence
  modEng mergeTwo
  pure (e.tree.nn.setWidth 32)

/-- The loop of HT_BUILD (R165); every turn lowers `pq_n`, so the number of live entries bounds it. -/
def mergeLoop : Nat → Proc Unit
  | 0 => stuck .loopBoundExceeded
  | n + 1 => do
    let e ← getEng
    if e.tree.phase = .merging then do
      let _ ← pHtStep
      mergeLoop n
    else pure ()

/-- The result of HT_BUILD: bit 9 `root_valid`, bits 8 to 0 `root` (R165). -/
def rootWord (e : Engine) : U32 := flagBit e.tree.rootValid 9 ||| e.tree.root.setWidth 32

/-- `P_HT_BUILD()` (R165). -/
def pHtBuild : Proc U32 := do
  let _ ← pHtInit
  (fun s => mergeLoop (s.eng.tree.pqN.toNat + 1) s : Proc Unit)
  let e ← getEng
  pure (rootWord e)

/-- HT_INIT (R162). -/
def execHtInit (s : State) : Host.Outcome State Fault Refusal := execute (runProc pHtInit) s

/-- HT_STEP (R163). -/
def execHtStep (s : State) : Host.Outcome State Fault Refusal := execute (runProc pHtStep) s

/-- HT_BUILD (R165). -/
def execHtBuild (s : State) : Host.Outcome State Fault Refusal := execute (runProc pHtBuild) s

end Sys2Proof.Machine
end

