-- ==== Sys2Proof/Machine/Compress.lean ====
section
/-! DEFINITION. The compression path (`44_compress.md`): HDR_WR, ENC_SYM, ENC_RUN, COMPRESS. -/

namespace Sys2Proof.Machine

/-- The 32 bits of a word, bit 31 first (R196). -/
def wordBits (w : U32) : List Bool := (List.range 32).map fun i => w.getLsbD (31 - i)

/-- `Write32(w)` (R196). -/
def write32 (w : U32) : Proc Unit := writeBits (wordBits w)

/-- Write words in order. -/
def writeWords : List U32 → Proc Unit
  | [] => pure ()
  | w :: rest => do
    write32 w
    writeWords rest

/-- The header's words: the 256 counts in ascending symbol order, then the total (`30_encoding.md` R105). -/
def headerWords (e : Engine) : List U32 := (List.range Config.nSym).map (ftGet e) ++ [e.scan.total]

/-- `P_HDR_WR()` (R197). -/
def pHdrWr : Proc U32 := do
  let e ← getEng
  writeWords (headerWords e)
  pure 0#32

/-- `P_ENC_SYM(s)` (R201). -/
def pEncSym (a : Byte) : Proc U32 := do
  let e ← getEng
  require (e.book.done && cbHas e (symIndex a)) .badSequence
  writeBits (cbCode e (symIndex a))
  pure ((cbLen e (symIndex a)).setWidth 32)

/-- The loop of ENC_RUN (R203), over a source of fewer than the given number of bytes left. -/
def encodeLoop : Nat → Proc Unit
  | 0 => stuck .loopBoundExceeded
  | n + 1 => do
    let r ← srcByte
    match r with
    | none => pure ()
    | some b => do
      let _ ← pEncSym b
      encodeLoop n

/-- `P_ENC_RUN()` (R203). -/
def pEncRun : Proc U32 := do
  let e ← getEng
  require e.book.done .badSequence
  (fun s => encodeLoop (bytesLeft s + 1) s : Proc Unit)
  pure 0#32

/-- `P_COMPRESS()` (R207). -/
def pCompress : Proc U32 := do
  let e ← getEng
  require (!e.br.isOpen && !e.bw.isOpen) .badSequence
  let _ ← pSrcOpen
  let _ ← pFtClr
  let _ ← pFtScan
  let _ ← pSrcClose
  let _ ← pHtBuild
  let _ ← pCbBuild
  let _ ← pSnkOpen
  let _ ← pHdrWr
  let _ ← pSrcOpen
  let _ ← pEncRun
  let _ ← pSrcClose
  let _ ← pBwClose
  let e ← getEng
  pure e.scan.total

/-- HDR_WR (R197). -/
def execHdrWr (s : State) : Host.Outcome State Fault Refusal := execute (runProc pHdrWr) s

/-- ENC_SYM s (R201). -/
def execEncSym (sym : BitVec 8) (s : State) : Host.Outcome State Fault Refusal :=
  execute (runProc (pEncSym sym)) s

/-- ENC_RUN (R203). -/
def execEncRun (s : State) : Host.Outcome State Fault Refusal := execute (runProc pEncRun) s

/-- COMPRESS (R207). -/
def execCompress (s : State) : Host.Outcome State Fault Refusal := execute (runProc pCompress) s

end Sys2Proof.Machine
end

