-- ==== Sys2Proof/Machine/Decompress.lean ====
section
/-! DEFINITION. The decompression path (`45_decompress.md`): HDR_RD, DEC_SYM, DEC_RUN, DECOMPRESS. -/

namespace Sys2Proof.Machine

/-- The loop of `Read32` (R216): shift in the given number of bits; none is `EOS`. -/
def readBitsInto : Nat → U32 → Proc (Option U32)
  | 0, w => pure (some w)
  | n + 1, w => do
    let r ← readBit
    match r with
    | none => pure none
    | some b => readBitsInto n ((w <<< 1) ||| (BitVec.ofBool b).setWidth 32)

/-- `Read32()` (R216): none is `EOS`. -/
def read32 : Proc (Option U32) := readBitsInto 32 0#32

/-- The first loop of HDR_RD (R217): load the counts of the given symbols in order. -/
def readCounts : List Nat → Proc Unit
  | [] => pure ()
  | s :: rest => do
    let r ← read32
    match r with
    | none => raise .corruptHeader
    | some w => do
      modEng fun e => ftSet e s w
      readCounts rest

/-- The exact sum of the 256 counts (R217: formed without wrap-around). -/
def ftSum (e : Engine) : Nat := ((List.range Config.nSym).map fun s => (ftGet e s).toNat).sum

/-- `P_HDR_RD()` (R217). -/
def pHdrRd : Proc U32 := do
  modEng invalidate
  readCounts (List.range Config.nSym)
  let r ← read32
  match r with
  | none => raise .corruptHeader
  | some t => do
    modEng (setTotal t)
    let e ← getEng
    require (ftSum e == t.toNat) .corruptHeader
    modEng (setDecRem t)
    pure t

/-- `SinkByte(b)` (R222). -/
def sinkByte (b : Byte) : Proc Unit := do
  let e ← getEng
  require e.bw.isOpen .streamClosed
  let ok ← call (snkWriteCall b)
  require ok .ioUnavailable

/-- The child a bit leads to (R223): 0 the left, 1 the right. -/
def childOf (e : Engine) (n : Node) (b : Bool) : Node :=
  if b then (ndGet e n.toNat).right else (ndGet e n.toNat).left

/-- More than the number of bits the reader can still deliver. -/
def bitBound (s : State) : Nat := 8 * (bytesLeft s + 2)

/-- The loop of DEC_SYM (R223): walk from `dec_cur` to a leaf; every turn takes a bit of the reader. -/
def walkToLeaf : Nat → Proc Unit
  | 0 => stuck .loopBoundExceeded
  | n + 1 => do
    let e ← getEng
    if isLeaf e.dec.cur then pure ()
    else do
      let r ← readBit
      match r with
      | none => raise .truncatedStream
      | some b => do
        modEng fun e => setDecCur (childOf e e.dec.cur b) e
        walkToLeaf n

/-- `P_DEC_SYM()` (R223). -/
def pDecSym : Proc U32 := do
  let e ← getEng
  require (e.tree.phase == .done && e.tree.rootValid && e.dec.rem != 0#32) .badSequence
  modEng (setDecCur e.tree.root)
  (fun s => walkToLeaf (bitBound s + 1) s : Proc Unit)
  let e ← getEng
  sinkByte (symbolOf e.dec.cur)
  modEng fun e => setDecCur e.tree.root (setDecRem (e.dec.rem - 1#32) e)
  pure ((symbolOf e.dec.cur).setWidth 32)

/-- The loop of DEC_RUN (R225): every turn lowers `dec_rem` by one, so `dec_rem` turns end it. -/
def decodeLoop : Nat → Proc Unit
  | 0 => pure ()
  | n + 1 => do
    let _ ← pDecSym
    decodeLoop n

/-- `P_DEC_RUN()` (R225). -/
def pDecRun : Proc U32 := do
  let e ← getEng
  require (e.tree.phase == .done) .badSequence
  decodeLoop e.dec.rem.toNat
  pure 0#32

/-- `P_DECOMPRESS()` (R227). -/
def pDecompress : Proc U32 := do
  let e ← getEng
  require (!e.br.isOpen && !e.bw.isOpen) .badSequence
  let _ ← pSrcOpen
  let _ ← pHdrRd
  let _ ← pHtBuild
  let _ ← pSnkOpen
  let _ ← pDecRun
  let _ ← pSnkClose
  let _ ← pSrcClose
  let e ← getEng
  pure e.scan.total

/-- HDR_RD (R217). -/
def execHdrRd (s : State) : Host.Outcome State Fault Refusal := execute (runProc pHdrRd) s

/-- DEC_SYM (R223). -/
def execDecSym (s : State) : Host.Outcome State Fault Refusal := execute (runProc pDecSym) s

/-- DEC_RUN (R225). -/
def execDecRun (s : State) : Host.Outcome State Fault Refusal := execute (runProc pDecRun) s

/-- DECOMPRESS (R227). -/
def execDecompress (s : State) : Host.Outcome State Fault Refusal := execute (runProc pDecompress) s

end Sys2Proof.Machine
end

