-- ==== Sys2Proof/Syntax.lean ====
section
/-! DEFINITION. The commands of the block, one constructor per row of the opcode table
(`30_encoding.md` R92). An operand is the unsigned 8-bit number of command bits 7 to 0 (R91). -/

namespace Sys2Proof

/-- The 24 commands (`30_encoding.md` R92), in the order of the opcode map. -/
inductive Instr where
  | nop
  | reset
  | srcOpen
  | srcClose
  | snkOpen
  | snkClose
  | ftClr
  | ftInc (sym : BitVec 8)
  | ftScan
  | htInit
  | htStep
  | htBuild
  | cbBuild
  | bwBit (bit : BitVec 8)
  | bwClose
  | brBit
  | hdrWr
  | hdrRd
  | encSym (sym : BitVec 8)
  | encRun
  | decSym
  | decRun
  | compress
  | decompress
  deriving DecidableEq, Repr

/-- The three operand kinds (`30_encoding.md` R91). -/
inductive OperandKind where
  /-- the operand must be 0 -/
  | none
  /-- the operand must be 0 or 1 -/
  | bit
  /-- every operand is legal -/
  | sym
  deriving DecidableEq, Repr

/-- The operand kind of each command (`30_encoding.md` R92, column Operand). -/
def Instr.kind : Instr → OperandKind
  | .ftInc _ => .sym
  | .encSym _ => .sym
  | .bwBit _ => .bit
  | .nop => .none
  | .reset => .none
  | .srcOpen => .none
  | .srcClose => .none
  | .snkOpen => .none
  | .snkClose => .none
  | .ftClr => .none
  | .ftScan => .none
  | .htInit => .none
  | .htStep => .none
  | .htBuild => .none
  | .cbBuild => .none
  | .bwClose => .none
  | .brBit => .none
  | .hdrWr => .none
  | .hdrRd => .none
  | .encRun => .none
  | .decSym => .none
  | .decRun => .none
  | .compress => .none
  | .decompress => .none

end Sys2Proof
end

