-- ==== Sys2Proof/Machine/Dispatch.lean ====
section
/-! DEFINITION. One arm per command: each the direct call of its meaning. -/

namespace Sys2Proof.Machine

def exec (i : Instr) (s : State) : Host.Outcome State Fault Refusal :=
  match i with
  | .nop => Sys2Proof.Machine.execNop s
  | .reset => Sys2Proof.Machine.execReset s
  | .srcOpen => Sys2Proof.Machine.execSrcOpen s
  | .srcClose => Sys2Proof.Machine.execSrcClose s
  | .snkOpen => Sys2Proof.Machine.execSnkOpen s
  | .snkClose => Sys2Proof.Machine.execSnkClose s
  | .ftClr => Sys2Proof.Machine.execFtClr s
  | .ftInc sym => Sys2Proof.Machine.execFtInc sym s
  | .ftScan => Sys2Proof.Machine.execFtScan s
  | .htInit => Sys2Proof.Machine.execHtInit s
  | .htStep => Sys2Proof.Machine.execHtStep s
  | .htBuild => Sys2Proof.Machine.execHtBuild s
  | .cbBuild => Sys2Proof.Machine.execCbBuild s
  | .bwBit bit => Sys2Proof.Machine.execBwBit bit s
  | .bwClose => Sys2Proof.Machine.execBwClose s
  | .brBit => Sys2Proof.Machine.execBrBit s
  | .hdrWr => Sys2Proof.Machine.execHdrWr s
  | .hdrRd => Sys2Proof.Machine.execHdrRd s
  | .encSym sym => Sys2Proof.Machine.execEncSym sym s
  | .encRun => Sys2Proof.Machine.execEncRun s
  | .decSym => Sys2Proof.Machine.execDecSym s
  | .decRun => Sys2Proof.Machine.execDecRun s
  | .compress => Sys2Proof.Machine.execCompress s
  | .decompress => Sys2Proof.Machine.execDecompress s

end Sys2Proof.Machine
end

