-- ==== Sys2Proof/WellFormed.lean ====
section
/-! DEFINITION. Which terms of `Instr` stand for a legal command word (`30_encoding.md` R91, R95). -/

namespace Sys2Proof

/-- The legal operands of each kind (`30_encoding.md` R91). -/
def OperandKind.legal : OperandKind → BitVec 8 → Bool
  | .none, a => a == 0#8
  | .bit, a => decide (a.toNat ≤ 1)
  | .sym, _ => true

/-- The operand field of a command: its own operand, or 0 for a command of kind `none` (R91). -/
def Instr.operand : Instr → BitVec 8
  | .ftInc a => a
  | .encSym a => a
  | .bwBit a => a
  | .nop => 0#8
  | .reset => 0#8
  | .srcOpen => 0#8
  | .srcClose => 0#8
  | .snkOpen => 0#8
  | .snkClose => 0#8
  | .ftClr => 0#8
  | .ftScan => 0#8
  | .htInit => 0#8
  | .htStep => 0#8
  | .htBuild => 0#8
  | .cbBuild => 0#8
  | .bwClose => 0#8
  | .brBit => 0#8
  | .hdrWr => 0#8
  | .hdrRd => 0#8
  | .encRun => 0#8
  | .decSym => 0#8
  | .decRun => 0#8
  | .compress => 0#8
  | .decompress => 0#8

/-- A term is well formed when its operand is legal for its kind: only `BW_BIT` with an operand above 1
is not (`30_encoding.md` R95 (c)). -/
def Instr.wellFormed (i : Instr) : Bool := i.kind.legal i.operand

end Sys2Proof
end

