-- ==== Sys2Proof/Decode.lean ====
section
/-! DEFINITION. Decoding a command word, total on all 65536 words and refusing by name
(`30_encoding.md` R90 to R96), and the encoder written from the same table. -/

namespace Sys2Proof

/-- Why a word is illegal (`30_encoding.md` R95). All three raise `BadCommand`. -/
inductive Illegal where
  /-- R95 (a): the opcode is not one of the 24. -/
  | reservedOpcode
  /-- R95 (b): a command of kind `none` with an operand that is not 0. -/
  | operandNotZero
  /-- R95 (c): `BW_BIT` with an operand above 1. -/
  | bitOperandAboveOne
  deriving DecidableEq, Repr

/-- The opcode map (`30_encoding.md` R92): each opcode and the command it selects, with the operand given. -/
def opcodeMap (a : BitVec 8) : List (Nat × Instr) :=
  [(0x00, .nop), (0x01, .reset), (0x02, .srcOpen), (0x03, .srcClose), (0x04, .snkOpen), (0x05, .snkClose),
   (0x10, .ftClr), (0x11, .ftInc a), (0x12, .ftScan), (0x20, .htInit), (0x21, .htStep), (0x22, .htBuild)]
  ++
  [(0x30, .cbBuild), (0x40, .bwBit a), (0x41, .bwClose), (0x50, .brBit), (0x60, .hdrWr), (0x61, .hdrRd),
   (0x70, .encSym a), (0x71, .encRun), (0x80, .decSym), (0x81, .decRun), (0xF0, .compress), (0xF1, .decompress)]

/-- The command an opcode selects, if it is one of the 24. -/
def selectCommand (op a : BitVec 8) : Option Instr := (opcodeMap a).lookup op.toNat

/-- What makes an operand illegal, by the kind of its command (`30_encoding.md` R95 (b), (c)). -/
def operandFault : OperandKind → Illegal
  | .bit => .bitOperandAboveOne
  | .none => .operandNotZero
  | .sym => .operandNotZero

/-- Decode one command word (`30_encoding.md` R92, R95). -/
def decode (w : Command) : Except Illegal Instr :=
  match selectCommand w.opcode w.operand with
  | none => .error .reservedOpcode
  | some i => if i.kind.legal w.operand then .ok i else .error (operandFault i.kind)

/-- The opcode of each command (`30_encoding.md` R92). -/
def Instr.opcode : Instr → BitVec 8
  | .nop => 0x00#8
  | .reset => 0x01#8
  | .srcOpen => 0x02#8
  | .srcClose => 0x03#8
  | .snkOpen => 0x04#8
  | .snkClose => 0x05#8
  | .ftClr => 0x10#8
  | .ftInc _ => 0x11#8
  | .ftScan => 0x12#8
  | .htInit => 0x20#8
  | .htStep => 0x21#8
  | .htBuild => 0x22#8
  | .cbBuild => 0x30#8
  | .bwBit _ => 0x40#8
  | .bwClose => 0x41#8
  | .brBit => 0x50#8
  | .hdrWr => 0x60#8
  | .hdrRd => 0x61#8
  | .encSym _ => 0x70#8
  | .encRun => 0x71#8
  | .decSym => 0x80#8
  | .decRun => 0x81#8
  | .compress => 0xF0#8
  | .decompress => 0xF1#8

/-- The command word of an instruction: opcode in bits 15 to 8, operand in bits 7 to 0 (R90). -/
def encode (i : Instr) : Command := i.opcode ++ i.operand

/-- The instruction the decoder reads from an instruction of `nbits` bits `w`, as the opcode table numbers
them. Every command is one 16-bit word (`30_encoding.md` R90), so any other width, or a value that does not
fit it, is no command. -/
def decodeTableWord (nbits w : Nat) : Option Instr :=
  if nbits = 16 ∧ w < 65536 then (decode (BitVec.ofNat 16 w)).toOption else none

end Sys2Proof
end

