-- ==== Sys2Proof/Machine/Window.lean ====
section
/-! DEFINITION. The read-only register window (`20_memory.md` R76 to R80). -/

namespace Sys2Proof.Machine

/-- `cb_code[s][j]`; bits at and beyond `cb_len[s]`, and `j = 255`, read 0 (R79). -/
def codeBit (e : Engine) (s j : Nat) : Bool := decide (j < Config.maxLen) && (cbCode e s).getD j false

/-- The word of 32 bits, bit 31 first. -/
def wordOfBits (bits : List Bool) : U32 := BitVec.ofNat 32 (bits.foldl (fun acc b => 2 * acc + b.toNat) 0)

/-- `CBW[s][w]` (R79): bit `31 − (j mod 32)` of word `w = j / 32` is `cb_code[s][j]`. -/
def codeWord (e : Engine) (s w : Nat) : U32 :=
  wordOfBits ((List.range 32).map fun i => codeBit e s (32 * w + i))

/-- The ten words at the bottom of the window (R76, R77). -/
def lowWord (e : Engine) : Nat → U32
  | 0x000 => statusWord e
  | 0x001 => e.stat.result
  | 0x002 => e.scan.total
  | 0x003 => e.tree.root.setWidth 32 ||| flagBit e.tree.rootValid 9
  | 0x004 => e.tree.nn.setWidth 32
  | 0x005 => e.tree.pqN.setWidth 32
  | 0x006 => e.bw.buf.setWidth 32 ||| (e.bw.cnt.setWidth 32 <<< 8)
  | 0x007 => e.br.buf.setWidth 32 ||| (e.br.pos.setWidth 32 <<< 8) ||| flagBit e.br.eos 12
  | 0x008 => e.dec.cur.setWidth 32
  | 0x009 => e.dec.rem
  | _ => 0#32

/-- `RegRead(a)` (R76); every reserved address reads 0. -/
def regRead (e : Engine) (addr : BitVec 12) : U32 :=
  let a := addr.toNat
  if a < 0x100 then lowWord e a
  else if a < 0x200 then ftGet e (a - 0x100)
  else if a < 0x300 then (cbLen e (a - 0x200)).setWidth 32 ||| flagBit (cbHas e (a - 0x200)) 8
  else if a < 0x400 then (pqGet e.tree.pq (a - 0x300)).setWidth 32
  else if a < 0x4FF then (ndGet e (a - 0x400 + Config.firstInternal)).freq
  else if a = 0x4FF then 0#32
  else if a < 0x5FF then
    (ndGet e (a - 0x500 + Config.firstInternal)).left.setWidth 32
      ||| ((ndGet e (a - 0x500 + Config.firstInternal)).right.setWidth 32 <<< 9)
  else if a < 0x800 then 0#32
  else codeWord e ((a - 0x800) / 8) ((a - 0x800) % 8)

end Sys2Proof.Machine
end

