-- ==== Sys2Proof/Machine/Ports.lean ====
section
/-! DEFINITION. The host's moves on the ports (`00_scope.md` R10, `20_memory.md` R80, R86,
`70_reset_and_hazards.md` R290, R294), all but presenting a command word, which Step.lean dispatches. -/

namespace Sys2Proof.Machine

/-- Take the next move off the list. -/
def withMoves (ms : List HostMove) (s : State) : State :=
  modHost (fun h => { h with moves := ms }) s

/-- Hardware reset between commands (R290). -/
def moveHwReset (s : State) : Host.Outcome State Fault Refusal := .next (hwReset s)

/-- A read of the register window (R80): it changes nothing but the word the host has read. -/
def moveRegRead (a : BitVec 12) (s : State) : Host.Outcome State Fault Refusal :=
  .next (modHost (fun h => { h with rdata := some (regRead s.eng a) }) s)

/-- Bind other content to the source port (R294 (2)), only while the source is closed (R88). -/
def moveBindSource (bytes : List Byte) (s : State) : Host.Outcome State Fault Refusal :=
  if s.eng.br.isOpen then .refused .bindingOpenStream
  else .next (modEnviron (fun v => { v with src := bytes, srcPos := 0 }) s)

/-- Bind a fresh sink to the sink port (R294 (2), program P5), only while the sink is closed (R10). -/
def moveBindSink (s : State) : Host.Outcome State Fault Refusal :=
  if s.eng.bw.isOpen then .refused .bindingOpenStream
  else .next (modEnviron (fun v => { v with snk := [], snkDone := false }) s)

/-- The command word the opcode table's numbering gives, as the host presents it: of any number of bits, the
word of the low sixteen. -/
def tableCommand (w : Nat) : Command := BitVec.ofNat 16 w

end Sys2Proof.Machine
end

