-- ==== Sys2Proof/Machine/Step.lean ====
section
/-! DEFINITION. One step of the machine: the next move of the host, carried out whole (`00_scope.md` R9). A
command word is decoded and executed; with no move the engine stays idle (`60_exceptions.md` R276). -/

namespace Sys2Proof.Machine

/-- `Exec(cmd)` (`30_encoding.md` R93) on a command word. -/
def runCommand (w : Command) (s : State) : Host.Outcome State Fault Refusal :=
  match decode w with
  | .ok i => exec i s
  | .error _ => execIllegal s

/-- One step. -/
def step (s : State) : Host.Outcome State Fault Refusal :=
  match s.host.moves with
  | [] => .next s
  | .command w :: ms => runCommand w (withMoves ms s)
  | .hwReset :: ms => moveHwReset (withMoves ms s)
  | .regRead a :: ms => moveRegRead a (withMoves ms s)
  | .bindSource bytes :: ms => moveBindSource bytes (withMoves ms s)
  | .bindSink :: ms => moveBindSink (withMoves ms s)

/-- The state in which the host's next move is to present that instruction. There is no instruction memory
(`20_memory.md` R84): the host presents each word, so this stands for the host's choice of its next word. -/
def State.withFetchWord (s : State) (_nbits w : Nat) : State :=
  withMoves (.command (tableCommand w) :: s.host.moves) s

end Sys2Proof.Machine
end

