-- ==== Sys2Proof/Safety.lean ====
section
/-! DEFINITION. What counts as a safe run and the terms claims are stated in: the premises on the environment,
the state a fault leaves, the bits waiting in the writer and left in the reader, the compressed-stream format,
and the invariant of the machine. -/

namespace Sys2Proof.Machine

/-! ### The environment's answers -/

/-- The engine is idle and not in the fault state, so a command runs (`30_encoding.md` R93). -/
abbrev Ready (s : State) : Prop := s.eng.stat.fault = false

/-- The answer the next call gets (`20_memory.md` R66). -/
def nextAnswerOf (s : State) : Answer := s.env.answers.head?.getD .normal

/-- The next call is answered, well or with `IOERR`. -/
abbrev NextAnswered (s : State) : Prop := nextAnswerOf s = .normal ∨ nextAnswerOf s = .ioErr

/-- The premise `io_ok` (`20_memory.md` R66): no call is answered `IOERR`, and none is left without answer. -/
abbrev IoOk (s : State) : Prop := ∀ a ∈ s.env.answers, a = .normal

/-- The environment is an oracle of `20_memory.md` R66: every call is answered, well or with `IOERR`. -/
abbrev Answering (s : State) : Prop := ∀ a ∈ s.env.answers, a = .normal ∨ a = .ioErr

/-- The environment with the answers of `n` calls taken. -/
def afterCalls (n : Nat) (v : Env) : Env := { v with answers := v.answers.drop n }

/-! ### Responses -/

/-- The state with result `v` and the response `OK` given (`30_encoding.md` R93, R94). -/
def answeredOk (v : U32) (s : State) : State :=
  { s with
    eng := { s.eng with stat := { s.eng.stat with result := v } }
    host := { s.host with rsp := some .ok } }

/-- The block with the tree and the code book no longer matching the table (`41_freq.md` R141). -/
def treeDropped (e : Engine) : Engine :=
  { e with
    tree := { e.tree with phase := .none, rootValid := false }
    book := { e.book with done := false } }

/-- Commands issued one after another, each after the previous response (`30_encoding.md` R97). -/
def execAll : List Instr → State → Host.Outcome State Fault Refusal
  | [], s => .next s
  | i :: rest, s =>
    match exec i s with
    | .next t => execAll rest t
    | .fault f => .fault f
    | .refused r => .refused r

/-! ### Faults -/

/-- The writer after `Release()` (`46_control.md` R247). -/
def releasedWriter (w : BitWriter) : BitWriter :=
  if w.isOpen then { buf := 0#8, cnt := 0#3, isOpen := false } else w

/-- How many calls `Release()` makes (`46_control.md` R247): one for each open stream. -/
def releaseCalls (e : Engine) : Nat := e.bw.isOpen.toNat + e.br.isOpen.toNat

/-- The environment after `Release()` (`46_control.md` R247): its calls answered, an open sink finished. -/
def releasedEnv (e : Engine) (v : Env) : Env :=
  { afterCalls (releaseCalls e) v with snkDone := e.bw.isOpen || v.snkDone }

/-- The state a raised fault leaves (`60_exceptions.md` R262) of the state at the `raise`, with the response
`FAULT` given, when the environment answers the release. -/
def faultState (k : FaultKind) (s : State) : State :=
  { eng :=
      { s.eng with
        bw := releasedWriter s.eng.bw
        br := { s.eng.br with isOpen := false }
        stat :=
          { err := k.code, fault := true, incomplete := decide (k = .truncatedStream), result := 0#32 } }
    env := releasedEnv s.eng s.env
    host := { s.host with rsp := some .fault } }

/-- The environment answers the calls of `Release()`, as many as there are (`46_control.md` R247). -/
abbrev ReleaseAnswered (s : State) : Prop :=
  ∀ a ∈ s.env.answers.take (releaseCalls s.eng), a = .normal ∨ a = .ioErr

/-- Which command can raise which fault (`60_exceptions.md` R261); `BadCommand`, which any word can raise and a
legal word cannot, is left out. -/
def mayFault : Instr → FaultKind → Bool
  | .nop, _ => false
  | .reset, _ => false
  | .srcClose, _ => false
  | .ftClr, _ => false
  | .htInit, _ => false
  | .htBuild, _ => false
  | .srcOpen, k => k == .ioUnavailable || k == .badSequence
  | .snkOpen, k => k == .ioUnavailable || k == .badSequence
  | .snkClose, k => k == .ioUnavailable
  | .ftInc _, k => k == .countOverflow
  | .ftScan, k => k == .ioUnavailable || k == .countOverflow
  | .htStep, k => k == .badSequence
  | .cbBuild, k => k == .badSequence
  | .bwBit _, k => k == .ioUnavailable || k == .streamClosed
  | .bwClose, k => k == .ioUnavailable || k == .streamClosed
  | .hdrWr, k => k == .ioUnavailable || k == .streamClosed
  | .brBit, k => k == .ioUnavailable
  | .hdrRd, k => k == .ioUnavailable || k == .corruptHeader
  | .encSym _, k => k == .ioUnavailable || k == .streamClosed || k == .badSequence
  | .encRun, k => k == .ioUnavailable || k == .streamClosed || k == .badSequence
  | .decSym, k => k == .ioUnavailable || k == .truncatedStream || k == .streamClosed || k == .badSequence
  | .decRun, k => k == .ioUnavailable || k == .truncatedStream || k == .streamClosed || k == .badSequence
  | .compress, k => k == .ioUnavailable || k == .countOverflow || k == .badSequence
  | .decompress, k =>
    k == .ioUnavailable || k == .corruptHeader || k == .truncatedStream || k == .badSequence

/-! ### Bits and bytes -/

/-- The number whose binary digits the bits are, the first the most significant. -/
def bitsToNat (bits : List Bool) : Nat := bits.foldl (fun acc b => 2 * acc + b.toNat) 0

/-- The eight bits of a byte in stream order (`00_scope.md` R14). -/
def byteBits (b : Byte) : List Bool := (List.range 8).map fun i => b.getLsbD (7 - i)

/-- The bits of a byte sequence in stream order (`00_scope.md` R14). -/
def streamBits (bytes : List Byte) : List Bool := bytes.flatMap byteBits

/-- The whole bytes of a bit sequence (`00_scope.md` R14); up to seven bits at the end make no byte. -/
def wholeBytes : List Bool → List Byte
  | b7 :: b6 :: b5 :: b4 :: b3 :: b2 :: b1 :: b0 :: rest =>
    BitVec.ofNat 8 (bitsToNat [b7, b6, b5, b4, b3, b2, b1, b0]) :: wholeBytes rest
  | _ => []

/-- The bits of a bit sequence beyond its whole bytes. -/
def restBits (bits : List Bool) : List Bool := bits.drop (8 * (bits.length / 8))

/-- A bit sequence as bytes, zero-padded in the final byte (`30_encoding.md` R108). -/
def paddedBytes (bits : List Bool) : List Byte :=
  wholeBytes (bits ++ List.replicate ((8 - bits.length % 8) % 8) false)

/-- The bits accepted by the writer and not yet sent, oldest first (`10_state.md` R34). -/
def waiting (w : BitWriter) : List Bool :=
  (List.range w.cnt.toNat).map fun i => w.buf.getLsbD (w.cnt.toNat - 1 - i)

/-- The writer holding the given bits, fewer than eight, oldest first (`10_state.md` R34). -/
def writerHolding (bits : List Bool) : BitWriter :=
  { buf := BitVec.ofNat 8 (bitsToNat bits), cnt := BitVec.ofNat 3 bits.length, isOpen := true }

/-- The bits of the reader's buffer not yet delivered, next first (`10_state.md` R36). -/
def buffered (r : BitReader) : List Bool :=
  (List.range (8 - r.pos.toNat)).map fun i => r.buf.getLsbD (7 - r.pos.toNat - i)

/-- All bits the reader will deliver of the source as it stands, in order (`40_bitio.md` R127, R129). -/
def unread (s : State) : List Bool :=
  if s.eng.br.eos then [] else buffered s.eng.br ++ streamBits (s.env.src.drop s.env.srcPos)

/-- The reader can deliver its bits: it need not refill from a closed source. -/
abbrev SourceOpen (s : State) : Prop := s.eng.br.isOpen = true

/-! ### The compressed-stream format (`30_encoding.md` R105 to R108) -/

/-- The four bytes of a word, big-endian (`20_memory.md` R69). -/
def wordBytes (w : U32) : List Byte :=
  [w.extractLsb' 24 8, w.extractLsb' 16 8, w.extractLsb' 8 8, w.extractLsb' 0 8]

/-- The 1028 bytes of the header for the given counts and total (`30_encoding.md` R105). -/
def headerBytes (ft : Nat → U32) (total : U32) : List Byte :=
  (List.range 256).flatMap (fun s => wordBytes (ft s)) ++ wordBytes total

/-- The payload bits: the codes of the input's bytes in order (`30_encoding.md` R108). -/
def payloadBits (code : Nat → List Bool) (input : List Byte) : List Bool :=
  input.flatMap fun b => code b.toNat

/-- How often each symbol occurs in the input (`41_freq.md` R148). -/
def countOf (input : List Byte) (s : Nat) : U32 := BitVec.ofNat 32 (input.countP fun b => b.toNat == s)

/-! ### The tree -/

/-- The node reached from node `n` by the branches `path`, if it takes none out of a leaf (`43_codebook.md`
R180). -/
def follow (e : Engine) : Node → List Bool → Option Node
  | n, [] => some n
  | n, b :: rest => if isLeaf n then none else follow e (childOf e n b) rest

/-- `path` is the path from the root to the leaf of symbol `s` (`43_codebook.md` R180). -/
abbrev IsPath (e : Engine) (s : Nat) (path : List Bool) : Prop :=
  follow e e.tree.root path = some (leafOf s)

/-- The live nodes of the queue, in the order of the array (`10_state.md` R29). -/
def live (e : Engine) : List Node := (List.range e.tree.pqN.toNat).map (pqGet e.tree.pq)

/-- The number of symbols with a count that is not zero (`42_tree.md` R164). -/
def leafCount (e : Engine) : Nat := ((List.range 256).filter fun s => ftGet e s != 0#32).length

/-! ### The invariant -/

/-- The indices of a table strictly rise from a bound `lo` on and stay below `hi`, and no entry is the one
an unlisted index reads as. -/
def tableOk {α : Type} [DecidableEq α] (d : α) (hi : Nat) : Nat → Table α → Bool
  | _, [] => true
  | lo, (k, v) :: rest => decide (lo ≤ k) && decide (k < hi) && decide (v ≠ d) && tableOk d hi (k + 1) rest

/-- The internal tables, the block's only addressed storage, are in canonical form with every index in range
(`20_memory.md` R87). -/
def Memory.wf (e : Engine) : Bool :=
  tableOk 0#32 256 0 e.scan.ft
    && tableOk nodeZero 511 256 e.tree.nd
    && tableOk 0#9 256 0 e.tree.pq
    && tableOk none 256 0 e.book.cb

/-- The arena (`10_state.md` R27, R28, `42_tree.md` R164): `nn` in range, room for every merge still to come,
and the children of a node created before it. -/
abbrev ArenaOk (e : Engine) : Prop :=
  256 ≤ e.tree.nn.toNat ∧ e.tree.nn.toNat + e.tree.pqN.toNat ≤ 512 ∧
    ∀ i, i < e.tree.nn.toNat → 256 ≤ i → (ndGet e i).left.toNat < i ∧ (ndGet e i).right.toNat < i

/-- The queue (`10_state.md` R29): its live entries are nodes that exist. -/
abbrev QueueOk (e : Engine) : Prop :=
  e.tree.pqN.toNat ≤ 256 ∧ ∀ k, k < e.tree.pqN.toNat → (pqGet e.tree.pq k).toNat < e.tree.nn.toNat

/-- The flags of the tree and the code book (`10_state.md` R30, R31, R33, `42_tree.md` R161). -/
def phaseOk (e : Engine) : Bool :=
  match e.tree.phase with
  | .none => !e.tree.rootValid && !e.book.done
  | .merging => decide (2 ≤ e.tree.pqN.toNat) && !e.tree.rootValid && !e.book.done
  | .done =>
    if e.tree.rootValid then decide (e.tree.pqN.toNat = 1) && decide (e.tree.root = pqGet e.tree.pq 0)
    else decide (e.tree.pqN.toNat = 0)

/-- No code is longer than 255 bits (`10_state.md` R32). -/
abbrev CodesOk (e : Engine) : Prop := ∀ s, s < 256 → (cbCode e s).length ≤ 255

/-- The code book is that of the tree (`10_state.md` R32, `43_codebook.md` R180): every code is the path to its
symbol's leaf, and every leaf below the root has a code. -/
abbrev BookMatchesTree (e : Engine) : Prop :=
  (∀ x path, cbGet e x = some path → x < 256 ∧ e.tree.rootValid = true ∧ IsPath e x path) ∧
    ∀ x path, x < 256 → e.tree.rootValid = true → IsPath e x path → cbHas e x = true

/-- A code book marked done is that of the tree (`10_state.md` R33). -/
abbrev BookOk (e : Engine) : Prop := e.book.done = true → BookMatchesTree e

/-- The tables, the arena, the queue and their flags hold together. -/
abbrev TablesInv (e : Engine) : Prop :=
  Memory.wf e = true ∧ ArenaOk e ∧ QueueOk e ∧ phaseOk e = true ∧ CodesOk e

/-- The tables, the arena, the queue and their flags hold together, and a finished code book is the tree's. -/
abbrev TreeInv (e : Engine) : Prop := TablesInv e ∧ BookOk e

/-- The bit writer (`10_state.md` R34, `46_control.md` R247): nothing above the waiting bits, and nothing
waiting while the sink is closed. -/
abbrev WriterOk (w : BitWriter) : Prop :=
  w.buf.toNat < 2 ^ w.cnt.toNat ∧ (w.isOpen = false → w.cnt = 0#3)

/-- The bit reader and its source (`10_state.md` R36, `20_memory.md` R62). -/
abbrev ReaderOk (s : State) : Prop :=
  s.eng.br.pos.toNat ≤ 8 ∧ (s.eng.br.eos = true → s.eng.br.pos = 8#4) ∧ s.env.srcPos ≤ s.env.src.length

/-- The fault flags (`10_state.md` R40, `60_exceptions.md` R262, `20_memory.md` R89). -/
def faultFlagsOk (e : Engine) : Bool :=
  if e.stat.fault then
    e.stat.err != 0#3 && (e.stat.incomplete == (e.stat.err == 3#3)) && e.stat.result == 0#32
      && !e.bw.isOpen && !e.br.isOpen
  else e.stat.err == 0#3 && !e.stat.incomplete

/-- The streams' registers and the fault flags hold together. -/
abbrev PortInv (s : State) : Prop := WriterOk s.eng.bw ∧ ReaderOk s ∧ faultFlagsOk s.eng = true

/-- `total` is the exact sum of the counts while there is no fault (`10_state.md` R25). -/
abbrev CountInv (e : Engine) : Prop := e.stat.fault = false → ftSum e = e.scan.total.toNat

/-- The heap property (`42_tree.md` R158). -/
abbrev HeapOk (e : Engine) : Prop :=
  ∀ k, k < e.tree.pqN.toNat → 1 ≤ k → less e (pqGet e.tree.pq ((k - 1) / 2)) (pqGet e.tree.pq k) = true

/-- While a build has started and its table is unchanged: the heap property, distinct live nodes
(`42_tree.md` R158), and live weights that sum to `total` (R164), as the empty queue's do to 0. -/
abbrev HeapInv (e : Engine) : Prop :=
  e.tree.phase ≠ .none →
    HeapOk e ∧ (live e).Nodup ∧ ((live e).map fun n => (freq e n).toNat).sum = e.scan.total.toNat

/-- The invariant of the machine. -/
abbrev Inv (s : State) : Prop := TreeInv s.eng ∧ PortInv s ∧ CountInv s.eng ∧ HeapInv s.eng

end Sys2Proof.Machine
end

