-- ==== Sys2Proof/Certificates/Slice0/Obligations.lean ====
section
/-! DEFINITION. What is to be proved of the machine: one statement per obligation, each naming the rules of
spec/ it formalises. -/

open Sys2Proof Sys2Proof.Machine

/-! ### Encoding and the command word -/

/-- `30_encoding.md` R92: every legal instruction is read back from its word. -/
def Obligations.DecodeOfEncode : Prop :=
  ∀ i : Instr, i.wellFormed = true → decode (encode i) = .ok i

/-- `30_encoding.md` R92, R95: a word that decodes is the word of what it decodes to, and that is legal. -/
def Obligations.EncodeOfDecode : Prop :=
  ∀ (w : Command) (i : Instr), decode w = .ok i → encode i = w ∧ i.wellFormed = true

/-- `30_encoding.md` R92: words of the opcode map, one or more of each group, written from the table. -/
def Obligations.DecodedWordsOfTheMap : Prop :=
  decode 0x0000#16 = .ok .nop ∧ decode 0x0100#16 = .ok .reset ∧ decode 0x0300#16 = .ok .srcClose ∧
    decode 0x1141#16 = .ok (.ftInc 0x41#8) ∧ decode 0x2200#16 = .ok .htBuild ∧
    decode 0x3000#16 = .ok .cbBuild ∧ decode 0x4001#16 = .ok (.bwBit 1#8) ∧ decode 0x5000#16 = .ok .brBit ∧
    decode 0x6100#16 = .ok .hdrRd ∧ decode 0x70FF#16 = .ok (.encSym 0xFF#8) ∧ decode 0x8100#16 = .ok .decRun ∧
    decode 0xF100#16 = .ok .decompress

/-- `30_encoding.md` R95, R93: the legal words are exactly 535; a word is illegal when its opcode is not one of the
24, when its command is of kind `none` and its operand is not 0, or when it is `BW_BIT` with an operand above 1,
and never else; an illegal word raises `BadCommand`, and nothing else happens. -/
def Obligations.IllegalWordsRaiseBadCommand : Prop :=
  ∃ legal : List Command, legal.length = 535 ∧ legal.Nodup ∧
    (∀ w : Command, w ∈ legal ↔ ∃ i, decode w = .ok i) ∧
    ∀ w : Command,
      (w ∉ legal ↔
        w.opcode ∉ [0x00#8, 0x01#8, 0x02#8, 0x03#8, 0x04#8, 0x05#8, 0x10#8, 0x11#8, 0x12#8, 0x20#8, 0x21#8,
            0x22#8, 0x30#8, 0x40#8, 0x41#8, 0x50#8, 0x60#8, 0x61#8, 0x70#8, 0x71#8, 0x80#8, 0x81#8, 0xF0#8,
            0xF1#8] ∨
          (w.opcode ∉ [0x11#8, 0x70#8, 0x40#8] ∧ w.operand ≠ 0#8) ∨
          (w.opcode = 0x40#8 ∧ 1 < w.operand.toNat)) ∧
      (w ∉ legal → ∀ s : State, Ready s → ReleaseAnswered s →
        runCommand w s = .next (faultState .badCommand s) ∧ (faultState .badCommand s).eng.stat.err = 6#3)

/-- `00_scope.md` R9, `30_encoding.md` R93: a step on a presented word that decodes to an instruction is `exec`
of that instruction, with the word taken from the host. -/
def Obligations.StepRunsDecodedInstruction : Prop :=
  ∀ (s : State) (w : Command) (ms : List HostMove) (i : Instr),
    s.host.moves = .command w :: ms → decode w = .ok i →
    step s = exec i { s with host := { s.host with moves := ms } }

/-- The other moves of the host (`60_exceptions.md` R276, `20_memory.md` R80, `70_reset_and_hazards.md` R290,
R291, R294): an idle engine keeps all state, a window read changes nothing but the word read, hardware reset
gives the block its reset values and leaves the environment as it is, and a stream may be bound anew while it
is closed. The list of moves, the response and the word read are the model's own fields (log entries 1, 2), and
so are the position 0 and the empty sink of a new binding (log entry 13). -/
def Obligations.HostMovesBetweenCommands : Prop :=
  ∀ (s : State) (ms : List HostMove) (a : BitVec 12) (bytes : List Byte),
    (s.host.moves = [] → step s = .next s) ∧
    (s.host.moves = .regRead a :: ms →
      step s = .next { s with host := { s.host with moves := ms, rdata := some (regRead s.eng a) } }) ∧
    (s.host.moves = .hwReset :: ms →
      step s = .next { s with eng := Engine.reset, host := { s.host with moves := ms, rsp := none } }) ∧
    (s.host.moves = .bindSource bytes :: ms → s.eng.br.isOpen = false →
      step s = .next
        { s with env := { s.env with src := bytes, srcPos := 0 }, host := { s.host with moves := ms } }) ∧
    (s.host.moves = .bindSink :: ms → s.eng.bw.isOpen = false →
      step s = .next
        { s with env := { s.env with snk := [], snkDone := false }, host := { s.host with moves := ms } })

/-! ### Reset and the register window -/

/-- `10_state.md` R46: the reset values, after hardware reset and after the RESET command, and in the state the
model starts from. -/
def Obligations.ResetValues : Prop :=
  ∀ e : Engine,
    (e = State.reset.eng ∨ (∃ s, e = (hwReset s).eng) ∨ (∃ s t, exec .reset s = .next t ∧ e = t.eng)) →
    (∀ i, ftGet e i = 0#32) ∧ e.scan.total = 0#32 ∧
    (∀ i, (ndGet e i).freq = 0#32 ∧ (ndGet e i).left = 0#9 ∧ (ndGet e i).right = 0#9) ∧
    e.tree.nn = 256#9 ∧ (∀ k, pqGet e.tree.pq k = 0#9) ∧ e.tree.pqN = 0#9 ∧ e.tree.root = 0#9 ∧
    e.tree.rootValid = false ∧ e.tree.phase.code = 0#2 ∧
    (∀ i, cbHas e i = false ∧ cbLen e i = 0#8 ∧ ∀ j, codeBit e i j = false) ∧ e.book.done = false ∧
    e.bw = { buf := 0#8, cnt := 0#3, isOpen := false } ∧
    e.br = { buf := 0#8, pos := 8#4, eos := false, isOpen := false } ∧
    e.dec = { cur := 0#9, rem := 0#32 } ∧
    e.stat = { err := 0#3, fault := false, incomplete := false, result := 0#32 }

/-- `20_memory.md` R78: after reset `NN` reads `0x100`, `BR` reads `0x800`, every other word 0. -/
def Obligations.WindowAfterReset : Prop :=
  ∀ a : BitVec 12,
    regRead Engine.reset a = if a = 0x004#12 then 0x100#32 else if a = 0x007#12 then 0x800#32 else 0#32

/-- `20_memory.md` R77, R76, R78: every field of `STATUS`, and that it reads 0 after reset; every field of every
other word of the register window but `CBW`, at every address of its range, its unused upper bits 0; and every
reserved address reads 0. -/
def Obligations.StatusWordFields : Prop :=
  (∀ e : Engine,
    let w := regRead e 0x000#12
    w.extractLsb' 0 3 = e.stat.err ∧ w.getLsbD 3 = e.stat.fault ∧ w.getLsbD 4 = e.stat.incomplete ∧
      w.getLsbD 5 = e.br.isOpen ∧ w.getLsbD 6 = e.bw.isOpen ∧ w.getLsbD 7 = e.br.eos ∧
      w.extractLsb' 8 2 = e.tree.phase.code ∧ w.getLsbD 10 = e.book.done ∧ w.getLsbD 11 = e.tree.rootValid ∧
      w.extractLsb' 12 20 = 0#20) ∧
  Phase.none.code = 0#2 ∧ Phase.merging.code = 1#2 ∧ Phase.done.code = 2#2 ∧
  regRead Engine.reset 0x000#12 = 0#32 ∧
  (∀ e : Engine,
    let root := regRead e 0x003#12
    let bw := regRead e 0x006#12
    let br := regRead e 0x007#12
    regRead e 0x001#12 = e.stat.result ∧ regRead e 0x002#12 = e.scan.total ∧
      root.extractLsb' 0 9 = e.tree.root ∧ root.getLsbD 9 = e.tree.rootValid ∧ root.extractLsb' 10 22 = 0#22 ∧
      regRead e 0x004#12 = e.tree.nn.setWidth 32 ∧ regRead e 0x005#12 = e.tree.pqN.setWidth 32 ∧
      bw.extractLsb' 0 8 = e.bw.buf ∧ bw.extractLsb' 8 3 = e.bw.cnt ∧ bw.extractLsb' 11 21 = 0#21 ∧
      br.extractLsb' 0 8 = e.br.buf ∧ br.extractLsb' 8 4 = e.br.pos ∧ br.getLsbD 12 = e.br.eos ∧
      br.extractLsb' 13 19 = 0#19 ∧
      regRead e 0x008#12 = e.dec.cur.setWidth 32 ∧ regRead e 0x009#12 = e.dec.rem) ∧
  (∀ (e : Engine) (s : Nat), s ≤ 255 →
    let cb := regRead e (BitVec.ofNat 12 (0x200 + s))
    regRead e (BitVec.ofNat 12 (0x100 + s)) = ftGet e s ∧
      cb.extractLsb' 0 8 = cbLen e s ∧ cb.getLsbD 8 = cbHas e s ∧ cb.extractLsb' 9 23 = 0#23 ∧
      regRead e (BitVec.ofNat 12 (0x300 + s)) = (pqGet e.tree.pq s).setWidth 32) ∧
  (∀ (e : Engine) (i : Nat), 256 ≤ i → i ≤ 510 →
    let ch := regRead e (BitVec.ofNat 12 (0x500 + (i - 256)))
    regRead e (BitVec.ofNat 12 (0x400 + (i - 256))) = (ndGet e i).freq ∧
      ch.extractLsb' 0 9 = (ndGet e i).left ∧ ch.extractLsb' 9 9 = (ndGet e i).right ∧
      ch.extractLsb' 18 14 = 0#14) ∧
  ∀ (e : Engine) (a : BitVec 12),
    0x00A ≤ a.toNat ∧ a.toNat ≤ 0x0FF ∨ a = 0x4FF#12 ∨ 0x5FF ≤ a.toNat ∧ a.toNat ≤ 0x7FF → regRead e a = 0#32

/-- `20_memory.md` R79: bit `31 − (j mod 32)` of `CBW[s][j / 32]` is `cb_code[s][j]` for `j` up to 254; bits
beyond the code, and bit 0 of word 7, read 0; and the rule's example, the code `110`. -/
def Obligations.CodeWindowBits : Prop :=
  ∀ (e : Engine) (s : Nat), s < 256 →
    (∀ w i, w < 8 → i < 32 →
      (regRead e (BitVec.ofNat 12 (0x800 + 8 * s + w))).getLsbD (31 - i)
        = if 32 * w + i < 255 then (cbCode e s).getD (32 * w + i) false else false) ∧
    (cbGet e s = some [true, true, false] →
      regRead e (BitVec.ofNat 12 (0x800 + 8 * s)) = 0xC0000000#32 ∧
      (∀ w, 1 ≤ w → w < 8 → regRead e (BitVec.ofNat 12 (0x800 + 8 * s + w)) = 0#32) ∧
      regRead e (BitVec.ofNat 12 (0x200 + s)) = 0x103#32)

/-- `60_exceptions.md` R263, `30_encoding.md` R93: in the fault state every word but `0x0100` is refused and
changes nothing, `result` and `err` included; the register window stays readable. -/
def Obligations.FaultStateRefusesOtherWords : Prop :=
  ∀ s : State, s.eng.stat.fault = true →
    (∀ w : Command, w ≠ 0x0100#16 →
      runCommand w s = .next { s with host := { s.host with rsp := some .refused } }) ∧
    ∀ (a : BitVec 12) (ms : List HostMove), s.host.moves = .regRead a :: ms →
      step s = .next { s with host := { s.host with moves := ms, rdata := some (regRead s.eng a) } }

/-- `60_exceptions.md` R266: a step leaves the fault state only on the RESET word or on hardware reset, and
both leave the block in its reset state. -/
def Obligations.OnlyResetLeavesFaultState : Prop :=
  ∀ s t : State, s.eng.stat.fault = true → step s = .next t →
    let resets := s.host.moves.head? = some (.command 0x0100#16) ∨ s.host.moves.head? = some .hwReset
    (t.eng.stat.fault = false → resets) ∧
    (resets → t.eng = Engine.reset ∧ t.eng.stat.fault = false ∧ t.eng.stat.err = 0#3 ∧
      t.eng.stat.incomplete = false)

/-! ### Control and stream commands -/

/-- `46_control.md` R241: NOP responds OK and changes nothing, `result` included. -/
def Obligations.NopKeepsEverything : Prop :=
  ∀ s : State, Ready s → exec .nop s = .next { s with host := { s.host with rsp := some .ok } }

/-- `46_control.md` R242: RESET, in the fault state too, releases both streams and gives every element its
reset value; the bytes in the sink stay, and an `IOERR` answer to the release is ignored. -/
def Obligations.ResetCommandResets : Prop :=
  ∀ s : State, ReleaseAnswered s →
    exec .reset s = .next
      { eng := Engine.reset, env := releasedEnv s.eng s.env, host := { s.host with rsp := some .ok } }

/-- `46_control.md` R243, R244: SRC_OPEN acquires the source at byte 0 with a fresh reader; SRC_CLOSE releases
the source with one call, or does nothing where it is not open, and the reader's other registers stay. -/
def Obligations.SourceOpensAndCloses : Prop :=
  ∀ s : State, Ready s →
    (s.eng.br.isOpen = false → nextAnswerOf s = .normal →
      exec .srcOpen s = .next (answeredOk 0#32
        { s with
          eng := { s.eng with br := { buf := 0#8, pos := 8#4, eos := false, isOpen := true } }
          env := { afterCalls 1 s.env with srcPos := 0 } })) ∧
    (s.eng.br.isOpen = false → exec .srcClose s = .next (answeredOk 0#32 s)) ∧
    (s.eng.br.isOpen = true → NextAnswered s →
      exec .srcClose s = .next (answeredOk 0#32
        { s with
          eng := { s.eng with br := { s.eng.br with isOpen := false } }
          env := afterCalls 1 s.env }))

/-- `46_control.md` R245: SNK_OPEN acquires the sink, empty, with a fresh writer. -/
def Obligations.SnkOpenEmptiesSink : Prop :=
  ∀ s : State, Ready s → s.eng.bw.isOpen = false → nextAnswerOf s = .normal →
    exec .snkOpen s = .next (answeredOk 0#32
      { s with
        eng := { s.eng with bw := { buf := 0#8, cnt := 0#3, isOpen := true } }
        env := { afterCalls 1 s.env with snk := [], snkDone := false } })

/-- `46_control.md` R246: SNK_CLOSE drops the waiting bits and releases the sink; it does nothing where the
sink is not open; an `IOERR` answer raises `IOUnavailable` with the sink released all the same. -/
def Obligations.SnkCloseDropsWaitingBits : Prop :=
  ∀ s : State, Ready s →
    let closed : State :=
      { s with
        eng := { s.eng with bw := { buf := 0#8, cnt := 0#3, isOpen := false } }
        env := { afterCalls 1 s.env with snkDone := true } }
    (s.eng.bw.isOpen = false → exec .snkClose s = .next (answeredOk 0#32 s)) ∧
    (s.eng.bw.isOpen = true → nextAnswerOf s = .normal →
      exec .snkClose s = .next (answeredOk 0#32 closed)) ∧
    (s.eng.bw.isOpen = true → nextAnswerOf s = .ioErr → ReleaseAnswered closed →
      exec .snkClose s = .next (faultState .ioUnavailable closed))

/-- `46_control.md` R243, R245, `44_compress.md` R207, `45_decompress.md` R227: opening an open stream, and
COMPRESS or DECOMPRESS with either stream open, raise `BadSequence` and call no primitive but the release; an
open answered `IOERR` raises `IOUnavailable`, the stream stays closed and the environment's streams are
unchanged. -/
def Obligations.RefusedOpensFault : Prop :=
  ∀ s : State, Ready s →
    (ReleaseAnswered s →
      (s.eng.br.isOpen = true → exec .srcOpen s = .next (faultState .badSequence s)) ∧
      (s.eng.bw.isOpen = true → exec .snkOpen s = .next (faultState .badSequence s)) ∧
      (s.eng.br.isOpen = true ∨ s.eng.bw.isOpen = true →
        exec .compress s = .next (faultState .badSequence s) ∧
        exec .decompress s = .next (faultState .badSequence s))) ∧
    (nextAnswerOf s = .ioErr →
      let asked : State := { s with env := afterCalls 1 s.env }
      ReleaseAnswered asked →
      (s.eng.br.isOpen = false → exec .srcOpen s = .next (faultState .ioUnavailable asked)) ∧
      (s.eng.bw.isOpen = false → exec .snkOpen s = .next (faultState .ioUnavailable asked)))

/-! ### The frequency table -/

/-- `41_freq.md` R142: FT_CLR zeroes every count and `total`, and drops the tree and the code book. -/
def Obligations.FtClrClearsTable : Prop :=
  ∀ s : State, Ready s → ∃ t : State, exec .ftClr s = .next t ∧
    (∀ x, ftGet t.eng x = 0#32) ∧ t.eng.scan.total = 0#32 ∧
    t = answeredOk 0#32 { s with eng := treeDropped { s.eng with scan := t.eng.scan } }

/-- `41_freq.md` R143, R144: FT_INC adds 1 to one count and to `total`, drops the tree and the code book, and
answers the new count; at the largest total it raises `CountOverflow` and changes nothing else. -/
def Obligations.FtIncCountsOne : Prop :=
  ∀ (s : State) (a : Byte), Ready s →
    (s.eng.scan.total ≠ 0xFFFFFFFF#32 →
      ∃ t : State, exec (.ftInc a) s = .next t ∧
        ftGet t.eng a.toNat = ftGet s.eng a.toNat + 1#32 ∧
        (∀ x, x ≠ a.toNat → ftGet t.eng x = ftGet s.eng x) ∧
        t.eng.scan.total = s.eng.scan.total + 1#32 ∧
        t = answeredOk (ftGet s.eng a.toNat + 1#32)
          { s with eng := treeDropped { s.eng with scan := t.eng.scan } }) ∧
    (s.eng.scan.total = 0xFFFFFFFF#32 → ReleaseAnswered s →
      exec (.ftInc a) s = .next (faultState .countOverflow s))

/-- `41_freq.md` R147, R146, `60_exceptions.md` R264: FT_SCAN adds the occurrences of every symbol in the rest of
the source, consumes it, and answers `total`; a scan that counts nothing keeps the tree and the code book. A read
answered `IOERR` after `k` bytes raises `IOUnavailable` and keeps what these bytes counted. -/
def Obligations.FtScanCountsTheRest : Prop :=
  ∀ s : State, Ready s → s.eng.br.isOpen = true →
    let rest := s.env.src.drop s.env.srcPos
    s.eng.scan.total.toNat + rest.length < 2 ^ 32 →
    (IoOk s →
      ∃ t : State, exec .ftScan s = .next t ∧
        (∀ x, ftGet t.eng x = ftGet s.eng x + countOf rest x) ∧
        t.eng.scan.total = s.eng.scan.total + BitVec.ofNat 32 rest.length ∧
        t = answeredOk t.eng.scan.total
          { s with
            eng :=
              if rest = [] then s.eng else treeDropped { s.eng with scan := t.eng.scan }
            env := { afterCalls (rest.length + 1) s.env with srcPos := s.env.srcPos + rest.length } }) ∧
    ∀ (k : Nat) (later : List Answer), k ≤ rest.length → s.env.answers = List.replicate k .normal ++ .ioErr :: later →
      (∀ a ∈ later, a = .normal ∨ a = .ioErr) →
      ∃ t : State, exec .ftScan s = .next t ∧
        (∀ x, ftGet t.eng x = ftGet s.eng x + countOf (rest.take k) x) ∧
        t.eng.scan.total = s.eng.scan.total + BitVec.ofNat 32 k ∧
        t = faultState .ioUnavailable
          { s with
            eng := if k = 0 then s.eng else treeDropped { s.eng with scan := t.eng.scan }
            env := { afterCalls (k + 1) s.env with srcPos := s.env.srcPos + k } }

/-- `41_freq.md` R148: after SRC_OPEN, FT_CLR, FT_SCAN every count is the number of positions of the source that
hold its symbol, `total` is the length of the source, and so is the sum of the counts. -/
def Obligations.CountsOfTheWholeSource : Prop :=
  ∀ s : State, Ready s → IoOk s → s.eng.br.isOpen = false → s.env.src.length < 2 ^ 32 →
    ∃ t : State, execAll [.srcOpen, .ftClr, .ftScan] s = .next t ∧ t.host.rsp = some .ok ∧
      (∀ x, x < 256 →
        (ftGet t.eng x).toNat
          = ((List.range s.env.src.length).filter fun k => (s.env.src.getD k 0#8).toNat == x).length) ∧
      t.eng.scan.total.toNat = s.env.src.length ∧ ftSum t.eng = s.env.src.length

/-! ### The tree -/

/-- `42_tree.md` R162: HT_INIT puts one leaf per symbol with a count that is not zero into an empty queue with
the heap property, and finishes the build at once where there is at most one. -/
def Obligations.HtInitLoadsLeaves : Prop :=
  ∀ s : State, Ready s →
    let placed := ((List.range 256).filter fun x => ftGet s.eng x != 0#32).map leafOf
    ∃ t : State, exec .htInit s = .next t ∧
      (live t.eng).Perm placed ∧ HeapOk t.eng ∧
      t = answeredOk (BitVec.ofNat 32 placed.length)
        { s with
          eng :=
            { s.eng with
              tree :=
                { s.eng.tree with
                  nn := 256#9, pq := t.eng.tree.pq, pqN := BitVec.ofNat 9 placed.length
                  root := if placed.length = 1 then placed.headD 0#9 else 0#9
                  rootValid := decide (placed.length = 1)
                  phase := if placed.length ≤ 1 then .done else .merging }
              book := { s.eng.book with done := false } } }

/-- `42_tree.md` R163, R160, R157: HT_STEP takes the two nodes of least key out of the queue, makes a new node
of them, the first extracted the left child, and puts it in; with no other node left it is the root. -/
def Obligations.HtStepMergesTwoLeast : Prop :=
  ∀ s : State, Ready s → Inv s → s.eng.tree.phase = .merging →
    ∃ (t : State) (a b : Node) (rest : List Node),
      exec .htStep s = .next t ∧
      (live s.eng).Perm (a :: b :: rest) ∧
      (∀ x ∈ b :: rest, less s.eng a x = true) ∧ (∀ x ∈ rest, less s.eng b x = true) ∧
      ndGet t.eng s.eng.tree.nn.toNat
        = { freq := freq s.eng a + freq s.eng b, left := a, right := b } ∧
      (∀ i, i ≠ s.eng.tree.nn.toNat → ndGet t.eng i = ndGet s.eng i) ∧
      (live t.eng).Perm (s.eng.tree.nn :: rest) ∧ HeapOk t.eng ∧
      t = answeredOk (s.eng.tree.nn.setWidth 32)
        { s with
          eng :=
            { s.eng with
              tree :=
                { nd := t.eng.tree.nd, nn := s.eng.tree.nn + 1#9, pq := t.eng.tree.pq
                  pqN := s.eng.tree.pqN - 1#9
                  root := if rest = [] then s.eng.tree.nn else s.eng.tree.root
                  rootValid := decide (rest = [])
                  phase := if rest = [] then .done else .merging } } }

/-- `42_tree.md` R165, R164: HT_BUILD ends with the build finished, from any state; with `L` symbols of count
not zero it makes `max (L − 1) 0` nodes, and the root is the last of them, or the lone leaf; the tree is the one
HT_INIT and as many HT_STEP commands leave. -/
def Obligations.HtBuildFinishesTree : Prop :=
  ∀ s : State, Ready s →
    let n := leafCount s.eng
    ∃ t : State, exec .htBuild s = .next t ∧
      t.eng.tree.nn.toNat = 256 + (n - 1) ∧
      (n = 0 → t.eng.tree.root = 0#9) ∧
      (n = 1 → ∃ x, x < 256 ∧ ftGet s.eng x ≠ 0#32 ∧ t.eng.tree.root = leafOf x) ∧
      (2 ≤ n → t.eng.tree.root.toNat = 256 + n - 2) ∧
      t.eng.tree.rootValid = decide (1 ≤ n) ∧ t.eng.tree.phase = .done ∧
      (∃ u : State, execAll (.htInit :: List.replicate (n - 1) .htStep) s = .next u ∧ u.eng.tree = t.eng.tree) ∧
      t = answeredOk (flagBit t.eng.tree.rootValid 9 ||| t.eng.tree.root.setWidth 32)
        { s with
          eng := { s.eng with tree := t.eng.tree, book := { s.eng.book with done := false } } }

/-- `42_tree.md` R167: the tree HT_BUILD leaves is a function of the counts alone, whatever the arena, the queue
and everything else held before. -/
def Obligations.TreeDependsOnlyOnCounts : Prop :=
  ∀ s s' t t' : State, Ready s → Ready s' → (∀ x, x < 256 → ftGet s.eng x = ftGet s'.eng x) →
    exec .htBuild s = .next t → exec .htBuild s' = .next t' →
    t.eng.tree.nn = t'.eng.tree.nn ∧ t.eng.tree.root = t'.eng.tree.root ∧
      t.eng.tree.rootValid = t'.eng.tree.rootValid ∧
      ∀ i, 256 ≤ i → i < t.eng.tree.nn.toNat → ndGet t.eng i = ndGet t'.eng i

/-- `70_reset_and_hazards.md` R296, `44_compress.md` R201, `45_decompress.md` R223, `60_exceptions.md` R260: a
command that needs a phase, a code book, a code, a tree or a symbol count that is not there raises `BadSequence`
and changes nothing else. -/
def Obligations.OutOfOrderCommandsFault : Prop :=
  ∀ (s : State) (a : Byte), Ready s → ReleaseAnswered s →
    let bad := Host.Outcome.next (φ := Fault) (ρ := Refusal) (faultState .badSequence s)
    (s.eng.tree.phase ≠ .merging → exec .htStep s = bad) ∧
    (s.eng.tree.phase ≠ .done → exec .cbBuild s = bad ∧ exec .decSym s = bad ∧ exec .decRun s = bad) ∧
    (s.eng.tree.rootValid = false ∨ s.eng.dec.rem = 0#32 → exec .decSym s = bad) ∧
    (s.eng.book.done = false → exec (.encSym a) s = bad ∧ exec .encRun s = bad) ∧
    (cbHas s.eng a.toNat = false → exec (.encSym a) s = bad)

/-! ### The code book -/

/-- `43_codebook.md` R181, R180: CB_BUILD completes on every finished build; every code it records is the path
from the root to that symbol's leaf, every leaf below the root gets a code, and no tree gives an empty book. -/
def Obligations.CbBuildRecordsPaths : Prop :=
  ∀ s : State, Ready s → TablesInv s.eng → s.eng.tree.phase = .done →
    ∃ t : State, exec .cbBuild s = .next t ∧
      (∀ x path, cbGet t.eng x = some path → s.eng.tree.rootValid = true ∧ x < 256 ∧ IsPath s.eng x path) ∧
      (∀ x path, x < 256 → s.eng.tree.rootValid = true → IsPath s.eng x path → cbHas t.eng x = true) ∧
      (s.eng.tree.rootValid = false → t.eng.stat.result = 0#32) ∧
      t = answeredOk t.eng.stat.result { s with eng := { s.eng with book := { cb := t.eng.book.cb, done := true } } }

/-- `43_codebook.md` R180, R181: after HT_BUILD, CB_BUILD gives a code to exactly the symbols with a count that
is not zero, answers their number, and the code of a symbol is its one path from the root. -/
def Obligations.CodeBookOfBuiltTree : Prop :=
  ∀ s t : State, Ready s → exec .htBuild s = .next t →
    ∃ u : State, exec .cbBuild t = .next u ∧
      u = answeredOk (BitVec.ofNat 32 (leafCount s.eng))
        { t with eng := { t.eng with book := { cb := u.eng.book.cb, done := true } } } ∧
      (∀ x, x < 256 → (cbHas u.eng x = true ↔ ftGet s.eng x ≠ 0#32)) ∧
      (∀ x path, x < 256 →
        (cbGet u.eng x = some path ↔ t.eng.tree.rootValid = true ∧ IsPath t.eng x path))

/-- `43_codebook.md` R183: the code of a lone leaf is the empty string. -/
def Obligations.LoneLeafCodeIsEmpty : Prop :=
  ∀ s : State, Ready s → s.eng.tree.phase = .done → s.eng.tree.rootValid = true →
    isLeaf s.eng.tree.root = true →
    ∃ t : State, exec .cbBuild s = .next t ∧ t.host.rsp = some .ok ∧ t.eng.stat.result = 1#32 ∧
      ∀ x, cbGet t.eng x = if x = s.eng.tree.root.toNat then some [] else none

/-- `43_codebook.md` R184: the codes of a book CB_BUILD has built form a prefix code. -/
def Obligations.CodesArePrefixFree : Prop :=
  ∀ s t : State, Ready s → exec .cbBuild s = .next t → t.host.rsp = some .ok →
    ∀ a b pathA pathB, a ≠ b → cbGet t.eng a = some pathA → cbGet t.eng b = some pathB → ¬ pathA <+: pathB

/-! ### Bit writer and bit reader -/

/-- `40_bitio.md` R121, R122: BW_BIT shifts its bit in at bit 0; the eighth bit sends the byte and empties the
writer; a flush answered `IOERR` raises `IOUnavailable` and appends nothing. -/
def Obligations.BwBitAppendsBit : Prop :=
  ∀ (s : State) (a : BitVec 8), Ready s → a.toNat ≤ 1 → s.eng.bw.isOpen = true →
    let v := (s.eng.bw.buf <<< 1) ||| a
    (s.eng.bw.cnt ≠ 7#3 →
      exec (.bwBit a) s = .next (answeredOk 0#32
        { s with eng := { s.eng with bw := { buf := v, cnt := s.eng.bw.cnt + 1#3, isOpen := true } } })) ∧
    (s.eng.bw.cnt = 7#3 → nextAnswerOf s = .normal →
      exec (.bwBit a) s = .next (answeredOk 0#32
        { s with
          eng := { s.eng with bw := { buf := 0#8, cnt := 0#3, isOpen := true } }
          env := { afterCalls 1 s.env with snk := s.env.snk ++ [v] } })) ∧
    (s.eng.bw.cnt = 7#3 → nextAnswerOf s = .ioErr → ReleaseAnswered { s with env := afterCalls 1 s.env } →
      exec (.bwBit a) s = .next (faultState .ioUnavailable { s with env := afterCalls 1 s.env }))

/-- `40_bitio.md` R121, R122, R123, `44_compress.md` R196, R197: a bit written to a sink that is not open, a second
BW_CLOSE, and a header written to it, at its first bit, raise `StreamClosed` and change nothing else. -/
def Obligations.ClosedSinkRaisesStreamClosed : Prop :=
  ∀ (s : State) (a : BitVec 8), Ready s → ReleaseAnswered s → s.eng.bw.isOpen = false → a.toNat ≤ 1 →
    exec (.bwBit a) s = .next (faultState .streamClosed s) ∧
    exec .bwClose s = .next (faultState .streamClosed s) ∧
    exec .hdrWr s = .next (faultState .streamClosed s)

/-- `40_bitio.md` R123, `60_exceptions.md` R265: BW_CLOSE pads the waiting bits with zeros on the right, sends them
as one byte, closes the sink and answers the number of padding bits; with none waiting it sends nothing. A flush
answered `IOERR` raises `IOUnavailable` with the writer unchanged and nothing appended; a close answered `IOERR`
raises it with the byte sent and the sink released. -/
def Obligations.BwClosePadsAndCloses : Prop :=
  ∀ s : State, Ready s → s.eng.bw.isOpen = true →
    let pad := 8 - s.eng.bw.cnt.toNat
    let asked : State := { s with env := afterCalls 1 s.env }
    let emptied : State :=
      { s with
        eng := { s.eng with bw := { s.eng.bw with isOpen := false } }
        env := { afterCalls 1 s.env with snkDone := true } }
    let padded : State :=
      { s with
        eng := { s.eng with bw := { buf := 0#8, cnt := 0#3, isOpen := false } }
        env := { afterCalls 2 s.env with snk := s.env.snk ++ [s.eng.bw.buf <<< pad], snkDone := true } }
    (s.eng.bw.cnt = 0#3 →
      (nextAnswerOf s = .normal → exec .bwClose s = .next (answeredOk 0#32 emptied)) ∧
      (nextAnswerOf s = .ioErr → ReleaseAnswered emptied →
        exec .bwClose s = .next (faultState .ioUnavailable emptied))) ∧
    (s.eng.bw.cnt ≠ 0#3 →
      (nextAnswerOf s = .ioErr → ReleaseAnswered asked →
        exec .bwClose s = .next (faultState .ioUnavailable asked)) ∧
      (nextAnswerOf s = .normal → nextAnswerOf asked = .normal →
        exec .bwClose s = .next (answeredOk (BitVec.ofNat 32 pad) padded)) ∧
      (nextAnswerOf s = .normal → nextAnswerOf asked = .ioErr → ReleaseAnswered padded →
        exec .bwClose s = .next (faultState .ioUnavailable padded)))

/-- `40_bitio.md` R124: after SNK_OPEN and the bits of BW_BIT commands, the sink holds the bits eight to a byte,
the first of each the most significant, and the rest wait in the writer; BW_CLOSE then brings the sink to all of
them, the last byte zero-padded on the right. -/
def Obligations.WriterPacksBits : Prop :=
  ∀ (s : State) (bits : List Bool), Ready s → IoOk s → s.eng.bw.isOpen = false →
    ∃ t u : State,
      execAll (.snkOpen :: bits.map fun b => .bwBit (if b then 1#8 else 0#8)) s = .next t ∧
      t.env.snk = wholeBytes bits ∧ (wholeBytes bits).length = bits.length / 8 ∧
      t.eng.bw = writerHolding (restBits bits) ∧ t.eng.bw.cnt.toNat = bits.length % 8 ∧
      t.eng.bw.buf.toNat = bitsToNat (restBits bits) ∧
      exec .bwClose t = .next u ∧
      u.env.snk = paddedBytes bits ∧ (paddedBytes bits).length = (bits.length + 7) / 8 ∧
      u.env.snkDone = true ∧ u.host.rsp = some .ok

/-- `40_bitio.md` R127, R128: BR_BIT delivers the next buffered bit; at the end of the buffer it takes one byte
of the source first; at the end of the source it answers 2 and remembers; after that it answers 2 without a
call; a refill answered `IOERR` raises `IOUnavailable` with the reader unchanged. -/
def Obligations.BrBitDeliversNextBit : Prop :=
  ∀ s : State, Ready s →
    let r := s.eng.br
    (r.eos = true → exec .brBit s = .next (answeredOk 2#32 s)) ∧
    (r.eos = false → r.pos.toNat < 8 →
      exec .brBit s = .next (answeredOk (if r.buf.getLsbD (7 - r.pos.toNat) then 1#32 else 0#32)
        { s with eng := { s.eng with br := { r with pos := r.pos + 1#4 } } })) ∧
    (∀ b, r.eos = false → r.pos = 8#4 → r.isOpen = true → nextAnswerOf s = .normal →
      s.env.src[s.env.srcPos]? = some b →
      exec .brBit s = .next (answeredOk (if b.getLsbD 7 then 1#32 else 0#32)
        { s with
          eng := { s.eng with br := { r with buf := b, pos := 1#4 } }
          env := { afterCalls 1 s.env with srcPos := s.env.srcPos + 1 } })) ∧
    (r.eos = false → r.pos = 8#4 → r.isOpen = true → nextAnswerOf s = .normal →
      s.env.src[s.env.srcPos]? = none →
      exec .brBit s = .next (answeredOk 2#32
        { s with eng := { s.eng with br := { r with eos := true } }, env := afterCalls 1 s.env })) ∧
    (r.eos = false → r.pos = 8#4 → r.isOpen = true → nextAnswerOf s = .ioErr →
      ReleaseAnswered { s with env := afterCalls 1 s.env } →
      exec .brBit s = .next (faultState .ioUnavailable { s with env := afterCalls 1 s.env }))

/-- `40_bitio.md` R129: after SRC_OPEN the `k`-th BR_BIT, counting from 0, answers stream bit `k`, and 2 once
all bits are delivered; the source stands after the byte of the last bit delivered. -/
def Obligations.ReaderReturnsTheStream : Prop :=
  ∀ (s : State) (k : Nat), Ready s → IoOk s → s.eng.br.isOpen = false →
    ∃ t : State, execAll (.srcOpen :: List.replicate (k + 1) .brBit) s = .next t ∧
      t.eng.stat.result
        = (match (streamBits s.env.src)[k]? with
          | none => 2#32
          | some b => if b then 1#32 else 0#32) ∧
      t.env.srcPos = min (k / 8 + 1) s.env.src.length

/-- `41_freq.md` R146, R147, `40_bitio.md` R127, R128, `44_compress.md` R203, `45_decompress.md` R217, R223, R225: a
read of the source while it is not open, and one answered `IOERR`, raise `IOUnavailable`: at the first byte of
FT_SCAN and ENC_RUN, and at the first refill of BR_BIT, HDR_RD, DEC_SYM and DEC_RUN, the bits still buffered
being delivered before it. DEC_RUN emits the symbols whose codes were buffered. -/
def Obligations.ClosedSourceRaisesIOUnavailable : Prop :=
  (∀ s failed : State, Ready s → ReleaseAnswered failed →
    (s.eng.br.isOpen = false ∧ failed = s ∨
      s.eng.br.isOpen = true ∧ nextAnswerOf s = .ioErr ∧ failed = { s with env := afterCalls 1 s.env }) →
    let drained : BitReader := { s.eng.br with pos := 8#4 }
    exec .ftScan s = .next (faultState .ioUnavailable failed) ∧
    (s.eng.book.done = true → exec .encRun s = .next (faultState .ioUnavailable failed)) ∧
    (s.eng.br.eos = false → s.eng.br.pos = 8#4 → exec .brBit s = .next (faultState .ioUnavailable failed)) ∧
    (s.eng.br.eos = false → s.eng.br.pos.toNat ≤ 8 →
      exec .hdrRd s
        = .next (faultState .ioUnavailable { failed with eng := { treeDropped s.eng with br := drained } })) ∧
    ∀ n : Node, s.eng.br.eos = false → s.eng.br.pos.toNat ≤ 8 → s.eng.tree.phase = .done →
      s.eng.tree.rootValid = true → s.eng.dec.rem ≠ 0#32 →
      follow s.eng s.eng.tree.root (buffered s.eng.br) = some n → isLeaf n = false →
      let stopped : State :=
        { failed with eng := { s.eng with br := drained, dec := { cur := n, rem := s.eng.dec.rem } } }
      exec .decSym s = .next (faultState .ioUnavailable stopped) ∧
      exec .decRun s = .next (faultState .ioUnavailable stopped)) ∧
  ∀ (s : State) (out : List Byte) (code : Nat → List Bool) (tail : List Bool) (n : Node), Ready s → IoOk s →
    s.eng.br.isOpen = false → s.eng.br.eos = false → s.eng.br.pos.toNat ≤ 8 → s.eng.bw.isOpen = true →
    s.eng.tree.phase = .done → s.eng.tree.rootValid = true → out.length < s.eng.dec.rem.toNat →
    (∀ b ∈ out, IsPath s.eng b.toNat (code b.toNat)) → buffered s.eng.br = payloadBits code out ++ tail →
    follow s.eng s.eng.tree.root tail = some n → isLeaf n = false →
    exec .decRun s = .next (faultState .ioUnavailable
      { s with
        eng :=
          { s.eng with
            br := { s.eng.br with pos := 8#4 }
            dec := { cur := n, rem := s.eng.dec.rem - BitVec.ofNat 32 out.length } }
        env := { afterCalls out.length s.env with snk := s.env.snk ++ out } })

/-! ### Compression -/

/-- `44_compress.md` R198, R196, R197: HDR_WR writes the 256 counts in ascending symbol order and the total, 32
bits each, most significant first, from whatever bit position the writer stands at; after SNK_OPEN it leaves
exactly the 1028 bytes of the header in the sink and nothing waiting. -/
def Obligations.HdrWrWritesHeaderBits : Prop :=
  ∀ s : State, Ready s → IoOk s →
    (s.eng.bw.isOpen = true → WriterOk s.eng.bw →
      let bits := waiting s.eng.bw ++ streamBits (headerBytes (ftGet s.eng) s.eng.scan.total)
      exec .hdrWr s = .next (answeredOk 0#32
        { s with
          eng := { s.eng with bw := writerHolding (restBits bits) }
          env := { afterCalls 1028 s.env with snk := s.env.snk ++ wholeBytes bits } })) ∧
    (s.eng.bw.isOpen = false →
      ∃ t : State, execAll [.snkOpen, .hdrWr] s = .next t ∧
        t.env.snk = headerBytes (ftGet s.eng) s.eng.scan.total ∧ t.env.snk.length = 1028 ∧
        t.eng.bw = { buf := 0#8, cnt := 0#3, isOpen := true } ∧ t.host.rsp = some .ok)

/-- `44_compress.md` R201: ENC_SYM writes the code of its symbol, first bit first, and answers its length; an
empty code writes nothing, with the sink closed too. -/
def Obligations.EncSymEmitsCode : Prop :=
  ∀ (s : State) (a : Byte) (code : List Bool), Ready s → IoOk s → s.eng.book.done = true →
    cbGet s.eng a.toNat = some code → code.length ≤ 255 →
    (code = [] → exec (.encSym a) s = .next (answeredOk 0#32 s)) ∧
    (s.eng.bw.isOpen = true → WriterOk s.eng.bw →
      let bits := waiting s.eng.bw ++ code
      exec (.encSym a) s = .next (answeredOk (BitVec.ofNat 32 code.length)
        { s with
          eng := { s.eng with bw := writerHolding (restBits bits) }
          env := { afterCalls (bits.length / 8) s.env with snk := s.env.snk ++ wholeBytes bits } }))

/-- `44_compress.md` R203: ENC_RUN writes the codes of the rest of the source's bytes in order and leaves the
last bits waiting. -/
def Obligations.EncRunEncodesTheRest : Prop :=
  ∀ s : State, Ready s → IoOk s → s.eng.book.done = true → s.eng.br.isOpen = true →
    s.eng.bw.isOpen = true → WriterOk s.eng.bw →
    let rest := s.env.src.drop s.env.srcPos
    (∀ b ∈ rest, cbHas s.eng b.toNat = true) →
    let bits := waiting s.eng.bw ++ payloadBits (cbCode s.eng) rest
    exec .encRun s = .next (answeredOk 0#32
      { s with
        eng := { s.eng with bw := writerHolding (restBits bits) }
        env :=
          { afterCalls (rest.length + 1 + bits.length / 8) s.env with
            srcPos := s.env.srcPos + rest.length, snk := s.env.snk ++ wholeBytes bits } })

/-- `44_compress.md` R209, R207: COMPRESS of any input of at most `2^32 − 1` bytes, with both streams closed and
every call answered, responds OK and writes the compressed stream of `30_encoding.md` R105 to R108: the header
of the input's counts, then its bytes' codes, zero-padded, `1028 + ceil(P / 8)` bytes in all; it answers the
input's length and leaves both streams closed. The codes are the paths of the tree (`43_codebook.md` R180) that
HT_BUILD makes of the input's counts, in any block that holds them. -/
def Obligations.CompressWritesTheStream : Prop :=
  ∀ s : State, Ready s → IoOk s → s.eng.br.isOpen = false → s.eng.bw.isOpen = false →
    s.env.src.length < 2 ^ 32 →
    ∃ t : State, exec .compress s = .next t ∧ t.host = { s.host with rsp := some .ok } ∧
      t.eng.stat = { s.eng.stat with result := BitVec.ofNat 32 s.env.src.length } ∧
      t.env.snk
        = headerBytes (countOf s.env.src) (BitVec.ofNat 32 s.env.src.length)
          ++ paddedBytes (payloadBits (cbCode t.eng) s.env.src) ∧
      t.env.snk.length
        = 1028 + (((List.range 256).map fun x => (ftGet t.eng x).toNat * (cbLen t.eng x).toNat).sum + 7) / 8 ∧
      t.env.snkDone = true ∧ t.env.src = s.env.src ∧
      (∀ x, x < 256 → ftGet t.eng x = countOf s.env.src x) ∧
      t.eng.scan.total = BitVec.ofNat 32 s.env.src.length ∧
      (∀ x, x < 256 → (cbHas t.eng x = true ↔ x ∈ s.env.src.map BitVec.toNat)) ∧
      (∀ b u : State, Ready b → (∀ x, x < 256 → ftGet b.eng x = countOf s.env.src x) → exec .htBuild b = .next u →
        ∀ x path, x < 256 →
          (cbGet t.eng x = some path ↔ u.eng.tree.rootValid = true ∧ IsPath u.eng x path)) ∧
      t.eng.tree.phase = .done ∧ t.eng.book.done = true ∧ t.eng.dec = s.eng.dec ∧
      t.eng.bw = { buf := 0#8, cnt := 0#3, isOpen := false } ∧
      t.eng.br = { buf := 0#8, pos := 8#4, eos := false, isOpen := false }

/-! ### Decompression -/

/-- `45_decompress.md` R217: HDR_RD loads the 256 counts and the total from the next 8224 bits of the reader,
drops the tree, and sets `dec_rem` and its answer to the total, when the total is the exact sum. -/
def Obligations.HdrRdLoadsHeader : Prop :=
  ∀ (s : State) (ft : Nat → U32) (total : U32) (rest : List Bool), Ready s → IoOk s → ReaderOk s →
    s.eng.br.isOpen = true → unread s = streamBits (headerBytes ft total) ++ rest →
    ((List.range 256).map fun x => (ft x).toNat).sum = total.toNat →
    ∃ t : State, exec .hdrRd s = .next t ∧
      (∀ x, x < 256 → ftGet t.eng x = ft x) ∧ t.eng.scan.total = total ∧ unread t = rest ∧
      t = answeredOk total
        { s with
          eng :=
            treeDropped
              { s.eng with scan := t.eng.scan, br := t.eng.br, dec := { s.eng.dec with rem := total } }
          env := { s.env with srcPos := t.env.srcPos, answers := t.env.answers } }

/-- `45_decompress.md` R217, R218, R227, `30_encoding.md` R111, `60_exceptions.md` R264: a source that ends inside
the header, or a total that is not the exact sum of the counts, raises `CorruptHeader`; the sink gets nothing,
`dec_rem` stays, the tree is dropped, and the total is loaded only where all words were read. DECOMPRESS of such
a source leaves the sink and its finished mark as they were. -/
def Obligations.BadHeadersAreCorrupt : Prop :=
  ∀ s : State, Ready s → IoOk s →
    (ReaderOk s → s.eng.br.isOpen = true →
      ((unread s).length < 8224 →
        ∃ t : State, exec .hdrRd s = .next t ∧ t.host.rsp = some .fault ∧ t.eng.stat.err = 2#3 ∧
          t.eng.scan.total = s.eng.scan.total ∧ t.eng.dec = s.eng.dec ∧ t.eng.tree.phase = .none ∧
          t.env.snk = s.env.snk) ∧
      (∀ (ft : Nat → U32) (total : U32) (rest : List Bool),
        unread s = streamBits (headerBytes ft total) ++ rest →
        ((List.range 256).map fun x => (ft x).toNat).sum ≠ total.toNat →
        ∃ t : State, exec .hdrRd s = .next t ∧ t.host.rsp = some .fault ∧ t.eng.stat.err = 2#3 ∧
          t.eng.scan.total = total ∧ (∀ x, x < 256 → ftGet t.eng x = ft x) ∧ t.eng.dec = s.eng.dec ∧
          t.eng.tree.phase = .none ∧ t.env.snk = s.env.snk)) ∧
    (s.eng.br.isOpen = false → s.eng.bw.isOpen = false →
      (s.env.src.length < 1028 ∨
        ∃ (ft : Nat → U32) (total : U32) (after : List Byte), s.env.src = headerBytes ft total ++ after ∧
          ((List.range 256).map fun x => (ft x).toNat).sum ≠ total.toNat) →
      ∃ t : State, exec .decompress s = .next t ∧ t.host.rsp = some .fault ∧ t.eng.stat.err = 2#3 ∧
        t.env.snk = s.env.snk ∧ t.env.snkDone = s.env.snkDone ∧ t.env.src = s.env.src)

/-- `45_decompress.md` R223: DEC_SYM takes the bits of one path from the root to a leaf, emits the leaf's symbol
whole, and counts it; nothing is read for a lone leaf. -/
def Obligations.DecSymEmitsSymbol : Prop :=
  ∀ (s : State) (x : Nat) (path rest : List Bool), Ready s → IoOk s → ReaderOk s →
    s.eng.tree.phase = .done → s.eng.tree.rootValid = true → s.eng.dec.rem ≠ 0#32 →
    s.eng.bw.isOpen = true → (s.eng.br.isOpen = true ∨ path.length ≤ 8 - s.eng.br.pos.toNat) →
    x < 256 → IsPath s.eng x path → unread s = path ++ rest →
    ∃ t : State, exec .decSym s = .next t ∧ unread t = rest ∧
      t = answeredOk (BitVec.ofNat 32 x)
        { s with
          eng :=
            { s.eng with
              br := t.eng.br, dec := { cur := s.eng.tree.root, rem := s.eng.dec.rem - 1#32 } }
          env :=
            { s.env with
              srcPos := t.env.srcPos, snk := s.env.snk ++ [BitVec.ofNat 8 x], answers := t.env.answers } }

/-- `45_decompress.md` R223, R224, `60_exceptions.md` R264: bits that end on an internal node raise
`TruncatedStream`; the sink keeps what it has and is released, `incomplete` is set, `dec_rem` stays and
`dec_cur` is the node at which the bits ran out. -/
def Obligations.DecSymTruncatedStream : Prop :=
  ∀ (s : State) (n : Node), Ready s → IoOk s → ReaderOk s →
    s.eng.tree.phase = .done → s.eng.tree.rootValid = true → s.eng.dec.rem ≠ 0#32 →
    (s.eng.br.isOpen = true ∨ s.eng.br.eos = true) → follow s.eng s.eng.tree.root (unread s) = some n → isLeaf n = false →
    ∃ t : State, exec .decSym s = .next t ∧ t.host.rsp = some .fault ∧
      t.eng.stat = { err := 3#3, fault := true, incomplete := true, result := 0#32 } ∧
      t.eng.dec = { cur := n, rem := s.eng.dec.rem } ∧
      t.eng.br.eos = true ∧ t.eng.br.pos = 8#4 ∧ t.eng.br.isOpen = false ∧ t.eng.bw.isOpen = false ∧
      t.env.snk = s.env.snk ∧ t.env.snkDone = (s.env.snkDone || s.eng.bw.isOpen) ∧
      t.eng.tree = s.eng.tree ∧ t.eng.scan = s.eng.scan ∧ t.eng.book = s.eng.book

/-- `45_decompress.md` R222, R223, `60_exceptions.md` R264: with the sink closed DEC_SYM walks to its leaf first
and then raises `StreamClosed`; the bits are consumed, `dec_cur` is the leaf and `dec_rem` is not lowered. -/
def Obligations.DecSymClosedSink : Prop :=
  ∀ (s : State) (x : Nat) (path rest : List Bool), Ready s → IoOk s → ReaderOk s →
    s.eng.tree.phase = .done → s.eng.tree.rootValid = true → s.eng.dec.rem ≠ 0#32 →
    s.eng.bw.isOpen = false → (s.eng.br.isOpen = true ∨ path.length ≤ 8 - s.eng.br.pos.toNat) →
    x < 256 → IsPath s.eng x path → unread s = path ++ rest →
    ∃ t : State, exec .decSym s = .next t ∧ t.host.rsp = some .fault ∧ t.eng.stat.err = 4#3 ∧
      t.eng.dec = { cur := leafOf x, rem := s.eng.dec.rem } ∧ unread t = rest ∧ t.env.snk = s.env.snk

/-- `45_decompress.md` R225, R226: DEC_RUN emits exactly `dec_rem` symbols and stops there: whatever follows the
last code is left unread; with none left it does nothing. -/
def Obligations.DecRunDecodesExactly : Prop :=
  ∀ (s : State) (input : List Byte) (code : Nat → List Bool) (rest : List Bool),
    Ready s → IoOk s → ReaderOk s → s.eng.tree.phase = .done →
    s.eng.dec.rem.toNat = input.length →
    (input = [] → exec .decRun s = .next (answeredOk 0#32 s)) ∧
    (input ≠ [] → s.eng.tree.rootValid = true → s.eng.bw.isOpen = true →
      (s.eng.br.isOpen = true ∨ (payloadBits code input).length ≤ 8 - s.eng.br.pos.toNat) →
      (∀ b ∈ input, IsPath s.eng b.toNat (code b.toNat)) →
      unread s = payloadBits code input ++ rest →
      ∃ t : State, exec .decRun s = .next t ∧ unread t = rest ∧
        t = answeredOk 0#32
          { s with
            eng := { s.eng with br := t.eng.br, dec := { cur := s.eng.tree.root, rem := 0#32 } }
            env := { s.env with srcPos := t.env.srcPos, snk := s.env.snk ++ input, answers := t.env.answers } })

/-- `45_decompress.md` R227, `42_tree.md` R167, `43_codebook.md` R180: DECOMPRESS of a header followed by the codes
of an input, with anything after them, writes that input, where the header's counts add up to the input's length
and the codes are paths of the tree HT_BUILD makes of the header's counts in any block that holds them. -/
def Obligations.DecompressDecodesStream : Prop :=
  ∀ (s b u : State) (total : U32) (input payload : List Byte) (code : Nat → List Bool) (rest : List Bool),
    Ready b → exec .htBuild b = .next u →
    ((List.range 256).map fun x => (ftGet b.eng x).toNat).sum = total.toNat → total.toNat = input.length →
    (∀ y ∈ input, IsPath u.eng y.toNat (code y.toNat)) → (input ≠ [] → u.eng.tree.rootValid = true) →
    streamBits payload = payloadBits code input ++ rest →
    Ready s → IoOk s → s.eng.br.isOpen = false → s.eng.bw.isOpen = false →
    s.env.src = headerBytes (ftGet b.eng) total ++ payload →
    ∃ t : State, exec .decompress s = .next t ∧ t.host = { s.host with rsp := some .ok } ∧
      t.eng.stat = { s.eng.stat with result := total } ∧ t.env.snk = input ∧ t.env.snkDone = true ∧
      t.env.src = s.env.src ∧ t.eng.dec.rem = 0#32 ∧ t.eng.scan.total = total ∧
      (∀ x, x < 256 → ftGet t.eng x = ftGet b.eng x) ∧ t.eng.book = { s.eng.book with done := false } ∧
      t.eng.bw = { buf := 0#8, cnt := 0#3, isOpen := false } ∧ t.eng.br.isOpen = false

/-- `45_decompress.md` R227, `43_codebook.md` R183: DECOMPRESS of the header of an input of one repeated symbol,
or of none, with anything after it, writes that input and reads no byte beyond the header. -/
def Obligations.DecompressOneSymbolStream : Prop :=
  ∀ (s : State) (x : Byte) (n : Nat) (after : List Byte), Ready s → IoOk s →
    s.eng.br.isOpen = false → s.eng.bw.isOpen = false → n < 2 ^ 32 →
    s.env.src
      = headerBytes (fun y => if y = x.toNat then BitVec.ofNat 32 n else 0#32) (BitVec.ofNat 32 n) ++ after →
    ∃ t : State, exec .decompress s = .next t ∧ t.host.rsp = some .ok ∧
      t.eng.stat.result = BitVec.ofNat 32 n ∧ t.env.snk = List.replicate n x ∧ t.env.snkDone = true ∧
      t.env.srcPos = 1028 ∧ t.eng.br.isOpen = false ∧ t.eng.bw.isOpen = false ∧ t.eng.dec.rem = 0#32

/-- `45_decompress.md` R228: DECOMPRESS of what COMPRESS wrote gives the input back, whatever the second block
did before. -/
def Obligations.DecompressOfCompress : Prop :=
  ∀ s t s' : State, Ready s → IoOk s → s.eng.br.isOpen = false → s.eng.bw.isOpen = false →
    s.env.src.length < 2 ^ 32 → exec .compress s = .next t →
    Ready s' → IoOk s' → s'.eng.br.isOpen = false → s'.eng.bw.isOpen = false → s'.env.src = t.env.snk →
    ∃ t' : State, exec .decompress s' = .next t' ∧ t.host.rsp = some .ok ∧ t'.host.rsp = some .ok ∧
      t'.env.snk = s.env.src ∧ t'.eng.stat.result = BitVec.ofNat 32 s.env.src.length

/-! ### The whole machine -/

/-- `60_exceptions.md` R261: a legal command raises no fault its row of the table leaves blank, under any
oracle and from any state. -/
def Obligations.FaultsAreThoseOfTheTable : Prop :=
  ∀ (i : Instr) (s t : State), i.wellFormed = true → Ready s → exec i s = .next t →
    t.host.rsp = some .fault → ∃ k, mayFault i k = true ∧ t.eng.stat.err = k.code

/-- `60_exceptions.md` R262, `20_memory.md` R89: after a FAULT response the block is in the fault state with a
code, `result` is 0, `incomplete` is set for `TruncatedStream` alone, and both streams are released: `snk_done` is
1 where the sink was open, and unchanged where it was not opened before the fault. Only the composites can have
opened it themselves. -/
def Obligations.FaultReleasesStreams : Prop :=
  ∀ (w : Command) (s t : State), Ready s → runCommand w s = .next t → t.host.rsp = some .fault →
    t.eng.stat.fault = true ∧ t.eng.stat.err ≠ 0#3 ∧ t.eng.stat.result = 0#32 ∧
      (t.eng.stat.incomplete = true ↔ t.eng.stat.err = 3#3) ∧
      t.eng.bw.isOpen = false ∧ t.eng.br.isOpen = false ∧
      (w ≠ 0xF000#16 ∧ w ≠ 0xF100#16 ∨ s.eng.bw.isOpen = true →
        t.env.snkDone = (s.env.snkDone || s.eng.bw.isOpen)) ∧
      (w = 0xF000#16 ∨ w = 0xF100#16 →
        t.env.snkDone = true ∨ t.env.snk = s.env.snk ∧ t.env.snkDone = s.env.snkDone)

/-- `70_reset_and_hazards.md` R290: a command that gets no response was abandoned by hardware reset: the block
is in its reset state, and the source's content is what it was. That hardware reset strikes at a call of the
environment, as an answer of its list, is the model's reading (log entry 5). -/
def Obligations.AbandonedCommandLeavesResetState : Prop :=
  ∀ (w : Command) (s t : State), runCommand w s = .next t → t.host.rsp = none →
    t.eng = Engine.reset ∧ t.env.src = s.env.src

/-- `20_memory.md` R61, R64, R60: no command changes the source's content; no command but SNK_OPEN and the two
composites empties the sink, every other one only appends to it; and the commands of the table, the tree, the
code book and the source append nothing. -/
def Obligations.StreamsChangeOnlyAsStated : Prop :=
  ∀ (i : Instr) (s t : State), exec i s = .next t →
    t.env.src = s.env.src ∧
    (i ≠ .snkOpen → i ≠ .compress → i ≠ .decompress → ∃ sent, t.env.snk = s.env.snk ++ sent) ∧
    (i ∈ [.nop, .reset, .srcOpen, .srcClose, .snkClose, .ftClr, .ftScan, .htInit, .htStep, .htBuild, .cbBuild,
        .brBit, .hdrRd] ∨ (∃ a, i = .ftInc a) →
      t.env.snk = s.env.snk)

/-- `70_reset_and_hazards.md` R301, R300: every command ends, under every oracle of `20_memory.md` R66, from every
state whose tables hold together; in no state at all does a command stop for a loop bound of the model (log entry
18); and a command one of whose calls, of any of the six primitives, is never answered does not end (log entry 6):
SRC_OPEN, SRC_CLOSE, BR_BIT, SNK_OPEN, SNK_CLOSE, BW_BIT, and RESET at each call of its release. -/
def Obligations.EveryCommandEnds : Prop :=
  (∀ (w : Command) (s : State),
    (Answering s → TablesInv s.eng → ∃ t : State, runCommand w s = .next t) ∧
    runCommand w s ≠ .fault .loopBoundExceeded) ∧
  ∀ (s : State) (a : BitVec 8), Ready s →
    let never : Host.Outcome State Fault Refusal := .fault .environmentSilent
    (nextAnswerOf s = .silent →
      (s.eng.br.isOpen = false → exec .srcOpen s = never) ∧
      (s.eng.br.isOpen = true → exec .srcClose s = never) ∧
      (s.eng.br.isOpen = true → s.eng.br.eos = false → s.eng.br.pos = 8#4 → exec .brBit s = never) ∧
      (s.eng.bw.isOpen = false → exec .snkOpen s = never) ∧
      (s.eng.bw.isOpen = true → exec .snkClose s = never) ∧
      (s.eng.bw.isOpen = true → s.eng.bw.cnt = 7#3 → a.toNat ≤ 1 → exec (.bwBit a) s = never) ∧
      (s.eng.bw.isOpen = true ∨ s.eng.br.isOpen = true → exec .reset s = never)) ∧
    (s.eng.bw.isOpen = true → s.eng.br.isOpen = true → NextAnswered s →
      nextAnswerOf { s with env := afterCalls 1 s.env } = .silent → exec .reset s = never)

/-- The invariant holds at reset. -/
def Obligations.ResetMeetsInvariant : Prop := Inv State.reset

/-- `10_state.md` R27 to R33, `20_memory.md` R87: every step keeps the tables canonical with every index in
range, the arena ordered, the queue's entries existing nodes, and the flags in agreement with them; and with
that, that a code book marked done is the one of the tree: every code the path to its symbol's leaf, and a code
for every leaf below the root. -/
def Obligations.StepKeepsTreeInvariant : Prop :=
  ∀ s t : State, step s = .next t →
    (TablesInv s.eng → TablesInv t.eng) ∧ (TreeInv s.eng → TreeInv t.eng)

/-- `10_state.md` R34, R36, R40: every step keeps the writer, the reader and the fault flags in order. -/
def Obligations.StepKeepsPortInvariant : Prop :=
  ∀ s t : State, PortInv s → step s = .next t → PortInv t

/-- `10_state.md` R25, `42_tree.md` R158, R164: every step keeps the whole invariant, the sum of the counts, the
heap property and the sum of the live weights included. -/
def Obligations.StepKeepsInvariant : Prop :=
  ∀ s t : State, Inv s → step s = .next t → Inv t
end

