-- ==== Sys2Proof/Laws/Bits.lean ====
section
/-! SUPPORT. Bits and bytes: a bit sequence as bytes and back, and the writer's buffer as a bit sequence. -/

namespace Sys2Proof.Machine

/-! ### Bits as a number -/

theorem bitsToNat_append (l m : List Bool) :
    bitsToNat (l ++ m) = bitsToNat l * 2 ^ m.length + bitsToNat m := by
  have gen : ∀ (m : List Bool) (a : Nat),
      m.foldl (fun acc b => 2 * acc + b.toNat) a = a * 2 ^ m.length + bitsToNat m := by
    intro m
    induction m with
    | nil => intro a; simp [bitsToNat]
    | cons b m ih =>
      intro a
      have h0 : bitsToNat (b :: m) = b.toNat * 2 ^ m.length + bitsToNat m := by
        rw [bitsToNat, List.foldl_cons, ih]; simp
      rw [List.foldl_cons, ih, h0, List.length_cons, pow_succ]
      ring
  rw [bitsToNat, List.foldl_append, gen]
  rfl

@[simp] theorem bitsToNat_nil : bitsToNat [] = 0 := rfl

theorem bitsToNat_snoc (l : List Bool) (b : Bool) : bitsToNat (l ++ [b]) = 2 * bitsToNat l + b.toNat := by
  rw [bitsToNat_append]
  cases b <;> simp [bitsToNat] <;> ring

theorem bitsToNat_lt (l : List Bool) : bitsToNat l < 2 ^ l.length := by
  induction l using List.reverseRecOn with
  | nil => simp
  | append_singleton l b ih =>
    rw [bitsToNat_snoc, List.length_append, List.length_singleton, pow_succ]
    cases b <;> simp <;> omega

theorem bitsToNat_testBit (l : List Bool) (i : Nat) (h : i < l.length) :
    (bitsToNat l).testBit (l.length - 1 - i) = l[i] := by
  induction l using List.reverseRecOn generalizing i with
  | nil => simp at h
  | append_singleton l b ih =>
    rw [bitsToNat_snoc]
    simp only [List.length_append, List.length_singleton] at h ⊢
    by_cases hi : i < l.length
    · have hk : l.length + 1 - 1 - i = (l.length - 1 - i) + 1 := by omega
      rw [hk, Nat.testBit_succ, List.getElem_append_left hi]
      have : (2 * bitsToNat l + b.toNat) / 2 = bitsToNat l := by cases b <;> simp <;> omega
      rw [this, ih i hi]
    · have hi' : i = l.length := by omega
      subst hi'
      simp only [Nat.add_sub_cancel, Nat.sub_self, Nat.testBit_zero]
      cases b <;> simp

/-! ### Whole bytes and what is left -/

theorem restBits_length (x : List Bool) : (restBits x).length = x.length % 8 := by
  simp only [restBits, List.length_drop]
  omega

theorem restBits_short {x : List Bool} (h : x.length < 8) : restBits x = x := by
  simp [restBits, Nat.div_eq_of_lt h]

theorem wholeBytes_short {x : List Bool} (h : x.length < 8) : wholeBytes x = [] := by
  unfold wholeBytes
  split
  · simp at h
    omega
  · rfl

theorem wholeBytes_cons8 (b7 b6 b5 b4 b3 b2 b1 b0 : Bool) (rest : List Bool) :
    wholeBytes (b7 :: b6 :: b5 :: b4 :: b3 :: b2 :: b1 :: b0 :: rest)
      = BitVec.ofNat 8 (bitsToNat [b7, b6, b5, b4, b3, b2, b1, b0]) :: wholeBytes rest := by
  rw [wholeBytes]

theorem restBits_cons8 (b7 b6 b5 b4 b3 b2 b1 b0 : Bool) (rest : List Bool) :
    restBits (b7 :: b6 :: b5 :: b4 :: b3 :: b2 :: b1 :: b0 :: rest) = restBits rest := by
  have h : (rest.length + 1 + 1 + 1 + 1 + 1 + 1 + 1 + 1) / 8 = rest.length / 8 + 1 := by omega
  simp only [restBits, List.length_cons, h, Nat.mul_add, Nat.mul_one, List.drop_succ_cons]

theorem short_of_no_eight {x : List Bool}
    (h : ∀ b7 b6 b5 b4 b3 b2 b1 b0 rest, x = b7 :: b6 :: b5 :: b4 :: b3 :: b2 :: b1 :: b0 :: rest → False) :
    x.length < 8 := by
  rcases x with _ | ⟨_, _ | ⟨_, _ | ⟨_, _ | ⟨_, _ | ⟨_, _ | ⟨_, _ | ⟨_, _ | ⟨_, x⟩⟩⟩⟩⟩⟩⟩⟩
  all_goals first | exact absurd rfl (fun hx => h _ _ _ _ _ _ _ _ _ hx) | simp

/-- Eight bits are one byte. -/
theorem wholeBytes_eight {x : List Bool} (h : x.length = 8) :
    wholeBytes x = [BitVec.ofNat 8 (bitsToNat x)] ∧ restBits x = [] := by
  match x, h with
  | [b7, b6, b5, b4, b3, b2, b1, b0], _ => exact ⟨by rw [wholeBytes_cons8, wholeBytes_short (by simp)],
    by rw [restBits_cons8]; rfl⟩

/-- Bits added to a sequence complete the byte its rest had begun. -/
theorem wholeBytes_append (x y : List Bool) :
    wholeBytes (x ++ y) = wholeBytes x ++ wholeBytes (restBits x ++ y) ∧
      restBits (x ++ y) = restBits (restBits x ++ y) := by
  induction x using wholeBytes.induct with
  | case1 b7 b6 b5 b4 b3 b2 b1 b0 rest ih =>
    simp only [List.cons_append, wholeBytes_cons8, restBits_cons8]
    exact ⟨by rw [ih.1], ih.2⟩
  | case2 x h =>
    have hx : x.length < 8 := short_of_no_eight h
    rw [wholeBytes_short hx, restBits_short hx]
    exact ⟨rfl, rfl⟩

theorem wholeBytes_length (x : List Bool) : (wholeBytes x).length = x.length / 8 := by
  induction x using wholeBytes.induct with
  | case1 b7 b6 b5 b4 b3 b2 b1 b0 rest ih =>
    rw [wholeBytes_cons8]
    simp only [List.length_cons, ih]
    omega
  | case2 x h =>
    have hx : x.length < 8 := short_of_no_eight h
    rw [wholeBytes_short hx, Nat.div_eq_of_lt hx]
    rfl

@[simp] theorem byteBits_length (b : Byte) : (byteBits b).length = 8 := by simp [byteBits]

theorem byteBits_eq (b : Byte) :
    byteBits b = [b.getLsbD 7, b.getLsbD 6, b.getLsbD 5, b.getLsbD 4, b.getLsbD 3, b.getLsbD 2, b.getLsbD 1,
      b.getLsbD 0] := by
  simp [byteBits, List.range_succ]

@[simp] theorem streamBits_nil : streamBits [] = [] := rfl
@[simp] theorem streamBits_cons (b : Byte) (l : List Byte) :
    streamBits (b :: l) = byteBits b ++ streamBits l := by simp [streamBits]
@[simp] theorem streamBits_append (l m : List Byte) :
    streamBits (l ++ m) = streamBits l ++ streamBits m := by simp [streamBits]
@[simp] theorem streamBits_length (l : List Byte) : (streamBits l).length = 8 * l.length := by
  induction l with
  | nil => rfl
  | cons b l ih => simp [ih]; omega

/-- The byte of the bits of a byte is that byte. -/
theorem ofNat_byteBits (b : Byte) : BitVec.ofNat 8 (bitsToNat (byteBits b)) = b := by
  revert b
  decide

/-- The bytes of the bits of a byte sequence are that sequence, with no bit left. -/
theorem wholeBytes_streamBits (l : List Byte) :
    wholeBytes (streamBits l) = l ∧ restBits (streamBits l) = [] := by
  induction l with
  | nil => exact ⟨wholeBytes_short (by simp), rfl⟩
  | cons b l ih =>
    have h8 := wholeBytes_eight (byteBits_length b)
    have ha := wholeBytes_append (byteBits b) (streamBits l)
    rw [h8.2, List.nil_append] at ha
    rw [streamBits_cons, ha.1, ha.2, h8.1, ofNat_byteBits, ih.1]
    exact ⟨rfl, ih.2⟩

/-- The bits of the bytes of a bit sequence, and what is left, are that sequence. -/
theorem streamBits_wholeBytes (x : List Bool) : streamBits (wholeBytes x) ++ restBits x = x := by
  induction x using wholeBytes.induct with
  | case1 b7 b6 b5 b4 b3 b2 b1 b0 rest ih =>
    rw [wholeBytes_cons8, restBits_cons8, streamBits_cons, List.append_assoc, ih]
    have : byteBits (BitVec.ofNat 8 (bitsToNat [b7, b6, b5, b4, b3, b2, b1, b0]))
        = [b7, b6, b5, b4, b3, b2, b1, b0] := by
      revert b7 b6 b5 b4 b3 b2 b1 b0
      decide
    rw [this]
    rfl
  | case2 x h =>
    have hx : x.length < 8 := short_of_no_eight h
    rw [wholeBytes_short hx, restBits_short hx]
    rfl

/-- The 32 bits of a word, bit 31 first, are those of its four bytes, big-endian (`20_memory.md` R70). -/
theorem wordBits_eq (w : U32) : wordBits w = streamBits (wordBytes w) := by
  simp [wordBits, wordBytes, byteBits, List.range_succ]

/-! ### The writer's buffer as a bit sequence -/

@[simp] theorem waiting_length (w : BitWriter) : (waiting w).length = w.cnt.toNat := by simp [waiting]

theorem waiting_getElem (w : BitWriter) (i : Nat) (h : i < (waiting w).length) :
    (waiting w)[i] = w.buf.getLsbD (w.cnt.toNat - 1 - i) := by simp [waiting]

theorem waiting_lt (w : BitWriter) : (waiting w).length < 8 := by
  have := w.cnt.isLt
  simpa using this

/-- The number in the buffer is that of the bits waiting, where nothing stands above them. -/
theorem bitsToNat_waiting {w : BitWriter} (h : w.buf.toNat < 2 ^ w.cnt.toNat) :
    bitsToNat (waiting w) = w.buf.toNat := by
  apply Nat.eq_of_testBit_eq
  intro j
  by_cases hj : j < w.cnt.toNat
  · have hi : w.cnt.toNat - 1 - j < (waiting w).length := by rw [waiting_length]; omega
    have := bitsToNat_testBit (waiting w) _ hi
    rw [waiting_length, waiting_getElem] at this
    have hk : w.cnt.toNat - 1 - (w.cnt.toNat - 1 - j) = j := by omega
    rw [hk] at this
    rw [this]
    rfl
  · have h1 := bitsToNat_lt (waiting w)
    rw [waiting_length] at h1
    have hp : 2 ^ w.cnt.toNat ≤ 2 ^ j := Nat.pow_le_pow_right (by omega) (by omega)
    rw [Nat.testBit_lt_two_pow (by omega), Nat.testBit_lt_two_pow (by omega)]

theorem waiting_writerHolding {bits : List Bool} (h : bits.length < 8) : waiting (writerHolding bits) = bits := by
  have hc : (writerHolding bits).cnt.toNat = bits.length := by
    simp [writerHolding]
    omega
  apply List.ext_getElem
  · rw [waiting_length, hc]
  · intro i h1 h2
    rw [waiting_getElem, hc]
    have hb := bitsToNat_lt bits
    have hp : 2 ^ bits.length ≤ 2 ^ 8 := Nat.pow_le_pow_right (by omega) (by omega)
    have : (writerHolding bits).buf.toNat = bitsToNat bits := by
      simp [writerHolding]
      omega
    rw [← bitsToNat_testBit bits i h2, ← this]
    rfl

/-- A writer of the form the machine keeps is the one that holds its waiting bits. -/
theorem writerHolding_waiting {w : BitWriter} (h : w.buf.toNat < 2 ^ w.cnt.toNat) (ho : w.isOpen = true) :
    writerHolding (waiting w) = w := by
  rcases w with ⟨buf, cnt, isOpen⟩
  simp only at ho
  have hb := bitsToNat_waiting h
  simp [writerHolding, ho] at hb ⊢
  rw [hb]
  simp

theorem writerHolding_ok {bits : List Bool} (h : bits.length < 8) : WriterOk (writerHolding bits) := by
  have hb := bitsToNat_lt bits
  have hp : 2 ^ bits.length ≤ 2 ^ 8 := Nat.pow_le_pow_right (by omega) (by omega)
  constructor
  · have h1 : (writerHolding bits).buf.toNat = bitsToNat bits := by
      simp [writerHolding]
      omega
    have h2 : (writerHolding bits).cnt.toNat = bits.length := by
      simp [writerHolding]
      omega
    rw [h1, h2]
    exact hb
  · intro hc
    cases hc

end Sys2Proof.Machine
end

