-- ==== Sys2Proof/Laws/State.lean ====
section
/-! SUPPORT. One lemma per part of the state per update, all true by definition: simp normalises a read of an
updated state with them, and the `_eq` lemmas turn an update into a record update where a whole state is
compared. -/

namespace Sys2Proof.Machine

/-! ### The three parts of the state -/

theorem modEngine_eq (f : Engine → Engine) (s : State) : modEngine f s = { s with eng := f s.eng } := rfl
@[simp] theorem modEngine_eng (f : Engine → Engine) (s : State) : (modEngine f s).eng = f s.eng := rfl
@[simp] theorem modEngine_env (f : Engine → Engine) (s : State) : (modEngine f s).env = s.env := rfl
@[simp] theorem modEngine_host (f : Engine → Engine) (s : State) : (modEngine f s).host = s.host := rfl

theorem modEnviron_eq (f : Env → Env) (s : State) : modEnviron f s = { s with env := f s.env } := rfl
@[simp] theorem modEnviron_eng (f : Env → Env) (s : State) : (modEnviron f s).eng = s.eng := rfl
@[simp] theorem modEnviron_env (f : Env → Env) (s : State) : (modEnviron f s).env = f s.env := rfl
@[simp] theorem modEnviron_host (f : Env → Env) (s : State) : (modEnviron f s).host = s.host := rfl

theorem modHost_eq (f : HostPort → HostPort) (s : State) : modHost f s = { s with host := f s.host } := rfl
@[simp] theorem modHost_eng (f : HostPort → HostPort) (s : State) : (modHost f s).eng = s.eng := rfl
@[simp] theorem modHost_env (f : HostPort → HostPort) (s : State) : (modHost f s).env = s.env := rfl
@[simp] theorem modHost_host (f : HostPort → HostPort) (s : State) : (modHost f s).host = f s.host := rfl

theorem setAnswers_eq (l : List Answer) (s : State) :
    setAnswers l s = { s with env := { s.env with answers := l } } := rfl
@[simp] theorem setAnswers_eng (l : List Answer) (s : State) : (setAnswers l s).eng = s.eng := rfl
@[simp] theorem setAnswers_env (l : List Answer) (s : State) :
    (setAnswers l s).env = { s.env with answers := l } := rfl
@[simp] theorem setAnswers_host (l : List Answer) (s : State) : (setAnswers l s).host = s.host := rfl
@[simp] theorem advanceSource_eq (v : Env) : advanceSource v = { v with srcPos := v.srcPos + 1 } := rfl
@[simp] theorem respond_eng (r : Response) (s : State) : (respond r s).eng = s.eng := rfl
@[simp] theorem respond_env (r : Response) (s : State) : (respond r s).env = s.env := rfl
@[simp] theorem respond_host (r : Response) (s : State) :
    (respond r s).host = { s.host with rsp := some r } := rfl
@[simp] theorem hwReset_eng (s : State) : (hwReset s).eng = Engine.reset := rfl
@[simp] theorem hwReset_env (s : State) : (hwReset s).env = s.env := rfl
@[simp] theorem hwReset_host (s : State) : (hwReset s).host = { s.host with rsp := none } := rfl
@[simp] theorem withMoves_eng (ms : List HostMove) (s : State) : (withMoves ms s).eng = s.eng := rfl
@[simp] theorem withMoves_env (ms : List HostMove) (s : State) : (withMoves ms s).env = s.env := rfl
@[simp] theorem withMoves_host (ms : List HostMove) (s : State) :
    (withMoves ms s).host = { s.host with moves := ms } := rfl

/-! ### The units of the block -/

theorem modScan_eq (f : Scanner → Scanner) (e : Engine) : modScan f e = { e with scan := f e.scan } := rfl
@[simp] theorem modScan_scan (f : Scanner → Scanner) (e : Engine) : (modScan f e).scan = f e.scan := rfl
@[simp] theorem modScan_tree (f : Scanner → Scanner) (e : Engine) : (modScan f e).tree = e.tree := rfl
@[simp] theorem modScan_book (f : Scanner → Scanner) (e : Engine) : (modScan f e).book = e.book := rfl
@[simp] theorem modScan_bw (f : Scanner → Scanner) (e : Engine) : (modScan f e).bw = e.bw := rfl
@[simp] theorem modScan_br (f : Scanner → Scanner) (e : Engine) : (modScan f e).br = e.br := rfl
@[simp] theorem modScan_dec (f : Scanner → Scanner) (e : Engine) : (modScan f e).dec = e.dec := rfl
@[simp] theorem modScan_stat (f : Scanner → Scanner) (e : Engine) : (modScan f e).stat = e.stat := rfl

theorem modTree_eq (f : Builder → Builder) (e : Engine) : modTree f e = { e with tree := f e.tree } := rfl
@[simp] theorem modTree_scan (f : Builder → Builder) (e : Engine) : (modTree f e).scan = e.scan := rfl
@[simp] theorem modTree_tree (f : Builder → Builder) (e : Engine) : (modTree f e).tree = f e.tree := rfl
@[simp] theorem modTree_book (f : Builder → Builder) (e : Engine) : (modTree f e).book = e.book := rfl
@[simp] theorem modTree_bw (f : Builder → Builder) (e : Engine) : (modTree f e).bw = e.bw := rfl
@[simp] theorem modTree_br (f : Builder → Builder) (e : Engine) : (modTree f e).br = e.br := rfl
@[simp] theorem modTree_dec (f : Builder → Builder) (e : Engine) : (modTree f e).dec = e.dec := rfl
@[simp] theorem modTree_stat (f : Builder → Builder) (e : Engine) : (modTree f e).stat = e.stat := rfl

theorem modBook_eq (f : CodeBook → CodeBook) (e : Engine) : modBook f e = { e with book := f e.book } := rfl
@[simp] theorem modBook_scan (f : CodeBook → CodeBook) (e : Engine) : (modBook f e).scan = e.scan := rfl
@[simp] theorem modBook_tree (f : CodeBook → CodeBook) (e : Engine) : (modBook f e).tree = e.tree := rfl
@[simp] theorem modBook_book (f : CodeBook → CodeBook) (e : Engine) : (modBook f e).book = f e.book := rfl
@[simp] theorem modBook_bw (f : CodeBook → CodeBook) (e : Engine) : (modBook f e).bw = e.bw := rfl
@[simp] theorem modBook_br (f : CodeBook → CodeBook) (e : Engine) : (modBook f e).br = e.br := rfl
@[simp] theorem modBook_dec (f : CodeBook → CodeBook) (e : Engine) : (modBook f e).dec = e.dec := rfl
@[simp] theorem modBook_stat (f : CodeBook → CodeBook) (e : Engine) : (modBook f e).stat = e.stat := rfl

theorem modBw_eq (f : BitWriter → BitWriter) (e : Engine) : modBw f e = { e with bw := f e.bw } := rfl
@[simp] theorem modBw_scan (f : BitWriter → BitWriter) (e : Engine) : (modBw f e).scan = e.scan := rfl
@[simp] theorem modBw_tree (f : BitWriter → BitWriter) (e : Engine) : (modBw f e).tree = e.tree := rfl
@[simp] theorem modBw_book (f : BitWriter → BitWriter) (e : Engine) : (modBw f e).book = e.book := rfl
@[simp] theorem modBw_bw (f : BitWriter → BitWriter) (e : Engine) : (modBw f e).bw = f e.bw := rfl
@[simp] theorem modBw_br (f : BitWriter → BitWriter) (e : Engine) : (modBw f e).br = e.br := rfl
@[simp] theorem modBw_dec (f : BitWriter → BitWriter) (e : Engine) : (modBw f e).dec = e.dec := rfl
@[simp] theorem modBw_stat (f : BitWriter → BitWriter) (e : Engine) : (modBw f e).stat = e.stat := rfl

theorem modBr_eq (f : BitReader → BitReader) (e : Engine) : modBr f e = { e with br := f e.br } := rfl
@[simp] theorem modBr_scan (f : BitReader → BitReader) (e : Engine) : (modBr f e).scan = e.scan := rfl
@[simp] theorem modBr_tree (f : BitReader → BitReader) (e : Engine) : (modBr f e).tree = e.tree := rfl
@[simp] theorem modBr_book (f : BitReader → BitReader) (e : Engine) : (modBr f e).book = e.book := rfl
@[simp] theorem modBr_bw (f : BitReader → BitReader) (e : Engine) : (modBr f e).bw = e.bw := rfl
@[simp] theorem modBr_br (f : BitReader → BitReader) (e : Engine) : (modBr f e).br = f e.br := rfl
@[simp] theorem modBr_dec (f : BitReader → BitReader) (e : Engine) : (modBr f e).dec = e.dec := rfl
@[simp] theorem modBr_stat (f : BitReader → BitReader) (e : Engine) : (modBr f e).stat = e.stat := rfl

theorem modDec_eq (f : Decoder → Decoder) (e : Engine) : modDec f e = { e with dec := f e.dec } := rfl
@[simp] theorem modDec_scan (f : Decoder → Decoder) (e : Engine) : (modDec f e).scan = e.scan := rfl
@[simp] theorem modDec_tree (f : Decoder → Decoder) (e : Engine) : (modDec f e).tree = e.tree := rfl
@[simp] theorem modDec_book (f : Decoder → Decoder) (e : Engine) : (modDec f e).book = e.book := rfl
@[simp] theorem modDec_bw (f : Decoder → Decoder) (e : Engine) : (modDec f e).bw = e.bw := rfl
@[simp] theorem modDec_br (f : Decoder → Decoder) (e : Engine) : (modDec f e).br = e.br := rfl
@[simp] theorem modDec_dec (f : Decoder → Decoder) (e : Engine) : (modDec f e).dec = f e.dec := rfl
@[simp] theorem modDec_stat (f : Decoder → Decoder) (e : Engine) : (modDec f e).stat = e.stat := rfl

theorem modStat_eq (f : Status → Status) (e : Engine) : modStat f e = { e with stat := f e.stat } := rfl
@[simp] theorem modStat_scan (f : Status → Status) (e : Engine) : (modStat f e).scan = e.scan := rfl
@[simp] theorem modStat_tree (f : Status → Status) (e : Engine) : (modStat f e).tree = e.tree := rfl
@[simp] theorem modStat_book (f : Status → Status) (e : Engine) : (modStat f e).book = e.book := rfl
@[simp] theorem modStat_bw (f : Status → Status) (e : Engine) : (modStat f e).bw = e.bw := rfl
@[simp] theorem modStat_br (f : Status → Status) (e : Engine) : (modStat f e).br = e.br := rfl
@[simp] theorem modStat_dec (f : Status → Status) (e : Engine) : (modStat f e).dec = e.dec := rfl
@[simp] theorem modStat_stat (f : Status → Status) (e : Engine) : (modStat f e).stat = f e.stat := rfl

/-! ### The registers -/

theorem setWaiting_eq (v : Byte) (c : BitVec 3) (e : Engine) :
    setWaiting v c e = { e with bw := { buf := v, cnt := c, isOpen := e.bw.isOpen } } := rfl
@[simp] theorem setWaiting_scan (v : Byte) (c : BitVec 3) (e : Engine) :
    (setWaiting v c e).scan = e.scan := rfl
@[simp] theorem setWaiting_tree (v : Byte) (c : BitVec 3) (e : Engine) :
    (setWaiting v c e).tree = e.tree := rfl
@[simp] theorem setWaiting_book (v : Byte) (c : BitVec 3) (e : Engine) :
    (setWaiting v c e).book = e.book := rfl
@[simp] theorem setWaiting_bw (v : Byte) (c : BitVec 3) (e : Engine) :
    (setWaiting v c e).bw = { buf := v, cnt := c, isOpen := e.bw.isOpen } := rfl
@[simp] theorem setWaiting_br (v : Byte) (c : BitVec 3) (e : Engine) :
    (setWaiting v c e).br = e.br := rfl
@[simp] theorem setWaiting_dec (v : Byte) (c : BitVec 3) (e : Engine) :
    (setWaiting v c e).dec = e.dec := rfl
@[simp] theorem setWaiting_stat (v : Byte) (c : BitVec 3) (e : Engine) :
    (setWaiting v c e).stat = e.stat := rfl

theorem setSnkOpen_eq (b : Bool) (e : Engine) :
    setSnkOpen b e = { e with bw := { e.bw with isOpen := b } } := rfl
@[simp] theorem setSnkOpen_scan (b : Bool) (e : Engine) :
    (setSnkOpen b e).scan = e.scan := rfl
@[simp] theorem setSnkOpen_tree (b : Bool) (e : Engine) :
    (setSnkOpen b e).tree = e.tree := rfl
@[simp] theorem setSnkOpen_book (b : Bool) (e : Engine) :
    (setSnkOpen b e).book = e.book := rfl
@[simp] theorem setSnkOpen_bw (b : Bool) (e : Engine) :
    (setSnkOpen b e).bw = { e.bw with isOpen := b } := rfl
@[simp] theorem setSnkOpen_br (b : Bool) (e : Engine) :
    (setSnkOpen b e).br = e.br := rfl
@[simp] theorem setSnkOpen_dec (b : Bool) (e : Engine) :
    (setSnkOpen b e).dec = e.dec := rfl
@[simp] theorem setSnkOpen_stat (b : Bool) (e : Engine) :
    (setSnkOpen b e).stat = e.stat := rfl

theorem setSrcOpen_eq (b : Bool) (e : Engine) :
    setSrcOpen b e = { e with br := { e.br with isOpen := b } } := rfl
@[simp] theorem setSrcOpen_scan (b : Bool) (e : Engine) :
    (setSrcOpen b e).scan = e.scan := rfl
@[simp] theorem setSrcOpen_tree (b : Bool) (e : Engine) :
    (setSrcOpen b e).tree = e.tree := rfl
@[simp] theorem setSrcOpen_book (b : Bool) (e : Engine) :
    (setSrcOpen b e).book = e.book := rfl
@[simp] theorem setSrcOpen_bw (b : Bool) (e : Engine) :
    (setSrcOpen b e).bw = e.bw := rfl
@[simp] theorem setSrcOpen_br (b : Bool) (e : Engine) :
    (setSrcOpen b e).br = { e.br with isOpen := b } := rfl
@[simp] theorem setSrcOpen_dec (b : Bool) (e : Engine) :
    (setSrcOpen b e).dec = e.dec := rfl
@[simp] theorem setSrcOpen_stat (b : Bool) (e : Engine) :
    (setSrcOpen b e).stat = e.stat := rfl

theorem setReader_eq (v : Byte) (p : BitVec 4) (e : Engine) :
    setReader v p e = { e with br := { e.br with buf := v, pos := p } } := rfl
@[simp] theorem setReader_scan (v : Byte) (p : BitVec 4) (e : Engine) :
    (setReader v p e).scan = e.scan := rfl
@[simp] theorem setReader_tree (v : Byte) (p : BitVec 4) (e : Engine) :
    (setReader v p e).tree = e.tree := rfl
@[simp] theorem setReader_book (v : Byte) (p : BitVec 4) (e : Engine) :
    (setReader v p e).book = e.book := rfl
@[simp] theorem setReader_bw (v : Byte) (p : BitVec 4) (e : Engine) :
    (setReader v p e).bw = e.bw := rfl
@[simp] theorem setReader_br (v : Byte) (p : BitVec 4) (e : Engine) :
    (setReader v p e).br = { e.br with buf := v, pos := p } := rfl
@[simp] theorem setReader_dec (v : Byte) (p : BitVec 4) (e : Engine) :
    (setReader v p e).dec = e.dec := rfl
@[simp] theorem setReader_stat (v : Byte) (p : BitVec 4) (e : Engine) :
    (setReader v p e).stat = e.stat := rfl

theorem setEos_eq (e : Engine) :
    setEos e = { e with br := { e.br with eos := true } } := rfl
@[simp] theorem setEos_scan (e : Engine) :
    (setEos e).scan = e.scan := rfl
@[simp] theorem setEos_tree (e : Engine) :
    (setEos e).tree = e.tree := rfl
@[simp] theorem setEos_book (e : Engine) :
    (setEos e).book = e.book := rfl
@[simp] theorem setEos_bw (e : Engine) :
    (setEos e).bw = e.bw := rfl
@[simp] theorem setEos_br (e : Engine) :
    (setEos e).br = { e.br with eos := true } := rfl
@[simp] theorem setEos_dec (e : Engine) :
    (setEos e).dec = e.dec := rfl
@[simp] theorem setEos_stat (e : Engine) :
    (setEos e).stat = e.stat := rfl

theorem setFt_eq (t : Table U32) (e : Engine) :
    setFt t e = { e with scan := { e.scan with ft := t } } := rfl
@[simp] theorem setFt_scan (t : Table U32) (e : Engine) :
    (setFt t e).scan = { e.scan with ft := t } := rfl
@[simp] theorem setFt_tree (t : Table U32) (e : Engine) :
    (setFt t e).tree = e.tree := rfl
@[simp] theorem setFt_book (t : Table U32) (e : Engine) :
    (setFt t e).book = e.book := rfl
@[simp] theorem setFt_bw (t : Table U32) (e : Engine) :
    (setFt t e).bw = e.bw := rfl
@[simp] theorem setFt_br (t : Table U32) (e : Engine) :
    (setFt t e).br = e.br := rfl
@[simp] theorem setFt_dec (t : Table U32) (e : Engine) :
    (setFt t e).dec = e.dec := rfl
@[simp] theorem setFt_stat (t : Table U32) (e : Engine) :
    (setFt t e).stat = e.stat := rfl

theorem setTotal_eq (v : U32) (e : Engine) :
    setTotal v e = { e with scan := { e.scan with total := v } } := rfl
@[simp] theorem setTotal_scan (v : U32) (e : Engine) :
    (setTotal v e).scan = { e.scan with total := v } := rfl
@[simp] theorem setTotal_tree (v : U32) (e : Engine) :
    (setTotal v e).tree = e.tree := rfl
@[simp] theorem setTotal_book (v : U32) (e : Engine) :
    (setTotal v e).book = e.book := rfl
@[simp] theorem setTotal_bw (v : U32) (e : Engine) :
    (setTotal v e).bw = e.bw := rfl
@[simp] theorem setTotal_br (v : U32) (e : Engine) :
    (setTotal v e).br = e.br := rfl
@[simp] theorem setTotal_dec (v : U32) (e : Engine) :
    (setTotal v e).dec = e.dec := rfl
@[simp] theorem setTotal_stat (v : U32) (e : Engine) :
    (setTotal v e).stat = e.stat := rfl

theorem setNd_eq (t : Table NodeRec) (e : Engine) :
    setNd t e = { e with tree := { e.tree with nd := t } } := rfl
@[simp] theorem setNd_scan (t : Table NodeRec) (e : Engine) :
    (setNd t e).scan = e.scan := rfl
@[simp] theorem setNd_tree (t : Table NodeRec) (e : Engine) :
    (setNd t e).tree = { e.tree with nd := t } := rfl
@[simp] theorem setNd_book (t : Table NodeRec) (e : Engine) :
    (setNd t e).book = e.book := rfl
@[simp] theorem setNd_bw (t : Table NodeRec) (e : Engine) :
    (setNd t e).bw = e.bw := rfl
@[simp] theorem setNd_br (t : Table NodeRec) (e : Engine) :
    (setNd t e).br = e.br := rfl
@[simp] theorem setNd_dec (t : Table NodeRec) (e : Engine) :
    (setNd t e).dec = e.dec := rfl
@[simp] theorem setNd_stat (t : Table NodeRec) (e : Engine) :
    (setNd t e).stat = e.stat := rfl

theorem setNn_eq (n : BitVec 9) (e : Engine) :
    setNn n e = { e with tree := { e.tree with nn := n } } := rfl
@[simp] theorem setNn_scan (n : BitVec 9) (e : Engine) :
    (setNn n e).scan = e.scan := rfl
@[simp] theorem setNn_tree (n : BitVec 9) (e : Engine) :
    (setNn n e).tree = { e.tree with nn := n } := rfl
@[simp] theorem setNn_book (n : BitVec 9) (e : Engine) :
    (setNn n e).book = e.book := rfl
@[simp] theorem setNn_bw (n : BitVec 9) (e : Engine) :
    (setNn n e).bw = e.bw := rfl
@[simp] theorem setNn_br (n : BitVec 9) (e : Engine) :
    (setNn n e).br = e.br := rfl
@[simp] theorem setNn_dec (n : BitVec 9) (e : Engine) :
    (setNn n e).dec = e.dec := rfl
@[simp] theorem setNn_stat (n : BitVec 9) (e : Engine) :
    (setNn n e).stat = e.stat := rfl

theorem setQueue_eq (t : Table Node) (n : BitVec 9) (e : Engine) :
    setQueue t n e = { e with tree := { e.tree with pq := t, pqN := n } } := rfl
@[simp] theorem setQueue_scan (t : Table Node) (n : BitVec 9) (e : Engine) :
    (setQueue t n e).scan = e.scan := rfl
@[simp] theorem setQueue_tree (t : Table Node) (n : BitVec 9) (e : Engine) :
    (setQueue t n e).tree = { e.tree with pq := t, pqN := n } := rfl
@[simp] theorem setQueue_book (t : Table Node) (n : BitVec 9) (e : Engine) :
    (setQueue t n e).book = e.book := rfl
@[simp] theorem setQueue_bw (t : Table Node) (n : BitVec 9) (e : Engine) :
    (setQueue t n e).bw = e.bw := rfl
@[simp] theorem setQueue_br (t : Table Node) (n : BitVec 9) (e : Engine) :
    (setQueue t n e).br = e.br := rfl
@[simp] theorem setQueue_dec (t : Table Node) (n : BitVec 9) (e : Engine) :
    (setQueue t n e).dec = e.dec := rfl
@[simp] theorem setQueue_stat (t : Table Node) (n : BitVec 9) (e : Engine) :
    (setQueue t n e).stat = e.stat := rfl

theorem setRoot_eq (r : Node) (b : Bool) (e : Engine) :
    setRoot r b e = { e with tree := { e.tree with root := r, rootValid := b } } := rfl
@[simp] theorem setRoot_scan (r : Node) (b : Bool) (e : Engine) :
    (setRoot r b e).scan = e.scan := rfl
@[simp] theorem setRoot_tree (r : Node) (b : Bool) (e : Engine) :
    (setRoot r b e).tree = { e.tree with root := r, rootValid := b } := rfl
@[simp] theorem setRoot_book (r : Node) (b : Bool) (e : Engine) :
    (setRoot r b e).book = e.book := rfl
@[simp] theorem setRoot_bw (r : Node) (b : Bool) (e : Engine) :
    (setRoot r b e).bw = e.bw := rfl
@[simp] theorem setRoot_br (r : Node) (b : Bool) (e : Engine) :
    (setRoot r b e).br = e.br := rfl
@[simp] theorem setRoot_dec (r : Node) (b : Bool) (e : Engine) :
    (setRoot r b e).dec = e.dec := rfl
@[simp] theorem setRoot_stat (r : Node) (b : Bool) (e : Engine) :
    (setRoot r b e).stat = e.stat := rfl

theorem setPhase_eq (p : Phase) (e : Engine) :
    setPhase p e = { e with tree := { e.tree with phase := p } } := rfl
@[simp] theorem setPhase_scan (p : Phase) (e : Engine) :
    (setPhase p e).scan = e.scan := rfl
@[simp] theorem setPhase_tree (p : Phase) (e : Engine) :
    (setPhase p e).tree = { e.tree with phase := p } := rfl
@[simp] theorem setPhase_book (p : Phase) (e : Engine) :
    (setPhase p e).book = e.book := rfl
@[simp] theorem setPhase_bw (p : Phase) (e : Engine) :
    (setPhase p e).bw = e.bw := rfl
@[simp] theorem setPhase_br (p : Phase) (e : Engine) :
    (setPhase p e).br = e.br := rfl
@[simp] theorem setPhase_dec (p : Phase) (e : Engine) :
    (setPhase p e).dec = e.dec := rfl
@[simp] theorem setPhase_stat (p : Phase) (e : Engine) :
    (setPhase p e).stat = e.stat := rfl

theorem setCbDone_eq (b : Bool) (e : Engine) :
    setCbDone b e = { e with book := { e.book with done := b } } := rfl
@[simp] theorem setCbDone_scan (b : Bool) (e : Engine) :
    (setCbDone b e).scan = e.scan := rfl
@[simp] theorem setCbDone_tree (b : Bool) (e : Engine) :
    (setCbDone b e).tree = e.tree := rfl
@[simp] theorem setCbDone_book (b : Bool) (e : Engine) :
    (setCbDone b e).book = { e.book with done := b } := rfl
@[simp] theorem setCbDone_bw (b : Bool) (e : Engine) :
    (setCbDone b e).bw = e.bw := rfl
@[simp] theorem setCbDone_br (b : Bool) (e : Engine) :
    (setCbDone b e).br = e.br := rfl
@[simp] theorem setCbDone_dec (b : Bool) (e : Engine) :
    (setCbDone b e).dec = e.dec := rfl
@[simp] theorem setCbDone_stat (b : Bool) (e : Engine) :
    (setCbDone b e).stat = e.stat := rfl

theorem setBook_eq (t : Table (Option (List Bool))) (e : Engine) :
    setBook t e = { e with book := { cb := t, done := true } } := rfl
@[simp] theorem setBook_scan (t : Table (Option (List Bool))) (e : Engine) :
    (setBook t e).scan = e.scan := rfl
@[simp] theorem setBook_tree (t : Table (Option (List Bool))) (e : Engine) :
    (setBook t e).tree = e.tree := rfl
@[simp] theorem setBook_book (t : Table (Option (List Bool))) (e : Engine) :
    (setBook t e).book = { cb := t, done := true } := rfl
@[simp] theorem setBook_bw (t : Table (Option (List Bool))) (e : Engine) :
    (setBook t e).bw = e.bw := rfl
@[simp] theorem setBook_br (t : Table (Option (List Bool))) (e : Engine) :
    (setBook t e).br = e.br := rfl
@[simp] theorem setBook_dec (t : Table (Option (List Bool))) (e : Engine) :
    (setBook t e).dec = e.dec := rfl
@[simp] theorem setBook_stat (t : Table (Option (List Bool))) (e : Engine) :
    (setBook t e).stat = e.stat := rfl

theorem setDecCur_eq (n : Node) (e : Engine) :
    setDecCur n e = { e with dec := { e.dec with cur := n } } := rfl
@[simp] theorem setDecCur_scan (n : Node) (e : Engine) :
    (setDecCur n e).scan = e.scan := rfl
@[simp] theorem setDecCur_tree (n : Node) (e : Engine) :
    (setDecCur n e).tree = e.tree := rfl
@[simp] theorem setDecCur_book (n : Node) (e : Engine) :
    (setDecCur n e).book = e.book := rfl
@[simp] theorem setDecCur_bw (n : Node) (e : Engine) :
    (setDecCur n e).bw = e.bw := rfl
@[simp] theorem setDecCur_br (n : Node) (e : Engine) :
    (setDecCur n e).br = e.br := rfl
@[simp] theorem setDecCur_dec (n : Node) (e : Engine) :
    (setDecCur n e).dec = { e.dec with cur := n } := rfl
@[simp] theorem setDecCur_stat (n : Node) (e : Engine) :
    (setDecCur n e).stat = e.stat := rfl

theorem setDecRem_eq (n : U32) (e : Engine) :
    setDecRem n e = { e with dec := { e.dec with rem := n } } := rfl
@[simp] theorem setDecRem_scan (n : U32) (e : Engine) :
    (setDecRem n e).scan = e.scan := rfl
@[simp] theorem setDecRem_tree (n : U32) (e : Engine) :
    (setDecRem n e).tree = e.tree := rfl
@[simp] theorem setDecRem_book (n : U32) (e : Engine) :
    (setDecRem n e).book = e.book := rfl
@[simp] theorem setDecRem_bw (n : U32) (e : Engine) :
    (setDecRem n e).bw = e.bw := rfl
@[simp] theorem setDecRem_br (n : U32) (e : Engine) :
    (setDecRem n e).br = e.br := rfl
@[simp] theorem setDecRem_dec (n : U32) (e : Engine) :
    (setDecRem n e).dec = { e.dec with rem := n } := rfl
@[simp] theorem setDecRem_stat (n : U32) (e : Engine) :
    (setDecRem n e).stat = e.stat := rfl

theorem setResult_eq (v : U32) (e : Engine) :
    setResult v e = { e with stat := { e.stat with result := v } } := rfl
@[simp] theorem setResult_scan (v : U32) (e : Engine) :
    (setResult v e).scan = e.scan := rfl
@[simp] theorem setResult_tree (v : U32) (e : Engine) :
    (setResult v e).tree = e.tree := rfl
@[simp] theorem setResult_book (v : U32) (e : Engine) :
    (setResult v e).book = e.book := rfl
@[simp] theorem setResult_bw (v : U32) (e : Engine) :
    (setResult v e).bw = e.bw := rfl
@[simp] theorem setResult_br (v : U32) (e : Engine) :
    (setResult v e).br = e.br := rfl
@[simp] theorem setResult_dec (v : U32) (e : Engine) :
    (setResult v e).dec = e.dec := rfl
@[simp] theorem setResult_stat (v : U32) (e : Engine) :
    (setResult v e).stat = { e.stat with result := v } := rfl

theorem setFaultFlags_eq (k : FaultKind) (e : Engine) :
    setFaultFlags k e = { e with stat := { err := k.code, fault := true, incomplete := decide (k = .truncatedStream), result := 0#32 } } := rfl
@[simp] theorem setFaultFlags_scan (k : FaultKind) (e : Engine) :
    (setFaultFlags k e).scan = e.scan := rfl
@[simp] theorem setFaultFlags_tree (k : FaultKind) (e : Engine) :
    (setFaultFlags k e).tree = e.tree := rfl
@[simp] theorem setFaultFlags_book (k : FaultKind) (e : Engine) :
    (setFaultFlags k e).book = e.book := rfl
@[simp] theorem setFaultFlags_bw (k : FaultKind) (e : Engine) :
    (setFaultFlags k e).bw = e.bw := rfl
@[simp] theorem setFaultFlags_br (k : FaultKind) (e : Engine) :
    (setFaultFlags k e).br = e.br := rfl
@[simp] theorem setFaultFlags_dec (k : FaultKind) (e : Engine) :
    (setFaultFlags k e).dec = e.dec := rfl
@[simp] theorem setFaultFlags_stat (k : FaultKind) (e : Engine) :
    (setFaultFlags k e).stat = { err := k.code, fault := true, incomplete := decide (k = .truncatedStream), result := 0#32 } := rfl

theorem clearWriter_eq (e : Engine) : clearWriter e = { e with bw := { e.bw with buf := 0#8, cnt := 0#3 } } := rfl

@[simp] theorem invalidate_eq (e : Engine) : invalidate e = treeDropped e := rfl

end Sys2Proof.Machine
end

