-- ==== Sys2Proof/Laws/Table.lean ====
section
/-! SUPPORT. The tables: a read after a write, and that every write keeps the canonical form. The reads hold of
every list of entries, in canonical form or not. -/

namespace Sys2Proof.Machine

variable {α : Type}

@[simp] theorem tableGet_nil (d : α) (i : Nat) : tableGet d [] i = d := rfl

theorem tableGet_cons (d : α) (e : Nat × α) (t : Table α) (i : Nat) :
    tableGet d (e :: t) i = if e.1 = i then e.2 else tableGet d t i := by
  simp [tableGet]

/-- An entry that is not the one an unlisted index reads as is listed. -/
theorem mem_of_tableGet {d v : α} {t : Table α} {i : Nat} (h : tableGet d t i = v) (hv : v ≠ d) : (i, v) ∈ t := by
  induction t with
  | nil => exact absurd h.symm hv
  | cons e t ih =>
    rw [tableGet_cons] at h
    split at h
    · rename_i hi
      subst hi h
      exact List.mem_cons_self
    · exact List.mem_cons_of_mem _ (ih h)

theorem tableGet_insert_same (d : α) (i : Nat) (v : α) (t : Table α) (h : ∀ e ∈ t, e.1 ≠ i) :
    tableGet d (tableInsert i v t) i = v := by
  induction t with
  | nil => simp [tableInsert, tableGet]
  | cons e t ih =>
    have he := h e (by simp)
    simp only [tableInsert]
    split
    · simp [tableGet]
    · simp [tableGet_cons, he, ih fun e h' => h e (by simp [h'])]

theorem tableGet_insert_other (d : α) {i j : Nat} (v : α) (t : Table α) (h : j ≠ i) :
    tableGet d (tableInsert i v t) j = tableGet d t j := by
  induction t with
  | nil => simp [tableInsert, tableGet, h.symm]
  | cons e t ih =>
    simp only [tableInsert]
    split
    · simp [tableGet_cons, h.symm]
    · simp [tableGet_cons, ih]

theorem tableGet_cleared_same (d : α) (i : Nat) (t : Table α) :
    tableGet d (t.filter fun e => e.1 != i) i = d := by
  induction t with
  | nil => rfl
  | cons e t ih =>
    by_cases he : e.1 = i <;> simp [he, tableGet_cons, ih]

theorem tableGet_cleared_other (d : α) {i j : Nat} (t : Table α) (h : j ≠ i) :
    tableGet d (t.filter fun e => e.1 != i) j = tableGet d t j := by
  induction t with
  | nil => rfl
  | cons e t ih =>
    by_cases he : e.1 = i
    · have : e.1 ≠ j := fun hj => h (hj.symm.trans he)
      simp [he, tableGet_cons, ih, h.symm]
    · simp [he, tableGet_cons, ih]

/-- A read gives what was written there. -/
@[simp] theorem tableGet_set_same [DecidableEq α] (d : α) (t : Table α) (i : Nat) (v : α) :
    tableGet d (tableSet d t i v) i = v := by
  simp only [tableSet]
  split
  · rename_i h; rw [tableGet_cleared_same, h]
  · exact tableGet_insert_same d i v _ (by simp)

/-- A write leaves every other entry alone. -/
theorem tableGet_set_other [DecidableEq α] (d : α) (t : Table α) {i j : Nat} (v : α) (h : j ≠ i) :
    tableGet d (tableSet d t i v) j = tableGet d t j := by
  simp only [tableSet]
  split
  · exact tableGet_cleared_other d t h
  · rw [tableGet_insert_other d v _ h, tableGet_cleared_other d t h]

theorem tableGet_set [DecidableEq α] (d : α) (t : Table α) (i j : Nat) (v : α) :
    tableGet d (tableSet d t i v) j = if j = i then v else tableGet d t j := by
  split
  · rename_i h; rw [h, tableGet_set_same]
  · rename_i h; exact tableGet_set_other d t v h

theorem tableOk_cons [DecidableEq α] (d : α) (hi lo : Nat) (e : Nat × α) (t : Table α) :
    tableOk d hi lo (e :: t) = true ↔ lo ≤ e.1 ∧ e.1 < hi ∧ e.2 ≠ d ∧ tableOk d hi (e.1 + 1) t = true := by
  simp [tableOk, and_assoc]

theorem tableOk_mono [DecidableEq α] {d : α} {hi lo lo' : Nat} {t : Table α} (h : tableOk d hi lo t = true)
    (hl : lo' ≤ lo) : tableOk d hi lo' t = true := by
  cases t with
  | nil => rfl
  | cons e t =>
    rw [tableOk_cons] at h ⊢
    exact ⟨hl.trans h.1, h.2⟩

theorem tableOk_filter [DecidableEq α] {d : α} {hi lo : Nat} {t : Table α} (p : Nat × α → Bool)
    (h : tableOk d hi lo t = true) : tableOk d hi lo (t.filter p) = true := by
  induction t generalizing lo with
  | nil => rfl
  | cons e t ih =>
    rw [tableOk_cons] at h
    rw [List.filter_cons]
    split
    · rw [tableOk_cons]
      exact ⟨h.1, h.2.1, h.2.2.1, ih h.2.2.2⟩
    · exact tableOk_mono (ih h.2.2.2) (by omega)

theorem tableOk_insert [DecidableEq α] {d : α} {hi lo i : Nat} {v : α} {t : Table α}
    (h : tableOk d hi lo t = true) (hlo : lo ≤ i) (hhi : i < hi) (hv : v ≠ d) (hne : ∀ e ∈ t, e.1 ≠ i) :
    tableOk d hi lo (tableInsert i v t) = true := by
  induction t generalizing lo with
  | nil => simp [tableInsert, tableOk, hlo, hhi, hv]
  | cons e t ih =>
    rw [tableOk_cons] at h
    have he := hne e (by simp)
    simp only [tableInsert]
    split
    · rename_i hlt
      rw [tableOk_cons, tableOk_cons]
      exact ⟨hlo, hhi, hv, hlt, h.2⟩
    · rename_i hlt
      rw [tableOk_cons]
      exact ⟨h.1, h.2.1, h.2.2.1, ih h.2.2.2 (by omega) fun e' h' => hne e' (by simp [h'])⟩

/-- A write at an index of the table's range keeps the canonical form. -/
theorem tableOk_set [DecidableEq α] {d : α} {hi lo i : Nat} {t : Table α} (h : tableOk d hi lo t = true)
    (hlo : lo ≤ i) (hhi : i < hi) (v : α) : tableOk d hi lo (tableSet d t i v) = true := by
  simp only [tableSet]
  split
  · exact tableOk_filter _ h
  · rename_i hv
    exact tableOk_insert (tableOk_filter _ h) hlo hhi hv (by simp)

/-- Two tables in canonical form that read alike are the same table. -/
theorem tableOk_ext [DecidableEq α] {d : α} {hi lo : Nat} {t u : Table α} (ht : tableOk d hi lo t = true)
    (hu : tableOk d hi lo u = true) (h : ∀ i, tableGet d t i = tableGet d u i) : t = u := by
  have low : ∀ {lo : Nat} {t : Table α}, tableOk d hi lo t = true → ∀ i, i < lo → tableGet d t i = d := by
    intro lo t
    induction t generalizing lo with
    | nil => intros; rfl
    | cons e t ih =>
      intro h i hi'
      rw [tableOk_cons] at h
      rw [tableGet_cons, if_neg (by omega)]
      exact ih h.2.2.2 i (by omega)
  induction t generalizing lo u with
  | nil =>
    cases u with
    | nil => rfl
    | cons e u =>
      rw [tableOk_cons] at hu
      have := h e.1
      simp [tableGet_cons] at this
      exact absurd this.symm hu.2.2.1
  | cons e t ih =>
    rw [tableOk_cons] at ht
    cases u with
    | nil =>
      have := h e.1
      simp [tableGet_cons] at this
      exact absurd this ht.2.2.1
    | cons f u =>
      rw [tableOk_cons] at hu
      have hk : e.1 = f.1 := by
        have h1 := h e.1
        have h2 := h f.1
        rw [tableGet_cons, if_pos rfl, tableGet_cons] at h1
        rw [tableGet_cons d f, if_pos rfl, tableGet_cons] at h2
        by_contra hne
        rw [if_neg (Ne.symm hne)] at h1
        rw [if_neg hne] at h2
        by_cases hlt : e.1 < f.1
        · exact ht.2.2.1 (h1.trans (low hu.2.2.2 _ (by omega)))
        · exact hu.2.2.1 (h2.symm.trans (low ht.2.2.2 _ (by omega)))
      have hv : e.2 = f.2 := by
        have h1 := h e.1
        rwa [tableGet_cons, if_pos rfl, tableGet_cons, if_pos hk.symm] at h1
      have : e = f := Prod.ext hk hv
      subst this
      congr 1
      refine ih ht.2.2.2 hu.2.2.2 fun i => ?_
      have h1 := h i
      rw [tableGet_cons, tableGet_cons] at h1
      by_cases hi' : e.1 = i
      · rw [low ht.2.2.2 i (by omega), low hu.2.2.2 i (by omega)]
      · rwa [if_neg hi', if_neg hi'] at h1

/-! ### The block's tables -/

@[simp] theorem ftGet_ftSet (e : Engine) (x y : Nat) (v : U32) :
    ftGet (ftSet e x v) y = if y = x then v else ftGet e y := tableGet_set _ _ _ _ _

@[simp] theorem ndGet_ndSet (e : Engine) (x y : Nat) (r : NodeRec) :
    ndGet (ndSet e x r) y = if y = x then r else ndGet e y := tableGet_set _ _ _ _ _

@[simp] theorem pqGet_pqSet (pq : Table Node) (x y : Nat) (n : Node) :
    pqGet (pqSet pq x n) y = if y = x then n else pqGet pq y := tableGet_set _ _ _ _ _

theorem pqGet_pqSwap (pq : Table Node) (k p y : Nat) :
    pqGet (pqSwap pq k p) y = if y = p then pqGet pq k else if y = k then pqGet pq p else pqGet pq y := by
  simp [pqSwap]

/-- The tables at reset are in canonical form. -/
theorem reset_wf : Memory.wf State.reset.eng = true := by decide

theorem memory_wf_iff (e : Engine) :
    Memory.wf e = true ↔ tableOk 0#32 256 0 e.scan.ft = true ∧ tableOk nodeZero 511 256 e.tree.nd = true ∧
      tableOk 0#9 256 0 e.tree.pq = true ∧ tableOk none 256 0 e.book.cb = true := by
  simp [Memory.wf, and_assoc]

theorem wf_ftSet {e : Engine} (h : Memory.wf e = true) {x : Nat} (hx : x < 256) (v : U32) :
    Memory.wf (ftSet e x v) = true := by
  rw [memory_wf_iff] at h ⊢
  exact ⟨tableOk_set h.1 (Nat.zero_le _) hx v, h.2⟩

theorem wf_ndSet {e : Engine} (h : Memory.wf e = true) {x : Nat} (hl : 256 ≤ x) (hx : x < 511) (r : NodeRec) :
    Memory.wf (ndSet e x r) = true := by
  rw [memory_wf_iff] at h ⊢
  exact ⟨h.1, tableOk_set h.2.1 hl hx r, h.2.2⟩

theorem wf_setQueue {e : Engine} (h : Memory.wf e = true) {pq : Table Node} (hq : tableOk 0#9 256 0 pq = true)
    (n : BitVec 9) : Memory.wf (setQueue pq n e) = true := by
  rw [memory_wf_iff] at h ⊢
  exact ⟨h.1, h.2.1, hq, h.2.2.2⟩

theorem pqOk_set {pq : Table Node} (h : tableOk 0#9 256 0 pq = true) {k : Nat} (hk : k < 256) (n : Node) :
    tableOk 0#9 256 0 (pqSet pq k n) = true := tableOk_set h (Nat.zero_le _) hk n

theorem wf_setBook {e : Engine} (h : Memory.wf e = true) {t : Table (Option (List Bool))}
    (ht : tableOk none 256 0 t = true) : Memory.wf (setBook t e) = true := by
  rw [memory_wf_iff] at h ⊢
  exact ⟨h.1, h.2.1, h.2.2.1, ht⟩

/-- Recording a code keeps the canonical form. -/
theorem wf_recordCode {b : Book} (h : tableOk none 256 0 b.cb = true) {n : Node} (hn : n.toNat < 256)
    (path : List Bool) : tableOk none 256 0 (recordCode n path b).cb = true := by
  change tableOk none 256 0 (tableSet none b.cb n.toNat (some path)) = true
  exact tableOk_set h (Nat.zero_le _) hn (some path)

end Sys2Proof.Machine
end

