-- ==== Sys2Proof/Laws/Heap.lean ====
section
/-! SUPPORT. The priority queue (`42_tree.md` R157 to R160, R166): the order of its keys, and what `PqInsert` and
`PqExtract` do to the live nodes, in any state with the heap property over distinct nodes. -/

namespace Sys2Proof.Machine

/-! ### The order of the keys -/

theorem less_iff (e : Engine) (a b : Node) :
    less e a b = true ↔ (freq e a).toNat < (freq e b).toNat ∨
      ((freq e a).toNat = (freq e b).toNat ∧ a.toNat < b.toNat) := by
  simp [less]

theorem less_irrefl (e : Engine) (a : Node) : less e a a = false := by
  simp [less]

theorem less_trans {e : Engine} {a b c : Node} (h1 : less e a b = true) (h2 : less e b c = true) :
    less e a c = true := by
  rw [less_iff] at *
  omega

/-- The keys of distinct nodes are distinct (R157). -/
theorem less_of_not_less {e : Engine} {a b : Node} (hne : a ≠ b) (h : less e a b = false) : less e b a = true := by
  have hn : a.toNat ≠ b.toNat := fun h => hne (BitVec.eq_of_toNat_eq h)
  have h' : ¬ less e a b = true := by simp [h]
  rw [less_iff] at *
  omega

theorem freq_congr {e f : Engine} (h1 : f.scan.ft = e.scan.ft) (h2 : f.tree.nd = e.tree.nd) : freq f = freq e := by
  funext n
  simp [freq, ftGet, ndGet, h1, h2]

theorem less_congr {e f : Engine} (h1 : f.scan.ft = e.scan.ft) (h2 : f.tree.nd = e.tree.nd) : less f = less e := by
  funext a b
  simp [less, freq_congr h1 h2]

/-! ### The array -/

/-- The first `n` entries of a queue array. -/
def entries (pq : Table Node) (n : Nat) : List Node := (List.range n).map (pqGet pq)

theorem live_eq (e : Engine) : live e = entries e.tree.pq e.tree.pqN.toNat := rfl

@[simp] theorem entries_length (pq : Table Node) (n : Nat) : (entries pq n).length = n := by simp [entries]

theorem entries_inj {pq : Table Node} {n : Nat} (h : (entries pq n).Nodup) {i j : Nat} (hi : i < n) (hj : j < n)
    (he : pqGet pq i = pqGet pq j) : i = j :=
  List.inj_on_of_nodup_map h (by simpa using hi) (by simpa using hj) he

theorem mem_entries {pq : Table Node} {n : Nat} {x : Node} : x ∈ entries pq n ↔ ∃ i, i < n ∧ pqGet pq i = x := by
  simp [entries]

/-- Exchanging two entries permutes the array. -/
theorem entries_swap (pq : Table Node) {n k p : Nat} (hk : k < n) (hp : p < n) :
    (entries (pqSwap pq k p) n).Perm (entries pq n) := by
  have hf : pqGet (pqSwap pq k p) = pqGet pq ∘ Equiv.swap k p := by
    funext j
    rw [pqGet_pqSwap, Function.comp]
    by_cases hj : j = p
    · simp [hj]
    · by_cases hj' : j = k
      · simp [hj']
        intro h
        rw [h]
      · rw [if_neg hj, if_neg hj', Equiv.swap_apply_of_ne_of_ne hj' hj]
  have hperm : ((List.range n).map (Equiv.swap k p)).Perm (List.range n) := by
    refine (List.perm_ext_iff_of_nodup ?_ List.nodup_range).mpr fun x => ?_
    · exact List.nodup_range.map (Equiv.swap k p).injective
    · simp only [List.mem_map, List.mem_range]
      constructor
      · rintro ⟨y, hy, rfl⟩
        rw [Equiv.swap_apply_def]
        split
        · exact hp
        · split
          · exact hk
          · exact hy
      · intro hx
        refine ⟨Equiv.swap k p x, ?_, Equiv.swap_apply_self k p x⟩
        rw [Equiv.swap_apply_def]
        split
        · exact hp
        · split
          · exact hk
          · exact hx
  rw [entries, hf, ← List.map_map]
  exact hperm.map _

/-- The heap property over the first `n` entries (R158). -/
def Heaped (e : Engine) (pq : Table Node) (n : Nat) : Prop :=
  ∀ j, j < n → 1 ≤ j → less e (pqGet pq ((j - 1) / 2)) (pqGet pq j) = true

theorem heapOk_iff (e : Engine) : HeapOk e ↔ Heaped e e.tree.pq e.tree.pqN.toNat := Iff.rfl

/-- The top of a heap is its least entry (R166). -/
theorem heap_top {e : Engine} {pq : Table Node} {n : Nat} (h : Heaped e pq n) (j : Nat) (hj : j < n) (h1 : 1 ≤ j) :
    less e (pqGet pq 0) (pqGet pq j) = true := by
  induction j using Nat.strongRecOn with
  | ind j ih =>
    have hp := h j hj h1
    by_cases h0 : (j - 1) / 2 = 0
    · rwa [h0] at hp
    · exact less_trans (ih ((j - 1) / 2) (by omega) (by omega) (by omega)) hp

/-! ### Sifting -/

/-- What sifting does to the array: a heap of the same entries, nothing beyond them touched, in canonical form. -/
structure Sifted (e : Engine) (pq r : Table Node) (n : Nat) : Prop where
  perm : (entries r n).Perm (entries pq n)
  heap : Heaped e r n
  beyond : ∀ j, n ≤ j → pqGet r j = pqGet pq j
  wf : n ≤ 256 → tableOk 0#9 256 0 pq = true → tableOk 0#9 256 0 r = true

theorem pqSwap_wf {pq : Table Node} {k p n : Nat} (hk : k < n) (hp : p < n) (hn : n ≤ 256)
    (h : tableOk 0#9 256 0 pq = true) : tableOk 0#9 256 0 (pqSwap pq k p) = true :=
  pqOk_set (pqOk_set h (by omega) _) (by omega) _

theorem sifted_of_swap {e : Engine} {pq r : Table Node} {n k p : Nat} (hk : k < n) (hp : p < n)
    (h : Sifted e (pqSwap pq k p) r n) : Sifted e pq r n where
  perm := h.perm.trans (entries_swap pq hk hp)
  heap := h.heap
  beyond := by
    intro j hj
    rw [h.beyond j hj, pqGet_pqSwap, if_neg (by omega), if_neg (by omega)]
  wf := fun hn hw => h.wf hn (pqSwap_wf hk hp hn hw)

/-- The loop of `PqInsert` (R159): where only position `k` may be below its parent's key, it makes a heap. -/
theorem siftUp_sifted {e : Engine} {n : Nat} (fuel k : Nat) (pq : Table Node) (hf : k ≤ fuel) (hk : k < n)
    (hd : (entries pq n).Nodup)
    (h1 : ∀ j, j < n → 1 ≤ j → j ≠ k → less e (pqGet pq ((j - 1) / 2)) (pqGet pq j) = true)
    (h2 : ∀ j, j < n → 1 ≤ j → 1 ≤ k → (j - 1) / 2 = k → less e (pqGet pq ((k - 1) / 2)) (pqGet pq j) = true) :
    Sifted e pq (siftUp e fuel k pq) n := by
  have hzero : k = 0 → Sifted e pq pq n := by
    rintro rfl
    exact ⟨.refl _, fun j hj hj1 => h1 j hj hj1 (by omega), fun _ _ => rfl, fun _ h => h⟩
  induction fuel generalizing k pq with
  | zero => exact hzero (by omega)
  | succ fuel ih =>
    rw [siftUp]
    by_cases hk0 : k = 0
    · rw [if_pos hk0]
      exact hzero hk0
    · rw [if_neg hk0]
      have hp : (k - 1) / 2 < k := by omega
      split
      · rename_i hl
        refine sifted_of_swap hk (p := (k - 1) / 2) (by omega) ?_
        have hd' : (entries (pqSwap pq k ((k - 1) / 2)) n).Nodup :=
          (entries_swap pq hk (by omega)).nodup_iff.mpr hd
        have g1 : ∀ j, j < n → 1 ≤ j → j ≠ (k - 1) / 2 →
            less e (pqGet (pqSwap pq k ((k - 1) / 2)) ((j - 1) / 2))
              (pqGet (pqSwap pq k ((k - 1) / 2)) j) = true := by
          intro j hj hj1 hjp
          rw [pqGet_pqSwap, pqGet_pqSwap, if_neg hjp]
          by_cases hjk : j = k
          · subst hjk
            rw [if_pos rfl, if_pos rfl]
            exact hl
          · rw [if_neg hjk]
            by_cases hpp : (j - 1) / 2 = (k - 1) / 2
            · rw [if_pos hpp]
              exact less_trans hl (hpp ▸ h1 j hj hj1 hjk)
            · rw [if_neg hpp]
              by_cases hpk : (j - 1) / 2 = k
              · rw [if_pos hpk]
                exact h2 j hj hj1 (by omega) hpk
              · rw [if_neg hpk]
                exact h1 j hj hj1 hjk
        have g2 : ∀ j, j < n → 1 ≤ j → 1 ≤ (k - 1) / 2 → (j - 1) / 2 = (k - 1) / 2 →
            less e (pqGet (pqSwap pq k ((k - 1) / 2)) (((k - 1) / 2 - 1) / 2))
              (pqGet (pqSwap pq k ((k - 1) / 2)) j) = true := by
          intro j hj hj1 hp1 hjp
          rw [pqGet_pqSwap, pqGet_pqSwap, if_neg (by omega), if_neg (by omega), if_neg (by omega)]
          have hgp := h1 ((k - 1) / 2) (by omega) hp1 (by omega)
          by_cases hjk : j = k
          · rw [if_pos hjk]
            exact hgp
          · rw [if_neg hjk]
            exact less_trans hgp (hjp ▸ h1 j hj hj1 hjk)
        exact ih ((k - 1) / 2) _ (by omega) (by omega) hd' g1 g2 fun h0 =>
          ⟨.refl _, fun j hj hj1 => g1 j hj hj1 (by omega), fun _ _ => rfl, fun _ h => h⟩
      · rename_i hl
        refine ⟨.refl _, fun j hj hj1 => ?_, fun _ _ => rfl, fun _ h => h⟩
        by_cases hjk : j = k
        · subst hjk
          refine less_of_not_less (fun heq => ?_) (by simpa using hl)
          have := entries_inj hd hk (by omega) heq
          omega
        · exact h1 j hj hj1 hjk

/-- The child of the loop of `PqExtract` (R160): the least of a position and its live children. -/
theorem leastChild_spec {e : Engine} {n k : Nat} {pq : Table Node} (hk : k < n) (hd : (entries pq n).Nodup) :
    let c := leastChild e n k pq
    (c = k ∨ (c < n ∧ 1 ≤ c ∧ (c - 1) / 2 = k ∧ less e (pqGet pq c) (pqGet pq k) = true)) ∧
      ∀ j, j < n → 1 ≤ j → (j - 1) / 2 = k → j ≠ c → less e (pqGet pq c) (pqGet pq j) = true := by
  have ne : ∀ {i j : Nat}, i < n → j < n → i ≠ j → pqGet pq i ≠ pqGet pq j :=
    fun hi hj hij heq => hij (entries_inj hd hi hj heq)
  have split3 : ∀ j, 1 ≤ j → (j - 1) / 2 = k → j = 2 * k + 1 ∨ j = 2 * k + 2 := by
    intro j h1 h2
    omega
  intro c
  have hc : c = leastChild e n k pq := rfl
  clear_value c
  simp only [leastChild] at hc
  by_cases hl : 2 * k + 1 < n
  · by_cases hll : less e (pqGet pq (2 * k + 1)) (pqGet pq k) = true
    · simp only [hl, hll, decide_true, Bool.and_true, if_true] at hc
      by_cases hr : 2 * k + 2 < n
      · by_cases hrr : less e (pqGet pq (2 * k + 2)) (pqGet pq (2 * k + 1)) = true
        · simp only [hr, hrr, decide_true, Bool.and_true, if_true] at hc
          subst hc
          refine ⟨.inr ⟨hr, by omega, by omega, less_trans hrr hll⟩, fun j hj h1 h2 h3 => ?_⟩
          rcases split3 j h1 h2 with rfl | rfl
          · exact hrr
          · exact absurd rfl h3
        · simp only [hrr, Bool.and_false, if_false, Bool.false_eq_true] at hc
          subst hc
          refine ⟨.inr ⟨hl, by omega, by omega, hll⟩, fun j hj h1 h2 h3 => ?_⟩
          rcases split3 j h1 h2 with rfl | rfl
          · exact absurd rfl h3
          · exact less_of_not_less (ne hr hl (by omega)) (by simpa using hrr)
      · simp only [hr, decide_false, Bool.false_and, if_false, Bool.false_eq_true] at hc
        subst hc
        refine ⟨.inr ⟨hl, by omega, by omega, hll⟩, fun j hj h1 h2 h3 => ?_⟩
        rcases split3 j h1 h2 with rfl | rfl
        · exact absurd rfl h3
        · exact absurd hj hr
    · simp only [hll, Bool.and_false, if_false, Bool.false_eq_true] at hc
      have hlk : less e (pqGet pq k) (pqGet pq (2 * k + 1)) = true :=
        less_of_not_less (ne hl hk (by omega)) (by simpa using hll)
      by_cases hr : 2 * k + 2 < n
      · by_cases hrr : less e (pqGet pq (2 * k + 2)) (pqGet pq k) = true
        · simp only [hr, hrr, decide_true, Bool.and_true, if_true] at hc
          subst hc
          refine ⟨.inr ⟨hr, by omega, by omega, hrr⟩, fun j hj h1 h2 h3 => ?_⟩
          rcases split3 j h1 h2 with rfl | rfl
          · exact less_trans hrr hlk
          · exact absurd rfl h3
        · simp only [hrr, Bool.and_false, if_false, Bool.false_eq_true] at hc
          subst hc
          refine ⟨.inl rfl, fun j hj h1 h2 h3 => ?_⟩
          rcases split3 j h1 h2 with rfl | rfl
          · exact hlk
          · exact less_of_not_less (ne hr hk (by omega)) (by simpa using hrr)
      · simp only [hr, decide_false, Bool.false_and, if_false, Bool.false_eq_true] at hc
        subst hc
        refine ⟨.inl rfl, fun j hj h1 h2 h3 => ?_⟩
        rcases split3 j h1 h2 with rfl | rfl
        · exact hlk
        · exact absurd hj hr
  · have hr : ¬ 2 * k + 2 < n := by omega
    simp only [hl, hr, decide_false, Bool.false_and, if_false, Bool.false_eq_true] at hc
    subst hc
    refine ⟨.inl rfl, fun j hj h1 h2 h3 => ?_⟩
    rcases split3 j h1 h2 with rfl | rfl
    · exact absurd hj hl
    · exact absurd hj hr

/-- The loop of `PqExtract` (R160): where only the children of position `k` may be below its key, it makes a
heap. -/
theorem siftDown_sifted {e : Engine} {n : Nat} (fuel k : Nat) (pq : Table Node) (hf : n ≤ fuel + k) (hk : k < n)
    (hd : (entries pq n).Nodup)
    (h1 : ∀ j, j < n → 1 ≤ j → (j - 1) / 2 ≠ k → less e (pqGet pq ((j - 1) / 2)) (pqGet pq j) = true)
    (h2 : ∀ j, j < n → 1 ≤ j → 1 ≤ k → (j - 1) / 2 = k → less e (pqGet pq ((k - 1) / 2)) (pqGet pq j) = true) :
    Sifted e pq (siftDown e n fuel k pq) n := by
  induction fuel generalizing k pq with
  | zero => omega
  | succ fuel ih =>
    obtain ⟨hc, hall⟩ := leastChild_spec (e := e) hk hd
    rw [siftDown]
    generalize leastChild e n k pq = c at hc hall ⊢
    by_cases hck : c = k
    · rw [if_pos hck]
      refine ⟨.refl _, fun j hj hj1 => ?_, fun _ _ => rfl, fun _ h => h⟩
      by_cases hjk : (j - 1) / 2 = k
      · rw [hjk, ← hck]
        exact hall j hj hj1 hjk (by omega)
      · exact h1 j hj hj1 hjk
    · rw [if_neg hck]
      rcases hc with hc | ⟨hcn, hc1, hcp, hcl⟩
      · exact absurd hc hck
      · refine sifted_of_swap hk hcn ?_
        have hd' : (entries (pqSwap pq k c) n).Nodup := (entries_swap pq hk hcn).nodup_iff.mpr hd
        refine ih c _ (by omega) hcn hd' ?_ ?_
        · intro j hj hj1 hjc
          rw [pqGet_pqSwap, pqGet_pqSwap, if_neg hjc]
          by_cases hjc' : j = c
          · subst hjc'
            rw [if_pos rfl, if_pos hcp]
            exact hcl
          · rw [if_neg hjc']
            by_cases hjk : (j - 1) / 2 = k
            · rw [if_pos hjk, if_neg (by omega)]
              exact hall j hj hj1 hjk hjc'
            · rw [if_neg hjk]
              by_cases hjk' : j = k
              · rw [if_pos hjk', hjk']
                exact h2 c hcn hc1 (by omega) hcp
              · rw [if_neg hjk']
                exact h1 j hj hj1 hjk
        · intro j hj hj1 _ hjc
          rw [pqGet_pqSwap, pqGet_pqSwap, hcp, if_neg (by omega), if_pos rfl, if_neg (by omega),
            if_neg (by omega), ← hjc]
          exact h1 j hj hj1 (by omega)

/-! ### `PqInsert` and `PqExtract` -/

/-- `PqInsert(x)` (R159): the live nodes are `x` and those before, in a heap; nothing else of the block changes. -/
theorem pqInsert_spec {e : Engine} {x : Node} (hn : e.tree.pqN.toNat < 511) (hh : HeapOk e)
    (hd : (x :: live e).Nodup) :
    let t := pqInsert x e
    (live t).Perm (x :: live e) ∧ HeapOk t ∧ t.tree.pqN.toNat = e.tree.pqN.toNat + 1 ∧
      t = { e with tree := { e.tree with pq := t.tree.pq, pqN := e.tree.pqN + 1#9 } } ∧
      (e.tree.pqN.toNat < 256 → tableOk 0#9 256 0 e.tree.pq = true → tableOk 0#9 256 0 t.tree.pq = true) := by
  have hn1 : (e.tree.pqN + 1#9).toNat = e.tree.pqN.toNat + 1 := by
    rw [BitVec.toNat_add]
    simp
    omega
  have hent : entries (pqSet e.tree.pq e.tree.pqN.toNat x) (e.tree.pqN.toNat + 1) = live e ++ [x] := by
    rw [entries, List.range_succ, List.map_append, live_eq, entries]
    simp only [List.map_cons, List.map_nil, pqGet_pqSet, if_true]
    congr 1
    refine List.map_congr_left fun j hj => ?_
    have hj' := List.mem_range.mp hj
    rw [pqGet_pqSet, if_neg (by omega)]
  have hs := siftUp_sifted (e := e) (n := e.tree.pqN.toNat + 1) e.tree.pqN.toNat e.tree.pqN.toNat
    (pqSet e.tree.pq e.tree.pqN.toNat x) (Nat.le_refl _) (by omega)
    (by rw [hent]; exact (List.perm_append_singleton x (live e)).nodup_iff.mpr hd)
    (fun j hj hj1 hjn => by
      rw [pqGet_pqSet, pqGet_pqSet, if_neg (by omega), if_neg hjn]
      exact hh j (by omega) hj1)
    (fun j hj _ _ _ => by omega)
  have hl : less (pqInsert x e) = less e := less_congr rfl rfl
  refine ⟨?_, ?_, hn1, rfl, fun h256 hw => hs.wf (by omega) (pqOk_set hw h256 x)⟩
  · have : live (pqInsert x e)
        = entries (siftUp e e.tree.pqN.toNat e.tree.pqN.toNat (pqSet e.tree.pq e.tree.pqN.toNat x))
          (e.tree.pqN.toNat + 1) := by
      rw [← hn1]
      rfl
    rw [this]
    exact (hs.perm.trans (.of_eq hent)).trans (List.perm_append_singleton x (live e))
  · rw [heapOk_iff, Heaped, hl]
    intro j hj
    have hj' : j < (e.tree.pqN + 1#9).toNat := hj
    rw [hn1] at hj'
    exact hs.heap j hj'

/-- `PqExtract()` (R160): it takes the live node of the least key, and the others stay, in a heap; nothing else of
the block changes. -/
theorem pqRemove_spec {e : Engine} (hn : 1 ≤ e.tree.pqN.toNat) (hh : HeapOk e) (hd : (live e).Nodup) :
    let t := pqRemove e
    (live e).Perm (pqTop e :: live t) ∧ (∀ x ∈ live t, less e (pqTop e) x = true) ∧ HeapOk t ∧
      t.tree.pqN.toNat = e.tree.pqN.toNat - 1 ∧
      t = { e with tree := { e.tree with pq := t.tree.pq, pqN := e.tree.pqN - 1#9 } } ∧
      (e.tree.pqN.toNat ≤ 256 → tableOk 0#9 256 0 e.tree.pq = true → tableOk 0#9 256 0 t.tree.pq = true) := by
  have hlt := e.tree.pqN.isLt
  have hn1 : (e.tree.pqN - 1#9).toNat = e.tree.pqN.toNat - 1 := by
    rw [BitVec.toNat_sub]
    simp
    omega
  obtain ⟨m, hm⟩ : ∃ m, e.tree.pqN.toNat = m + 1 := ⟨e.tree.pqN.toNat - 1, by omega⟩
  have hm1 : (e.tree.pqN - 1#9).toNat = m := by omega
  have hlive : live e = pqTop e :: (List.range m).map (fun j => pqGet e.tree.pq (j + 1)) := by
    rw [live_eq, entries, hm, List.range_succ_eq_map, List.map_cons, List.map_map]
    rfl
  by_cases h0 : e.tree.pqN - 1#9 = 0#9
  · have hm0 : m = 0 := by rw [← hm1, h0]; rfl
    have ht : pqRemove e = setQueue e.tree.pq (e.tree.pqN - 1#9) e := by
      simp only [pqRemove, h0, if_true]
    have hl0 : live (pqRemove e) = [] := by
      rw [ht, live_eq]
      simp [entries, h0]
    refine ⟨?_, ?_, ?_, ?_, ?_, ?_⟩
    · rw [hl0, hlive, hm0]
      exact .refl _
    · rw [hl0]
      simp
    · intro j hj
      have : (pqRemove e).tree.pqN.toNat = 0 := by rw [ht]; simp [h0]
      omega
    · rw [ht]
      exact hn1
    · rw [ht]
      rfl
    · intro _ h
      rw [ht]
      exact h
  · have hmpos : 0 < m := by
      rcases Nat.eq_zero_or_pos m with h | h
      · exact absurd (BitVec.eq_of_toNat_eq (by rw [hm1, h]; rfl)) h0
      · exact h
    have hset : entries (pqSet e.tree.pq 0 (pqGet e.tree.pq m)) m
        = pqGet e.tree.pq m :: (List.range (m - 1)).map (fun j => pqGet e.tree.pq (j + 1)) := by
      obtain ⟨q, rfl⟩ : ∃ q, m = q + 1 := ⟨m - 1, by omega⟩
      rw [entries, List.range_succ_eq_map, List.map_cons, List.map_map]
      simp [Function.comp_def]
    have hperm : (entries (pqSet e.tree.pq 0 (pqGet e.tree.pq m)) m).Perm
        ((List.range m).map (fun j => pqGet e.tree.pq (j + 1))) := by
      obtain ⟨q, rfl⟩ : ∃ q, m = q + 1 := ⟨m - 1, by omega⟩
      rw [hset, List.range_succ, List.map_append]
      exact (List.perm_append_singleton _ _).symm
    have hdt : ((List.range m).map (fun j => pqGet e.tree.pq (j + 1))).Nodup := by
      rw [hlive] at hd
      exact (List.nodup_cons.mp hd).2
    have hs := siftDown_sifted (e := e) (n := m) m 0 (pqSet e.tree.pq 0 (pqGet e.tree.pq m)) (by omega) hmpos
      (hperm.nodup_iff.mpr hdt)
      (fun j hj hj1 hj0 => by
        rw [pqGet_pqSet, pqGet_pqSet, if_neg hj0, if_neg (by omega)]
        exact hh j (by omega) hj1)
      (fun j _ _ h => by omega)
    have ht : pqRemove e
        = setQueue (siftDown e m m 0 (pqSet e.tree.pq 0 (pqGet e.tree.pq m))) (e.tree.pqN - 1#9) e := by
      simp only [pqRemove, if_neg h0, hm1]
    have hlt' : live (pqRemove e) = entries (siftDown e m m 0 (pqSet e.tree.pq 0 (pqGet e.tree.pq m))) m := by
      rw [ht, live_eq]
      change entries _ (e.tree.pqN - 1#9).toNat = _
      rw [hm1]
      rfl
    have hpl : (live (pqRemove e)).Perm ((List.range m).map (fun j => pqGet e.tree.pq (j + 1))) := by
      rw [hlt']
      exact hs.perm.trans hperm
    refine ⟨?_, ?_, ?_, ?_, ?_, ?_⟩
    · rw [hlive]
      exact (hpl.symm).cons _
    · intro x hx
      have hx' := (hpl.mem_iff).mp hx
      simp only [List.mem_map, List.mem_range] at hx'
      obtain ⟨j, hj, rfl⟩ := hx'
      exact heap_top ((heapOk_iff e).mp hh) (j + 1) (by omega) (by omega)
    · have hl : less (pqRemove e) = less e := by rw [ht]; exact less_congr rfl rfl
      rw [heapOk_iff, Heaped, hl]
      intro j hj
      rw [ht] at hj ⊢
      have hj' : j < (e.tree.pqN - 1#9).toNat := hj
      rw [hm1] at hj'
      exact hs.heap j hj'
    · rw [ht]
      exact hn1
    · rw [ht]
      rfl
    · intro h256 hw
      rw [ht]
      exact hs.wf (by omega) (pqOk_set hw (by omega) _)

end Sys2Proof.Machine
end

