-- ==== Sys2Proof/Laws/Paths.lean ====
section
/-! SUPPORT. Paths through the tree (`43_codebook.md` R180) and the code book that holds them. -/

namespace Sys2Proof.Machine

@[simp] theorem follow_nil (e : Engine) (n : Node) : follow e n [] = some n := by
  rw [follow]

/-- A path in two parts. -/
theorem follow_append (e : Engine) (n : Node) (p q : List Bool) :
    follow e n (p ++ q) = (follow e n p).bind fun m => follow e m q := by
  induction p generalizing n with
  | nil => simp
  | cons b p ih =>
    simp only [List.cons_append, follow]
    split
    · rfl
    · exact ih _

/-- No branch leads out of a leaf. -/
theorem follow_leaf {e : Engine} {n : Node} (h : isLeaf n = true) (b : Bool) (p : List Bool) :
    follow e n (b :: p) = none := by
  simp [follow, h]

/-- What the branches from a node reach depends on the tree alone. -/
theorem follow_congr {e e' : Engine} (h : e.tree = e'.tree) (n : Node) (p : List Bool) :
    follow e n p = follow e' n p := by
  induction p generalizing n with
  | nil => simp
  | cons b p ih => simp [follow, childOf, ndGet, h, ih]

/-- Nodes that are closed under taking children hold every node reached from one of them. -/
theorem follow_closed {e : Engine} {P : Node → Prop}
    (hP : ∀ n b, P n → isLeaf n = false → P (childOf e n b)) {n m : Node} {p : List Bool} (hn : P n)
    (h : follow e n p = some m) : P m := by
  induction p generalizing n with
  | nil => cases h; exact hn
  | cons b p ih =>
    cases hl : isLeaf n with
    | true => rw [follow_leaf hl] at h; cases h
    | false =>
      rw [follow, hl] at h
      exact ih (hP n b hn hl) h

/-- A code book not marked done asks nothing of the tree (`10_state.md` R33). -/
theorem bookOk_of_not_done {e : Engine} (h : e.book.done = false) : BookOk e := fun h' => by
  rw [h] at h'
  cases h'

/-- Whether the code book is the tree's depends on these two alone. -/
theorem bookOk_congr {e e' : Engine} (ht : e.tree = e'.tree) (hb : e.book = e'.book) (h : BookOk e) : BookOk e' := by
  have hg : ∀ x, cbGet e' x = cbGet e x := fun x => by rw [cbGet, cbGet, hb]
  intro hd
  obtain ⟨h1, h2⟩ := h (hb ▸ hd)
  refine ⟨fun x path hx => ?_, fun x path hx hv hp => ?_⟩
  · obtain ⟨hx', hv, hp⟩ := h1 x path ((hg x).symm.trans hx)
    exact ⟨hx', ht ▸ hv, by rw [IsPath, ← ht, ← follow_congr ht]; exact hp⟩
  · rw [cbHas, hg]
    refine h2 x path hx (ht.symm ▸ hv) ?_
    rw [IsPath, ht, follow_congr ht]
    exact hp

end Sys2Proof.Machine
end

