-- ==== Sys2Proof/Laws/PerInstr.lean ====
section
/-! SUPPORT. Statements made for each command as syntax. The family `Fields`: the word of a command holds its opcode
in bits 15 to 8 and its operand in bits 7 to 0 (`30_encoding.md` R90), for every operand a term can carry. -/

namespace Sys2Proof.Laws.Fields

/-- The two fields of a command's word. -/
def Statement (i : Instr) : Prop := (encode i).opcode = i.opcode ∧ (encode i).operand = i.operand

/-- A word put together of an opcode and an operand has those fields. -/
theorem fields_of_append (op a : BitVec 8) :
    Command.opcode (op ++ a) = op ∧ Command.operand (op ++ a) = a := by
  constructor
  · change BitVec.extractLsb' 8 8 (op ++ a : BitVec (8 + 8)) = op
    apply BitVec.eq_of_getLsbD_eq
    intro i hi
    rw [BitVec.getLsbD_extractLsb', BitVec.getLsbD_append]
    simp [hi]
  · change BitVec.extractLsb' 0 8 (op ++ a : BitVec (8 + 8)) = a
    apply BitVec.eq_of_getLsbD_eq
    intro i hi
    rw [BitVec.getLsbD_extractLsb', BitVec.getLsbD_append]
    simp [hi]

theorem nop : Statement .nop := fields_of_append _ _

theorem reset : Statement .reset := fields_of_append _ _

theorem srcOpen : Statement .srcOpen := fields_of_append _ _

theorem srcClose : Statement .srcClose := fields_of_append _ _

theorem snkOpen : Statement .snkOpen := fields_of_append _ _

theorem snkClose : Statement .snkClose := fields_of_append _ _

theorem ftClr : Statement .ftClr := fields_of_append _ _

theorem ftInc (sym : BitVec 8) : Statement (.ftInc sym) := fields_of_append _ _

theorem ftScan : Statement .ftScan := fields_of_append _ _

theorem htInit : Statement .htInit := fields_of_append _ _

theorem htStep : Statement .htStep := fields_of_append _ _

theorem htBuild : Statement .htBuild := fields_of_append _ _

theorem cbBuild : Statement .cbBuild := fields_of_append _ _

theorem bwBit (bit : BitVec 8) : Statement (.bwBit bit) := fields_of_append _ _

theorem bwClose : Statement .bwClose := fields_of_append _ _

theorem brBit : Statement .brBit := fields_of_append _ _

theorem hdrWr : Statement .hdrWr := fields_of_append _ _

theorem hdrRd : Statement .hdrRd := fields_of_append _ _

theorem encSym (sym : BitVec 8) : Statement (.encSym sym) := fields_of_append _ _

theorem encRun : Statement .encRun := fields_of_append _ _

theorem decSym : Statement .decSym := fields_of_append _ _

theorem decRun : Statement .decRun := fields_of_append _ _

theorem compress : Statement .compress := fields_of_append _ _

theorem decompress : Statement .decompress := fields_of_append _ _

end Sys2Proof.Laws.Fields
end

