-- ==== Sys2Proof/Laws/Procedures.lean ====
section
/-! SUPPORT. What running a procedure gives: sequencing, the registers, the environment's primitives, the release,
taking a fault, and `Exec`. A proof about a command cites these and unfolds no operation of Ops.lean. -/

namespace Sys2Proof.Machine

variable {ε α β : Type}

/-! ### Sequencing -/

theorem run_bind (p : EStateM ε State α) (q : α → EStateM ε State β) (s : State) :
    (p >>= q) s = (match p s with
      | .ok a t => q a t
      | .error e t => .error e t) := by
  change EStateM.bind p q s = _
  unfold EStateM.bind
  cases p s <;> rfl

@[simp] theorem run_pure (a : α) (s : State) : (pure a : EStateM ε State α) s = .ok a s := rfl

/-- After a procedure that ends well the rest runs from where it ended. -/
theorem bind_of_ok {p : EStateM ε State α} {s t : State} {a : α} (h : p s = .ok a t)
    (q : α → EStateM ε State β) : (p >>= q) s = q a t := by
  rw [run_bind, h]

/-- After a procedure that stops nothing runs (`60_exceptions.md` R262). -/
theorem bind_of_error {p : EStateM ε State α} {s t : State} {e : ε} (h : p s = .error e t)
    (q : α → EStateM ε State β) : (p >>= q) s = .error e t := by
  rw [run_bind, h]

/-- A sequence ends well exactly when both parts do. -/
theorem bind_eq_ok {p : EStateM ε State α} {q : α → EStateM ε State β} {s u : State} {b : β} :
    (p >>= q) s = .ok b u ↔ ∃ a t, p s = .ok a t ∧ q a t = .ok b u := by
  rw [run_bind]
  constructor
  · intro h
    split at h
    · exact ⟨_, _, ‹_›, h⟩
    · cases h
  · rintro ⟨a, t, h, h'⟩
    rw [h]
    exact h'

/-- A sequence stops when its first part does, or the first ends well and the second stops. -/
theorem bind_eq_error {p : EStateM ε State α} {q : α → EStateM ε State β} {s u : State} {e : ε} :
    (p >>= q) s = .error e u ↔ p s = .error e u ∨ ∃ a t, p s = .ok a t ∧ q a t = .error e u := by
  rw [run_bind]
  constructor
  · intro h
    split at h
    · exact .inr ⟨_, _, ‹_›, h⟩
    · rename_i h'
      cases h
      exact .inl h'
  · rintro (h | ⟨a, t, h, h'⟩)
    · rw [h]
    · rw [h]
      exact h'

/-! ### Registers, raises and calls -/

@[simp] theorem run_raise (k : FaultKind) (s : State) : (raise k : Proc α) s = .error (.raise k) s := rfl

@[simp] theorem run_require (c : Bool) (k : FaultKind) (s : State) :
    require c k s = if c then .ok () s else .error (.raise k) s := by
  cases c <;> rfl

@[simp] theorem run_stuck (f : Fault) (s : State) : (stuck f : Proc α) s = .error (.cut (.fault f)) s := rfl

@[simp] theorem run_getEng (s : State) : getEng s = .ok s.eng s := rfl

@[simp] theorem run_modEng (f : Engine → Engine) (s : State) : modEng f s = .ok () (modEngine f s) := rfl

theorem call_of_ok {p : Prim α} {s t : State} {a : α} (h : p s = .ok a t) : call p s = .ok a t := by
  simp [call, h]

theorem call_of_error {p : Prim α} {s t : State} {c : Cut} (h : p s = .error c t) :
    call p s = .error (.cut c) t := by
  simp [call, h]

theorem call_eq_ok {p : Prim α} {s t : State} {a : α} : call p s = .ok a t ↔ p s = .ok a t := by
  unfold call
  split <;> simp_all

theorem call_eq_error {p : Prim α} {s t : State} {e : Stop} :
    call p s = .error e t ↔ ∃ c, e = .cut c ∧ p s = .error c t := by
  unfold call
  split
  · simp_all
  · rename_i h
    rw [h]
    constructor
    · intro h
      cases h
      exact ⟨_, rfl, rfl⟩
    · rintro ⟨c, rfl, h⟩
      cases h
      rfl

/-! ### The environment's primitives (`20_memory.md` R61 to R66) -/

@[simp] theorem afterCalls_src (n : Nat) (v : Env) : (afterCalls n v).src = v.src := rfl
@[simp] theorem afterCalls_srcPos (n : Nat) (v : Env) : (afterCalls n v).srcPos = v.srcPos := rfl
@[simp] theorem afterCalls_snk (n : Nat) (v : Env) : (afterCalls n v).snk = v.snk := rfl
@[simp] theorem afterCalls_snkDone (n : Nat) (v : Env) : (afterCalls n v).snkDone = v.snkDone := rfl
@[simp] theorem afterCalls_answers (n : Nat) (v : Env) : (afterCalls n v).answers = v.answers.drop n := rfl
@[simp] theorem afterCalls_zero (v : Env) : afterCalls 0 v = v := rfl

theorem afterCalls_add (m n : Nat) (v : Env) : afterCalls m (afterCalls n v) = afterCalls (n + m) v := by
  simp [afterCalls, List.drop_drop]

/-- The state after one call has taken its answer. -/
def asked (s : State) : State := { s with env := afterCalls 1 s.env }

@[simp] theorem asked_eng (s : State) : (asked s).eng = s.eng := rfl
@[simp] theorem asked_env (s : State) : (asked s).env = afterCalls 1 s.env := rfl
@[simp] theorem asked_host (s : State) : (asked s).host = s.host := rfl

/-- The four answers of the environment to a call, and what each does to the command. -/
theorem run_nextAnswer (s : State) :
    nextAnswer s = (match nextAnswerOf s with
      | .normal => .ok true (asked s)
      | .ioErr => .ok false (asked s)
      | .silent => .error (.fault .environmentSilent) (asked s)
      | .hwReset => .error .hwReset (asked s)) := by
  rcases s with ⟨eng, ⟨src, srcPos, snk, snkDone, answers⟩, host⟩
  cases answers with
  | nil => rfl
  | cons a rest => cases a <;> rfl

theorem ioOk_next {s : State} (h : IoOk s) : nextAnswerOf s = .normal := by
  unfold nextAnswerOf
  cases ha : s.env.answers with
  | nil => rfl
  | cons a rest => exact h a (by simp [ha])

theorem answering_next {s : State} (h : Answering s) : NextAnswered s := by
  unfold NextAnswered nextAnswerOf
  cases ha : s.env.answers with
  | nil => exact .inl rfl
  | cons a rest => exact h a (by simp [ha])

theorem ioOk_of_answers {s t : State} (h : IoOk s) (n : Nat) (ht : t.env.answers = s.env.answers.drop n) :
    IoOk t := fun a ha => h a (List.mem_of_mem_drop (ht ▸ ha))

theorem answering_of_answers {s t : State} (h : Answering s) (n : Nat)
    (ht : t.env.answers = s.env.answers.drop n) : Answering t :=
  fun a ha => h a (List.mem_of_mem_drop (ht ▸ ha))

theorem run_srcOpenCall (s : State) :
    srcOpenCall s = (match nextAnswerOf s with
      | .normal => .ok true { s with env := { afterCalls 1 s.env with srcPos := 0 } }
      | .ioErr => .ok false (asked s)
      | .silent => .error (.fault .environmentSilent) (asked s)
      | .hwReset => .error .hwReset (asked s)) := by
  unfold srcOpenCall
  rw [run_bind, run_nextAnswer]
  cases nextAnswerOf s <;> rfl

theorem run_srcReadCall (s : State) :
    srcReadCall s = (match nextAnswerOf s with
      | .normal =>
        (match s.env.src[s.env.srcPos]? with
        | some b => .ok (.byte b) { s with env := { afterCalls 1 s.env with srcPos := s.env.srcPos + 1 } }
        | none => .ok .eos (asked s))
      | .ioErr => .ok .ioErr (asked s)
      | .silent => .error (.fault .environmentSilent) (asked s)
      | .hwReset => .error .hwReset (asked s)) := by
  unfold srcReadCall
  rw [run_bind, run_nextAnswer]
  cases nextAnswerOf s <;> rfl

theorem run_snkOpenCall (s : State) :
    snkOpenCall s = (match nextAnswerOf s with
      | .normal => .ok true { s with env := { afterCalls 1 s.env with snk := [], snkDone := false } }
      | .ioErr => .ok false (asked s)
      | .silent => .error (.fault .environmentSilent) (asked s)
      | .hwReset => .error .hwReset (asked s)) := by
  unfold snkOpenCall
  rw [run_bind, run_nextAnswer]
  cases nextAnswerOf s <;> rfl

theorem run_snkWriteCall (b : Byte) (s : State) :
    snkWriteCall b s = (match nextAnswerOf s with
      | .normal => .ok true { s with env := { afterCalls 1 s.env with snk := s.env.snk ++ [b] } }
      | .ioErr => .ok false (asked s)
      | .silent => .error (.fault .environmentSilent) (asked s)
      | .hwReset => .error .hwReset (asked s)) := by
  unfold snkWriteCall
  rw [run_bind, run_nextAnswer]
  cases nextAnswerOf s <;> rfl

theorem run_snkCloseCall (s : State) :
    snkCloseCall s = (match nextAnswerOf s with
      | .normal => .ok true { s with env := { afterCalls 1 s.env with snkDone := true } }
      | .ioErr => .ok false { s with env := { afterCalls 1 s.env with snkDone := true } }
      | .silent => .error (.fault .environmentSilent) (asked s)
      | .hwReset => .error .hwReset (asked s)) := by
  unfold snkCloseCall
  rw [run_bind, run_nextAnswer]
  cases nextAnswerOf s <;> rfl

theorem run_srcCloseCall (s : State) :
    srcCloseCall s = (match nextAnswerOf s with
      | .normal => .ok () (asked s)
      | .ioErr => .ok () (asked s)
      | .silent => .error (.fault .environmentSilent) (asked s)
      | .hwReset => .error .hwReset (asked s)) := by
  unfold srcCloseCall
  rw [run_bind, run_nextAnswer]
  cases nextAnswerOf s <;> rfl

/-! ### Release, fault entry, reset -/

theorem releaseAnswered_of_ioOk {s : State} (h : IoOk s) : ReleaseAnswered s :=
  fun a ha => .inl (h a (List.mem_of_mem_take ha))

theorem releaseAnswered_of_answering {s : State} (h : Answering s) : ReleaseAnswered s :=
  fun a ha => h a (List.mem_of_mem_take ha)

/-- With both streams closed the release makes no call. -/
theorem releaseAnswered_of_closed {s : State} (hw : s.eng.bw.isOpen = false) (hr : s.eng.br.isOpen = false) :
    ReleaseAnswered s := fun a ha => by simp [releaseCalls, hw, hr] at ha

/-- The state after the sink's part of the release, where it is answered. -/
def sinkReleased (s : State) : State :=
  { s with
    eng := { s.eng with bw := releasedWriter s.eng.bw }
    env := { afterCalls s.eng.bw.isOpen.toNat s.env with snkDone := s.eng.bw.isOpen || s.env.snkDone } }

@[simp] theorem sinkReleased_br (s : State) : (sinkReleased s).eng.br = s.eng.br := rfl

/-- The state after `Release()` (`46_control.md` R247), where the environment answers. -/
def released (s : State) : State :=
  { s with
    eng := { s.eng with bw := releasedWriter s.eng.bw, br := { s.eng.br with isOpen := false } }
    env := releasedEnv s.eng s.env }

/-- The environment where hardware reset strikes within the release: at the call of an open sink, or, after that
call was answered, at the call of an open source. -/
def ReleaseReset (s : State) (v : Env) : Prop :=
  (s.eng.bw.isOpen = true ∧ nextAnswerOf s = .hwReset ∧ v = afterCalls 1 s.env) ∨
  (s.eng.br.isOpen = true ∧ (s.eng.bw.isOpen = true → NextAnswered s) ∧
    nextAnswerOf (sinkReleased s) = .hwReset ∧ v = releasedEnv s.eng s.env)

/-- Hardware reset within the release leaves both streams' contents as they were. -/
theorem ReleaseReset.streams {s : State} {v : Env} (h : ReleaseReset s v) :
    v.src = s.env.src ∧ v.srcPos = s.env.srcPos ∧ v.snk = s.env.snk := by
  rcases h with ⟨-, -, rfl⟩ | ⟨-, -, -, rfl⟩ <;> exact ⟨rfl, rfl, rfl⟩

/-- The source's part of the release, in every case. -/
theorem run_releaseSource (s : State) :
    releaseSource s =
      if s.eng.br.isOpen = true then
        match nextAnswerOf s with
        | .normal => .ok ()
            { s with eng := { s.eng with br := { s.eng.br with isOpen := false } }, env := afterCalls 1 s.env }
        | .ioErr => .ok ()
            { s with eng := { s.eng with br := { s.eng.br with isOpen := false } }, env := afterCalls 1 s.env }
        | .silent => .error (.fault .environmentSilent) (asked s)
        | .hwReset => .error .hwReset (asked s)
      else .ok () s := by
  unfold releaseSource
  split
  · rw [run_bind, run_srcCloseCall]
    cases nextAnswerOf s <;> rfl
  · rfl

/-- The sink's part of the release, in every case. -/
theorem run_releaseSink (s : State) :
    releaseSink s =
      if s.eng.bw.isOpen = true then
        match nextAnswerOf s with
        | .normal => .ok () (sinkReleased s)
        | .ioErr => .ok () (sinkReleased s)
        | .silent => .error (.fault .environmentSilent) (asked (modEngine clearWriter s))
        | .hwReset => .error .hwReset (asked (modEngine clearWriter s))
      else .ok () (sinkReleased s) := by
  rcases s with ⟨⟨scan, tree, book, ⟨buf, cnt, isOpen⟩, br, dec, stat⟩, ⟨src, srcPos, snk, snkDone, answers⟩, host⟩
  cases isOpen with
  | false => rfl
  | true =>
    cases answers with
    | nil => rfl
    | cons a rest => cases a <;> rfl

/-- The release is answered when each of its calls is: the sink's first, then the source's. -/
theorem releaseAnswered_iff (s : State) :
    ReleaseAnswered s ↔
      (s.eng.bw.isOpen = true → NextAnswered s) ∧ (s.eng.br.isOpen = true → NextAnswered (sinkReleased s)) := by
  rcases s with ⟨⟨scan, tree, book, ⟨wbuf, cnt, wopen⟩, ⟨rbuf, pos, eos, ropen⟩, dec, stat⟩,
    ⟨src, srcPos, snk, snkDone, answers⟩, host⟩
  rcases answers with _ | ⟨a, _ | ⟨b, rest⟩⟩ <;> cases wopen <;> cases ropen <;>
    simp [ReleaseAnswered, releaseCalls, NextAnswered, nextAnswerOf, sinkReleased]

/-- The release where it goes past the sink: the source's part is left. -/
theorem release_of_sink {s : State} (h : s.eng.bw.isOpen = true → NextAnswered s) :
    release s = releaseSource (sinkReleased s) := by
  refine bind_of_ok (a := ()) ?_ _
  rw [run_releaseSink]
  split
  · rename_i ho
    rcases h ho with h' | h' <;> rw [h']
  · rfl

/-- The environment once the call of an open source is made as well. -/
theorem afterCalls_sinkReleased {s : State} (h : s.eng.br.isOpen = true) :
    afterCalls 1 (sinkReleased s).env = releasedEnv s.eng s.env := by
  simp [afterCalls, sinkReleased, releasedEnv, releaseCalls, h, List.drop_drop]

/-- The environment where the source is not open. -/
theorem sinkReleased_env {s : State} (h : s.eng.br.isOpen = false) :
    (sinkReleased s).env = releasedEnv s.eng s.env := by
  simp [afterCalls, sinkReleased, releasedEnv, releaseCalls, h]

/-- Everything `Release()` can do: it is answered, or it is cut, by a call left without answer or by hardware
reset. -/
theorem release_cases (s : State) :
    (ReleaseAnswered s ∧ release s = .ok () (released s)) ∨
    (¬ ReleaseAnswered s ∧ ∃ t, release s = .error (.fault .environmentSilent) t) ∨
    (¬ ReleaseAnswered s ∧ ∃ t, release s = .error .hwReset t ∧ t.host = s.host ∧ ReleaseReset s t.env) := by
  by_cases hw : s.eng.bw.isOpen = true → NextAnswered s
  · rw [release_of_sink hw, run_releaseSource]
    by_cases ho : s.eng.br.isOpen = true
    · have he := afterCalls_sinkReleased ho
      rw [if_pos (show (sinkReleased s).eng.br.isOpen = true from ho)]
      cases ha : nextAnswerOf (sinkReleased s) with
      | normal => exact .inl ⟨(releaseAnswered_iff s).mpr ⟨hw, fun _ => .inl ha⟩, by rw [he]; rfl⟩
      | ioErr => exact .inl ⟨(releaseAnswered_iff s).mpr ⟨hw, fun _ => .inr ha⟩, by rw [he]; rfl⟩
      | silent =>
        exact .inr (.inl ⟨fun h => by rcases ((releaseAnswered_iff s).mp h).2 ho with h | h <;> simp [ha] at h, _, rfl⟩)
      | hwReset =>
        exact .inr (.inr ⟨fun h => by rcases ((releaseAnswered_iff s).mp h).2 ho with h | h <;> simp [ha] at h,
          _, rfl, rfl, .inr ⟨ho, hw, ha, he⟩⟩)
    · have hc : s.eng.br.isOpen = false := by simpa using ho
      have he := sinkReleased_env hc
      rw [if_neg (show ¬ (sinkReleased s).eng.br.isOpen = true from ho)]
      refine .inl ⟨(releaseAnswered_iff s).mpr ⟨hw, fun h => absurd h ho⟩, ?_⟩
      rcases s with ⟨⟨scan, tree, book, bw, ⟨buf, pos, eos, isOpen⟩, dec, stat⟩, env, host⟩
      cases hc
      rw [released, ← he]
      rfl
  · obtain ⟨ho, hn⟩ := Classical.not_imp.mp hw
    have hr : ¬ ReleaseAnswered s := fun h => hw ((releaseAnswered_iff s).mp h).1
    have hcut : ∀ c t, releaseSink s = .error c t → release s = .error c t := fun c t h => bind_of_error h _
    have hs := run_releaseSink s
    rw [if_pos ho] at hs
    cases ha : nextAnswerOf s with
    | normal => exact absurd (.inl ha) hn
    | ioErr => exact absurd (.inr ha) hn
    | silent =>
      rw [ha] at hs
      exact .inr (.inl ⟨hr, _, hcut _ _ hs⟩)
    | hwReset =>
      rw [ha] at hs
      exact .inr (.inr ⟨hr, _, hcut _ _ hs, rfl, .inl ⟨ho, ha, rfl⟩⟩)

theorem run_release {s : State} (h : ReleaseAnswered s) : release s = .ok () (released s) := by
  rcases release_cases s with ⟨-, h'⟩ | ⟨hn, -⟩ | ⟨hn, -⟩
  · exact h'
  · exact absurd h hn
  · exact absurd h hn

/-- Taking a fault (`60_exceptions.md` R262) is its flags and the release. -/
theorem faultEntry_eq (k : FaultKind) (s : State) : faultEntry k s = release (modEngine (setFaultFlags k) s) :=
  bind_of_ok (s := s) (t := modEngine (setFaultFlags k) s) rfl _

/-- Taking a fault, where the environment answers (`60_exceptions.md` R262). -/
theorem run_faultEntry {s : State} (k : FaultKind) (h : ReleaseAnswered s) :
    faultEntry k s = .ok () (released (modEngine (setFaultFlags k) s)) :=
  (faultEntry_eq k s).trans (run_release h)

theorem run_softReset {s : State} (h : ReleaseAnswered s) :
    softReset s = .ok () { (released s) with eng := Engine.reset } := by
  unfold softReset
  rw [bind_of_ok (run_release h)]
  rfl

/-! ### `Exec` -/

theorem execute_refused {s : State} (p : Prim Response) (h : s.eng.stat.fault = true) :
    execute p s = .next (respond .refused s) := by
  simp [execute, h]

theorem execute_ready {s : State} (p : Prim Response) (h : Ready s) : execute p s = finish (p s) := by
  simp [execute, h]

/-- A procedure that returns: its value is the result and the response is `OK` (`30_encoding.md` R93, R94). -/
theorem execute_of_ok {p : Proc U32} {s t : State} {v : U32} (hs : Ready s) (h : p s = .ok v t) :
    execute (runProc p) s = .next (answeredOk v t) := by
  rw [execute_ready _ hs]
  simp only [runProc, h]
  rfl

/-- A procedure that raises: the fault is taken and the response is `FAULT`. -/
theorem execute_of_raise {p : Proc U32} {s t : State} {k : FaultKind} (hs : Ready s)
    (h : p s = .error (.raise k) t) (ht : ReleaseAnswered t) :
    execute (runProc p) s = .next (faultState k t) := by
  rw [execute_ready _ hs]
  simp only [runProc, h]
  rw [bind_of_ok (run_faultEntry k ht)]
  rfl

/-- A procedure that is cut by hardware reset (`70_reset_and_hazards.md` R290). -/
theorem execute_of_hwReset {p : Proc U32} {s t : State} (hs : Ready s) (h : p s = .error (.cut .hwReset) t) :
    execute (runProc p) s = .next (hwReset t) := by
  rw [execute_ready _ hs]
  simp only [runProc, h]
  rfl

/-- A procedure that is cut by a stop of the model. -/
theorem execute_of_fault {p : Proc U32} {s t : State} {f : Fault} (hs : Ready s)
    (h : p s = .error (.cut (.fault f)) t) : execute (runProc p) s = .fault f := by
  rw [execute_ready _ hs]
  simp only [runProc, h]
  rfl

/-- What `Exec` of a command's procedure leads to when it answers a next state: it is refused in the fault state,
it returns, it raises and its fault is taken, or hardware reset cuts it, in the procedure or in the release of the
fault it raised. -/
def ProcNext (p : Proc U32) (s u : State) : Prop :=
  (s.eng.stat.fault = true ∧ u = respond .refused s) ∨
  (Ready s ∧ ∃ v t, p s = .ok v t ∧ u = answeredOk v t) ∨
  (Ready s ∧ ∃ k t, p s = .error (.raise k) t ∧ ReleaseAnswered t ∧ u = faultState k t) ∨
  (Ready s ∧ ∃ t, p s = .error (.cut .hwReset) t ∧ u = hwReset t) ∨
  (Ready s ∧ ∃ k t v, p s = .error (.raise k) t ∧ ReleaseReset t v ∧ u = hwReset { t with env := v })

/-- Everything `Exec` of a command's procedure can do when it answers a next state. -/
theorem execute_next {p : Proc U32} {s u : State} (h : execute (runProc p) s = .next u) : ProcNext p s u := by
  by_cases hs : Ready s
  · refine .inr ?_
    cases hp : p s with
    | ok v t =>
      rw [execute_of_ok hs hp] at h
      exact .inl ⟨hs, v, t, rfl, by cases h; rfl⟩
    | error e t =>
      refine .inr ?_
      cases e with
      | raise k =>
        have hd : execute (runProc p) s
            = finish ((do faultEntry k; pure Response.fault : Prim Response) t) := by
          rw [execute_ready _ hs]
          simp only [runProc, hp]
        rcases release_cases (modEngine (setFaultFlags k) t) with ⟨hr, -⟩ | ⟨-, w, hw⟩ | ⟨-, w, hw, hh, hv⟩
        · rw [execute_of_raise hs hp hr] at h
          exact .inl ⟨hs, k, t, rfl, hr, by cases h; rfl⟩
        · rw [hd, bind_of_error ((faultEntry_eq k t).trans hw)] at h
          cases h
        · rw [hd, bind_of_error ((faultEntry_eq k t).trans hw)] at h
          refine .inr (.inr ⟨hs, k, t, w.env, rfl, hv, ?_⟩)
          rcases w with ⟨eng, env, host⟩
          cases hh
          cases h
          rfl
      | cut c =>
        cases c with
        | fault f =>
          rw [execute_of_fault hs hp] at h
          cases h
        | hwReset =>
          rw [execute_of_hwReset hs hp] at h
          exact .inr (.inl ⟨hs, t, rfl, by cases h; rfl⟩)
  · have hs' : s.eng.stat.fault = true := by simpa using hs
    rw [execute_refused _ hs'] at h
    exact .inl ⟨hs', by cases h; rfl⟩

end Sys2Proof.Machine
end

