-- ==== Sys2Proof/Laws/Step.lean ====
section
/-! SUPPORT. What one step can do, said once: the procedure behind each command, what `Exec` of a command answers,
and the moves of a step. Claims over all commands start from `exec_next` and `step_next`. -/

namespace Sys2Proof.Machine

/-- The procedure of a command (`30_encoding.md` R93, R94); NOP and RESET have none that writes `result`. -/
def procOf : Instr → Option (Proc U32)
  | .nop => none
  | .reset => none
  | .srcOpen => some pSrcOpen
  | .srcClose => some pSrcClose
  | .snkOpen => some pSnkOpen
  | .snkClose => some pSnkClose
  | .ftClr => some pFtClr
  | .ftInc a => some (pFtInc a)
  | .ftScan => some pFtScan
  | .htInit => some pHtInit
  | .htStep => some pHtStep
  | .htBuild => some pHtBuild
  | .cbBuild => some pCbBuild
  | .bwBit a => some (pBwBit a)
  | .bwClose => some pBwClose
  | .brBit => some pBrBit
  | .hdrWr => some pHdrWr
  | .hdrRd => some pHdrRd
  | .encSym a => some (pEncSym a)
  | .encRun => some pEncRun
  | .decSym => some pDecSym
  | .decRun => some pDecRun
  | .compress => some pCompress
  | .decompress => some pDecompress

/-- Every command but NOP and RESET is `Exec` of its procedure. -/
theorem exec_eq {i : Instr} {p : Proc U32} (h : procOf i = some p) (s : State) :
    exec i s = execute (runProc p) s := by
  cases i <;> cases h <;> rfl

/-- NOP (`46_control.md` R241). -/
theorem exec_nop (s : State) :
    exec .nop s = .next (respond (if s.eng.stat.fault = true then .refused else .ok) s) := by
  change execute (pure .ok) s = _
  cases h : s.eng.stat.fault with
  | true => rw [execute_refused _ h]; rfl
  | false => rw [execute_ready _ h]; rfl

/-- RESET (`46_control.md` R242) where the environment answers the release. -/
theorem exec_reset {s : State} (h : ReleaseAnswered s) :
    exec .reset s = .next (respond .ok { (released s) with eng := Engine.reset }) := by
  change finish ((do softReset; pure .ok : Prim Response) s) = _
  rw [bind_of_ok (run_softReset h)]
  rfl

/-- Everything RESET can do when it answers a next state: the block is reset, with a response or cut off. -/
theorem reset_next {s u : State} (h : exec .reset s = .next u) :
    (ReleaseAnswered s ∧ u = respond .ok { (released s) with eng := Engine.reset }) ∨
    ∃ v, ReleaseReset s v ∧ u = hwReset { s with env := v } := by
  have hcut : ∀ c t, release s = .error c t →
      exec .reset s = finish (.error c t) := fun c t h => by
    have hs : softReset s = .error c t := bind_of_error h _
    change finish ((do softReset; pure .ok : Prim Response) s) = _
    rw [bind_of_error hs]
  rcases release_cases s with ⟨hr, -⟩ | ⟨-, w, hw⟩ | ⟨-, w, hw, hh, hv⟩
  · rw [exec_reset hr] at h
    exact .inl ⟨hr, by cases h; rfl⟩
  · rw [hcut _ _ hw] at h
    cases h
  · rw [hcut _ _ hw] at h
    refine .inr ⟨w.env, hv, ?_⟩
    rcases w with ⟨eng, env, host⟩
    cases hh
    cases h
    rfl

/-- Everything a command can do when it answers a next state. -/
theorem exec_next {i : Instr} {s u : State} (h : exec i s = .next u) :
    (i = .nop ∧ u = respond (if s.eng.stat.fault = true then .refused else .ok) s) ∨
    (i = .reset ∧ ((ReleaseAnswered s ∧ u = respond .ok { (released s) with eng := Engine.reset }) ∨
      ∃ v, ReleaseReset s v ∧ u = hwReset { s with env := v })) ∨
    ∃ p, procOf i = some p ∧ ProcNext p s u := by
  cases hp : procOf i with
  | some p =>
    rw [exec_eq hp] at h
    exact .inr (.inr ⟨p, rfl, execute_next h⟩)
  | none =>
    cases i <;> try cases hp
    · rw [exec_nop] at h
      exact .inl ⟨rfl, by cases h; rfl⟩
    · exact .inr (.inl ⟨rfl, reset_next h⟩)

/-- An illegal word (`30_encoding.md` R95): refused in the fault state, else `BadCommand` is taken. -/
theorem execIllegal_next {s u : State} (h : execIllegal s = .next u) :
    ProcNext (raise .badCommand) s u := execute_next h

/-- Everything a command word can do when it answers a next state. -/
theorem runCommand_next {w : Command} {s u : State} (h : runCommand w s = .next u) :
    (∃ i, decode w = .ok i ∧ exec i s = .next u) ∨
    ((∃ r, decode w = .error r) ∧ ProcNext (raise .badCommand) s u) := by
  unfold runCommand at h
  split at h
  · rename_i i hi
    exact .inl ⟨i, hi, h⟩
  · rename_i r hr
    exact .inr ⟨⟨r, hr⟩, execIllegal_next h⟩

/-- Everything one step can do when it answers a next state: nothing, a command, or another move of the host. -/
theorem step_next {s u : State} (h : step s = .next u) :
    (s.host.moves = [] ∧ u = s) ∨
    ∃ m ms, s.host.moves = m :: ms ∧
      ((∃ w, m = .command w ∧ runCommand w (withMoves ms s) = .next u) ∨
        (m = .hwReset ∧ u = hwReset (withMoves ms s)) ∨
        (∃ a, m = .regRead a ∧
          u = { s with host := { s.host with moves := ms, rdata := some (regRead s.eng a) } }) ∨
        (∃ b, m = .bindSource b ∧ s.eng.br.isOpen = false ∧
          u = { s with env := { s.env with src := b, srcPos := 0 }, host := { s.host with moves := ms } }) ∨
        (m = .bindSink ∧ s.eng.bw.isOpen = false ∧
          u = { s with env := { s.env with snk := [], snkDone := false }, host := { s.host with moves := ms } })) := by
  unfold step at h
  split at h
  · rename_i hm
    cases h
    exact .inl ⟨hm, rfl⟩
  · rename_i w ms hm
    exact .inr ⟨_, ms, hm, .inl ⟨w, rfl, h⟩⟩
  · rename_i ms hm
    cases h
    exact .inr ⟨_, ms, hm, .inr (.inl ⟨rfl, rfl⟩)⟩
  · rename_i a ms hm
    cases h
    exact .inr ⟨_, ms, hm, .inr (.inr (.inl ⟨a, rfl, rfl⟩))⟩
  · rename_i b ms hm
    have ho : s.eng.br.isOpen = false := by
      by_contra hc
      have hc' : (withMoves ms s).eng.br.isOpen = true := by simpa using hc
      rw [moveBindSource, if_pos hc'] at h
      cases h
    rw [moveBindSource, if_neg (by simp [ho])] at h
    cases h
    exact .inr ⟨_, ms, hm, .inr (.inr (.inr (.inl ⟨b, rfl, ho, rfl⟩)))⟩
  · rename_i ms hm
    have ho : s.eng.bw.isOpen = false := by
      by_contra hc
      have hc' : (withMoves ms s).eng.bw.isOpen = true := by simpa using hc
      rw [moveBindSink, if_pos hc'] at h
      cases h
    rw [moveBindSink, if_neg (by simp [ho])] at h
    cases h
    exact .inr ⟨_, ms, hm, .inr (.inr (.inr (.inr ⟨rfl, ho, rfl⟩)))⟩

/-! ### Relations a procedure keeps -/

/-- However the procedure ends, its start and its end are related by `R`. -/
def Keeps {ε α : Type} (R : State → State → Prop) (p : EStateM ε State α) : Prop :=
  ∀ s, (∀ a t, p s = .ok a t → R s t) ∧ ∀ e t, p s = .error e t → R s t

section Keeps

variable {ε α β : Type} {R : State → State → Prop}

theorem Keeps.pure (hr : ∀ s, R s s) (a : α) : Keeps R (pure a : EStateM ε State α) :=
  fun s => ⟨fun _ _ h => by cases h; exact hr s, fun _ _ h => by cases h⟩

theorem Keeps.bind (ht : ∀ {s t u}, R s t → R t u → R s u) {p : EStateM ε State α} {q : α → EStateM ε State β}
    (hp : Keeps R p) (hq : ∀ a, Keeps R (q a)) : Keeps R (p >>= q) := by
  intro s
  constructor
  · intro b u h
    obtain ⟨a, t, h1, h2⟩ := bind_eq_ok.mp h
    exact ht ((hp s).1 a t h1) ((hq a t).1 b u h2)
  · intro e u h
    rcases bind_eq_error.mp h with h | ⟨a, t, h1, h2⟩
    · exact (hp s).2 e u h
    · exact ht ((hp s).1 a t h1) ((hq a t).2 e u h2)

theorem Keeps.raise (hr : ∀ s, R s s) (k : FaultKind) : Keeps R (raise k : Proc α) :=
  fun s => ⟨fun _ _ h => (by cases h), fun _ _ h => by cases h; exact hr s⟩

theorem Keeps.require (hr : ∀ s, R s s) (c : Bool) (k : FaultKind) : Keeps R (require c k) := by
  cases c
  · exact Keeps.raise hr k
  · exact Keeps.pure hr ()

theorem Keeps.stuck (hr : ∀ s, R s s) (f : Fault) : Keeps R (stuck f : Proc α) :=
  fun s => ⟨fun _ _ h => (by cases h), fun _ _ h => by cases h; exact hr s⟩

theorem Keeps.getEng (hr : ∀ s, R s s) : Keeps R getEng :=
  fun s => ⟨fun _ _ h => by cases h; exact hr s, fun _ _ h => by cases h⟩

theorem Keeps.modEng {f : Engine → Engine} (h : ∀ s, R s (modEngine f s)) : Keeps R (modEng f) :=
  fun s => ⟨fun _ _ hs => by cases hs; exact h s, fun _ _ hs => by cases hs⟩

theorem Keeps.call {p : Prim α} (h : Keeps R p) : Keeps R (call p) := by
  intro s
  constructor
  · intro a t hs
    exact (h s).1 a t (call_eq_ok.mp hs)
  · intro e t hs
    obtain ⟨c, -, hc⟩ := call_eq_error.mp hs
    exact (h s).2 c t hc

end Keeps

end Sys2Proof.Machine
end

