-- ==== Sys2Proof/Laws/Streams.lean ====
section
/-! SUPPORT. What the procedures over the streams do: the bit writer (`40_bitio.md` R121), the bit reader (R127),
`SrcByte` (`41_freq.md` R146) and `SinkByte` (`45_decompress.md` R222), each in every case, and the writer and the
reader over whole bit sequences where every call is answered. -/

namespace Sys2Proof.Machine

/-! ### One transfer, in every case -/

theorem run_flushByte (v : Byte) (s : State) :
    flushByte v s = (match nextAnswerOf s with
      | .normal => .ok ()
          { s with
            eng := { s.eng with bw := { buf := 0#8, cnt := 0#3, isOpen := s.eng.bw.isOpen } }
            env := { afterCalls 1 s.env with snk := s.env.snk ++ [v] } }
      | .ioErr => .error (.raise .ioUnavailable) (asked s)
      | .silent => .error (.cut (.fault .environmentSilent)) (asked s)
      | .hwReset => .error (.cut .hwReset) (asked s)) := by
  unfold flushByte
  rw [run_bind, call, run_snkWriteCall]
  cases nextAnswerOf s <;> rfl

/-- SRC_CLOSE (`46_control.md` R244), in every case. -/
theorem run_pSrcClose (s : State) :
    pSrcClose s =
      if s.eng.br.isOpen = true then
        match nextAnswerOf s with
        | .normal => .ok 0#32
            { s with eng := { s.eng with br := { s.eng.br with isOpen := false } }, env := afterCalls 1 s.env }
        | .ioErr => .ok 0#32
            { s with eng := { s.eng with br := { s.eng.br with isOpen := false } }, env := afterCalls 1 s.env }
        | .silent => .error (.cut (.fault .environmentSilent)) (asked s)
        | .hwReset => .error (.cut .hwReset) (asked s)
      else .ok 0#32 s := by
  unfold pSrcClose
  rw [run_bind, call, run_releaseSource]
  cases s.eng.br.isOpen <;> cases nextAnswerOf s <;> rfl

/-- `WriteBit` (R121): a closed sink, a bit that waits, a bit that completes a byte. -/
theorem run_writeBit (b : Bool) (s : State) :
    writeBit b s =
      if s.eng.bw.isOpen = true then
        if s.eng.bw.cnt = 7#3 then flushByte ((s.eng.bw.buf <<< 1) ||| lowBit b) s
        else .ok ()
          { s with
            eng :=
              { s.eng with
                bw :=
                  { buf := (s.eng.bw.buf <<< 1) ||| lowBit b, cnt := s.eng.bw.cnt + 1#3
                    isOpen := s.eng.bw.isOpen } } }
      else .error (.raise .streamClosed) s := rfl

/-- The buffered byte's next bit (R127). -/
theorem run_deliverBit (s : State) :
    deliverBit s = .ok (some (s.eng.br.buf.getLsbD (7 - s.eng.br.pos.toNat)))
      { s with eng := { s.eng with br := { s.eng.br with pos := s.eng.br.pos + 1#4 } } } := rfl

/-- `ReadBit` (R127): at the end of the stream, within a byte, and where a byte must be taken first. -/
theorem run_readBit (s : State) :
    readBit s =
      if s.eng.br.eos = true then .ok none s
      else if s.eng.br.pos = 8#4 then
        if s.eng.br.isOpen = true then
          match nextAnswerOf s with
          | .normal =>
            (match s.env.src[s.env.srcPos]? with
            | some b => .ok (some (b.getLsbD 7))
                { s with
                  eng := { s.eng with br := { s.eng.br with buf := b, pos := 1#4 } }
                  env := { afterCalls 1 s.env with srcPos := s.env.srcPos + 1 } }
            | none => .ok none
                { s with
                  eng := { s.eng with br := { s.eng.br with eos := true } }
                  env := afterCalls 1 s.env })
          | .ioErr => .error (.raise .ioUnavailable) (asked s)
          | .silent => .error (.cut (.fault .environmentSilent)) (asked s)
          | .hwReset => .error (.cut .hwReset) (asked s)
        else .error (.raise .ioUnavailable) s
      else .ok (some (s.eng.br.buf.getLsbD (7 - s.eng.br.pos.toNat)))
        { s with eng := { s.eng with br := { s.eng.br with pos := s.eng.br.pos + 1#4 } } } := by
  unfold readBit
  rw [bind_of_ok (run_getEng s)]
  by_cases he : s.eng.br.eos = true
  · rw [if_pos he, if_pos he]
    rfl
  · rw [if_neg he, if_neg he]
    by_cases h8 : s.eng.br.pos = 8#4
    · rw [if_pos h8, if_pos h8]
      by_cases ho : s.eng.br.isOpen = true
      · have hq : require s.eng.br.isOpen .ioUnavailable s = .ok () s := by rw [run_require, if_pos ho]
        rw [if_pos ho, bind_of_ok hq, run_bind, call, run_srcReadCall]
        cases nextAnswerOf s with
        | normal => cases s.env.src[s.env.srcPos]? <;> rfl
        | ioErr => rfl
        | silent => rfl
        | hwReset => rfl
      · have hq : require s.eng.br.isOpen .ioUnavailable s = .error (.raise .ioUnavailable) s := by
          rw [run_require, if_neg ho]
        rw [if_neg ho, bind_of_error hq]
    · rw [if_neg h8, if_neg h8]
      rfl

/-- `SrcByte` (`41_freq.md` R146). -/
theorem run_srcByte (s : State) :
    srcByte s =
      if s.eng.br.isOpen = true then
        match nextAnswerOf s with
        | .normal =>
          (match s.env.src[s.env.srcPos]? with
          | some b => .ok (some b) { s with env := { afterCalls 1 s.env with srcPos := s.env.srcPos + 1 } }
          | none => .ok none (asked s))
        | .ioErr => .error (.raise .ioUnavailable) (asked s)
        | .silent => .error (.cut (.fault .environmentSilent)) (asked s)
        | .hwReset => .error (.cut .hwReset) (asked s)
      else .error (.raise .ioUnavailable) s := by
  unfold srcByte
  rw [bind_of_ok (run_getEng s)]
  by_cases ho : s.eng.br.isOpen = true
  · have hq : require s.eng.br.isOpen .ioUnavailable s = .ok () s := by rw [run_require, if_pos ho]
    rw [if_pos ho, bind_of_ok hq, run_bind, call, run_srcReadCall]
    cases nextAnswerOf s with
    | normal => cases s.env.src[s.env.srcPos]? <;> rfl
    | ioErr => rfl
    | silent => rfl
    | hwReset => rfl
  · have hq : require s.eng.br.isOpen .ioUnavailable s = .error (.raise .ioUnavailable) s := by
      rw [run_require, if_neg ho]
    rw [if_neg ho, bind_of_error hq]

/-- `SinkByte` (`45_decompress.md` R222). -/
theorem run_sinkByte (b : Byte) (s : State) :
    sinkByte b s =
      if s.eng.bw.isOpen = true then
        match nextAnswerOf s with
        | .normal => .ok () { s with env := { afterCalls 1 s.env with snk := s.env.snk ++ [b] } }
        | .ioErr => .error (.raise .ioUnavailable) (asked s)
        | .silent => .error (.cut (.fault .environmentSilent)) (asked s)
        | .hwReset => .error (.cut .hwReset) (asked s)
      else .error (.raise .streamClosed) s := by
  unfold sinkByte
  rw [bind_of_ok (run_getEng s)]
  by_cases ho : s.eng.bw.isOpen = true
  · have hq : require s.eng.bw.isOpen .streamClosed s = .ok () s := by rw [run_require, if_pos ho]
    rw [if_pos ho, bind_of_ok hq, run_bind, call, run_snkWriteCall]
    cases nextAnswerOf s <;> rfl
  · have hq : require s.eng.bw.isOpen .streamClosed s = .error (.raise .streamClosed) s := by
      rw [run_require, if_neg ho]
    rw [if_neg ho, bind_of_error hq]

/-! ### The writer over a bit sequence -/

/-- The state after bits written to an open sink that answers every call: all bits that waited and came, eight to
a byte, the rest waiting. -/
def written (bits : List Bool) (s : State) : State :=
  let all := waiting s.eng.bw ++ bits
  { s with
    eng := { s.eng with bw := writerHolding (restBits all) }
    env := { afterCalls (all.length / 8) s.env with snk := s.env.snk ++ wholeBytes all } }

theorem written_nil {s : State} (ho : s.eng.bw.isOpen = true) (hw : WriterOk s.eng.bw) : written [] s = s := by
  have hl := waiting_lt s.eng.bw
  simp only [written, List.append_nil, restBits_short hl, wholeBytes_short hl, Nat.div_eq_of_lt hl,
    afterCalls_zero, writerHolding_waiting hw.1 ho]

theorem written_written (x y : List Bool) (s : State) : written y (written x s) = written (x ++ y) s := by
  have hr := restBits_length (waiting s.eng.bw ++ x)
  have hlt : (restBits (waiting s.eng.bw ++ x)).length < 8 := by omega
  have ha := wholeBytes_append (waiting s.eng.bw ++ x) y
  have hn : ((waiting s.eng.bw ++ x).length / 8)
      + ((restBits (waiting s.eng.bw ++ x) ++ y).length / 8) = (waiting s.eng.bw ++ (x ++ y)).length / 8 := by
    simp only [List.length_append] at hr ⊢
    omega
  simp only [written, waiting_writerHolding hlt, ← List.append_assoc, ha.1, ha.2]
  rw [← List.append_assoc] at hn
  congr 1
  simp only [afterCalls, List.drop_drop, List.append_assoc] at hn ⊢
  rw [hn]

theorem written_writerOk (x : List Bool) (s : State) :
    WriterOk (written x s).eng.bw ∧ (written x s).eng.bw.isOpen = true := by
  refine ⟨writerHolding_ok ?_, rfl⟩
  rw [restBits_length]
  exact Nat.mod_lt _ (by omega)

/-- One bit written: it joins the bits waiting. -/
theorem writeBit_written {s : State} (b : Bool) (ho : s.eng.bw.isOpen = true) (hw : WriterOk s.eng.bw)
    (hn : nextAnswerOf s = .normal) : writeBit b s = .ok () (written [b] s) := by
  have hbuf := bitsToNat_waiting hw.1
  have hsnoc : bitsToNat (waiting s.eng.bw ++ [b]) = 2 * s.eng.bw.buf.toNat + b.toNat := by
    rw [bitsToNat_snoc, hbuf]
  have hlt := bitsToNat_lt (waiting s.eng.bw ++ [b])
  have hlen : (waiting s.eng.bw ++ [b]).length = s.eng.bw.cnt.toNat + 1 := by simp
  have hc := s.eng.bw.cnt.isLt
  have hv : (s.eng.bw.buf <<< 1) ||| lowBit b = BitVec.ofNat 8 (bitsToNat (waiting s.eng.bw ++ [b])) := by
    apply BitVec.eq_of_toNat_eq
    rw [hsnoc]
    have h8 : 2 * s.eng.bw.buf.toNat + b.toNat < 256 := by
      rw [hsnoc, hlen] at hlt
      have hp : 2 ^ (s.eng.bw.cnt.toNat + 1) ≤ 2 ^ 8 := Nat.pow_le_pow_right (by omega) (by omega)
      omega
    have hl : (lowBit b).toNat = b.toNat := by cases b <;> rfl
    rw [BitVec.toNat_or, hl, BitVec.toNat_shiftLeft, BitVec.toNat_ofNat, Nat.shiftLeft_eq]
    have hs : s.eng.bw.buf.toNat * 2 ^ 1 % 2 ^ 8 = s.eng.bw.buf.toNat <<< 1 := by
      rw [Nat.shiftLeft_eq]
      omega
    rw [hs, ← Nat.shiftLeft_add_eq_or_of_lt (by cases b <;> decide), Nat.shiftLeft_eq]
    omega
  rw [run_writeBit, if_pos ho, hv]
  by_cases h7 : s.eng.bw.cnt = 7#3
  · have h8 : (waiting s.eng.bw ++ [b]).length = 8 := by rw [hlen, h7]; rfl
    have hw8 := wholeBytes_eight h8
    rw [if_pos h7, run_flushByte, hn]
    simp only [written, hw8.1, hw8.2, h8, ho]
    rfl
  · have h8 : (waiting s.eng.bw ++ [b]).length < 8 := by
      rw [hlen]
      have : s.eng.bw.cnt.toNat ≠ 7 := fun h => h7 (BitVec.eq_of_toNat_eq h)
      omega
    rw [if_neg h7]
    have hcnt : s.eng.bw.cnt + 1#3 = BitVec.ofNat 3 (waiting s.eng.bw ++ [b]).length := by
      rw [hlen]
      apply BitVec.eq_of_toNat_eq
      simp
    simp only [written, restBits_short h8, wholeBytes_short h8, Nat.div_eq_of_lt h8, afterCalls_zero,
      List.append_nil, writerHolding, ho, hcnt]

/-- Bits written in order, where every call is answered (R124). -/
theorem writeBits_written {s : State} (bits : List Bool) (ho : s.eng.bw.isOpen = true) (hw : WriterOk s.eng.bw)
    (hio : IoOk s) : writeBits bits s = .ok () (written bits s) := by
  induction bits generalizing s with
  | nil => rw [written_nil ho hw]; rfl
  | cons b bits ih =>
    have h1 := writeBit_written b ho hw (ioOk_next hio)
    have hok := written_writerOk [b] s
    have h2 := ih (s := written [b] s) hok.2 hok.1 (ioOk_of_answers hio _ rfl)
    rw [writeBits, bind_of_ok h1, h2, written_written]
    rfl

/-! ### The reader over the bits left -/

/-- What reading leaves of the state: only the reader, the position and the answers change. -/
def readTo (s t : State) : Prop :=
  t = { s with
        eng := { s.eng with br := t.eng.br }
        env := { s.env with srcPos := t.env.srcPos, answers := t.env.answers } } ∧
    t.eng.br.isOpen = s.eng.br.isOpen ∧ ∃ n, t.env.answers = s.env.answers.drop n

theorem readTo_refl (s : State) : readTo s s := ⟨rfl, rfl, 0, rfl⟩

theorem readTo_trans {s t u : State} (h1 : readTo s t) (h2 : readTo t u) : readTo s u := by
  obtain ⟨h1, h1', m, hm⟩ := h1
  obtain ⟨h2, h2', n, hn⟩ := h2
  refine ⟨?_, h2'.trans h1', m + n, ?_⟩
  · rw [h2, h1]
  · rw [hn, hm, List.drop_drop]

theorem readTo_ioOk {s t : State} (h : readTo s t) (hio : IoOk s) : IoOk t := by
  obtain ⟨-, -, n, hn⟩ := h
  exact ioOk_of_answers hio n hn

/-- Reading where bits are left gives the next of them (R129). -/
theorem readBit_some {s : State} {b : Bool} {rest : List Bool} (ho : s.eng.br.isOpen = true) (hr : ReaderOk s)
    (hio : IoOk s) (hu : unread s = b :: rest) :
    ∃ t, readBit s = .ok (some b) t ∧ unread t = rest ∧ ReaderOk t ∧ readTo s t := by
  obtain ⟨hpos, heos, hsrc⟩ := hr
  have he : s.eng.br.eos = false := by
    cases h : s.eng.br.eos
    · rfl
    · simp [unread, h] at hu
  rw [run_readBit]
  simp only [he, Bool.false_eq_true, if_false, if_pos ho, ioOk_next hio]
  simp only [unread, he, Bool.false_eq_true, if_false] at hu
  by_cases h8 : s.eng.br.pos = 8#4
  · rw [if_pos h8]
    have hb : buffered s.eng.br = [] := by simp [buffered, h8]
    rw [hb, List.nil_append] at hu
    cases hs : s.env.src[s.env.srcPos]? with
    | none =>
      rw [List.getElem?_eq_none_iff] at hs
      rw [List.drop_eq_nil_of_le hs] at hu
      cases hu
    | some c =>
      have hlt : s.env.srcPos < s.env.src.length := (List.getElem?_eq_some_iff.mp hs).1
      have hc : s.env.src[s.env.srcPos] = c := (List.getElem?_eq_some_iff.mp hs).2
      rw [List.drop_eq_getElem_cons hlt, hc, streamBits_cons, byteBits_eq] at hu
      simp only [List.cons_append, List.cons.injEq] at hu
      obtain ⟨rfl, rfl⟩ := hu
      refine ⟨_, rfl, ?_, ⟨by simp, by simp, by simpa using hlt⟩, rfl, rfl, 1, rfl⟩
      simp [unread, buffered, List.range_succ]
  · rw [if_neg h8]
    have hlt : s.eng.br.pos.toNat < 8 := by
      have : s.eng.br.pos.toNat ≠ 8 := fun h => h8 (BitVec.eq_of_toNat_eq h)
      omega
    have hp1 : (s.eng.br.pos + 1#4).toNat = s.eng.br.pos.toNat + 1 := by
      rw [BitVec.toNat_add]
      simp
      omega
    have hb : buffered s.eng.br = s.eng.br.buf.getLsbD (7 - s.eng.br.pos.toNat)
        :: buffered { s.eng.br with pos := s.eng.br.pos + 1#4 } := by
      simp only [buffered, hp1]
      have : 8 - s.eng.br.pos.toNat = (8 - (s.eng.br.pos.toNat + 1)) + 1 := by omega
      rw [this, List.range_succ_eq_map, List.map_cons, List.map_map]
      congr 1
      apply List.map_congr_left
      intro i _
      simp only [Function.comp]
      congr 1
      omega
    rw [hb, List.cons_append, List.cons.injEq] at hu
    obtain ⟨rfl, rfl⟩ := hu
    refine ⟨_, rfl, ?_, ⟨?_, by simp, hsrc⟩, rfl, rfl, 0, rfl⟩
    · simp [unread, he]
    · simp only [hp1]
      omega

/-- Reading where no bit is left gives the end of the stream and remembers it. -/
theorem readBit_none {s : State} (ho : s.eng.br.isOpen = true) (hr : ReaderOk s) (hio : IoOk s)
    (hu : unread s = []) :
    ∃ t, readBit s = .ok none t ∧ unread t = [] ∧ t.eng.br.eos = true ∧ ReaderOk t ∧ readTo s t := by
  obtain ⟨hpos, heos, hsrc⟩ := hr
  rw [run_readBit]
  cases he : s.eng.br.eos with
  | true => exact ⟨s, rfl, hu, he, ⟨hpos, heos, hsrc⟩, readTo_refl s⟩
  | false =>
    simp only [Bool.false_eq_true, if_false, if_pos ho, ioOk_next hio]
    simp only [unread, he, Bool.false_eq_true, if_false, List.append_eq_nil_iff] at hu
    have h8 : s.eng.br.pos = 8#4 := by
      have := congrArg List.length hu.1
      simp [buffered] at this
      exact BitVec.eq_of_toNat_eq (by simp; omega)
    have hs : s.env.src[s.env.srcPos]? = none := by
      have := congrArg List.length hu.2
      simp at this
      simp
      omega
    rw [if_pos h8, hs]
    exact ⟨_, rfl, by simp [unread], rfl, ⟨by simpa using hpos, by simp [h8], hsrc⟩, rfl, rfl, 1, rfl⟩

end Sys2Proof.Machine
end

