-- ==== Sys2Proof/Machine/Assembler.lean ====
section
/-! DEFINITION. The written form of commands (`30_encoding.md` R97): a mnemonic in upper case, for kinds `bit` and
`sym` followed by one operand in decimal, in `0x` hexadecimal or as a quoted ASCII character; one command per
line; `#` starts a comment. It is no part of the block: the host sequences the command words. -/

namespace Sys2Proof.Machine

/-- The mnemonic of each command (R92). -/
def mnemonic : Instr → List Char
  | .nop => ['N', 'O', 'P']
  | .reset => ['R', 'E', 'S', 'E', 'T']
  | .srcOpen => ['S', 'R', 'C', '_', 'O', 'P', 'E', 'N']
  | .srcClose => ['S', 'R', 'C', '_', 'C', 'L', 'O', 'S', 'E']
  | .snkOpen => ['S', 'N', 'K', '_', 'O', 'P', 'E', 'N']
  | .snkClose => ['S', 'N', 'K', '_', 'C', 'L', 'O', 'S', 'E']
  | .ftClr => ['F', 'T', '_', 'C', 'L', 'R']
  | .ftInc _ => ['F', 'T', '_', 'I', 'N', 'C']
  | .ftScan => ['F', 'T', '_', 'S', 'C', 'A', 'N']
  | .htInit => ['H', 'T', '_', 'I', 'N', 'I', 'T']
  | .htStep => ['H', 'T', '_', 'S', 'T', 'E', 'P']
  | .htBuild => ['H', 'T', '_', 'B', 'U', 'I', 'L', 'D']
  | .cbBuild => ['C', 'B', '_', 'B', 'U', 'I', 'L', 'D']
  | .bwBit _ => ['B', 'W', '_', 'B', 'I', 'T']
  | .bwClose => ['B', 'W', '_', 'C', 'L', 'O', 'S', 'E']
  | .brBit => ['B', 'R', '_', 'B', 'I', 'T']
  | .hdrWr => ['H', 'D', 'R', '_', 'W', 'R']
  | .hdrRd => ['H', 'D', 'R', '_', 'R', 'D']
  | .encSym _ => ['E', 'N', 'C', '_', 'S', 'Y', 'M']
  | .encRun => ['E', 'N', 'C', '_', 'R', 'U', 'N']
  | .decSym => ['D', 'E', 'C', '_', 'S', 'Y', 'M']
  | .decRun => ['D', 'E', 'C', '_', 'R', 'U', 'N']
  | .compress => ['C', 'O', 'M', 'P', 'R', 'E', 'S', 'S']
  | .decompress => ['D', 'E', 'C', 'O', 'M', 'P', 'R', 'E', 'S', 'S']

/-- The command a mnemonic names, with the operand given. -/
def commandNamed (name : List Char) (a : BitVec 8) : Option Instr :=
  ((opcodeMap a).map Prod.snd).find? fun i => mnemonic i == name

/-- A blank within a line. -/
def isBlank (c : Char) : Bool := c == ' ' || c == '\t'

/-- The value of a digit in the given base. -/
def digitValue (base : Nat) (c : Char) : Option Nat :=
  let v :=
    if '0' ≤ c ∧ c ≤ '9' then c.toNat - '0'.toNat
    else if 'a' ≤ c ∧ c ≤ 'f' then c.toNat - 'a'.toNat + 10
    else if 'A' ≤ c ∧ c ≤ 'F' then c.toNat - 'A'.toNat + 10
    else base
  if v < base then some v else none

/-- A number in the given base, one digit or more. -/
def numberValue (base : Nat) : List Char → Option Nat
  | [] => none
  | c :: cs =>
    (c :: cs).foldl
      (fun acc d =>
        match acc, digitValue base d with
        | some n, some v => some (base * n + v)
        | _, _ => none)
      (some 0)

/-- An operand: a quoted character, a hexadecimal or a decimal number, of at most eight bits. That a quoted character
of code point 128 to 255, which is no ASCII character, is read as the operand of that number is the model's choice
(log entry 19, DESIGN CHOICE). -/
def operandValue (word : List Char) : Option (BitVec 8) :=
  let n :=
    match word with
    | ['\'', c, '\''] => some c.toNat
    | '0' :: 'x' :: digits => numberValue 16 digits
    | digits => numberValue 10 digits
  match n with
  | some v => if v < 256 then some (BitVec.ofNat 8 v) else none
  | none => none

/-- The words of a line up to its comment. A quoted character stands for itself, be it a blank or the sign that
starts a comment. -/
def lineWords : List Char → List Char → List (List Char)
  | [], word => if word.isEmpty then [] else [word.reverse]
  | '\'' :: c :: '\'' :: rest, word => lineWords rest ('\'' :: c :: '\'' :: word)
  | c :: rest, word =>
    if c == '#' then (if word.isEmpty then [] else [word.reverse])
    else if isBlank c then (if word.isEmpty then lineWords rest [] else word.reverse :: lineWords rest [])
    else lineWords rest (c :: word)

/-- The command word of one written command (R97). -/
def assembleWords : List (List Char) → Option Command
  | [name] =>
    match commandNamed name 0#8 with
    | some i => if i.kind = .none then some (encode i) else none
    | none => none
  | [name, operand] =>
    match operandValue operand with
    | none => none
    | some a =>
      match commandNamed name a with
      | some i => if i.kind = .none then none else some (encode i)
      | none => none
  | _ => none

/-- A line: no command where it is empty or only a comment; none of the whole where it is no command. -/
def assembleLine (line : List Char) : Option (List Command) :=
  match lineWords line [] with
  | [] => some []
  | words => (assembleWords words).map fun w => [w]

/-- The lines of a text. -/
def lines : List Char → List Char → List (List Char)
  | [], line => [line.reverse]
  | c :: rest, line => if c == '\n' then line.reverse :: lines rest [] else lines rest (c :: line)

/-- A written program: its commands in order (R97). -/
def assemble (text : List Char) : Option (List Command) :=
  ((lines text []).mapM assembleLine).map List.flatten

end Sys2Proof.Machine
end

