-- ==== Sys2Proof/Tests/Slice0.lean ====
section
/-! SUPPORT. Tests: ill-formed terms, the words of `30_encoding.md` R92 and R95, one step of each command with the
numbers of `95_test_vectors.md`, and a state that meets the hypotheses of each statement of Obligations.lean. -/

namespace Sys2Proof.Tests

-- One test at a time: each is evaluated by the kernel, and its memory is free before the next.
set_option Elab.async false

open Sys2Proof.Machine

/-! ### Well-formed terms (R95) -/

theorem test_ill_formed_bit : (Instr.bwBit 2#8).wellFormed = false := by decide
theorem test_ill_formed_bit_top : (Instr.bwBit 0xFF#8).wellFormed = false := by decide
theorem test_well_formed_bits : (Instr.bwBit 0#8).wellFormed = true ∧ (Instr.bwBit 1#8).wellFormed = true := by decide
theorem test_well_formed_symbols : (Instr.ftInc 0xFF#8).wellFormed = true ∧ (Instr.encSym 0#8).wellFormed = true := by
  decide

/-- An ill-formed term raises `BadCommand` (V-X5's `4002`). -/
theorem test_ill_formed_runs_as_illegal :
    (match exec (.bwBit 2#8) State.reset with
      | .next t => t.host.rsp == some .fault && statusWord t.eng == 0x00E#32
      | _ => false) = true := by decide

/-! ### Words, written out from the opcode map (R90, R92) -/

theorem test_word_nop : decode 0b0000000000000000#16 = .ok .nop := by decide
theorem test_word_reset : decode 0b0000000100000000#16 = .ok .reset := by decide
theorem test_word_srcOpen : decode 0b0000001000000000#16 = .ok .srcOpen := by decide
theorem test_word_srcClose : decode 0b0000001100000000#16 = .ok .srcClose := by decide
theorem test_word_snkOpen : decode 0b0000010000000000#16 = .ok .snkOpen := by decide
theorem test_word_snkClose : decode 0b0000010100000000#16 = .ok .snkClose := by decide
theorem test_word_ftClr : decode 0b0001000000000000#16 = .ok .ftClr := by decide
theorem test_word_ftInc : decode 0b0001000101000001#16 = .ok (.ftInc 0x41#8) := by decide
theorem test_word_ftScan : decode 0b0001001000000000#16 = .ok .ftScan := by decide
theorem test_word_htInit : decode 0b0010000000000000#16 = .ok .htInit := by decide
theorem test_word_htStep : decode 0b0010000100000000#16 = .ok .htStep := by decide
theorem test_word_htBuild : decode 0b0010001000000000#16 = .ok .htBuild := by decide
theorem test_word_cbBuild : decode 0b0011000000000000#16 = .ok .cbBuild := by decide
theorem test_word_bwBit : decode 0b0100000000000001#16 = .ok (.bwBit 1#8) := by decide
theorem test_word_bwClose : decode 0b0100000100000000#16 = .ok .bwClose := by decide
theorem test_word_brBit : decode 0b0101000000000000#16 = .ok .brBit := by decide
theorem test_word_hdrWr : decode 0b0110000000000000#16 = .ok .hdrWr := by decide
theorem test_word_hdrRd : decode 0b0110000100000000#16 = .ok .hdrRd := by decide
theorem test_word_encSym : decode 0b0111000001010010#16 = .ok (.encSym 0x52#8) := by decide
theorem test_word_encRun : decode 0b0111000100000000#16 = .ok .encRun := by decide
theorem test_word_decSym : decode 0b1000000000000000#16 = .ok .decSym := by decide
theorem test_word_decRun : decode 0b1000000100000000#16 = .ok .decRun := by decide
theorem test_word_compress : decode 0b1111000000000000#16 = .ok .compress := by decide
theorem test_word_decompress : decode 0b1111000100000000#16 = .ok .decompress := by decide

/-- The illegal words of R95 and V-X5, each refused for its own reason. -/
theorem test_word_illegal :
    decode 0x0600#16 = .error .reservedOpcode ∧ decode 0xFFFF#16 = .error .reservedOpcode ∧
      decode 0x1001#16 = .error .operandNotZero ∧ decode 0xF001#16 = .error .operandNotZero ∧
      decode 0x0001#16 = .error .operandNotZero ∧ decode 0x4002#16 = .error .bitOperandAboveOne := by decide

theorem test_table_word :
    decodeTableWord 16 0x1141 = some (.ftInc 0x41#8) ∧ decodeTableWord 16 0x10000 = none ∧
      decodeTableWord 8 0 = none := by decide

/-- The written commands of R97. -/
theorem test_written_commands :
    assembleLine ['F', 'T', '_', 'I', 'N', 'C', ' ', '0', 'x', '4', '1'] = some [0x1141#16] ∧
      assembleLine ['F', 'T', '_', 'I', 'N', 'C', ' ', '\'', 'A', '\''] = some [0x1141#16] ∧
      assembleLine ['B', 'W', '_', 'B', 'I', 'T', ' ', '1', ' ', '#'] = some [0x4001#16] ∧
      assembleLine ['H', 'T', '_', 'B', 'U', 'I', 'L', 'D'] = some [0x2200#16] ∧
      assembleLine ['H', 'T', '_', 'B', 'U', 'I', 'L', 'D', ' ', '0'] = none := by decide

/-! ### States for one step -/

/-- `ABR`, the reference input. -/
def abr : List Byte := [0x41#8, 0x42#8, 0x52#8, 0x41#8, 0x43#8, 0x41#8, 0x44#8, 0x41#8, 0x42#8, 0x52#8, 0x41#8]

/-- V-F1's table. -/
def abrScan : Scanner := { ft := [(0x41, 5#32), (0x42, 2#32), (0x43, 1#32), (0x44, 1#32), (0x52, 2#32)], total := 11#32 }

/-- V-T1's tree. -/
def abrTree : Builder :=
  { nd :=
      [(256, { freq := 2#32, left := 0x43#9, right := 0x44#9 }), (257, { freq := 4#32, left := 0x42#9, right := 0x52#9 }),
       (258, { freq := 6#32, left := 0x100#9, right := 0x101#9 }),
       (259, { freq := 11#32, left := 0x41#9, right := 0x102#9 })]
    nn := 0x104#9, pq := [(0, 0x103#9)], pqN := 1#9, root := 0x103#9, rootValid := true, phase := .done }

/-- V-C1's code book. -/
def abrBook : CodeBook :=
  { cb :=
      [(0x41, some [false]), (0x42, some [true, true, false]), (0x43, some [true, false, false]),
       (0x44, some [true, false, true]), (0x52, some [true, true, true])]
    done := true }

/-- V-T1 after HT_INIT. -/
def abrQueue : Builder :=
  { nd := [], nn := 0x100#9, pq := [(0, 0x43#9), (1, 0x44#9), (2, 0x42#9), (3, 0x41#9), (4, 0x52#9)], pqN := 5#9
    root := 0#9, rootValid := false, phase := .merging }

def openReader : BitReader := { buf := 0#8, pos := 8#4, eos := false, isOpen := true }
def openWriter : BitWriter := { buf := 0#8, cnt := 0#3, isOpen := true }

/-- The reset state over a source. -/
def withSource (src : List Byte) : State := { State.reset with env := { State.reset.env with src := src } }

/-- The reset state with other registers. -/
def withEng (f : Engine → Engine) (s : State) : State := { s with eng := f s.eng }

/-- The reset state with other answers to come. -/
def withAnswers (l : List Answer) (s : State) : State := { s with env := { s.env with answers := l } }

/-- The reset state with moves to make. -/
def withHost (ms : List HostMove) (s : State) : State := { s with host := { s.host with moves := ms } }

def srcOpened (src : List Byte) : State := withEng (fun e => { e with br := openReader }) (withSource src)
def snkOpened : State := withEng (fun e => { e with bw := openWriter }) State.reset
def abrCounted : State := withEng (fun e => { e with scan := abrScan }) State.reset
def abrQueued : State := withEng (fun e => { e with tree := abrQueue }) abrCounted
def abrBuilt : State := withEng (fun e => { e with tree := abrTree }) abrCounted
def abrCoded : State := withEng (fun e => { e with book := abrBook }) abrBuilt
def faulted : State :=
  withEng (fun e => { e with stat := { err := 6#3, fault := true, incomplete := false, result := 0#32 } }) State.reset

/-- A command that responds OK with that result, in a state with that property. -/
def answers (i : Instr) (s : State) (v : U32) (p : State → Bool) : Bool :=
  match exec i s with
  | .next t => t.host.rsp == some .ok && t.eng.stat.result == v && p t
  | _ => false

/-- A command that responds FAULT with that `STATUS`, in a state with that property. -/
def faultsWith (i : Instr) (s : State) (status : U32) (p : State → Bool) : Bool :=
  match exec i s with
  | .next t => t.host.rsp == some .fault && t.eng.stat.result == 0#32 && statusWord t.eng == status && p t
  | _ => false

/-! ### One step of each command (`95_test_vectors.md`) -/

/-- R241: after HT_BUILD left `0x303`, NOP keeps it. -/
theorem test_nop :
    answers .nop (withEng (fun e => { e with stat := { e.stat with result := 0x303#32 } }) State.reset) 0x303#32
      (fun _ => true) = true := by decide

/-- V-G1: RESET is accepted in the fault state. -/
theorem test_reset_in_fault : answers .reset faulted 0#32 (fun t => statusWord t.eng == 0#32) = true := by decide

/-- V-G4: RESET drops the waiting bit and releases the sink. -/
theorem test_reset_releases :
    answers .reset (withEng (fun e => { e with bw := { buf := 1#8, cnt := 1#3, isOpen := true } }) State.reset) 0#32
      (fun t => t.eng == Engine.reset && t.env.snk == [] && t.env.snkDone) = true := by decide

/-- V-X2. -/
theorem test_srcOpen : answers .srcOpen State.reset 0#32 (fun t => statusWord t.eng == 0x020#32) = true := by decide
theorem test_srcOpen_twice : faultsWith .srcOpen (srcOpened []) 0x00F#32 (fun _ => true) = true := by decide

/-- V-X4. -/
theorem test_srcClose : answers .srcClose State.reset 0#32 (fun t => t.eng == Engine.reset) = true := by decide

/-- R244's example; and R300: a close that is never answered never ends. -/
theorem test_srcClose_open :
    answers .srcClose (srcOpened abr) 0#32 (fun t => statusWord t.eng == 0#32) = true ∧
      (match exec .srcClose (withAnswers [.silent] (srcOpened abr)) with
        | .fault f => f == .environmentSilent
        | _ => false) = true := by decide

/-- V-X3. -/
theorem test_snkOpen :
    answers .snkOpen { State.reset with env := { State.reset.env with snk := [7#8], snkDone := true } } 0#32
      (fun t => statusWord t.eng == 0x040#32 && t.env.snk == [] && !t.env.snkDone) = true := by decide

/-- V-B5, V-X8. -/
theorem test_snkClose :
    answers .snkClose (withEng (fun e => { e with bw := { buf := 5#8, cnt := 3#3, isOpen := true } }) State.reset) 0#32
      (fun t => regRead t.eng 0x006#12 == 0#32 && t.env.snk == [] && t.env.snkDone) = true := by decide
theorem test_snkClose_refused :
    faultsWith .snkClose
      (withAnswers [.ioErr] (withEng (fun e => { e with bw := { buf := 5#8, cnt := 3#3, isOpen := true } }) State.reset))
      0x009#32 (fun t => regRead t.eng 0x006#12 == 0#32 && t.env.snkDone) = true := by decide

/-- V-F8's last state and R142. -/
theorem test_ftClr :
    answers .ftClr abrCoded 0#32
      (fun t => statusWord t.eng == 0#32 && t.eng.scan == { ft := [], total := 0#32 }
        && regRead t.eng 0x003#12 == 0x103#32) = true := by decide

/-- V-F5, V-F6. -/
theorem test_ftInc_overflow :
    faultsWith (.ftInc 7#8)
      (withEng (fun e => { e with scan := { ft := [(7, 0xFFFFFFFF#32)], total := 0xFFFFFFFF#32 } }) State.reset)
      0x00D#32 (fun t => ftGet t.eng 7 == 0xFFFFFFFF#32) = true := by decide
theorem test_ftInc_below_overflow :
    answers (.ftInc 7#8)
      (withEng (fun e => { e with scan := { ft := [(7, 0xFFFFFFFE#32)], total := 0xFFFFFFFE#32 } }) State.reset)
      0xFFFFFFFF#32 (fun t => t.eng.scan.total == 0xFFFFFFFF#32) = true := by decide

/-- V-F1. -/
theorem test_ftScan :
    answers .ftScan (srcOpened abr) 0xB#32
      (fun t => t.eng.scan == abrScan && t.env.srcPos == 11 && statusWord t.eng == 0x020#32) = true := by
  decide +kernel

/-- V-T1: HT_INIT, the first and the last HT_STEP. -/
theorem test_htInit :
    answers .htInit abrCounted 5#32 (fun t => t.eng.tree == abrQueue) = true := by decide +kernel
theorem test_htStep :
    answers .htStep abrQueued 0x100#32
      (fun t => ndGet t.eng 256 == { freq := 2#32, left := 0x43#9, right := 0x44#9 }
        && live t.eng == [0x42#9, 0x52#9, 0x41#9, 0x100#9]) = true := by decide +kernel
theorem test_htStep_done : faultsWith .htStep abrBuilt 0xA0F#32 (fun _ => true) = true := by decide +kernel

/-- V-T1, V-T3. -/
theorem test_htBuild :
    answers .htBuild abrCounted 0x303#32
      (fun t => t.eng.tree.nd == abrTree.nd && t.eng.tree.nn == 0x104#9 && t.eng.tree.pqN == 1#9) = true := by
  decide +kernel
theorem test_htBuild_tie :
    answers .htBuild
      (withEng (fun e => { e with scan := { ft := [(0x41, 1#32), (0x42, 1#32), (0x43, 2#32)], total := 4#32 } })
        State.reset) 0x301#32
      (fun t => ndGet t.eng 257 == { freq := 4#32, left := 0x43#9, right := 0x100#9 }) = true := by decide +kernel

/-- V-C1, V-C4. -/
theorem test_cbBuild : answers .cbBuild abrBuilt 5#32 (fun t => t.eng.book == abrBook) = true := by decide +kernel
theorem test_cbBuild_lone :
    answers .cbBuild
      (withEng
        (fun e =>
          { e with
            scan := { ft := [(0x41, 5#32)], total := 5#32 }
            tree :=
              { nd := [], nn := 256#9, pq := [(0, 0x41#9)], pqN := 1#9, root := 0x41#9, rootValid := true
                phase := .done } })
        State.reset) 1#32
      (fun t => regRead t.eng 0x241#12 == 0x100#32) = true := by decide +kernel

/-- V-B3's eighth bit, V-B1. -/
theorem test_bwBit :
    answers (.bwBit 1#8) (withEng (fun e => { e with bw := { buf := 0x52#8, cnt := 7#3, isOpen := true } }) State.reset)
      0#32 (fun t => t.env.snk == [0xA5#8] && regRead t.eng 0x006#12 == 0#32) = true := by decide
theorem test_bwBit_closed : faultsWith (.bwBit 1#8) State.reset 0x00C#32 (fun _ => true) = true := by decide

/-- V-B2, P1's close. -/
theorem test_bwClose :
    answers .bwClose (withEng (fun e => { e with bw := { buf := 5#8, cnt := 3#3, isOpen := true } }) State.reset) 5#32
      (fun t => t.env.snk == [0xA0#8] && t.env.snkDone && statusWord t.eng == 0#32) = true := by decide
theorem test_bwClose_abr :
    answers .bwClose (withEng (fun e => { e with bw := { buf := 0x6E#8, cnt := 7#3, isOpen := true } }) State.reset) 1#32
      (fun t => t.env.snk == [0xDC#8]) = true := by decide

/-- V-B6's first bit, V-B7. -/
theorem test_brBit :
    answers .brBit (srcOpened [0xA5#8]) 1#32 (fun t => regRead t.eng 0x007#12 == 0x1A5#32 && t.env.srcPos == 1) = true := by
  decide
theorem test_brBit_end :
    answers .brBit (srcOpened []) 2#32
      (fun t => regRead t.eng 0x007#12 == 0x1800#32 && statusWord t.eng == 0x0A0#32) = true := by decide

/-- V-E11 with no sink, and one count of V-E1's header, `00 00 00 05`. -/
theorem test_hdrWr_closed : faultsWith .hdrWr State.reset 0x00C#32 (fun _ => true) = true := by decide +kernel
theorem test_header_word :
    (match write32 5#32 snkOpened with
      | .ok _ t => t.env.snk == [0#8, 0#8, 0#8, 5#8] && regRead t.eng 0x006#12 == 0#32
      | _ => false) = true := by decide +kernel

/-- V-D15, and one word of V-E9's header. -/
theorem test_hdrRd_empty : faultsWith .hdrRd (srcOpened []) 0x08A#32 (fun _ => true) = true := by decide +kernel
theorem test_header_word_read :
    (match read32 (srcOpened [0#8, 0#8, 1#8, 0x2C#8]) with
      | .ok w t => w == some 0x12C#32 && t.env.srcPos == 4 && regRead t.eng 0x007#12 == 0x82C#32
      | _ => false) = true := by decide +kernel

/-- V-E12, V-E13. -/
theorem test_encSym :
    answers (.encSym 0x42#8)
      (withEng (fun e => { e with bw := { buf := 0#8, cnt := 1#3, isOpen := true } }) abrCoded) 3#32
      (fun t => regRead t.eng 0x006#12 == 0x406#32) = true := by decide +kernel
theorem test_encSym_no_code :
    faultsWith (.encSym 0x45#8) (withEng (fun e => { e with bw := openWriter }) abrCoded) 0xE0F#32
      (fun t => t.env.snk == [] && t.env.snkDone) = true := by decide +kernel

/-- P1's ENC_RUN: the payload of `ABR`. -/
theorem test_encRun :
    answers .encRun
      { (withEng (fun e => { e with bw := openWriter, br := openReader }) abrCoded) with
        env := { State.reset.env with src := abr } } 0#32
      (fun t => t.env.snk == [0x6E#8, 0x8A#8] && regRead t.eng 0x006#12 == 0x76E#32) = true := by decide +kernel

/-- `ABR`'s payload under its decoder, as after V-D4's SNK_OPEN. -/
def decoding : State :=
  { (withEng (fun e => { e with bw := openWriter, br := openReader, dec := { cur := 0#9, rem := 11#32 } }) abrBuilt) with
    env := { State.reset.env with src := [0x6E#8, 0x8A#8, 0xDC#8] } }

/-- V-D4's first symbol, V-D16. -/
theorem test_decSym :
    answers .decSym decoding 0x41#32
      (fun t => t.env.snk == [0x41#8] && t.eng.dec.rem == 0xA#32 && regRead t.eng 0x007#12 == 0x16E#32) = true := by
  decide +kernel
theorem test_decSym_closed_sink :
    faultsWith .decSym (withEng (fun e => { e with bw := { openWriter with isOpen := false } }) decoding) 0xA0C#32
      (fun t => t.eng.dec == { cur := 0x41#9, rem := 0xB#32 } && regRead t.eng 0x007#12 == 0x16E#32) = true := by
  decide +kernel

/-- V-D1's end, V-D8's end. -/
theorem test_decRun :
    answers .decRun decoding 0#32
      (fun t => t.env.snk == abr && t.eng.dec == { cur := 0x103#9, rem := 0#32 } && regRead t.eng 0x007#12 == 0x7DC#32)
      = true := by decide +kernel
theorem test_decRun_truncated :
    faultsWith .decRun { decoding with env := { decoding.env with src := [0x6E#8, 0x8A#8] } } 0xA9B#32
      (fun t => t.env.snk == abr.take 8 && t.env.snkDone && t.eng.dec == { cur := 0x103#9, rem := 3#32 }
        && regRead t.eng 0x007#12 == 0x188A#32) = true := by decide +kernel

/-- V-E14. -/
theorem test_compress_open : faultsWith .compress (srcOpened abr) 0x00F#32 (fun _ => true) = true := by decide

/-- V-D15. -/
theorem test_decompress_empty :
    faultsWith .decompress State.reset 0x08A#32 (fun t => t.env.srcPos == 0 && !t.env.snkDone) = true := by
  decide +kernel

/-- V-G1: in the fault state every other word is refused. -/
theorem test_refused :
    (match runCommand 0x0101#16 faulted with
      | .next t => t.host.rsp == some .refused && t.eng == faulted.eng
      | _ => false) = true := by decide

/-- V-M1. -/
theorem test_window_reset :
    regRead Engine.reset 0x004#12 = 0x100#32 ∧ regRead Engine.reset 0x007#12 = 0x800#32 ∧
      regRead Engine.reset 0x4FF#12 = 0#32 ∧ regRead Engine.reset 0xFFF#12 = 0#32 := by decide

/-- V-M2 and V-C1, of the words a built tree and book show. -/
theorem test_window_abr :
    regRead abrCoded.eng 0x003#12 = 0x303#32 ∧ regRead abrCoded.eng 0x500#12 = 0x8843#32 ∧
      regRead abrCoded.eng 0x503#12 = 0x20441#32 ∧ regRead abrCoded.eng 0x403#12 = 0xB#32 ∧
      regRead abrCoded.eng 0x242#12 = 0x103#32 ∧ regRead abrCoded.eng 0xA10#12 = 0xC0000000#32 := by decide +kernel

/-! ### A state for the hypotheses of each statement

Named after the statement in Obligations.lean; a clause that takes its own hypotheses has its own theorem, at the
ends of its range where it has one. -/

/-- The command runs to a next state. -/
def runs (i : Instr) (s : State) : Bool :=
  match exec i s with
  | .next _ => true
  | _ => false

/-- The next state, if there is one. -/
def after (i : Instr) (s : State) : State :=
  match exec i s with
  | .next t => t
  | _ => s

theorem exec_after {i : Instr} {s : State} (h : runs i s = true) : exec i s = .next (after i s) := by
  unfold runs at h
  unfold after
  split at h
  · rename_i t ht
    rw [ht]
  · cases h

theorem withSource_ioOk (src : List Byte) : IoOk (withSource src) := fun _ h => absurd h List.not_mem_nil

theorem runCommand_of_decode {w : Command} {i : Instr} {s : State} (h : decode w = .ok i) :
    runCommand w s = exec i s := by
  unfold runCommand
  rw [h]

theorem hyps_DecodeOfEncode : (Instr.bwBit 1#8).wellFormed = true ∧ Instr.decompress.wellFormed = true := by decide
theorem hyps_EncodeOfDecode : decode 0x0000#16 = .ok .nop ∧ decode 0xF100#16 = .ok .decompress := by decide
theorem hyps_IllegalWordsRaiseBadCommand : Ready State.reset ∧ ReleaseAnswered State.reset := by decide
theorem hyps_IllegalWordsRaiseBadCommand_open : Ready snkOpened ∧ ReleaseAnswered snkOpened := by decide
theorem hyps_StepRunsDecodedInstruction :
    (withHost [.command 0x0000#16] State.reset).host.moves = .command 0x0000#16 :: [] ∧ decode 0x0000#16 = .ok .nop := by
  decide
theorem hyps_HostMovesBetweenCommands :
    State.reset.host.moves = [] ∧
      (withHost [.regRead 0xFFF#12] State.reset).host.moves = .regRead 0xFFF#12 :: [] ∧
      (withHost [.hwReset] State.reset).host.moves = .hwReset :: [] ∧
      (withHost [.bindSource abr] State.reset).host.moves = .bindSource abr :: [] ∧
      (withHost [.bindSource abr] State.reset).eng.br.isOpen = false ∧
      (withHost [.bindSink] State.reset).host.moves = .bindSink :: [] ∧
      (withHost [.bindSink] State.reset).eng.bw.isOpen = false := by decide
theorem hyps_ResetValues :
    Engine.reset = State.reset.eng ∧ (∃ s, Engine.reset = (hwReset s).eng) ∧
      ∃ s t, exec .reset s = .next t ∧ Engine.reset = t.eng :=
  ⟨rfl, ⟨faulted, rfl⟩, faulted, after .reset faulted, exec_after (by decide), by decide⟩
theorem hyps_StatusWordFields :
    0 ≤ 255 ∧ 255 ≤ 255 ∧ (256 ≤ 256 ∧ 256 ≤ 510) ∧ (256 ≤ 510 ∧ 510 ≤ 510) ∧
      (0x00A ≤ (0x00A#12).toNat ∧ (0x00A#12).toNat ≤ 0x0FF) ∧ (0x00A ≤ (0x0FF#12).toNat ∧ (0x0FF#12).toNat ≤ 0x0FF) ∧
      (0x5FF ≤ (0x5FF#12).toNat ∧ (0x5FF#12).toNat ≤ 0x7FF) ∧ (0x5FF ≤ (0x7FF#12).toNat ∧ (0x7FF#12).toNat ≤ 0x7FF) := by
  decide
theorem hyps_CodeWindowBits :
    (0 < 256 ∧ 0 < 8 ∧ 0 < 32) ∧ (255 < 256 ∧ 7 < 8 ∧ 31 < 32) ∧ 1 ≤ 1 ∧
      cbGet abrCoded.eng 0x42 = some [true, true, false] := by decide
theorem hyps_FaultStateRefusesOtherWords :
    faulted.eng.stat.fault = true ∧ (0x0101#16 : Command) ≠ 0x0100#16 ∧
      (withHost [.regRead 0#12] faulted).eng.stat.fault = true ∧
      (withHost [.regRead 0#12] faulted).host.moves = .regRead 0#12 :: [] := by decide
theorem hyps_OnlyResetLeavesFaultState :
    ∃ t, step (withHost [.hwReset] faulted) = .next t ∧ t.eng.stat.fault = false ∧
      (withHost [.hwReset] faulted).eng.stat.fault = true := ⟨_, rfl, by decide, by decide⟩
theorem hyps_NopKeepsEverything : Ready abrCoded := by decide
theorem hyps_ResetCommandResets :
    ReleaseAnswered (withAnswers [.ioErr] snkOpened) ∧ ReleaseAnswered (withAnswers [.normal] (srcOpened abr)) ∧
      ReleaseAnswered (withAnswers [.ioErr, .normal, .silent] (withEng (fun e => { e with bw := openWriter }) (srcOpened abr))) := by
  decide
theorem hyps_SourceOpensAndCloses :
    Ready State.reset ∧ State.reset.eng.br.isOpen = false ∧ nextAnswerOf State.reset = .normal ∧
      Ready (srcOpened abr) ∧ (srcOpened abr).eng.br.isOpen = true ∧ NextAnswered (srcOpened abr) := by decide
theorem hyps_SnkOpenEmptiesSink :
    Ready State.reset ∧ State.reset.eng.bw.isOpen = false ∧ nextAnswerOf State.reset = .normal := by decide
theorem hyps_SnkCloseDropsWaitingBits :
    Ready State.reset ∧ State.reset.eng.bw.isOpen = false ∧
      Ready snkOpened ∧ snkOpened.eng.bw.isOpen = true ∧ nextAnswerOf snkOpened = .normal ∧
      nextAnswerOf (withAnswers [.ioErr] snkOpened) = .ioErr ∧
      ReleaseAnswered
        { withAnswers [.ioErr] snkOpened with
          eng := { snkOpened.eng with bw := { buf := 0#8, cnt := 0#3, isOpen := false } }
          env := { afterCalls 1 (withAnswers [.ioErr] snkOpened).env with snkDone := true } } := by decide
theorem hyps_RefusedOpensFault :
    Ready (srcOpened abr) ∧ ReleaseAnswered (srcOpened abr) ∧ (srcOpened abr).eng.br.isOpen = true ∧
      Ready snkOpened ∧ ReleaseAnswered snkOpened ∧ snkOpened.eng.bw.isOpen = true := by decide
theorem hyps_RefusedOpensFault_ioErr :
    let s := withAnswers [.ioErr] State.reset
    Ready s ∧ nextAnswerOf s = .ioErr ∧ ReleaseAnswered { s with env := afterCalls 1 s.env } ∧
      s.eng.br.isOpen = false ∧ s.eng.bw.isOpen = false := by decide
theorem hyps_FtClrClearsTable : Ready abrCoded := by decide
theorem hyps_FtIncCountsOne :
    Ready State.reset ∧ State.reset.eng.scan.total ≠ 0xFFFFFFFF#32 ∧
      (withEng (fun e => { e with scan := { ft := [], total := 0xFFFFFFFF#32 } }) State.reset).eng.scan.total
        = 0xFFFFFFFF#32 ∧
      ReleaseAnswered (withEng (fun e => { e with scan := { ft := [], total := 0xFFFFFFFF#32 } }) State.reset) := by
  decide
theorem hyps_FtScanCountsTheRest :
    let s := withEng (fun e => { e with scan := { ft := [], total := 0xFFFFFFFE#32 } }) (srcOpened [0x41#8])
    Ready s ∧ IoOk s ∧ s.eng.br.isOpen = true ∧
      s.eng.scan.total.toNat + (s.env.src.drop s.env.srcPos).length < 2 ^ 32 := by decide
theorem hyps_FtScanCountsTheRest_ioErr :
    let s := withAnswers [.normal, .ioErr] (srcOpened [0x41#8])
    Ready s ∧ s.eng.br.isOpen = true ∧
      s.eng.scan.total.toNat + (s.env.src.drop s.env.srcPos).length < 2 ^ 32 ∧
      1 ≤ (s.env.src.drop s.env.srcPos).length ∧
      s.env.answers = List.replicate 1 .normal ++ .ioErr :: [] ∧
      (∀ a ∈ ([] : List Answer), a = .normal ∨ a = .ioErr) ∧
      (withAnswers [.ioErr] (srcOpened [])).env.answers = List.replicate 0 .normal ++ .ioErr :: [] := by decide
theorem hyps_CountsOfTheWholeSource :
    Ready (withSource abr) ∧ IoOk (withSource abr) ∧ (withSource abr).eng.br.isOpen = false ∧
      (withSource abr).env.src.length < 2 ^ 32 := by decide
theorem hyps_HtInitLoadsLeaves : Ready abrCounted := by decide
/-- The invariant of a state whose code book is not marked done. -/
theorem inv_of_not_done {s : State} (h : s.eng.book.done = false)
    (h' : TablesInv s.eng ∧ PortInv s ∧ CountInv s.eng ∧ HeapInv s.eng) : Inv s :=
  ⟨⟨h'.1, bookOk_of_not_done h⟩, h'.2⟩
theorem abrQueued_inv : Inv abrQueued := inv_of_not_done rfl (by decide +kernel)

/-- The nodes of V-T1's tree. -/
def abrNodes : List Node := [0x103#9, 0x41#9, 0x102#9, 0x100#9, 0x101#9, 0x43#9, 0x44#9, 0x42#9, 0x52#9]
/-- V-C1's book is that of V-T1's tree. -/
theorem abrCoded_bookOk : BookOk abrCoded.eng := by
  refine fun _ => ⟨fun x path h => ?_, fun x path _ _ h => ?_⟩
  · have listed : ∀ e ∈ abrCoded.eng.book.cb, e.1 < 256 ∧ IsPath abrCoded.eng e.1 (e.2.getD []) := by decide +kernel
    have hx := listed _ (mem_of_tableGet h (by simp))
    exact ⟨hx.1, rfl, hx.2⟩
  · have closed : ∀ n ∈ abrNodes, ∀ b, isLeaf n = false → childOf abrCoded.eng n b ∈ abrNodes := by decide +kernel
    have coded : ∀ n ∈ abrNodes, isLeaf n = true → cbHas abrCoded.eng n.toNat = true := by decide +kernel
    have hm : leafOf x ∈ abrNodes := follow_closed (fun n b hn hl => closed n hn b hl) (by decide) h
    have hl : (leafOf x).toNat = x := by simp [leafOf]; omega
    have := coded _ hm (by simp [isLeaf, hl, Config.firstInternal]; assumption)
    rwa [hl] at this
theorem hyps_HtStepMergesTwoLeast : Ready abrQueued ∧ Inv abrQueued ∧ abrQueued.eng.tree.phase = .merging :=
  ⟨rfl, abrQueued_inv, rfl⟩
theorem hyps_HtBuildFinishesTree :
    Ready State.reset ∧ leafCount State.reset.eng = 0 ∧ Ready abrCounted ∧ 2 ≤ leafCount abrCounted.eng ∧
      leafCount { Engine.reset with scan := { ft := [(255, 1#32)], total := 1#32 } } = 1 := by decide +kernel
theorem hyps_TreeDependsOnlyOnCounts :
    ∃ t t', Ready abrCounted ∧ Ready abrCoded ∧ (∀ x, x < 256 → ftGet abrCounted.eng x = ftGet abrCoded.eng x) ∧
      exec .htBuild abrCounted = .next t ∧ exec .htBuild abrCoded = .next t' :=
  ⟨after .htBuild abrCounted, after .htBuild abrCoded, by decide, by decide, fun _ _ => rfl,
    exec_after (by decide +kernel), exec_after (by decide +kernel)⟩
theorem hyps_OutOfOrderCommandsFault :
    Ready State.reset ∧ ReleaseAnswered State.reset ∧ State.reset.eng.tree.phase ≠ .merging ∧
      State.reset.eng.tree.phase ≠ .done ∧ State.reset.eng.tree.rootValid = false ∧
      State.reset.eng.dec.rem = 0#32 ∧ State.reset.eng.book.done = false ∧
      cbHas State.reset.eng (0x41#8).toNat = false := by decide
theorem hyps_CbBuildRecordsPaths :
    Ready abrBuilt ∧ TablesInv abrBuilt.eng ∧ abrBuilt.eng.tree.phase = .done ∧
      abrBuilt.eng.tree.rootValid = true ∧ IsPath abrBuilt.eng 0x41 [false] ∧
      IsPath abrBuilt.eng 0x52 [true, true, true] := by decide +kernel
theorem hyps_CbBuildRecordsPaths_empty :
    let s := withEng (fun e => { e with tree := { e.tree with phase := .done } }) State.reset
    Ready s ∧ TablesInv s.eng ∧ s.eng.tree.phase = .done ∧ s.eng.tree.rootValid = false := by decide +kernel
theorem hyps_CodeBookOfBuiltTree : ∃ t, Ready abrCounted ∧ exec .htBuild abrCounted = .next t :=
  ⟨_, by decide, exec_after (by decide +kernel)⟩
/-- A lone leaf of V-T5. -/
def loneLeaf : State :=
  withEng
    (fun e =>
      { e with
        scan := { ft := [(0x41, 5#32)], total := 5#32 }
        tree := { e.tree with pq := [(0, 0x41#9)], pqN := 1#9, root := 0x41#9, rootValid := true, phase := .done } })
    State.reset
theorem hyps_LoneLeafCodeIsEmpty :
    Ready loneLeaf ∧ loneLeaf.eng.tree.phase = .done ∧ loneLeaf.eng.tree.rootValid = true ∧
      isLeaf loneLeaf.eng.tree.root = true := by decide
theorem hyps_CodesArePrefixFree :
    ∃ t, Ready abrBuilt ∧ exec .cbBuild abrBuilt = .next t ∧ t.host.rsp = some .ok ∧ 0x41 ≠ 0x52 ∧
      cbGet t.eng 0x41 = some [false] ∧ cbGet t.eng 0x52 = some [true, true, true] :=
  ⟨after .cbBuild abrBuilt, by decide, exec_after (by decide +kernel), by decide +kernel, by decide,
    by decide +kernel, by decide +kernel⟩
theorem hyps_BwBitAppendsBit :
    let full := withEng (fun e => { e with bw := { buf := 0x52#8, cnt := 7#3, isOpen := true } }) State.reset
    (0#8).toNat ≤ 1 ∧ (1#8).toNat ≤ 1 ∧ Ready snkOpened ∧ snkOpened.eng.bw.isOpen = true ∧
      snkOpened.eng.bw.cnt ≠ 7#3 ∧ Ready full ∧ full.eng.bw.isOpen = true ∧ full.eng.bw.cnt = 7#3 ∧
      nextAnswerOf full = .normal ∧ nextAnswerOf (withAnswers [.ioErr] full) = .ioErr ∧
      ReleaseAnswered { withAnswers [.ioErr] full with env := afterCalls 1 (withAnswers [.ioErr] full).env } := by decide
theorem hyps_ClosedSinkRaisesStreamClosed :
    Ready (srcOpened abr) ∧ ReleaseAnswered (srcOpened abr) ∧ (srcOpened abr).eng.bw.isOpen = false ∧
      (1#8).toNat ≤ 1 := by decide
theorem hyps_BwClosePadsAndCloses :
    let s := withEng (fun e => { e with bw := { buf := 1#8, cnt := 1#3, isOpen := true } }) State.reset
    Ready snkOpened ∧ snkOpened.eng.bw.isOpen = true ∧ snkOpened.eng.bw.cnt = 0#3 ∧
      nextAnswerOf snkOpened = .normal ∧ Ready s ∧ s.eng.bw.isOpen = true ∧ s.eng.bw.cnt ≠ 0#3 ∧
      nextAnswerOf s = .normal ∧ nextAnswerOf { s with env := afterCalls 1 s.env } = .normal := by decide
theorem hyps_BwClosePadsAndCloses_ioErr :
    let z := withAnswers [.ioErr] snkOpened
    let s := withAnswers [.ioErr] (withEng (fun e => { e with bw := { buf := 1#8, cnt := 1#3, isOpen := true } }) State.reset)
    let u := withAnswers [.normal, .ioErr] s
    nextAnswerOf z = .ioErr ∧
      ReleaseAnswered
        { z with
          eng := { z.eng with bw := { z.eng.bw with isOpen := false } }
          env := { afterCalls 1 z.env with snkDone := true } } ∧
      nextAnswerOf s = .ioErr ∧ ReleaseAnswered { s with env := afterCalls 1 s.env } ∧
      nextAnswerOf u = .normal ∧ nextAnswerOf { u with env := afterCalls 1 u.env } = .ioErr ∧
      ReleaseAnswered
        { u with
          eng := { u.eng with bw := { buf := 0#8, cnt := 0#3, isOpen := false } }
          env := { afterCalls 2 u.env with snk := u.env.snk ++ [u.eng.bw.buf <<< 7], snkDone := true } } := by decide
theorem hyps_WriterPacksBits :
    Ready State.reset ∧ IoOk State.reset ∧ State.reset.eng.bw.isOpen = false := by decide
theorem hyps_BrBitDeliversNextBit :
    Ready (srcOpened abr) ∧ (srcOpened abr).eng.br.eos = false ∧ (srcOpened abr).eng.br.pos = 8#4 ∧
      (srcOpened abr).eng.br.isOpen = true ∧ nextAnswerOf (srcOpened abr) = .normal ∧
      (srcOpened abr).env.src[(srcOpened abr).env.srcPos]? = some 0x41#8 ∧
      (srcOpened []).env.src[(srcOpened []).env.srcPos]? = none ∧
      nextAnswerOf (withAnswers [.ioErr] (srcOpened abr)) = .ioErr ∧
      ReleaseAnswered
        { withAnswers [.ioErr] (srcOpened abr) with env := afterCalls 1 (withAnswers [.ioErr] (srcOpened abr)).env } := by
  decide
theorem hyps_BrBitDeliversNextBit_buffered :
    let s := withEng (fun e => { e with br := { buf := 0xA5#8, pos := 7#4, eos := false, isOpen := false } }) State.reset
    let d := withEng (fun e => { e with br := { buf := 0xA5#8, pos := 8#4, eos := true, isOpen := true } }) State.reset
    Ready s ∧ s.eng.br.eos = false ∧ s.eng.br.pos.toNat < 8 ∧ Ready d ∧ d.eng.br.eos = true := by decide
theorem hyps_ReaderReturnsTheStream :
    Ready (withSource abr) ∧ IoOk (withSource abr) ∧ (withSource abr).eng.br.isOpen = false := by decide
theorem hyps_ClosedSourceRaisesIOUnavailable :
    Ready abrCoded ∧ ReleaseAnswered abrCoded ∧ abrCoded.eng.br.isOpen = false ∧ abrCoded.eng.book.done = true ∧
      abrCoded.eng.br.eos = false ∧ abrCoded.eng.br.pos = 8#4 := by decide +kernel
theorem hyps_ClosedSourceRaisesIOUnavailable_ioErr :
    let s := withAnswers [.ioErr, .normal] (srcOpened abr)
    let failed : State := { s with env := afterCalls 1 s.env }
    Ready s ∧ ReleaseAnswered failed ∧ s.eng.br.isOpen = true ∧ nextAnswerOf s = .ioErr := by decide

/-- The reader of V-D4's source closed within the byte `0x6E`, its last five bits, `01110`, still buffered. -/
def buffering : State :=
  withEng (fun e => { e with br := { buf := 0x6E#8, pos := 3#4, eos := false, isOpen := false } }) decoding
theorem hyps_ClosedSourceRaisesIOUnavailable_decode :
    let s := withEng (fun e => { e with br := { e.br with pos := 7#4, buf := 1#8 } }) buffering
    Ready s ∧ ReleaseAnswered s ∧ s.eng.br.isOpen = false ∧ s.eng.br.eos = false ∧ s.eng.br.pos.toNat ≤ 8 ∧
      s.eng.tree.phase = .done ∧ s.eng.tree.rootValid = true ∧ s.eng.dec.rem ≠ 0#32 ∧
      follow s.eng s.eng.tree.root (buffered s.eng.br) = some 0x102#9 ∧ isLeaf 0x102#9 = false := by decide +kernel
theorem hyps_ClosedSourceRaisesIOUnavailable_buffered :
    Ready buffering ∧ IoOk buffering ∧ buffering.eng.br.isOpen = false ∧ buffering.eng.br.eos = false ∧
      buffering.eng.br.pos.toNat ≤ 8 ∧ buffering.eng.bw.isOpen = true ∧ buffering.eng.tree.phase = .done ∧
      buffering.eng.tree.rootValid = true ∧ [0x41#8, 0x52#8, 0x41#8].length < buffering.eng.dec.rem.toNat ∧
      (∀ b ∈ [0x41#8, 0x52#8, 0x41#8], IsPath buffering.eng b.toNat (cbCode abrCoded.eng b.toNat)) ∧
      buffered buffering.eng.br = payloadBits (cbCode abrCoded.eng) [0x41#8, 0x52#8, 0x41#8] ++ [] ∧
      follow buffering.eng buffering.eng.tree.root [] = some 0x103#9 ∧ isLeaf 0x103#9 = false := by decide +kernel
theorem hyps_HdrWrWritesHeaderBits :
    let s := withEng (fun e => { e with bw := { buf := 0x7F#8, cnt := 7#3, isOpen := true } }) abrCoded
    Ready s ∧ IoOk s ∧ s.eng.bw.isOpen = true ∧ WriterOk s.eng.bw ∧ abrCoded.eng.bw.isOpen = false := by decide
theorem hyps_EncSymEmitsCode :
    let s := withEng (fun e => { e with bw := openWriter }) abrCoded
    Ready s ∧ IoOk s ∧ s.eng.book.done = true ∧ cbGet s.eng (0x52#8).toNat = some [true, true, true] ∧
      [true, true, true].length ≤ 255 ∧ s.eng.bw.isOpen = true ∧ WriterOk s.eng.bw := by decide +kernel
theorem hyps_EncSymEmitsCode_empty :
    let s := withEng (fun e => { e with book := { cb := [(0x41, some [])], done := true } }) State.reset
    Ready s ∧ IoOk s ∧ s.eng.book.done = true ∧ cbGet s.eng (0x41#8).toNat = some [] := by decide
theorem hyps_EncRunEncodesTheRest :
    let s : State :=
      { withEng (fun e => { e with bw := openWriter, br := openReader }) abrCoded with
        env := { State.reset.env with src := abr } }
    Ready s ∧ IoOk s ∧ s.eng.book.done = true ∧ s.eng.br.isOpen = true ∧ s.eng.bw.isOpen = true ∧
      WriterOk s.eng.bw ∧ ∀ b ∈ s.env.src.drop s.env.srcPos, cbHas s.eng b.toNat = true := by decide +kernel
theorem hyps_CompressWritesTheStream :
    Ready (withSource abr) ∧ IoOk (withSource abr) ∧ (withSource abr).eng.br.isOpen = false ∧
      (withSource abr).eng.bw.isOpen = false ∧ (withSource abr).env.src.length < 2 ^ 32 := by decide
theorem hyps_CompressWritesTheStream_tree :
    ∃ u, Ready abrCounted ∧ (∀ x, x < 256 → ftGet abrCounted.eng x = countOf (withSource abr).env.src x) ∧
      exec .htBuild abrCounted = .next u :=
  ⟨_, rfl, by decide +kernel, exec_after (by decide +kernel)⟩

/-- A source whose header holds the counts of `ABR` and the given total. -/
def headed (total : U32) (payload : List Byte) : List Byte := headerBytes (ftGet abrCounted.eng) total ++ payload

theorem unread_srcOpened (src : List Byte) : unread (srcOpened src) = streamBits src := by
  simp [unread, srcOpened, withEng, withSource, openReader, buffered, State.reset]

theorem abr_sum : ((List.range 256).map fun x => (ftGet abrCounted.eng x).toNat).sum = 11 := by decide +kernel

theorem hyps_HdrRdLoadsHeader :
    Ready (srcOpened (headed 11#32 [0x6E#8])) ∧ IoOk (srcOpened (headed 11#32 [0x6E#8])) ∧
      ReaderOk (srcOpened (headed 11#32 [0x6E#8])) ∧ (srcOpened (headed 11#32 [0x6E#8])).eng.br.isOpen = true ∧
      unread (srcOpened (headed 11#32 [0x6E#8]))
        = streamBits (headerBytes (ftGet abrCounted.eng) 11#32) ++ streamBits [0x6E#8] ∧
      ((List.range 256).map fun x => (ftGet abrCounted.eng x).toNat).sum = (11#32).toNat := by
  refine ⟨rfl, fun a h => ?_, ⟨by decide, by decide, Nat.zero_le _⟩, rfl, ?_, abr_sum⟩
  · cases h
  · rw [unread_srcOpened, headed, streamBits, streamBits, streamBits, List.flatMap_append]
theorem hyps_BadHeadersAreCorrupt :
    Ready (srcOpened [0#8]) ∧ IoOk (srcOpened [0#8]) ∧ ReaderOk (srcOpened [0#8]) ∧
      (srcOpened [0#8]).eng.br.isOpen = true ∧ (unread (srcOpened [0#8])).length < 8224 := by decide +kernel
theorem hyps_BadHeadersAreCorrupt_total :
    unread (srcOpened (headed 12#32 [])) = streamBits (headerBytes (ftGet abrCounted.eng) 12#32) ++ [] ∧
      ((List.range 256).map fun x => (ftGet abrCounted.eng x).toNat).sum ≠ (12#32).toNat := by
  refine ⟨?_, by rw [abr_sum]; decide⟩
  rw [unread_srcOpened, headed, List.append_nil, List.append_nil]
theorem hyps_BadHeadersAreCorrupt_decompress :
    (withSource (List.replicate 1027 0#8)).eng.br.isOpen = false ∧
      (withSource (List.replicate 1027 0#8)).eng.bw.isOpen = false ∧
      (withSource (List.replicate 1027 0#8)).env.src.length < 1028 ∧
      ∃ (ft : Nat → U32) (total : U32) (after : List Byte),
        (withSource (headed 12#32 [])).env.src = headerBytes ft total ++ after ∧
          ((List.range 256).map fun x => (ft x).toNat).sum ≠ total.toNat :=
  ⟨rfl, rfl, Nat.lt_of_le_of_lt (Nat.le_of_eq List.length_replicate) (by decide), ftGet abrCounted.eng, 12#32, [], rfl, by rw [abr_sum]; decide⟩
theorem hyps_DecSymEmitsSymbol :
    Ready decoding ∧ IoOk decoding ∧ ReaderOk decoding ∧ decoding.eng.tree.phase = .done ∧
      decoding.eng.tree.rootValid = true ∧ decoding.eng.dec.rem ≠ 0#32 ∧ decoding.eng.bw.isOpen = true ∧
      decoding.eng.br.isOpen = true ∧ IsPath decoding.eng 0x41 [false] ∧
      unread decoding = [false] ++ (unread decoding).drop 1 := by decide +kernel
theorem hyps_DecSymEmitsSymbol_lone :
    let s := withEng (fun e => { e with bw := openWriter, dec := { cur := 0#9, rem := 5#32 } }) loneLeaf
    Ready s ∧ IoOk s ∧ ReaderOk s ∧ s.eng.tree.phase = .done ∧ s.eng.tree.rootValid = true ∧
      s.eng.dec.rem ≠ 0#32 ∧ s.eng.bw.isOpen = true ∧ ([] : List Bool).length ≤ 8 - s.eng.br.pos.toNat ∧
      IsPath s.eng 0x41 [] ∧ unread s = [] ++ [] := by decide +kernel
theorem hyps_DecSymTruncatedStream :
    let s : State := { decoding with env := { decoding.env with src := [] } }
    Ready s ∧ IoOk s ∧ ReaderOk s ∧ s.eng.tree.phase = .done ∧ s.eng.tree.rootValid = true ∧
      s.eng.dec.rem ≠ 0#32 ∧ s.eng.br.isOpen = true ∧
      follow s.eng s.eng.tree.root (unread s) = some 0x103#9 ∧ isLeaf 0x103#9 = false := by decide +kernel
theorem hyps_DecSymClosedSink :
    let s := withEng (fun e => { e with bw := { openWriter with isOpen := false } }) decoding
    Ready s ∧ IoOk s ∧ ReaderOk s ∧ s.eng.tree.phase = .done ∧ s.eng.tree.rootValid = true ∧
      s.eng.dec.rem ≠ 0#32 ∧ s.eng.bw.isOpen = false ∧ s.eng.br.isOpen = true ∧ IsPath s.eng 0x41 [false] ∧
      unread s = [false] ++ (unread s).drop 1 := by decide +kernel
theorem hyps_DecRunDecodesExactly :
    Ready decoding ∧ IoOk decoding ∧ ReaderOk decoding ∧ decoding.eng.tree.phase = .done ∧
      decoding.eng.dec.rem.toNat = abr.length ∧ abr ≠ [] ∧ decoding.eng.tree.rootValid = true ∧
      decoding.eng.bw.isOpen = true ∧ decoding.eng.br.isOpen = true ∧
      (∀ b ∈ abr, IsPath decoding.eng b.toNat (cbCode abrCoded.eng b.toNat)) ∧
      unread decoding = payloadBits (cbCode abrCoded.eng) abr ++ [false] := by decide +kernel
theorem hyps_DecRunDecodesExactly_none :
    let s := withEng (fun e => { e with dec := { cur := 0#9, rem := 0#32 } }) decoding
    Ready s ∧ IoOk s ∧ ReaderOk s ∧ s.eng.tree.phase = .done ∧ s.eng.dec.rem.toNat = ([] : List Byte).length := by
  decide +kernel
theorem hyps_DecompressDecodesStream :
    ∃ u : State, Ready abrCounted ∧ exec .htBuild abrCounted = .next u ∧
      ((List.range 256).map fun x => (ftGet abrCounted.eng x).toNat).sum = (11#32).toNat ∧
      (11#32).toNat = abr.length ∧ (∀ y ∈ abr, IsPath u.eng y.toNat (cbCode abrCoded.eng y.toNat)) ∧
      u.eng.tree.rootValid = true ∧
      streamBits [0x6E#8, 0x8A#8, 0xDC#8] = payloadBits (cbCode abrCoded.eng) abr ++ [false] ∧
      Ready (withSource (headed 11#32 [0x6E#8, 0x8A#8, 0xDC#8])) ∧
      IoOk (withSource (headed 11#32 [0x6E#8, 0x8A#8, 0xDC#8])) ∧
      (withSource (headed 11#32 [0x6E#8, 0x8A#8, 0xDC#8])).eng.br.isOpen = false ∧
      (withSource (headed 11#32 [0x6E#8, 0x8A#8, 0xDC#8])).eng.bw.isOpen = false ∧
      (withSource (headed 11#32 [0x6E#8, 0x8A#8, 0xDC#8])).env.src
        = headerBytes (ftGet abrCounted.eng) 11#32 ++ [0x6E#8, 0x8A#8, 0xDC#8] :=
  ⟨after .htBuild abrCounted, rfl, exec_after (by decide +kernel), abr_sum, rfl, by decide +kernel,
    by decide +kernel, by decide +kernel, rfl, withSource_ioOk _, rfl, rfl, rfl⟩
theorem hyps_DecompressOneSymbolStream (n : Nat) (_ : n < 2 ^ 32) :
    let src := headerBytes (fun y => if y = (0x41#8).toNat then BitVec.ofNat 32 n else 0#32) (BitVec.ofNat 32 n) ++ []
    Ready (withSource src) ∧ IoOk (withSource src) ∧ (withSource src).eng.br.isOpen = false ∧
      (withSource src).eng.bw.isOpen = false ∧ (withSource src).env.src = src :=
  ⟨rfl, withSource_ioOk _, rfl, rfl, rfl⟩
theorem hyps_DecompressOneSymbolStream_range : 0 < 2 ^ 32 ∧ 2 ^ 32 - 1 < 2 ^ 32 := by decide
/-- V-E7: COMPRESS of the empty input ends. -/
theorem compress_empty : exec .compress State.reset = .next (after .compress State.reset) :=
  exec_after (by decide +kernel)

theorem hyps_DecompressOfCompress :
    ∃ t s' : State, Ready State.reset ∧ IoOk State.reset ∧ State.reset.eng.br.isOpen = false ∧
      State.reset.eng.bw.isOpen = false ∧ State.reset.env.src.length < 2 ^ 32 ∧
      exec .compress State.reset = .next t ∧ Ready s' ∧ IoOk s' ∧ s'.eng.br.isOpen = false ∧
      s'.eng.bw.isOpen = false ∧ s'.env.src = t.env.snk := by
  obtain ⟨t, ht⟩ : ∃ t, exec .compress State.reset = .next t := ⟨_, compress_empty⟩
  exact ⟨t, withSource t.env.snk, rfl, withSource_ioOk [], rfl, rfl, by decide, ht, rfl, withSource_ioOk _, rfl, rfl,
    rfl⟩
theorem hyps_FaultsAreThoseOfTheTable :
    ∃ t, Instr.brBit.wellFormed = true ∧ Ready State.reset ∧ exec .brBit State.reset = .next t ∧
      t.host.rsp = some .fault :=
  ⟨after .brBit State.reset, by decide, by decide, exec_after (by decide), by decide⟩
theorem hyps_FaultReleasesStreams :
    ∃ t, Ready State.reset ∧ runCommand 0x5000#16 State.reset = .next t ∧ t.host.rsp = some .fault :=
  ⟨after .brBit State.reset, by decide, (runCommand_of_decode (i := .brBit) (by decide)).trans (exec_after (by decide)), by decide⟩
theorem hyps_FaultReleasesStreams_open :
    ∃ t, Ready snkOpened ∧ runCommand 0xF000#16 snkOpened = .next t ∧ t.host.rsp = some .fault ∧
      snkOpened.eng.bw.isOpen = true :=
  ⟨after .compress snkOpened, by decide,
    (runCommand_of_decode (i := .compress) (by decide)).trans (exec_after (by decide)), by decide, by decide⟩
theorem hyps_AbandonedCommandLeavesResetState :
    ∃ t, runCommand 0x0200#16 (withAnswers [.hwReset] (withSource abr)) = .next t ∧ t.host.rsp = none :=
  ⟨after .srcOpen (withAnswers [.hwReset] (withSource abr)),
    (runCommand_of_decode (i := .srcOpen) (by decide)).trans (exec_after (by decide)), by decide⟩
theorem hyps_StreamsChangeOnlyAsStated :
    (∃ t, exec .bwClose snkOpened = .next t) ∧ (∃ t, exec (.ftInc 0#8) State.reset = .next t) ∧
      (Instr.bwClose ≠ .snkOpen ∧ Instr.bwClose ≠ .compress ∧ Instr.bwClose ≠ .decompress) :=
  ⟨⟨_, exec_after (by decide)⟩, ⟨_, exec_after (by decide)⟩, by decide⟩
theorem hyps_EveryCommandEnds :
    Answering (withAnswers [.ioErr] State.reset) ∧ TablesInv (withAnswers [.ioErr] State.reset).eng := by decide +kernel
theorem hyps_EveryCommandEnds_silent :
    let s := withAnswers [.silent] (withEng (fun e => { e with bw := { buf := 0#8, cnt := 7#3, isOpen := true } }) State.reset)
    let r := withAnswers [.silent] (srcOpened abr)
    let both := withAnswers [.normal, .silent] (withEng (fun e => { e with bw := openWriter }) (srcOpened abr))
    Ready s ∧ nextAnswerOf s = .silent ∧ s.eng.bw.isOpen = true ∧ s.eng.bw.cnt = 7#3 ∧ s.eng.br.isOpen = false ∧
      (1#8).toNat ≤ 1 ∧ Ready r ∧ nextAnswerOf r = .silent ∧ r.eng.br.isOpen = true ∧ r.eng.br.eos = false ∧
      r.eng.br.pos = 8#4 ∧ r.eng.bw.isOpen = false ∧ Ready both ∧ both.eng.bw.isOpen = true ∧
      both.eng.br.isOpen = true ∧ NextAnswered both ∧
      nextAnswerOf { both with env := afterCalls 1 both.env } = .silent := by decide
theorem hyps_StepKeepsInvariant : Inv abrQueued ∧ step abrQueued = .next abrQueued :=
  ⟨abrQueued_inv, rfl⟩
theorem hyps_StepKeepsInvariant_done : Inv abrCoded :=
  have h : TablesInv abrCoded.eng ∧ PortInv abrCoded ∧ CountInv abrCoded.eng ∧ HeapInv abrCoded.eng := by decide +kernel
  ⟨⟨h.1, abrCoded_bookOk⟩, h.2⟩
theorem hyps_StepKeepsInvariant_fault : Inv faulted := inv_of_not_done rfl (by decide +kernel)
theorem hyps_StepKeepsTreeInvariant :
    step abrCoded = .next abrCoded ∧ TablesInv abrCoded.eng ∧ TreeInv abrCoded.eng :=
  ⟨rfl, hyps_StepKeepsInvariant_done.1.1, hyps_StepKeepsInvariant_done.1⟩
theorem hyps_StepKeepsPortInvariant : PortInv decoding ∧ step decoding = .next decoding :=
  ⟨by decide +kernel, rfl⟩

end Sys2Proof.Tests
end

-- ==== Proofs: the moves of a step ====
section
namespace Sys2Proof.Machine

/-- A presented word is taken from the host and run (`00_scope.md` R9). -/
theorem step_command {s : State} {w : Command} {ms : List HostMove} (hmoves : s.host.moves = .command w :: ms) :
    step s = runCommand w (withMoves ms s) := by
  simp only [step, hmoves]

/-- Settles O5: the step runs the presented word, and a word that decodes runs what it decodes to. -/
theorem stepRunsDecodedInstruction : Obligations.StepRunsDecodedInstruction := by
  intro s w ms i hmoves hdec
  calc step s = runCommand w (withMoves ms s) := step_command hmoves
    _ = exec i (withMoves ms s) := by simp only [runCommand, hdec]
    _ = exec i { s with host := { s.host with moves := ms } } := rfl

end Sys2Proof.Machine
end

-- ==== Proofs: the reset state ====
section
namespace Sys2Proof.Machine

/-! ### The reset state (`10_state.md` R46) -/

/-- RESET, answered or cut off by hardware reset, leaves the block at its reset values (`46_control.md` R242). -/
theorem exec_reset_eng {s t : State} (h : exec .reset s = .next t) : t.eng = Engine.reset := by
  rcases reset_next h with ⟨-, rfl⟩ | ⟨v, -, rfl⟩ <;> rfl

/-- No code bit shows in the window of a block that has just been reset. -/
theorem codeBit_reset (i j : Nat) : codeBit Engine.reset i j = false := by
  have hcode : cbCode Engine.reset i = [] := rfl
  simp [codeBit, hcode]

/-- Settles O7: each of the three ways leads to `Engine.reset`, whose fields are the table of R46. -/
theorem resetValues : Obligations.ResetValues := by
  intro e he
  have hreset : e = Engine.reset := by
    rcases he with rfl | ⟨s, rfl⟩ | ⟨s, t, ht, rfl⟩
    · rfl
    · rfl
    · exact exec_reset_eng ht
  subst hreset
  exact ⟨fun _ => rfl, rfl, fun _ => ⟨rfl, rfl, rfl⟩, rfl, fun _ => rfl, rfl, rfl, rfl, rfl,
    fun i => ⟨rfl, rfl, codeBit_reset i⟩, rfl, rfl, rfl, rfl, rfl⟩

theorem tablesInv_reset : TablesInv Engine.reset := by
  have harena : ArenaOk Engine.reset := ⟨by decide, by decide, fun i hi hi' => absurd hi (Nat.not_lt.mpr hi')⟩
  have hqueue : QueueOk Engine.reset := ⟨by decide, fun k hk => absurd hk (Nat.not_lt_zero k)⟩
  exact ⟨reset_wf, harena, hqueue, by decide, fun _ _ => Nat.zero_le _⟩

theorem treeInv_reset : TreeInv Engine.reset := ⟨tablesInv_reset, bookOk_of_not_done rfl⟩

/-- After reset every count is 0. -/
theorem ftSum_reset : ftSum Engine.reset = 0 :=
  List.sum_eq_zero fun n hn => by
    obtain ⟨x, -, rfl⟩ := List.mem_map.mp hn
    rfl

/-- A block at its reset values has its ports in order as long as the source position is within the source. -/
theorem portInv_reset {s : State} (he : s.eng = Engine.reset) (hpos : s.env.srcPos ≤ s.env.src.length) :
    PortInv s := by
  rw [PortInv, ReaderOk, he]
  exact ⟨by decide, ⟨by decide, by decide, hpos⟩, by decide⟩

/-- Settles O57, part by part of the invariant. -/
theorem resetMeetsInvariant : Obligations.ResetMeetsInvariant :=
  ⟨treeInv_reset, portInv_reset rfl (Nat.zero_le _), fun _ => ftSum_reset, fun hp => absurd rfl hp⟩

end Sys2Proof.Machine
end

-- ==== Proofs: what a command keeps, from what each unit keeps ====
section
namespace Sys2Proof.Machine

variable {ε α β : Type} {P P' P'' Q : State → Prop}

/-! ### What a procedure leads to -/

/-- The procedure has returned in a state with `P'`, or stopped in one with `Q`. A raise keeps the state it had
reached (`60_exceptions.md` R264), so the two ends need not keep the same. -/
def EndsIn (P' Q : State → Prop) : EStateM.Result ε State α → Prop
  | .ok _ t => P' t
  | .error _ t => Q t

/-- Run from a state with `P`, the procedure returns in one with `P'` or stops in one with `Q`. -/
def Leads (P P' Q : State → Prop) (p : EStateM ε State α) : Prop := ∀ s, P s → EndsIn P' Q (p s)

theorem Leads.of_ok {p : EStateM ε State α} (hp : Leads P P' Q p) {s t : State} {a : α} (hs : P s)
    (h : p s = .ok a t) : P' t := by
  have he := hp s hs
  rwa [h] at he

theorem Leads.of_error {p : EStateM ε State α} (hp : Leads P P' Q p) {s t : State} {e : ε} (hs : P s)
    (h : p s = .error e t) : Q t := by
  have he := hp s hs
  rwa [h] at he

theorem Leads.of_pre {p : EStateM ε State α} (h : ∀ s, P s → P' s) (hp : Leads P' P'' Q p) : Leads P P'' Q p :=
  fun s hs => hp s (h s hs)

theorem Leads.mono_post {p : EStateM ε State α} (h : ∀ s, P' s → P'' s) (hp : Leads P P' Q p) :
    Leads P P'' Q p := by
  intro s hs
  cases hr : p s with
  | ok a t => exact h t (hp.of_ok hs hr)
  | error e t => exact hp.of_error hs hr

theorem Leads.pure (h : ∀ s, P s → P' s) (a : α) : Leads P P' Q (pure a : EStateM ε State α) := h

theorem Leads.done (a : α) : Leads P P Q (Pure.pure a : EStateM ε State α) := Leads.pure (fun _ hs => hs) a

theorem Leads.bind {p : EStateM ε State α} {q : α → EStateM ε State β} (hp : Leads P P' Q p)
    (hq : ∀ a, Leads P' P'' Q (q a)) : Leads P P'' Q (p >>= q) := by
  intro s hs
  rw [run_bind]
  cases hr : p s with
  | ok a t => exact hq a t (hp.of_ok hs hr)
  | error e t => exact hp.of_error hs hr

theorem Leads.raise (h : ∀ s, P s → Q s) (k : FaultKind) : Leads P P' Q (raise k : Proc α) := h

theorem Leads.stuck (h : ∀ s, P s → Q s) (f : Fault) : Leads P P' Q (stuck f : Proc α) := h

theorem Leads.call {p : Prim α} (hp : Leads P P' Q p) : Leads P P' Q (call p) := by
  intro s hs
  cases hr : p s with
  | ok a t => rw [call_of_ok hr]; exact hp.of_ok hs hr
  | error c t => rw [call_of_error hr]; exact hp.of_error hs hr

theorem Leads.require (h : ∀ s, P s → Q s) (c : Bool) (k : FaultKind) : Leads P P Q (Machine.require c k) := by
  cases c with
  | false => exact Leads.raise h k
  | true => exact Leads.done ()

/-- Past a `require` its condition holds. -/
theorem Leads.require_bind {c : Bool} {k : FaultKind} {q : Unit → Proc β} (hstop : ∀ s, P s → Q s)
    (hq : c = true → Leads P P' Q (q ())) : Leads P P' Q (Machine.require c k >>= q) := by
  cases c with
  | false => exact Leads.raise hstop k
  | true => exact hq rfl

/-- What is read of the registers is what they hold. -/
theorem Leads.getEng_bind {q : Engine → Proc β} (hq : ∀ e, Leads (fun s => P s ∧ s.eng = e) P' Q (q e)) :
    Leads P P' Q (getEng >>= q) := fun s hs => hq s.eng s ⟨hs, rfl⟩

/-- What holds before the registers are read holds after. -/
theorem Leads.read {q : Engine → Proc β} (hq : ∀ e, Leads P P' Q (q e)) : Leads P P' Q (getEng >>= q) :=
  Leads.getEng_bind fun e => (hq e).of_pre fun _ hs => hs.1

theorem Leads.modEng {f : Engine → Engine} (h : ∀ s, P s → P' (modEngine f s)) : Leads P P' Q (modEng f) := h

/-- Past a write to registers, for what the write keeps. -/
theorem Leads.modEng_bind {f : Engine → Engine} {q : Unit → Proc β} (h : ∀ s, P s → P (modEngine f s))
    (hq : Leads P P' Q (q ())) : Leads P P' Q (Machine.modEng f >>= q) := (Leads.modEng h).bind fun _ => hq

/-- A procedure that takes a number from the state it starts in. -/
theorem Leads.ofState {p : Nat → EStateM ε State α} (h : ∀ n, Leads P P' Q (p n)) (f : State → Nat) :
    Leads P P' Q (fun s => p (f s) s) := fun s hs => h (f s) s hs

/-! ### Reading the header -/

theorem Leads.readBitsInto (hbit : Leads P P Q readBit) (n : Nat) (w : U32) : Leads P P Q (readBitsInto n w) := by
  induction n generalizing w with
  | zero => exact Leads.done _
  | succ n ih =>
    refine hbit.bind fun r => ?_
    cases r with
    | none => exact Leads.done _
    | some b => exact ih _

theorem Leads.read32 (hbit : Leads P P Q readBit) : Leads P P Q read32 := hbit.readBitsInto 32 0#32

theorem Leads.readCounts (hstop : ∀ s, P s → Q s) (hbit : Leads P P Q readBit)
    (hcount : ∀ s x w, x < 256 → P s → P (modEngine (fun e => ftSet e x w) s)) (xs : List Nat)
    (hxs : ∀ x ∈ xs, x < 256) : Leads P P Q (readCounts xs) := by
  induction xs with
  | nil => exact Leads.done _
  | cons x xs ih =>
    obtain ⟨hx, hrest⟩ := List.forall_mem_cons.mp hxs
    refine hbit.read32.bind fun r => ?_
    cases r with
    | none => exact Leads.raise hstop _
    | some w => exact (Leads.modEng fun s h => hcount s x w hx h).bind fun _ => ih hrest

/-- The end of HDR_RD (`45_decompress.md` R217), for any sum the total is compared with. -/
theorem Leads.loadTotal {H : State → Prop} {sum : Engine → Nat} (hstop : ∀ s, H s → Q s)
    (htotal : ∀ s w, H s → H (modEngine (setTotal w) s))
    (hend : ∀ s, H s → sum s.eng = s.eng.scan.total.toNat → P (modEngine (setDecRem s.eng.scan.total) s))
    (w : U32) :
    Leads H P Q (do
      Machine.modEng (setTotal w)
      let e ← getEng
      Machine.require (sum e == w.toNat) .corruptHeader
      Machine.modEng (setDecRem w)
      Pure.pure w) := by
  have hload : Leads H (fun s => H s ∧ s.eng.scan.total = w) Q (Machine.modEng (setTotal w)) :=
    Leads.modEng fun s h => ⟨htotal s w h, rfl⟩
  refine hload.bind fun _ => Leads.getEng_bind fun e => ?_
  refine Leads.require_bind (fun s h => hstop s h.1.1) fun hsum => ?_
  refine (Leads.modEng (P' := P) ?_).bind fun _ => Leads.done _
  rintro s ⟨⟨hH, rfl⟩, rfl⟩
  exact hend s hH (eq_of_beq hsum)

/-- HDR_RD (`45_decompress.md` R217): what holds while the header is read, with the counts and the total not yet in
agreement, is `H`. -/
theorem Leads.hdrRd {H : State → Prop} (hstop : ∀ s, H s → Q s)
    (hstart : ∀ s, P s → H (modEngine invalidate s))
    (hbit : Leads H H Q readBit)
    (hcount : ∀ s x w, x < 256 → H s → H (modEngine (fun e => ftSet e x w) s))
    (htotal : ∀ s w, H s → H (modEngine (setTotal w) s))
    (hend : ∀ s, H s → ftSum s.eng = s.eng.scan.total.toNat → P (modEngine (setDecRem s.eng.scan.total) s)) :
    Leads P P Q pHdrRd := by
  refine (Leads.modEng hstart).bind fun _ => ?_
  refine (Leads.readCounts hstop hbit hcount _ fun x => List.mem_range.mp).bind fun _ => ?_
  refine hbit.read32.bind fun r => ?_
  cases r with
  | none => exact Leads.raise hstop _
  | some w =>
    -- The sum stays a name: comparing it would have Lean add up the 256 counts.
    revert hend
    generalize ftSum = sum
    exact fun hend => Leads.loadTotal hstop htotal hend w

/-! ### The units of the block -/

/-- Every unit's own procedures lead from `P` to `P`, or stop in `Q`; all commands are made of these. -/
structure UnitsKeep (P Q : State → Prop) : Prop where
  stop : ∀ s, P s → Q s
  srcOpen : Leads P P Q pSrcOpen
  srcClose : Leads P P Q pSrcClose
  snkOpen : Leads P P Q pSnkOpen
  snkClose : Leads P P Q pSnkClose
  bwClose : Leads P P Q pBwClose
  writeBit : ∀ b, Leads P P Q (writeBit b)
  readBit : Leads P P Q readBit
  srcByte : Leads P P Q srcByte
  sinkByte : ∀ b, Leads P P Q (sinkByte b)
  ftClr : Leads P P Q pFtClr
  ftInc : ∀ a, Leads P P Q (pFtInc a)
  htInit : Leads P P Q pHtInit
  htStep : Leads P P Q pHtStep
  cbBuild : Leads P P Q pCbBuild
  hdrRd : Leads P P Q pHdrRd
  cursor : ∀ s d, P s → P { s with eng := { s.eng with dec := d } }

namespace UnitsKeep

variable (h : UnitsKeep P Q)
include h

theorem require {c : Bool} {k : FaultKind} {q : Unit → Proc β} (hq : Leads P P Q (q ())) :
    Leads P P Q (require c k >>= q) := Leads.require_bind h.stop fun _ => hq

theorem writeBits (bits : List Bool) : Leads P P Q (writeBits bits) := by
  induction bits with
  | nil => exact Leads.done ()
  | cons b bits ih => exact (h.writeBit b).bind fun _ => ih

theorem writeWords (ws : List U32) : Leads P P Q (writeWords ws) := by
  induction ws with
  | nil => exact Leads.done ()
  | cons w ws ih => exact (h.writeBits (wordBits w)).bind fun _ => ih

theorem bwBit (a : BitVec 8) : Leads P P Q (pBwBit a) := by
  unfold pBwBit
  cases bitOperand a with
  | none => exact Leads.raise h.stop _
  | some b => exact (h.writeBit b).bind fun _ => Leads.done _

theorem brBit : Leads P P Q pBrBit := h.readBit.bind fun _ => Leads.done _

theorem scanLoop (n : Nat) : Leads P P Q (scanLoop n) := by
  induction n with
  | zero => exact Leads.stuck h.stop _
  | succ n ih =>
    refine h.srcByte.bind fun r => ?_
    cases r with
    | none => exact Leads.done ()
    | some b => exact (h.ftInc b).bind fun _ => ih

theorem ftScan : Leads P P Q pFtScan :=
  (Leads.ofState h.scanLoop _).bind fun _ => Leads.read fun _ => Leads.done _

theorem mergeLoop (n : Nat) : Leads P P Q (mergeLoop n) := by
  induction n with
  | zero => exact Leads.stuck h.stop _
  | succ n ih =>
    refine Leads.read fun e => ?_
    split
    · exact h.htStep.bind fun _ => ih
    · exact Leads.done ()

theorem htBuild : Leads P P Q pHtBuild :=
  h.htInit.bind fun _ => (Leads.ofState h.mergeLoop _).bind fun _ => Leads.read fun _ => Leads.done _

theorem hdrWr : Leads P P Q pHdrWr :=
  Leads.read fun _ => (h.writeWords _).bind fun _ => Leads.done _

theorem encSym (a : Byte) : Leads P P Q (pEncSym a) :=
  Leads.read fun _ => h.require ((h.writeBits _).bind fun _ => Leads.done _)

theorem encodeLoop (n : Nat) : Leads P P Q (encodeLoop n) := by
  induction n with
  | zero => exact Leads.stuck h.stop _
  | succ n ih =>
    refine h.srcByte.bind fun r => ?_
    cases r with
    | none => exact Leads.done ()
    | some b => exact (h.encSym b).bind fun _ => ih

theorem encRun : Leads P P Q pEncRun :=
  Leads.read fun _ => h.require ((Leads.ofState h.encodeLoop _).bind fun _ => Leads.done _)

theorem walkToLeaf (n : Nat) : Leads P P Q (walkToLeaf n) := by
  induction n with
  | zero => exact Leads.stuck h.stop _
  | succ n ih =>
    refine Leads.read fun e => ?_
    split
    · exact Leads.done ()
    · refine h.readBit.bind fun r => ?_
      cases r with
      | none => exact Leads.raise h.stop _
      | some b => exact (Leads.modEng fun s hs => h.cursor s _ hs).bind fun _ => ih

theorem decSym : Leads P P Q pDecSym :=
  Leads.read fun _ => h.require <|
    (Leads.modEng fun s hs => h.cursor s _ hs).bind fun _ =>
    (Leads.ofState h.walkToLeaf _).bind fun _ => Leads.read fun _ =>
    (h.sinkByte _).bind fun _ =>
    (Leads.modEng fun s hs => h.cursor s _ hs).bind fun _ => Leads.done _

theorem decodeLoop (n : Nat) : Leads P P Q (decodeLoop n) := by
  induction n with
  | zero => exact Leads.done ()
  | succ n ih => exact h.decSym.bind fun _ => ih

theorem decRun : Leads P P Q pDecRun :=
  Leads.read fun _ => h.require ((h.decodeLoop _).bind fun _ => Leads.done _)

theorem compress : Leads P P Q pCompress :=
  Leads.read fun _ => h.require <|
    h.srcOpen.bind fun _ => h.ftClr.bind fun _ => h.ftScan.bind fun _ => h.srcClose.bind fun _ =>
    h.htBuild.bind fun _ => h.cbBuild.bind fun _ => h.snkOpen.bind fun _ => h.hdrWr.bind fun _ =>
    h.srcOpen.bind fun _ => h.encRun.bind fun _ => h.srcClose.bind fun _ => h.bwClose.bind fun _ =>
    Leads.read fun _ => Leads.done _

theorem decompress : Leads P P Q pDecompress :=
  Leads.read fun _ => h.require <|
    h.srcOpen.bind fun _ => h.hdrRd.bind fun _ => h.htBuild.bind fun _ => h.snkOpen.bind fun _ =>
    h.decRun.bind fun _ => h.snkClose.bind fun _ => h.srcClose.bind fun _ =>
    Leads.read fun _ => Leads.done _

/-- Every command keeps what the units keep. -/
theorem command {i : Instr} {p : Proc U32} (hp : procOf i = some p) : Leads P P Q p := by
  cases i <;> cases hp
  case srcOpen => exact h.srcOpen
  case srcClose => exact h.srcClose
  case snkOpen => exact h.snkOpen
  case snkClose => exact h.snkClose
  case ftClr => exact h.ftClr
  case ftInc a => exact h.ftInc a
  case ftScan => exact h.ftScan
  case htInit => exact h.htInit
  case htStep => exact h.htStep
  case htBuild => exact h.htBuild
  case cbBuild => exact h.cbBuild
  case bwBit a => exact h.bwBit a
  case bwClose => exact h.bwClose
  case brBit => exact h.brBit
  case hdrWr => exact h.hdrWr
  case hdrRd => exact h.hdrRd
  case encSym a => exact h.encSym a
  case encRun => exact h.encRun
  case decSym => exact h.decSym
  case decRun => exact h.decRun
  case compress => exact h.compress
  case decompress => exact h.decompress

end UnitsKeep

/-! ### Invariants of a step -/

/-- The source position is where it was in the same content, or at the start of other content. -/
def SourceStays (v w : Env) : Prop := (w.src = v.src ∧ w.srcPos = v.srcPos) ∨ w.srcPos = 0

theorem SourceStays.of_eq {v w : Env} (hsrc : w.src = v.src) (hpos : w.srcPos = v.srcPos) : SourceStays v w :=
  .inl ⟨hsrc, hpos⟩

/-- What makes `I` an invariant of the machine: a command that starts leads from `P` to `P` or stops in `Q`, both
give `I` back with the response, and nothing the host does between commands disturbs it. -/
structure KeptBySteps (I P Q : State → Prop) : Prop where
  start : ∀ s, I s → Ready s → P s
  units : UnitsKeep P Q
  answered : ∀ v s, P s → I (answeredOk v s)
  faulted : ∀ k s, Q s → I (faultState k s)
  idle : ∀ s u, I s → u.eng = s.eng → SourceStays s.env u.env → I u
  reset : ∀ s u, I s ∨ Q s → u.eng = Engine.reset → SourceStays s.env u.env → I u

namespace KeptBySteps

variable {I : State → Prop} (h : KeptBySteps I P Q)
include h

/-- A command's procedure under `Exec` (`30_encoding.md` R93). -/
theorem procNext {p : Proc U32} {s u : State} (hp : Leads P P Q p) (hI : I s) (hn : ProcNext p s u) : I u := by
  rcases hn with ⟨-, rfl⟩ | ⟨hr, v, t, ht, rfl⟩ | ⟨hr, k, t, ht, -, rfl⟩ | ⟨hr, t, ht, rfl⟩ |
    ⟨hr, k, t, v, ht, hv, rfl⟩
  · exact h.idle s _ hI rfl (.of_eq rfl rfl)
  · exact h.answered v t (hp.of_ok (h.start s hI hr) ht)
  · exact h.faulted k t (hp.of_error (h.start s hI hr) ht)
  · exact h.reset t _ (.inr (hp.of_error (h.start s hI hr) ht)) rfl (.of_eq rfl rfl)
  · obtain ⟨hsrc, hpos, -⟩ := hv.streams
    exact h.reset t _ (.inr (hp.of_error (h.start s hI hr) ht)) rfl (.of_eq hsrc hpos)

theorem exec {i : Instr} {s u : State} (hI : I s) (hn : exec i s = .next u) : I u := by
  rcases exec_next hn with ⟨-, rfl⟩ | ⟨-, ⟨-, rfl⟩ | ⟨v, hv, rfl⟩⟩ | ⟨p, hp, hn'⟩
  · exact h.idle s _ hI rfl (.of_eq rfl rfl)
  · exact h.reset s _ (.inl hI) rfl (.of_eq rfl rfl)
  · obtain ⟨hsrc, hpos, -⟩ := hv.streams
    exact h.reset s _ (.inl hI) rfl (.of_eq hsrc hpos)
  · exact h.procNext (h.units.command hp) hI hn'

theorem step {s u : State} (hI : I s) (hn : step s = .next u) : I u := by
  rcases step_next hn with ⟨-, rfl⟩ | ⟨m, ms, -, hm⟩
  · exact hI
  · have hI' : I (withMoves ms s) := h.idle s _ hI rfl (.of_eq rfl rfl)
    rcases hm with ⟨w, -, hw⟩ | ⟨-, rfl⟩ | ⟨a, -, rfl⟩ | ⟨b, -, -, rfl⟩ | ⟨-, -, rfl⟩
    · rcases runCommand_next hw with ⟨i, -, hi⟩ | ⟨-, hb⟩
      · exact h.exec hI' hi
      · exact h.procNext (Leads.raise h.units.stop _) hI' hb
    · exact h.reset s _ (.inl hI) rfl (.of_eq rfl rfl)
    · exact h.idle s _ hI rfl (.of_eq rfl rfl)
    · exact h.idle s _ hI rfl (.inr rfl)
    · exact h.idle s _ hI rfl (.of_eq rfl rfl)

end KeptBySteps

end Sys2Proof.Machine
end

-- ==== Proofs: what the tree builder writes ====
section
namespace Sys2Proof.Machine

/-- At most the tree builder's elements differ. -/
def TreeOnly (e f : Engine) : Prop := f = { e with tree := f.tree }

namespace TreeOnly

variable {e f g : Engine}

theorem trans (h1 : TreeOnly e f) (h2 : TreeOnly f g) : TreeOnly e g := by
  unfold TreeOnly at *
  rw [h2, h1]

theorem scan (h : TreeOnly e f) : f.scan = e.scan := by rw [h]
theorem book (h : TreeOnly e f) : f.book = e.book := by rw [h]
theorem bw (h : TreeOnly e f) : f.bw = e.bw := by rw [h]
theorem br (h : TreeOnly e f) : f.br = e.br := by rw [h]
theorem stat (h : TreeOnly e f) : f.stat = e.stat := by rw [h]

end TreeOnly

/-- At most the queue differs. -/
def QueueOnly (e f : Engine) : Prop := f = { e with tree := { e.tree with pq := f.tree.pq, pqN := f.tree.pqN } }

namespace QueueOnly

variable {e f g : Engine}

theorem trans (h1 : QueueOnly e f) (h2 : QueueOnly f g) : QueueOnly e g := by
  unfold QueueOnly at *
  rw [h2, h1]

theorem scan (h : QueueOnly e f) : f.scan = e.scan := by rw [h]
theorem book (h : QueueOnly e f) : f.book = e.book := by rw [h]
theorem nd (h : QueueOnly e f) : f.tree.nd = e.tree.nd := by rw [h]
theorem nn (h : QueueOnly e f) : f.tree.nn = e.tree.nn := by rw [h]
theorem rootValid (h : QueueOnly e f) : f.tree.rootValid = e.tree.rootValid := by rw [h]
theorem freq (h : QueueOnly e f) : freq f = freq e := freq_congr (by rw [h.scan]) h.nd
theorem treeOnly (h : QueueOnly e f) : TreeOnly e f := by
  unfold TreeOnly
  rw [h]

end QueueOnly

theorem pqInsert_queueOnly (x : Node) (e : Engine) : QueueOnly e (pqInsert x e) := rfl

theorem pqRemove_queueOnly (e : Engine) : QueueOnly e (pqRemove e) := by
  unfold pqRemove
  extract_lets n pq
  split <;> rfl

theorem pqRemove_twice_queueOnly (e : Engine) : QueueOnly e (pqRemove (pqRemove e)) :=
  (pqRemove_queueOnly e).trans (pqRemove_queueOnly _)

theorem insertAll_queueOnly (xs : List Node) (e : Engine) : QueueOnly e (insertAll xs e) := by
  induction xs generalizing e with
  | nil => rfl
  | cons x xs ih => exact (pqInsert_queueOnly x e).trans (ih _)

/-- `Finalize` writes the root and the phase alone (`42_tree.md` R161). -/
theorem finalize_eq (e : Engine) : ∃ r b p, finalize e = setPhase p (setRoot r b e) := by
  unfold finalize finalizeWith
  split
  · exact ⟨_, _, _, rfl⟩
  · split
    · exact ⟨_, _, _, rfl⟩
    · exact ⟨e.tree.root, e.tree.rootValid, _, rfl⟩

theorem finalize_treeOnly (e : Engine) : TreeOnly e (finalize e) := by
  obtain ⟨r, b, p, h⟩ := finalize_eq e
  rw [h]
  rfl

/-- The block HT_INIT inserts the leaves into: an empty queue, an empty arena, no root, no code book. -/
def unloaded (e : Engine) : Engine := setQueue e.tree.pq 0#9 (setNn 256#9 (setRoot 0#9 false (setCbDone false e)))

theorem loadQueue_eq (e : Engine) : loadQueue e = finalize (insertAll (leaves e) (unloaded e)) := rfl

/-- HT_INIT writes the tree builder's elements and takes the mark off the code book (`42_tree.md` R162). -/
theorem loadQueue_treeOnly (e : Engine) : TreeOnly (setCbDone false e) (loadQueue e) := by
  rw [loadQueue_eq]
  have hunloaded : TreeOnly (setCbDone false e) (unloaded e) := rfl
  exact (hunloaded.trans (insertAll_queueOnly _ _).treeOnly).trans (finalize_treeOnly _)

/-- The node HT_STEP makes of the two least live nodes (`42_tree.md` R163): the first extracted is the left child. -/
def joinedNode (e : Engine) : NodeRec :=
  { freq := freq e (pqTop e) + freq e (pqTop (pqRemove e)), left := pqTop e, right := pqTop (pqRemove e) }

/-- The block with that node in the arena and its children out of the queue, before it is queued itself. -/
def joined (e : Engine) : Engine :=
  setNn (e.tree.nn + 1#9) (ndSet (pqRemove (pqRemove e)) e.tree.nn.toNat (joinedNode e))

/-- HT_STEP joins the two least nodes, queues the new node and looks whether the build is over (`42_tree.md` R163). -/
theorem mergeTwo_eq (e : Engine) : mergeTwo e = finalize (pqInsert e.tree.nn (joined e)) := by
  have hfreq : freq (pqRemove (pqRemove e)) = freq e := (pqRemove_twice_queueOnly e).freq
  simp only [mergeTwo, joined, joinedNode, hfreq]

theorem joined_treeOnly (e : Engine) : TreeOnly e (joined e) :=
  (pqRemove_twice_queueOnly e).treeOnly.trans rfl

theorem joined_rootValid (e : Engine) : (joined e).tree.rootValid = e.tree.rootValid :=
  (pqRemove_twice_queueOnly e).rootValid

theorem joined_get (e : Engine) (i : Nat) :
    ndGet (joined e) i = if i = e.tree.nn.toNat then joinedNode e else ndGet e i := by
  have hnd : ndGet (pqRemove (pqRemove e)) i = ndGet e i := by rw [ndGet, ndGet, (pqRemove_twice_queueOnly e).nd]
  rw [← hnd]
  exact ndGet_ndSet _ _ _ _

/-- HT_STEP writes the tree builder's elements alone (`42_tree.md` R163). -/
theorem mergeTwo_treeOnly (e : Engine) : TreeOnly e (mergeTwo e) := by
  rw [mergeTwo_eq]
  exact ((joined_treeOnly e).trans (pqInsert_queueOnly _ _).treeOnly).trans (finalize_treeOnly _)

end Sys2Proof.Machine
end

-- ==== Proofs: the ports' registers and the fault flags ====
section
namespace Sys2Proof.Machine

/-! ### What the ports need while a command runs -/

/-- The writer and the reader are in order and no fault is taken: what a command's procedure keeps of `PortInv`. -/
structure PortsReady (s : State) : Prop where
  writer : WriterOk s.eng.bw
  reader : ReaderOk s
  fault : s.eng.stat.fault = false
  err : s.eng.stat.err = 0#3
  incomplete : s.eng.stat.incomplete = false

/-- Without a fault the flags say so: no code, nothing incomplete (`10_state.md` R40). -/
theorem faultFlagsOk_ready {e : Engine} (h : e.stat.fault = false) :
    faultFlagsOk e = true ↔ e.stat.err = 0#3 ∧ e.stat.incomplete = false := by
  simp [faultFlagsOk, h]

theorem portsReady_of_inv {s : State} (h : PortInv s) (hr : Ready s) : PortsReady s := by
  obtain ⟨hw, hrd, hflags⟩ := h
  obtain ⟨herr, hinc⟩ := (faultFlagsOk_ready hr).mp hflags
  exact ⟨hw, hrd, hr, herr, hinc⟩

namespace PortsReady

variable {s t : State}

/-- The ports' invariant speaks of the two streams' registers, the fault flags and the source position alone. -/
theorem of_eq (h : PortsReady s) (hbw : t.eng.bw = s.eng.bw) (hbr : t.eng.br = s.eng.br)
    (hstat : t.eng.stat = s.eng.stat) (henv : t.env = s.env) : PortsReady t := by
  obtain ⟨hw, hr, hf, he, hi⟩ := h
  refine ⟨hbw ▸ hw, ?_, hstat ▸ hf, hstat ▸ he, hstat ▸ hi⟩
  rw [ReaderOk, hbr, henv]
  exact hr

/-- A call leaves the registers and keeps the source position within the source. -/
theorem withEnv (h : PortsReady s) {v : Env} (hv : v.srcPos ≤ v.src.length) : PortsReady { s with env := v } :=
  ⟨h.writer, ⟨h.reader.1, h.reader.2.1, hv⟩, h.fault, h.err, h.incomplete⟩

theorem asked (h : PortsReady s) : PortsReady (asked s) := h.withEnv h.reader.2.2

theorem withWriter (h : PortsReady s) {w : BitWriter} (hw : WriterOk w) :
    PortsReady { s with eng := { s.eng with bw := w } } := ⟨hw, h.reader, h.fault, h.err, h.incomplete⟩

theorem withReader (h : PortsReady s) {r : BitReader} (hpos : r.pos.toNat ≤ 8) (heos : r.eos = true → r.pos = 8#4) :
    PortsReady { s with eng := { s.eng with br := r } } :=
  ⟨h.writer, ⟨hpos, heos, h.reader.2.2⟩, h.fault, h.err, h.incomplete⟩

end PortsReady

/-! ### The bit writer (`10_state.md` R34) -/

/-- A writer with no bit waiting is in order. -/
theorem writerOk_empty (b : Bool) : WriterOk { buf := 0#8, cnt := 0#3, isOpen := b } :=
  ⟨Nat.one_pos, fun _ => rfl⟩

theorem writerOk_close {w : BitWriter} (h : WriterOk w) (hc : w.cnt = 0#3) (b : Bool) :
    WriterOk { w with isOpen := b } := ⟨h.1, fun _ => hc⟩

/-- A bit that enters at bit 0 leaves nothing above the waiting bits (`40_bitio.md` R121). -/
theorem writerOk_holdBit {w : BitWriter} (h : WriterOk w) (ho : w.isOpen = true) (h7 : w.cnt ≠ 7#3) (b : Bool) :
    WriterOk { buf := (w.buf <<< 1) ||| lowBit b, cnt := w.cnt + 1#3, isOpen := w.isOpen } := by
  refine ⟨?_, fun hc => by simp [ho] at hc⟩
  have hcnt : (w.cnt + 1#3).toNat = w.cnt.toNat + 1 := by
    have hlt := w.cnt.isLt
    have hne : w.cnt.toNat ≠ 7 := fun hc => h7 (BitVec.eq_of_toNat_eq hc)
    rw [BitVec.toNat_add]
    simp
    omega
  have hshift : (w.buf <<< 1).toNat < 2 ^ (w.cnt.toNat + 1) := by
    have hbuf := h.1
    rw [BitVec.toNat_shiftLeft, Nat.shiftLeft_eq, pow_succ]
    exact lt_of_le_of_lt (Nat.mod_le _ _) (by omega)
  have hlow : (lowBit b).toNat < 2 ^ (w.cnt.toNat + 1) :=
    calc (lowBit b).toNat < 2 := by cases b <;> decide
      _ ≤ 2 ^ (w.cnt.toNat + 1) := Nat.le_self_pow (Nat.succ_ne_zero _) 2
  rw [hcnt, BitVec.toNat_or]
  exact Nat.or_lt_two_pow hshift hlow

/-! ### The primitives and the transfers -/

/-- `Leads` for what the ports need, at both ends. -/
abbrev PortsKept {ε α : Type} (p : EStateM ε State α) : Prop := Leads PortsReady PortsReady PortsReady p

theorem srcOpenCall_portsKept : PortsKept srcOpenCall := by
  intro s h
  rw [run_srcOpenCall]
  cases nextAnswerOf s with
  | normal => exact h.withEnv (Nat.zero_le _)
  | _ => exact h.asked

theorem srcReadCall_portsKept : PortsKept srcReadCall := by
  intro s h
  rw [run_srcReadCall]
  cases nextAnswerOf s with
  | normal =>
    cases hb : s.env.src[s.env.srcPos]? with
    | none => exact h.asked
    | some b => exact h.withEnv (List.getElem?_eq_some_iff.mp hb).1
  | _ => exact h.asked

theorem snkOpenCall_portsKept : PortsKept snkOpenCall := by
  intro s h
  rw [run_snkOpenCall]
  cases nextAnswerOf s with
  | normal => exact h.withEnv h.reader.2.2
  | _ => exact h.asked

theorem snkWriteCall_portsKept (b : Byte) : PortsKept (snkWriteCall b) := by
  intro s h
  rw [run_snkWriteCall]
  cases nextAnswerOf s with
  | normal => exact h.withEnv h.reader.2.2
  | _ => exact h.asked

theorem releaseSource_portsKept : PortsKept releaseSource := by
  intro s h
  rw [run_releaseSource]
  split
  · cases nextAnswerOf s with
    | normal => exact h.asked.withReader h.reader.1 h.reader.2.1
    | ioErr => exact h.asked.withReader h.reader.1 h.reader.2.1
    | _ => exact h.asked
  · exact h

/-- What the ports need, with no bit waiting: where the sink may be closed. -/
def PortsFlushed (s : State) : Prop := PortsReady s ∧ s.eng.bw.cnt = 0#3

theorem snkCloseCall_flushed : Leads PortsFlushed PortsFlushed PortsReady snkCloseCall := by
  rintro s ⟨h, hc⟩
  rw [run_snkCloseCall]
  cases nextAnswerOf s with
  | normal => exact ⟨h.withEnv h.reader.2.2, hc⟩
  | ioErr => exact ⟨h.withEnv h.reader.2.2, hc⟩
  | _ => exact h.asked

theorem setSnkOpen_flushed : Leads PortsFlushed PortsReady PortsReady (modEng (setSnkOpen false)) :=
  Leads.modEng fun _ ⟨h, hc⟩ => h.withWriter (writerOk_close h.writer hc false)

theorem flushByte_flushed (v : Byte) : Leads PortsReady PortsFlushed PortsReady (flushByte v) := by
  intro s h
  rw [run_flushByte]
  cases nextAnswerOf s with
  | normal =>
    have hsent := h.withEnv (v := { afterCalls 1 s.env with snk := s.env.snk ++ [v] }) h.reader.2.2
    exact ⟨hsent.withWriter (writerOk_empty s.eng.bw.isOpen), rfl⟩
  | _ => exact h.asked

theorem flushPadded_flushed : Leads PortsReady PortsFlushed PortsReady flushPadded := by
  refine Leads.getEng_bind fun e => ?_
  split
  · rename_i hc
    exact Leads.pure (by rintro s ⟨h, rfl⟩; exact ⟨h, hc⟩) _
  · exact ((flushByte_flushed _).of_pre fun _ h => h.1).bind fun _ => Leads.done _

theorem writeBit_portsKept (b : Bool) : PortsKept (writeBit b) := by
  intro s h
  rw [run_writeBit]
  split
  · rename_i ho
    split
    · have hf := flushByte_flushed ((s.eng.bw.buf <<< 1) ||| lowBit b)
      exact hf.mono_post (fun _ hs => hs.1) s h
    · rename_i h7
      exact h.withWriter (writerOk_holdBit h.writer ho h7 b)
  · exact h

theorem readBit_portsKept : PortsKept readBit := by
  intro s h
  obtain ⟨hpos, heos, -⟩ := h.reader
  rw [run_readBit]
  split
  · exact h
  · rename_i he
    split
    · rename_i h8
      split
      · cases nextAnswerOf s with
        | normal =>
          cases hb : s.env.src[s.env.srcPos]? with
          | none => exact h.asked.withReader hpos fun _ => h8
          | some b =>
            have hv := (List.getElem?_eq_some_iff.mp hb).1
            exact (h.withEnv (v := { afterCalls 1 s.env with srcPos := s.env.srcPos + 1 }) hv).withReader
              (r := { s.eng.br with buf := b, pos := 1#4 }) (by decide : (1#4).toNat ≤ 8) fun hc => absurd hc he
        | _ => exact h.asked
      · exact h
    · rename_i h8
      have hne : s.eng.br.pos.toNat ≠ 8 := fun hc => h8 (BitVec.eq_of_toNat_eq hc)
      have hnext : (s.eng.br.pos + 1#4).toNat ≤ 8 := by
        rw [BitVec.toNat_add]
        simp
        omega
      exact h.withReader (r := { s.eng.br with pos := s.eng.br.pos + 1#4 }) hnext fun hc => absurd hc he

theorem srcByte_portsKept : PortsKept srcByte := by
  refine Leads.read fun e => Leads.require_bind (fun _ h => h) fun _ => srcReadCall_portsKept.call.bind fun r => ?_
  cases r with
  | byte b => exact Leads.done _
  | eos => exact Leads.done _
  | ioErr => exact Leads.raise (fun _ h => h) _

theorem sinkByte_portsKept (b : Byte) : PortsKept (sinkByte b) :=
  Leads.read fun _ => Leads.require_bind (fun _ h => h) fun _ => (snkWriteCall_portsKept b).call.bind fun _ =>
    Leads.require (fun _ h => h) _ _

theorem pSrcOpen_portsKept : PortsKept pSrcOpen :=
  Leads.read fun _ => Leads.require_bind (fun _ h => h) fun _ => srcOpenCall_portsKept.call.bind fun _ =>
    Leads.require_bind (fun _ h => h) fun _ =>
    Leads.modEng_bind (fun _ h => h.withReader (by decide : (8#4).toNat ≤ 8) fun _ => rfl) <| Leads.done _

theorem pSrcClose_portsKept : PortsKept pSrcClose :=
  releaseSource_portsKept.call.bind fun _ => Leads.done _

theorem pSnkOpen_portsKept : PortsKept pSnkOpen :=
  Leads.read fun _ => Leads.require_bind (fun _ h => h) fun _ => snkOpenCall_portsKept.call.bind fun _ =>
    Leads.require_bind (fun _ h => h) fun _ =>
    Leads.modEng_bind (fun _ h => h.withWriter (writerOk_empty true)) <| Leads.done _

/-- The end of SNK_CLOSE and BW_CLOSE (`46_control.md` R246, `40_bitio.md` R123). -/
theorem closeSink_portsKept (v : U32) :
    Leads PortsFlushed PortsReady PortsReady (do
      let ok ← call snkCloseCall
      modEng (setSnkOpen false)
      require ok .ioUnavailable
      pure v) :=
  snkCloseCall_flushed.call.bind fun _ => setSnkOpen_flushed.bind fun _ =>
    Leads.require_bind (fun _ h => h) fun _ => Leads.done _

theorem pSnkClose_portsKept : PortsKept pSnkClose := by
  refine Leads.read fun e => ?_
  split
  · have hclear : Leads PortsReady PortsFlushed PortsReady (modEng clearWriter) :=
      Leads.modEng fun _ h => ⟨h.withWriter (writerOk_empty _), rfl⟩
    exact hclear.bind fun _ => closeSink_portsKept _
  · exact Leads.done _

theorem pBwClose_portsKept : PortsKept pBwClose :=
  Leads.read fun _ => Leads.require_bind (fun _ h => h) fun _ =>
    flushPadded_flushed.bind fun pad => closeSink_portsKept pad

/-! ### The invariant of the ports -/

theorem units_keep_ports : UnitsKeep PortsReady PortsReady where
  stop := fun _ h => h
  srcOpen := pSrcOpen_portsKept
  srcClose := pSrcClose_portsKept
  snkOpen := pSnkOpen_portsKept
  snkClose := pSnkClose_portsKept
  bwClose := pBwClose_portsKept
  writeBit := writeBit_portsKept
  readBit := readBit_portsKept
  srcByte := srcByte_portsKept
  sinkByte := sinkByte_portsKept
  ftClr := Leads.modEng_bind (fun _ h => h.of_eq rfl rfl rfl rfl) (Leads.done _)
  ftInc := fun a => Leads.read fun _ => Leads.require_bind (fun _ h => h) fun _ =>
    Leads.modEng_bind (fun _ h => h.of_eq rfl rfl rfl rfl) (Leads.done _)
  htInit := (Leads.modEng fun s h =>
      have hl := loadQueue_treeOnly s.eng
      h.of_eq hl.bw hl.br hl.stat rfl).bind fun _ => Leads.read fun _ => Leads.done _
  htStep := Leads.read fun _ => Leads.require_bind (fun _ h => h) fun _ =>
    (Leads.modEng fun s h =>
      have hm := mergeTwo_treeOnly s.eng
      h.of_eq hm.bw hm.br hm.stat rfl).bind fun _ => Leads.done _
  cbBuild := by
    refine Leads.read fun e => Leads.require_bind (fun _ h => h) fun _ => ?_
    cases buildBook e with
    | none => exact Leads.stuck (fun _ h => h) _
    | some b => exact Leads.modEng_bind (fun _ h => h.of_eq rfl rfl rfl rfl) (Leads.done _)
  hdrRd := Leads.hdrRd (H := PortsReady) (fun _ h => h) (fun _ h => h.of_eq rfl rfl rfl rfl) readBit_portsKept
    (fun _ _ _ _ h => h.of_eq rfl rfl rfl rfl) (fun _ _ h => h.of_eq rfl rfl rfl rfl)
    (fun _ h _ => h.of_eq rfl rfl rfl rfl)
  cursor := fun _ _ h => h.of_eq rfl rfl rfl rfl

theorem releasedWriter_closed (w : BitWriter) : (releasedWriter w).isOpen = false := by
  cases h : w.isOpen <;> simp [releasedWriter, h]

theorem releasedWriter_ok {w : BitWriter} (h : WriterOk w) : WriterOk (releasedWriter w) := by
  unfold releasedWriter
  split
  · exact writerOk_empty false
  · exact h

/-- The flags of a fault just taken (`60_exceptions.md` R262), both streams closed (`20_memory.md` R89). -/
theorem faultFlagsOk_faultState (k : FaultKind) (s : State) : faultFlagsOk (faultState k s).eng = true := by
  have hcode : k.code != 0#3 ∧ (decide (k = .truncatedStream) == (k.code == 3#3)) = true := by
    cases k <;> decide
  simp [faultFlagsOk, faultState, releasedWriter_closed, hcode]

theorem SourceStays.inRange {v w : Env} (h : SourceStays v w) (hv : v.srcPos ≤ v.src.length) :
    w.srcPos ≤ w.src.length := by
  rcases h with ⟨hsrc, hpos⟩ | hpos
  · rwa [hsrc, hpos]
  · rw [hpos]
    exact Nat.zero_le _

theorem portInv_keptBySteps : KeptBySteps PortInv PortsReady PortsReady where
  start := fun _ h hr => portsReady_of_inv h hr
  units := units_keep_ports
  answered := fun v s h =>
    ⟨h.writer, h.reader, (faultFlagsOk_ready (e := (answeredOk v s).eng) h.fault).mpr ⟨h.err, h.incomplete⟩⟩
  faulted := fun k s h => ⟨releasedWriter_ok h.writer, h.reader, faultFlagsOk_faultState k s⟩
  idle := by
    rintro s u ⟨hw, ⟨hpos, heos, hsrc⟩, hflags⟩ he hv
    rw [PortInv, ReaderOk, he]
    exact ⟨hw, ⟨hpos, heos, hv.inRange hsrc⟩, hflags⟩
  reset := by
    intro s u h he hv
    have hsrc : s.env.srcPos ≤ s.env.src.length := h.elim (fun h => h.2.1.2.2) fun h => h.reader.2.2
    exact portInv_reset he (hv.inRange hsrc)

/-- Settles O59: each transfer keeps the two streams' registers in order, the tables' units touch none of them, and a
fault that is taken sets its flags and closes both streams. -/
theorem stepKeepsPortInvariant : Obligations.StepKeepsPortInvariant :=
  fun _ _ hs hstep => portInv_keptBySteps.step hs hstep

end Sys2Proof.Machine
end

-- ==== Proofs: the queue in any state ====
section
namespace Sys2Proof.Machine

/-! ### Sifting without the heap property

`siftUp_sifted` and `siftDown_sifted` ask for distinct nodes in a heap; that the entries stay the same ones and the
table canonical holds of every queue. -/

/-- The first entries are the same ones in another order, and the table is canonical if it was. -/
structure Rearranged (pq r : Table Node) (n : Nat) : Prop where
  perm : (entries r n).Perm (entries pq n)
  wf : n ≤ 256 → tableOk 0#9 256 0 pq = true → tableOk 0#9 256 0 r = true

theorem Rearranged.refl (pq : Table Node) (n : Nat) : Rearranged pq pq n := ⟨.refl _, fun _ h => h⟩

theorem Rearranged.of_swap {pq r : Table Node} {n k p : Nat} (hk : k < n) (hp : p < n)
    (h : Rearranged (pqSwap pq k p) r n) : Rearranged pq r n :=
  ⟨h.perm.trans (entries_swap pq hk hp), fun hn hw => h.wf hn (pqSwap_wf hk hp hn hw)⟩

theorem siftUp_rearranged (e : Engine) {n : Nat} (fuel k : Nat) (pq : Table Node) (hk : k < n) :
    Rearranged pq (siftUp e fuel k pq) n := by
  induction fuel generalizing k pq with
  | zero => exact .refl _ _
  | succ fuel ih =>
    rw [siftUp]
    split
    · exact .refl _ _
    · have hp : (k - 1) / 2 < n := by omega
      split
      · exact .of_swap hk hp (ih _ _ hp)
      · exact .refl _ _

theorem leastChild_lt (e : Engine) {n k : Nat} (pq : Table Node) (hk : k < n) : leastChild e n k pq < n := by
  unfold leastChild
  extract_lets l r c
  have hc : c < n := by
    by_cases hl : (decide (l < n) && less e (pqGet pq l) (pqGet pq k)) = true
    · rw [show c = l from if_pos hl]
      exact of_decide_eq_true (Bool.and_eq_true_iff.mp hl).1
    · rwa [show c = k from if_neg hl]
  split
  · rename_i hr
    exact of_decide_eq_true (Bool.and_eq_true_iff.mp hr).1
  · exact hc

theorem siftDown_rearranged (e : Engine) {n : Nat} (fuel k : Nat) (pq : Table Node) (hk : k < n) :
    Rearranged pq (siftDown e n fuel k pq) n := by
  induction fuel generalizing k pq with
  | zero => exact .refl _ _
  | succ fuel ih =>
    rw [siftDown]
    split
    · exact .refl _ _
    · have hc := leastChild_lt e pq hk
      exact .of_swap hk hc (ih _ _ hc)

/-! ### The live entries -/

/-- The queue is canonical and within its capacity, and each live node is one of `N`. -/
structure QueueWithin (N : Node → Prop) (e : Engine) : Prop where
  size : e.tree.pqN.toNat ≤ 256
  wf : tableOk 0#9 256 0 e.tree.pq = true
  nodes : ∀ x ∈ live e, N x

theorem queueOk_iff (e : Engine) :
    QueueOk e ↔ e.tree.pqN.toNat ≤ 256 ∧ ∀ x ∈ live e, x.toNat < e.tree.nn.toNat := by
  simp [QueueOk, live]

variable {N : Node → Prop} {e : Engine}

/-- `PqInsert` adds one live node (`42_tree.md` R159). -/
theorem QueueWithin.insert (h : QueueWithin N e) {x : Node} (hx : N x) (hn : e.tree.pqN.toNat < 256) :
    QueueWithin N (pqInsert x e) ∧ (pqInsert x e).tree.pqN.toNat = e.tree.pqN.toNat + 1 := by
  have hn1 : (pqInsert x e).tree.pqN.toNat = e.tree.pqN.toNat + 1 := by
    change (e.tree.pqN + 1#9).toNat = _
    rw [BitVec.toNat_add]
    simp
    omega
  have hsift := siftUp_rearranged e e.tree.pqN.toNat e.tree.pqN.toNat (pqSet e.tree.pq e.tree.pqN.toNat x)
    (Nat.lt_succ_self _)
  refine ⟨⟨hn1 ▸ hn, hsift.wf hn (pqOk_set h.wf hn x), fun y hy => ?_⟩, hn1⟩
  rw [live_eq, hn1] at hy
  obtain ⟨i, hi, rfl⟩ := mem_entries.mp (hsift.perm.mem_iff.mp hy)
  rw [pqGet_pqSet]
  split
  · exact hx
  · exact h.nodes _ (mem_entries.mpr ⟨i, by omega, rfl⟩)

/-- The top of a queue that is not empty is one of its live nodes. -/
theorem QueueWithin.top (h : QueueWithin N e) (hn : 1 ≤ e.tree.pqN.toNat) : N (pqTop e) :=
  h.nodes _ (mem_entries.mpr ⟨0, hn, rfl⟩)

/-- `PqExtract` takes one live node away (`42_tree.md` R160). -/
theorem QueueWithin.remove (h : QueueWithin N e) (hn : 1 ≤ e.tree.pqN.toNat) :
    QueueWithin N (pqRemove e) ∧ (pqRemove e).tree.pqN.toNat = e.tree.pqN.toNat - 1 := by
  have hsize := h.size
  have hn1 : (e.tree.pqN - 1#9).toNat = e.tree.pqN.toNat - 1 := by
    rw [BitVec.toNat_sub]
    simp
    omega
  by_cases h0 : e.tree.pqN - 1#9 = 0#9
  · have heq : pqRemove e = setQueue e.tree.pq (e.tree.pqN - 1#9) e := by simp only [pqRemove, h0, if_true]
    rw [heq]
    refine ⟨⟨hn1 ▸ by omega, h.wf, fun y hy => ?_⟩, hn1⟩
    rw [live_eq, setQueue_tree, h0] at hy
    exact absurd hy List.not_mem_nil
  · have heq : pqRemove e = setQueue (siftDown e (e.tree.pqN - 1#9).toNat (e.tree.pqN - 1#9).toNat 0
        (pqSet e.tree.pq 0 (pqGet e.tree.pq (e.tree.pqN - 1#9).toNat))) (e.tree.pqN - 1#9) e := by
      simp only [pqRemove, if_neg h0]
    have hpos : 0 < (e.tree.pqN - 1#9).toNat :=
      Nat.pos_of_ne_zero fun hz => h0 (BitVec.eq_of_toNat_eq hz)
    have hsift := siftDown_rearranged e (e.tree.pqN - 1#9).toNat 0
      (pqSet e.tree.pq 0 (pqGet e.tree.pq (e.tree.pqN - 1#9).toNat)) hpos
    rw [heq]
    refine ⟨⟨hn1 ▸ by omega, hsift.wf (by omega) (pqOk_set h.wf (by omega) _), fun y hy => ?_⟩, hn1⟩
    obtain ⟨i, hi, rfl⟩ := mem_entries.mp (hsift.perm.mem_iff.mp hy)
    rw [pqGet_pqSet]
    split
    · exact h.nodes _ (mem_entries.mpr ⟨_, by omega, rfl⟩)
    · exact h.nodes _ (mem_entries.mpr ⟨i, by omega, rfl⟩)

/-- Nodes inserted in order fill the queue one by one. -/
theorem QueueWithin.insertAll {xs : List Node} (h : QueueWithin N e) (hxs : ∀ x ∈ xs, N x)
    (hn : e.tree.pqN.toNat + xs.length ≤ 256) :
    QueueWithin N (insertAll xs e) ∧ (insertAll xs e).tree.pqN.toNat = e.tree.pqN.toNat + xs.length := by
  induction xs generalizing e with
  | nil => exact ⟨h, rfl⟩
  | cons x xs ih =>
    obtain ⟨hx, hrest⟩ := List.forall_mem_cons.mp hxs
    rw [List.length_cons] at hn
    obtain ⟨h1, hn1⟩ := h.insert hx (by omega)
    obtain ⟨h2, hn2⟩ := ih h1 hrest (by omega)
    exact ⟨h2, by rw [List.length_cons]; exact hn2.trans (by omega)⟩

/-! ### The leaves HT_INIT places -/

theorem mem_leaves {e : Engine} {n : Node} : n ∈ leaves e ↔ ∃ x, x < 256 ∧ ftGet e x ≠ 0#32 ∧ leafOf x = n := by
  simp [leaves, Config.nSym, and_assoc]

theorem leafOf_toNat {x : Nat} (h : x < 256) : (leafOf x).toNat = x := by
  rw [leafOf, BitVec.toNat_ofNat]
  omega

theorem leaves_lt {e : Engine} {n : Node} (h : n ∈ leaves e) : n.toNat < 256 := by
  obtain ⟨x, hx, -, rfl⟩ := mem_leaves.mp h
  rwa [leafOf_toNat hx]

theorem leaves_length (e : Engine) : (leaves e).length ≤ 256 := by
  rw [leaves, List.length_map]
  exact (List.length_filter_le _ _).trans_eq List.length_range

end Sys2Proof.Machine
end

-- ==== Proofs: the code book of a walk through the tree ====
section
namespace Sys2Proof.Machine

/-- What the traversal from node `n`, reached by `path`, makes of a book (`43_codebook.md` R181): its new codes are
`path` and the branches from `n` to the symbol's leaf, at most `d` of them, and every leaf below `n` has a code. -/
structure Walked (e : Engine) (d : Nat) (n : Node) (path : List Bool) (b b' : Book) : Prop where
  wf : tableOk none 256 0 b.cb = true → tableOk none 256 0 b'.cb = true
  codes : ∀ x c, tableGet none b'.cb x = some c → tableGet none b.cb x = some c ∨
    ∃ q, c = path ++ q ∧ q.length ≤ d ∧ x < 256 ∧ follow e n q = some (leafOf x)
  keeps : ∀ x, (tableGet none b.cb x).isSome = true → (tableGet none b'.cb x).isSome = true
  covers : ∀ x q, x < 256 → follow e n q = some (leafOf x) → (tableGet none b'.cb x).isSome = true

theorem isLeaf_iff (n : Node) : isLeaf n = true ↔ n.toNat < 256 := decide_eq_true_iff

theorem isLeaf_leafOf {x : Nat} (h : x < 256) : isLeaf (leafOf x) = true := by
  rwa [isLeaf_iff, leafOf_toNat h]

theorem leafOf_of_toNat (n : Node) : leafOf n.toNat = n := BitVec.eq_of_toNat_eq (by simp [leafOf])

variable {e : Engine} {d : Nat} {n : Node} {path : List Bool} {b b1 b2 : Book}

theorem recordCode_get (n : Node) (path : List Bool) (b : Book) (x : Nat) :
    tableGet none (recordCode n path b).cb x = if x = n.toNat then some path else tableGet none b.cb x := by
  rw [recordCode]
  exact tableGet_set none b.cb n.toNat x (some path)

/-- At a leaf the path is recorded as its code. -/
theorem Walked.leaf (hn : isLeaf n = true) : Walked e d n path b (recordCode n path b) where
  wf := fun h => wf_recordCode h ((isLeaf_iff n).mp hn) path
  codes := by
    intro x c hc
    rw [recordCode_get] at hc
    split at hc
    · rename_i hx
      cases hc
      exact .inr ⟨[], (List.append_nil _).symm, Nat.zero_le _, hx ▸ (isLeaf_iff n).mp hn, by
        rw [hx, leafOf_of_toNat, follow_nil]⟩
    · exact .inl hc
  keeps := by
    intro x hx
    rw [recordCode_get]
    split
    · rfl
    · exact hx
  covers := by
    intro x q hx hq
    cases q with
    | nil =>
      cases hq
      rw [recordCode_get, if_pos (leafOf_toNat hx).symm]
      rfl
    | cons bit q => rw [follow_leaf hn] at hq; cases hq

/-- At an internal node the left subtree is walked first, then the right. -/
theorem Walked.node (hn : isLeaf n = false)
    (hl : Walked e d (childOf e n false) (path ++ [false]) b b1)
    (hr : Walked e d (childOf e n true) (path ++ [true]) b1 b2) : Walked e (d + 1) n path b b2 where
  wf := fun h => hr.wf (hl.wf h)
  codes := by
    have below : ∀ (bit : Bool) (q : List Bool) (x : Nat), follow e (childOf e n bit) q = some (leafOf x) →
        follow e n (bit :: q) = some (leafOf x) := fun bit q x h => by simpa [follow, hn] using h
    intro x c hc
    rcases hr.codes x c hc with hc1 | ⟨q, rfl, hq, hx, hf⟩
    · rcases hl.codes x c hc1 with hc0 | ⟨q, rfl, hq, hx, hf⟩
      · exact .inl hc0
      · exact .inr ⟨false :: q, List.append_assoc .., Nat.succ_le_succ hq, hx, below _ _ _ hf⟩
    · exact .inr ⟨true :: q, List.append_assoc .., Nat.succ_le_succ hq, hx, below _ _ _ hf⟩
  keeps := fun x hx => hr.keeps x (hl.keeps x hx)
  covers := by
    intro x q hx hq
    cases q with
    | nil =>
      cases hq
      rw [isLeaf_leafOf hx] at hn
      cases hn
    | cons bit q =>
      rw [follow, hn] at hq
      cases bit with
      | false => exact hr.keeps x (hl.covers x q hx hq)
      | true => exact hr.covers x q hx hq

theorem codeWalk_walked (h : codeWalk e d n path b = some b1) : Walked e d n path b b1 := by
  induction d generalizing n path b b1 with
  | zero =>
    rw [codeWalk] at h
    split at h
    · cases h
      exact .leaf ‹_›
    · cases h
  | succ d ih =>
    rw [codeWalk] at h
    split at h
    · cases h
      exact .leaf ‹_›
    · rename_i hn
      split at h
      · cases h
      · rename_i b' hb'
        exact .node (by simpa using hn) (ih hb') (ih h)

/-- The whole book: canonical, no code longer than 255 bits, and the book of the tree (`43_codebook.md` R180). -/
theorem buildBook_spec (h : buildBook e = some b) :
    tableOk none 256 0 b.cb = true ∧ (∀ x c, tableGet none b.cb x = some c → c.length ≤ 255) ∧
      BookMatchesTree (setBook b.cb e) := by
  have htree : ∀ x path, IsPath (setBook b.cb e) x path ↔ IsPath e x path := fun x path => by
    rw [IsPath, IsPath, follow_congr (e := setBook b.cb e) (e' := e) rfl]
    rfl
  unfold buildBook at h
  split at h
  · rename_i hv
    obtain ⟨hwf, hcodes, -, hcovers⟩ := codeWalk_walked h
    have hpath : ∀ x c, tableGet none b.cb x = some c → c.length ≤ 255 ∧ x < 256 ∧ IsPath e x c := by
      intro x c hc
      rcases hcodes x c hc with h0 | ⟨q, rfl, hq, hx, hf⟩
      · cases h0
      · exact ⟨hq, hx, hf⟩
    refine ⟨hwf rfl, fun x c hc => (hpath x c hc).1, fun x c hc => ?_, fun x c hx _ hp => ?_⟩
    · obtain ⟨-, hx, hp⟩ := hpath x c hc
      exact ⟨hx, hv, (htree x c).mpr hp⟩
    · exact hcovers x c hx ((htree x c).mp hp)
  · rename_i hv
    cases h
    have hnone : ∀ x (c : List Bool), tableGet none [] x ≠ some c := fun x c hc => by cases hc
    exact ⟨rfl, fun x c hc => absurd hc (hnone x c), fun x c hc => absurd hc (hnone x c),
      fun x c _ hv' _ => absurd hv' hv⟩

end Sys2Proof.Machine
end

-- ==== Proofs: invariants of the tables ====
section
namespace Sys2Proof.Machine

/-! ### Streams leave the tables alone -/

/-- The counts, the tree and the code book are the same. -/
def SameTables (e f : Engine) : Prop := f.scan = e.scan ∧ f.tree = e.tree ∧ f.book = e.book

theorem SameTables.refl (e : Engine) : SameTables e e := ⟨rfl, rfl, rfl⟩

/-- The procedure leaves the counts, the tree and the code book as they were, however it ends. -/
abbrev TablesUntouched {ε α : Type} (p : EStateM ε State α) : Prop :=
  ∀ e, Leads (fun s => SameTables e s.eng) (fun s => SameTables e s.eng) (fun s => SameTables e s.eng) p

theorem TablesUntouched.leads {ε α : Type} {p : EStateM ε State α} (hp : TablesUntouched p) {P Q : Engine → Prop}
    (hP : ∀ e f, SameTables e f → P e → P f) (hstop : ∀ e, P e → Q e) :
    Leads (fun s => P s.eng) (fun s => P s.eng) (fun s => Q s.eng) p := by
  intro s hs
  have hsame := hp s.eng s (.refl _)
  cases hr : p s with
  | ok a t => exact hP _ _ (by rwa [hr] at hsame) hs
  | error e t => exact hstop _ (hP _ _ (by rwa [hr] at hsame) hs)

theorem srcOpenCall_tables : TablesUntouched srcOpenCall := by
  intro e s h
  rw [run_srcOpenCall]
  cases nextAnswerOf s <;> exact h

theorem snkOpenCall_tables : TablesUntouched snkOpenCall := by
  intro e s h
  rw [run_snkOpenCall]
  cases nextAnswerOf s <;> exact h

theorem snkCloseCall_tables : TablesUntouched snkCloseCall := by
  intro e s h
  rw [run_snkCloseCall]
  cases nextAnswerOf s <;> exact h

theorem pSrcClose_tables : TablesUntouched pSrcClose := by
  intro e s h
  rw [run_pSrcClose]
  split
  · cases nextAnswerOf s <;> exact h
  · exact h

theorem flushByte_tables (v : Byte) : TablesUntouched (flushByte v) := by
  intro e s h
  rw [run_flushByte]
  cases nextAnswerOf s <;> exact h

theorem writeBit_tables (b : Bool) : TablesUntouched (writeBit b) := by
  intro e s h
  rw [run_writeBit]
  split
  · split
    · exact flushByte_tables _ e s h
    · exact h
  · exact h

theorem readBit_tables : TablesUntouched readBit := by
  intro e s h
  rw [run_readBit]
  split
  · exact h
  · split
    · split
      · cases nextAnswerOf s with
        | normal => cases s.env.src[s.env.srcPos]? <;> exact h
        | _ => exact h
      · exact h
    · exact h

theorem srcByte_tables : TablesUntouched srcByte := by
  intro e s h
  rw [run_srcByte]
  split
  · cases nextAnswerOf s with
    | normal => cases s.env.src[s.env.srcPos]? <;> exact h
    | _ => exact h
  · exact h

theorem sinkByte_tables (b : Byte) : TablesUntouched (sinkByte b) := by
  intro e s h
  rw [run_sinkByte]
  split
  · cases nextAnswerOf s <;> exact h
  · exact h

theorem pSrcOpen_tables : TablesUntouched pSrcOpen := fun e =>
  Leads.read fun _ => Leads.require_bind (fun _ h => h) fun _ => (srcOpenCall_tables e).call.bind fun _ =>
    Leads.require_bind (fun _ h => h) fun _ => Leads.modEng_bind (fun _ h => h) <| Leads.done _

theorem pSnkOpen_tables : TablesUntouched pSnkOpen := fun e =>
  Leads.read fun _ => Leads.require_bind (fun _ h => h) fun _ => (snkOpenCall_tables e).call.bind fun _ =>
    Leads.require_bind (fun _ h => h) fun _ => Leads.modEng_bind (fun _ h => h) <| Leads.done _

theorem pSnkClose_tables : TablesUntouched pSnkClose := by
  refine fun e => Leads.read fun r => ?_
  split
  · exact Leads.modEng_bind (fun _ h => h) <| (snkCloseCall_tables e).call.bind fun _ =>
      Leads.modEng_bind (fun _ h => h) <| Leads.require_bind (fun _ h => h) fun _ => Leads.done _
  · exact Leads.done _

theorem flushPadded_tables : TablesUntouched flushPadded := by
  refine fun e => Leads.read fun r => ?_
  split
  · exact Leads.done _
  · exact (flushByte_tables _ e).bind fun _ => Leads.done _

theorem pBwClose_tables : TablesUntouched pBwClose := fun e =>
  Leads.read fun _ => Leads.require_bind (fun _ h => h) fun _ => (flushPadded_tables e).bind fun _ =>
    (snkCloseCall_tables e).call.bind fun _ => Leads.modEng_bind (fun _ h => h) <|
    Leads.require_bind (fun _ h => h) fun _ => Leads.done _

/-! ### A claim about the tables, from their operations -/

/-- Claims about the counts, the tree and the code book that every operation on them keeps: `P` between the commands'
parts, `H` while a header is read into the counts, `Q` where a command stops. -/
structure TablesKeep (P H Q : Engine → Prop) : Prop where
  same : ∀ e f, SameTables e f → (P e → P f) ∧ (H e → H f) ∧ (Q e → Q f)
  stop : ∀ e, P e ∨ H e → Q e
  clear : ∀ e, P e → P (clearTable e)
  count : ∀ e a, P e → e.scan.total ≠ Config.maxTotal → P (countSymbol a e)
  load : ∀ e, P e → P (loadQueue e)
  merge : ∀ e, P e → e.tree.phase = .merging → P (mergeTwo e)
  build : ∀ e b, P e → e.tree.phase = .done → buildBook e = some b → P (setBook b.cb e)
  drop : ∀ e, P e → H (treeDropped e)
  loadCount : ∀ e x w, x < 256 → H e → H (ftSet e x w)
  loadTotal : ∀ e w, H e → H (setTotal w e)
  agree : ∀ e, H e → ftSum e = e.scan.total.toNat → P e

namespace TablesKeep

variable {I P H Q : Engine → Prop} (h : TablesKeep P H Q)
include h

/-- A stream's procedure keeps them, and stops with `Q`. -/
theorem stream {α : Type} {p : Proc α} (hp : TablesUntouched p) :
    Leads (fun s => P s.eng) (fun s => P s.eng) (fun s => Q s.eng) p :=
  hp.leads (fun e f hs => (h.same e f hs).1) fun e he => h.stop e (.inl he)

theorem units : UnitsKeep (fun s => P s.eng) (fun s => Q s.eng) where
  stop := fun s hs => h.stop _ (.inl hs)
  srcOpen := h.stream pSrcOpen_tables
  srcClose := h.stream pSrcClose_tables
  snkOpen := h.stream pSnkOpen_tables
  snkClose := h.stream pSnkClose_tables
  bwClose := h.stream pBwClose_tables
  writeBit := fun b => h.stream (writeBit_tables b)
  readBit := h.stream readBit_tables
  srcByte := h.stream srcByte_tables
  sinkByte := fun b => h.stream (sinkByte_tables b)
  ftClr := (Leads.modEng fun s hs => h.clear s.eng hs).bind fun _ => Leads.done _
  ftInc := by
    refine fun a => Leads.getEng_bind fun e => Leads.require_bind (fun s hs => h.stop _ (.inl hs.1)) fun hmax => ?_
    have hcount : ∀ s : State, P s.eng ∧ s.eng = e → P (countSymbol a s.eng) := by
      rintro s ⟨hs, rfl⟩
      exact h.count _ a hs (bne_iff_ne.mp hmax)
    exact (Leads.modEng hcount).bind fun _ => Leads.done _
  htInit := (Leads.modEng fun s hs => h.load s.eng hs).bind fun _ => Leads.read fun _ => Leads.done _
  htStep := by
    refine Leads.getEng_bind fun e => Leads.require_bind (fun s hs => h.stop _ (.inl hs.1)) fun hphase => ?_
    have hmerge : ∀ s : State, P s.eng ∧ s.eng = e → P (mergeTwo s.eng) := by
      rintro s ⟨hs, rfl⟩
      exact h.merge _ hs (eq_of_beq hphase)
    exact (Leads.modEng hmerge).bind fun _ => Leads.done _
  cbBuild := by
    refine Leads.getEng_bind fun e => Leads.require_bind (fun s hs => h.stop _ (.inl hs.1)) fun hphase => ?_
    cases hb : buildBook e with
    | none => exact Leads.stuck (fun s hs => h.stop _ (.inl hs.1)) _
    | some b =>
      have hbook : ∀ s : State, P s.eng ∧ s.eng = e → P (setBook b.cb s.eng) := by
        rintro s ⟨hs, rfl⟩
        exact h.build _ b hs (eq_of_beq hphase) hb
      exact (Leads.modEng hbook).bind fun _ => Leads.done _
  hdrRd := Leads.hdrRd (H := fun s => H s.eng) (fun s hs => h.stop _ (.inr hs)) (fun s hs => h.drop _ hs)
    (readBit_tables.leads (fun e f hs => (h.same e f hs).2.1) fun e he => h.stop e (.inr he))
    (fun s x w hx hs => h.loadCount _ x w hx hs) (fun s w hs => h.loadTotal _ w hs)
    (fun s hs hsum => (h.same s.eng (setDecRem s.eng.scan.total s.eng) ⟨rfl, rfl, rfl⟩).1 (h.agree _ hs hsum))
  cursor := fun s d hs => (h.same s.eng { s.eng with dec := d } ⟨rfl, rfl, rfl⟩).1 hs

/-- Such a claim holds after every step. -/
theorem step (start : ∀ e, I e → e.stat.fault = false → P e) (answered : ∀ e, P e → I e)
    (faulted : ∀ e, Q e → e.stat.fault = true → I e) (reset : I Engine.reset) {s t : State} (hs : I s.eng)
    (hstep : step s = .next t) : I t.eng := by
  have hkept : KeptBySteps (fun s => I s.eng) (fun s => P s.eng) (fun s => Q s.eng) :=
    { start := fun s hs hr => start s.eng hs hr
      units := h.units
      answered := fun v s hs => answered _ ((h.same s.eng (answeredOk v s).eng ⟨rfl, rfl, rfl⟩).1 hs)
      faulted := fun k s hs => faulted _ ((h.same s.eng (faultState k s).eng ⟨rfl, rfl, rfl⟩).2.2 hs) rfl
      idle := fun s u hs he _ => he ▸ hs
      reset := fun s u _ he _ => he ▸ reset }
  exact hkept.step hs hstep

end TablesKeep

end Sys2Proof.Machine
end

-- ==== Proofs: the tables, the arena, the queue and their flags ====
section
namespace Sys2Proof.Machine

variable {e f : Engine}

theorem tablesInv_same (hs : SameTables e f) (h : TablesInv e) : TablesInv f := by
  rcases e with ⟨scan, tree, book, bw, br, dec, stat⟩
  rcases f with ⟨scan', tree', book', bw', br', dec', stat'⟩
  obtain ⟨rfl, rfl, rfl⟩ := hs
  exact h

theorem bookOk_same (hs : SameTables e f) (h : BookOk e) : BookOk f := bookOk_congr hs.2.1.symm hs.2.2.symm h

/-! ### The counts -/

theorem tablesInv_ftSet (h : TablesInv e) {x : Nat} (hx : x < 256) (v : U32) : TablesInv (ftSet e x v) := by
  obtain ⟨hwf, hrest⟩ := h
  exact ⟨wf_ftSet hwf hx v, hrest⟩

theorem tablesInv_treeDropped (h : TablesInv e) : TablesInv (treeDropped e) := by
  obtain ⟨hwf, harena, hqueue, -, hcodes⟩ := h
  exact ⟨hwf, harena, hqueue, rfl, hcodes⟩

theorem tablesInv_clearTable (h : TablesInv e) : TablesInv (clearTable e) := by
  obtain ⟨hwf, hrest⟩ := h
  obtain ⟨-, hothers⟩ := (memory_wf_iff e).mp hwf
  have hempty : TablesInv (setTotal 0#32 (setFt [] e)) := ⟨(memory_wf_iff _).mpr ⟨rfl, hothers⟩, hrest⟩
  exact tablesInv_treeDropped hempty

theorem tablesInv_countSymbol (h : TablesInv e) (a : Byte) : TablesInv (countSymbol a e) :=
  tablesInv_treeDropped (e := setTotal (e.scan.total + 1#32) (ftSet e (symIndex a) (ftGet e (symIndex a) + 1#32)))
    (tablesInv_ftSet h a.isLt _)

/-! ### The end of a build step -/

/-- `Finalize` sets the flags in agreement with the queue (`10_state.md` R31, `42_tree.md` R161). -/
theorem phaseOk_finalize (hroot : e.tree.rootValid = false) (hdone : e.book.done = false) :
    phaseOk (finalize e) = true := by
  unfold finalize finalizeWith
  split
  · rename_i h0
    simp [phaseOk, h0]
  · split
    · rename_i h1
      simp [phaseOk, h1, pqTop]
    · rename_i h0 h1
      have hne0 : e.tree.pqN.toNat ≠ 0 := fun h => h0 (BitVec.eq_of_toNat_eq h)
      have hne1 : e.tree.pqN.toNat ≠ 1 := fun h => h1 (BitVec.eq_of_toNat_eq h)
      simp [phaseOk, hroot, hdone]
      omega

theorem tablesInv_finalize (hwf : Memory.wf e = true) (harena : ArenaOk e) (hqueue : QueueOk e) (hcodes : CodesOk e)
    (hroot : e.tree.rootValid = false) (hdone : e.book.done = false) : TablesInv (finalize e) := by
  have hphase := phaseOk_finalize hroot hdone
  obtain ⟨r, b, p, heq⟩ := finalize_eq e
  rw [heq] at hphase ⊢
  exact ⟨hwf, harena, hqueue, hphase, hcodes⟩

theorem phaseOk_merging (h : phaseOk e = true) (hp : e.tree.phase = .merging) :
    2 ≤ e.tree.pqN.toNat ∧ e.tree.rootValid = false ∧ e.book.done = false := by
  simpa [phaseOk, hp, and_assoc] using h

/-- A queue whose live nodes exist, after operations on the queue alone. -/
theorem QueueOnly.tables (hq : QueueOnly e f) (hw : QueueWithin (fun n => n.toNat < e.tree.nn.toNat) f)
    (hwf : Memory.wf e = true) (hcodes : CodesOk e) : Memory.wf f = true ∧ QueueOk f ∧ CodesOk f := by
  have hcode : ∀ x, cbCode f x = cbCode e x := fun x => by rw [cbCode, cbCode, cbGet, cbGet, hq.book]
  rw [memory_wf_iff] at hwf
  obtain ⟨hft, hnd, -, hcb⟩ := hwf
  refine ⟨(memory_wf_iff f).mpr ⟨hq.scan ▸ hft, hq.nd ▸ hnd, hw.wf, hq.book ▸ hcb⟩, ?_, fun x hx => ?_⟩
  · exact (queueOk_iff f).mpr ⟨hw.size, fun x hx => hq.nn ▸ hw.nodes x hx⟩
  · rw [hcode]
    exact hcodes x hx

/-! ### HT_INIT -/

theorem unloaded_queueWithin (h : Memory.wf e = true) (N : Node → Prop) : QueueWithin N (unloaded e) where
  size := Nat.zero_le _
  wf := ((memory_wf_iff e).mp h).2.2.1
  nodes := fun _ hx => absurd hx List.not_mem_nil

/-- The queue HT_INIT loads: leaves, one for each symbol with a count (`42_tree.md` R162). -/
theorem loaded_queueWithin (h : Memory.wf e = true) :
    QueueWithin (fun n => n.toNat < 256) (insertAll (leaves e) (unloaded e)) := by
  have hlen := leaves_length e
  refine ((unloaded_queueWithin h _).insertAll (fun n hn => leaves_lt hn) ?_).1
  change 0 + (leaves e).length ≤ 256
  omega

theorem tablesInv_loadQueue (h : TablesInv e) : TablesInv (loadQueue e) := by
  obtain ⟨hwf, -, -, -, hcodes⟩ := h
  have hq := insertAll_queueOnly (leaves e) (unloaded e)
  have hw := loaded_queueWithin hwf
  obtain ⟨hwf', hqueue, hcodes'⟩ := hq.tables hw hwf hcodes
  have hnn : (insertAll (leaves e) (unloaded e)).tree.nn.toNat = 256 := by rw [hq.nn]; rfl
  have harena : ArenaOk (insertAll (leaves e) (unloaded e)) :=
    ⟨hnn.ge, by rw [hnn]; exact Nat.add_le_add_left hw.size 256, fun i hi hi' => by omega⟩
  exact tablesInv_finalize hwf' harena hqueue hcodes' hq.rootValid (congrArg CodeBook.done hq.book)

/-! ### HT_STEP -/

/-- What HT_STEP starts from (`42_tree.md` R163): two live nodes or more, room in the arena, no root, no book. -/
structure Merging (e : Engine) : Prop where
  tables : TablesInv e
  two : 2 ≤ e.tree.pqN.toNat
  root : e.tree.rootValid = false
  book : e.book.done = false

theorem merging_of_phase (h : TablesInv e) (hp : e.tree.phase = .merging) : Merging e := by
  obtain ⟨-, -, -, hphase, -⟩ := id h
  obtain ⟨h2, hroot, hdone⟩ := phaseOk_merging hphase hp
  exact ⟨h, h2, hroot, hdone⟩

namespace Merging

variable (h : Merging e)
include h

/-- The arena has room for one node more (`42_tree.md` R164). -/
theorem room : 256 ≤ e.tree.nn.toNat ∧ e.tree.nn.toNat ≤ 510 := by
  obtain ⟨-, ⟨hlo, hroom, -⟩, -⟩ := h.tables
  have h2 := h.two
  exact ⟨hlo, by omega⟩

theorem nn_succ : (joined e).tree.nn.toNat = e.tree.nn.toNat + 1 := by
  have hroom := h.room.2
  change (e.tree.nn + 1#9).toNat = _
  rw [BitVec.toNat_add]
  simp
  omega

theorem queueWithin : QueueWithin (fun n => n.toNat < e.tree.nn.toNat) e := by
  obtain ⟨hwf, -, hqueue, -⟩ := h.tables
  obtain ⟨hsize, hnodes⟩ := (queueOk_iff e).mp hqueue
  exact ⟨hsize, ((memory_wf_iff e).mp hwf).2.2.1, hnodes⟩

/-- The two children exist already (`10_state.md` R28). -/
theorem children : (joinedNode e).left.toNat < e.tree.nn.toNat ∧ (joinedNode e).right.toNat < e.tree.nn.toNat := by
  have h2 := h.two
  have hrem := h.queueWithin.remove (by omega)
  exact ⟨h.queueWithin.top (by omega), hrem.1.top (by omega)⟩

/-- Two live nodes are gone, the others exist. -/
theorem joined_queueWithin : QueueWithin (fun n => n.toNat < (joined e).tree.nn.toNat) (joined e) ∧
    (joined e).tree.pqN.toNat = e.tree.pqN.toNat - 2 := by
  have h2 := h.two
  obtain ⟨hw1, hn1⟩ := h.queueWithin.remove (by omega)
  obtain ⟨hw2, hn2⟩ := hw1.remove (by omega)
  refine ⟨⟨hw2.size, hw2.wf, fun n hn => ?_⟩, hn2.trans (by omega)⟩
  rw [h.nn_succ]
  exact (hw2.nodes n hn).trans (Nat.lt_succ_self _)

/-- With the new node the arena is still ordered (`10_state.md` R27, R28). -/
theorem joined_arena (i : Nat) (hi : i < (joined e).tree.nn.toNat) (hlo : 256 ≤ i) :
    (ndGet (joined e) i).left.toNat < i ∧ (ndGet (joined e) i).right.toNat < i := by
  obtain ⟨-, ⟨-, -, hkids⟩, -⟩ := h.tables
  rw [h.nn_succ] at hi
  rw [joined_get]
  split
  · rename_i hnew
    exact hnew ▸ h.children
  · exact hkids i (by omega) hlo

theorem joined_wf : Memory.wf (joined e) = true := by
  have h2 := h.two
  have hroom := h.room
  obtain ⟨hwf, -, -, -, hcodes⟩ := h.tables
  obtain ⟨hw1, hn1⟩ := h.queueWithin.remove (by omega)
  obtain ⟨hw2, -⟩ := hw1.remove (by omega)
  obtain ⟨hwf2, -⟩ := (pqRemove_twice_queueOnly e).tables hw2 hwf hcodes
  exact wf_ndSet hwf2 hroom.1 (by omega) (joinedNode e)

theorem tablesInv_mergeTwo : TablesInv (mergeTwo e) := by
  have h2 := h.two
  have hroom := h.room
  obtain ⟨-, ⟨hlo, hspace, -⟩, ⟨hsize, -⟩, -, hcodes⟩ := h.tables
  obtain ⟨hw, hn⟩ := h.joined_queueWithin
  have hcodes' : CodesOk (joined e) := by
    have hcode : ∀ x, cbCode (joined e) x = cbCode e x := fun x => by
      rw [cbCode, cbCode, cbGet, cbGet, (joined_treeOnly e).book]
    exact fun x hx => by rw [hcode]; exact hcodes x hx
  have hnew : e.tree.nn.toNat < (joined e).tree.nn.toNat := by rw [h.nn_succ]; exact Nat.lt_succ_self _
  obtain ⟨hw', hn'⟩ := hw.insert hnew (by omega)
  have hq := pqInsert_queueOnly e.tree.nn (joined e)
  obtain ⟨hwf', hqueue', hcodes''⟩ := hq.tables hw' h.joined_wf hcodes'
  have hnn := h.nn_succ
  have harena : ArenaOk (pqInsert e.tree.nn (joined e)) := by
    refine ⟨?_, ?_, h.joined_arena⟩
    · rw [hq.nn, hnn]
      omega
    · rw [hq.nn, hnn, hn', hn]
      omega
  rw [mergeTwo_eq]
  refine tablesInv_finalize hwf' harena hqueue' hcodes'' ?_ ?_
  · rw [hq.rootValid, joined_rootValid]
    exact h.root
  · rw [hq.book, (joined_treeOnly e).book]
    exact h.book

end Merging

/-! ### CB_BUILD -/

theorem tablesInv_setBook {b : Book} (h : TablesInv e) (hp : e.tree.phase = .done) (hb : buildBook e = some b) :
    TablesInv (setBook b.cb e) := by
  obtain ⟨hwf, harena, hqueue, hphase, -⟩ := h
  obtain ⟨hcb, hlen, -⟩ := buildBook_spec hb
  have hphase' : phaseOk (setBook b.cb e) = phaseOk e := by
    rw [phaseOk, phaseOk, setBook_tree, hp]
  refine ⟨wf_setBook hwf hcb, harena, hqueue, hphase'.trans hphase, fun x _ => ?_⟩
  change ((tableGet none b.cb x).getD []).length ≤ 255
  cases hc : tableGet none b.cb x with
  | none => exact Nat.zero_le _
  | some c => exact hlen x c hc

/-! ### The invariants -/

theorem tablesInv_kept : TablesKeep TablesInv TablesInv TablesInv where
  same := fun _ _ hs => ⟨tablesInv_same hs, tablesInv_same hs, tablesInv_same hs⟩
  stop := fun _ h => h.elim id id
  clear := fun _ h => tablesInv_clearTable h
  count := fun _ a h _ => tablesInv_countSymbol h a
  load := fun _ h => tablesInv_loadQueue h
  merge := fun _ h hp => (merging_of_phase h hp).tablesInv_mergeTwo
  build := fun _ _ h hp hb => tablesInv_setBook h hp hb
  drop := fun _ h => tablesInv_treeDropped h
  loadCount := fun _ _ w hx h => tablesInv_ftSet h hx w
  loadTotal := fun _ _ h => h
  agree := fun _ h _ => h

/-- Every operation on the tree takes the code book's mark off, and CB_BUILD sets it for the book of the tree. -/
theorem treeInv_kept : TablesKeep TreeInv TreeInv TreeInv where
  same := fun _ _ hs =>
    have h := fun h : TreeInv _ => And.intro (tablesInv_same hs h.1) (bookOk_same hs h.2)
    ⟨h, h, h⟩
  stop := fun _ h => h.elim id id
  clear := fun _ h => ⟨tablesInv_clearTable h.1, bookOk_of_not_done rfl⟩
  count := fun _ a h _ => ⟨tablesInv_countSymbol h.1 a, bookOk_of_not_done rfl⟩
  load := fun e h => ⟨tablesInv_loadQueue h.1, bookOk_of_not_done (by rw [(loadQueue_treeOnly e).book]; rfl)⟩
  merge := fun e h hp =>
    have hm := merging_of_phase h.1 hp
    ⟨hm.tablesInv_mergeTwo, bookOk_of_not_done (by rw [(mergeTwo_treeOnly e).book]; exact hm.book)⟩
  build := fun _ _ h hp hb => ⟨tablesInv_setBook h.1 hp hb, fun _ => (buildBook_spec hb).2.2⟩
  drop := fun _ h => ⟨tablesInv_treeDropped h.1, bookOk_of_not_done rfl⟩
  loadCount := fun e x w hx h => ⟨tablesInv_ftSet h.1 hx w, bookOk_congr (e := e) rfl rfl h.2⟩
  loadTotal := fun e w h => ⟨h.1, bookOk_congr (e := e) (e' := setTotal w e) rfl rfl h.2⟩
  agree := fun _ h _ => h

/-- Settles O58: the streams leave the tables alone, and each operation on the tables keeps them in order. -/
theorem stepKeepsTreeInvariant : Obligations.StepKeepsTreeInvariant :=
  fun _ _ hstep =>
    ⟨fun h => tablesInv_kept.step (fun _ h _ => h) (fun _ h => h) (fun _ h _ => h) tablesInv_reset h hstep,
      fun h => treeInv_kept.step (fun _ h _ => h) (fun _ h => h) (fun _ h _ => h) treeInv_reset h hstep⟩

end Sys2Proof.Machine
end

-- ==== Proofs: the counts, the heap and the weights ====
section
namespace Sys2Proof.Machine

variable {e f : Engine}

/-! ### The sum of the counts (`10_state.md` R25) -/

theorem ftSum_congr (h : f.scan.ft = e.scan.ft) : ftSum f = ftSum e := by
  simp only [ftSum, ftGet, h]

theorem counts_same (hscan : f.scan = e.scan) (h : ftSum e = e.scan.total.toNat) : ftSum f = f.scan.total.toNat :=
  (ftSum_congr (congrArg Scanner.ft hscan)).trans (h.trans (congrArg (fun c => c.total.toNat) hscan.symm))

theorem sum_map_range (n : Nat) (g : Nat → Nat) : ((List.range n).map g).sum = ∑ x ∈ Finset.range n, g x := rfl

theorem ftSum_eq_sum (e : Engine) : ftSum e = ∑ x ∈ Finset.range 256, (ftGet e x).toNat := sum_map_range _ _

theorem ftGet_le_ftSum {x : Nat} (hx : x < 256) : (ftGet e x).toNat ≤ ftSum e := by
  rw [ftSum_eq_sum]
  exact Finset.single_le_sum (f := fun x => (ftGet e x).toNat) (fun _ _ => Nat.zero_le _) (Finset.mem_range.mpr hx)

/-- Writing one count changes the sum by the difference. -/
theorem ftSum_ftSet {x : Nat} (hx : x < 256) (v : U32) :
    ftSum (ftSet e x v) + (ftGet e x).toNat = ftSum e + v.toNat := by
  have hmem := Finset.mem_range.mpr hx
  have hother : ∑ y ∈ (Finset.range 256).erase x, (ftGet (ftSet e x v) y).toNat
      = ∑ y ∈ (Finset.range 256).erase x, (ftGet e y).toNat :=
    Finset.sum_congr rfl fun y hy => by rw [ftGet_ftSet, if_neg (Finset.ne_of_mem_erase hy)]
  rw [ftSum_eq_sum, ftSum_eq_sum, ← Finset.add_sum_erase _ _ hmem, ← Finset.add_sum_erase _ _ hmem, hother,
    ftGet_ftSet, if_pos rfl]
  omega

/-- FT_INC raises the sum and the total by one (`41_freq.md` R143). -/
theorem ftSum_countSymbol (hsum : ftSum e = e.scan.total.toNat) (hmax : e.scan.total ≠ Config.maxTotal) (a : Byte) :
    ftSum (countSymbol a e) = (countSymbol a e).scan.total.toNat := by
  have hx : symIndex a < 256 := a.isLt
  have hne : e.scan.total.toNat ≠ 2 ^ 32 - 1 := fun h => hmax (BitVec.eq_of_toNat_eq h)
  have hlt := e.scan.total.isLt
  have hle := ftGet_le_ftSum (e := e) hx
  have hcount : (ftGet e (symIndex a) + 1#32).toNat = (ftGet e (symIndex a)).toNat + 1 := by
    rw [BitVec.toNat_add]
    simp
    omega
  have htotal : (e.scan.total + 1#32).toNat = e.scan.total.toNat + 1 := by
    rw [BitVec.toNat_add]
    simp
    omega
  have hset := ftSum_ftSet (e := e) hx (ftGet e (symIndex a) + 1#32)
  calc ftSum (countSymbol a e) = ftSum (ftSet e (symIndex a) (ftGet e (symIndex a) + 1#32)) := ftSum_congr rfl
    _ = e.scan.total.toNat + 1 := by omega
    _ = (countSymbol a e).scan.total.toNat := htotal.symm

theorem ftSum_clearTable (e : Engine) : ftSum (clearTable e) = 0 :=
  (ftSum_congr (e := Engine.reset) rfl).trans ftSum_reset

/-! ### The weights of the live nodes -/

/-- The sum of the weights of nodes (`42_tree.md` R156, R164). -/
def weights (e : Engine) (xs : List Node) : Nat := (xs.map fun n => (freq e n).toNat).sum

theorem weights_cons (e : Engine) (x : Node) (xs : List Node) :
    weights e (x :: xs) = (freq e x).toNat + weights e xs := List.sum_cons

theorem weights_perm (e : Engine) {xs ys : List Node} (h : xs.Perm ys) : weights e xs = weights e ys :=
  (h.map _).sum_eq

theorem weights_congr {xs : List Node} (h : ∀ x ∈ xs, freq f x = freq e x) : weights f xs = weights e xs :=
  congrArg List.sum (List.map_congr_left fun x hx => by rw [h x hx])

theorem freq_leafOf {x : Nat} (hx : x < 256) : freq e (leafOf x) = ftGet e x := by
  rw [freq, if_pos (isLeaf_leafOf hx), leafOf_toNat hx]

/-- What is left out of a sum because it is 0 does not change it. -/
theorem sum_map_filter_of_zero {p : Nat → Bool} {g : Nat → Nat} (xs : List Nat)
    (h : ∀ x, p x = false → g x = 0) :
    ((xs.filter p).map g).sum = (xs.map g).sum := by
  induction xs with
  | nil => rfl
  | cons x xs ih =>
    cases hp : p x with
    | true => simp [hp, ih]
    | false => simp [hp, ih, h x hp]

/-- The leaves HT_INIT places carry all counts (`42_tree.md` R164). -/
theorem weights_leaves (e : Engine) : weights e (leaves e) = ftSum e := by
  have hfreq : weights e (leaves e)
      = (((List.range Config.nSym).filter fun x => ftGet e x != 0#32).map fun x => (ftGet e x).toNat).sum := by
    rw [weights, leaves, List.map_map]
    refine congrArg List.sum (List.map_congr_left fun x hx => ?_)
    have hx' : x < 256 := List.mem_range.mp (List.mem_filter.mp hx).1
    rw [Function.comp, freq_leafOf hx']
  rw [hfreq]
  exact sum_map_filter_of_zero _ fun x hx => by
    have hzero : ftGet e x = 0#32 := by simpa using hx
    rw [hzero]
    rfl

theorem leaves_nodup (e : Engine) : (leaves e).Nodup := by
  refine (List.nodup_range.filter _).map_on fun x hx y hy hxy => ?_
  have hx' : x < 256 := List.mem_range.mp (List.mem_filter.mp hx).1
  have hy' : y < 256 := List.mem_range.mp (List.mem_filter.mp hy).1
  rw [← leafOf_toNat hx', ← leafOf_toNat hy', hxy]

/-! ### The heap and its weights (`42_tree.md` R158, R164) -/

/-- What `HeapInv` asks for once a build has started. -/
structure HeapSum (e : Engine) : Prop where
  heap : HeapOk e
  nodup : (live e).Nodup
  total : weights e (live e) = e.scan.total.toNat

theorem heapInv_iff (e : Engine) : HeapInv e ↔ (e.tree.phase ≠ .none → HeapSum e) :=
  ⟨fun h hp => have ⟨hheap, hnodup, htotal⟩ := h hp; ⟨hheap, hnodup, htotal⟩,
    fun h hp => ⟨(h hp).heap, (h hp).nodup, (h hp).total⟩⟩

theorem heapInv_of_none (h : e.tree.phase = .none) : HeapInv e := fun hp => absurd h hp

theorem HeapSum.congr (h : HeapSum e) (hscan : f.scan = e.scan) (hnd : f.tree.nd = e.tree.nd)
    (hpq : f.tree.pq = e.tree.pq) (hn : f.tree.pqN = e.tree.pqN) : HeapSum f := by
  have hlive : live f = live e := by rw [live, live, hpq, hn]
  have hft : f.scan.ft = e.scan.ft := by rw [hscan]
  refine ⟨?_, hlive ▸ h.nodup, ?_⟩
  · rw [heapOk_iff, Heaped, less_congr hft hnd, hpq, hn]
    exact h.heap
  · rw [hlive, weights_congr fun x _ => congrFun (freq_congr hft hnd) x, hscan]
    exact h.total

theorem heapInv_same (hs : SameTables e f) (h : HeapInv e) : HeapInv f := by
  obtain ⟨hscan, htree, -⟩ := hs
  rw [heapInv_iff] at h ⊢
  intro hp
  rw [htree] at hp
  exact (h hp).congr hscan (by rw [htree]) (by rw [htree]) (by rw [htree])

theorem HeapSum.finalize (h : HeapSum e) : HeapSum (finalize e) := by
  obtain ⟨r, b, p, heq⟩ := finalize_eq e
  rw [heq]
  exact h.congr rfl rfl rfl rfl

/-! ### HT_INIT -/

/-- Distinct nodes inserted in order make a heap of them all (`42_tree.md` R158, R159). -/
theorem insertAll_heap {xs : List Node} (hn : e.tree.pqN.toNat + xs.length ≤ 256) (hh : HeapOk e)
    (hd : (xs ++ live e).Nodup) : HeapOk (insertAll xs e) ∧ (live (insertAll xs e)).Perm (xs ++ live e) := by
  induction xs generalizing e with
  | nil => exact ⟨hh, .refl _⟩
  | cons x xs ih =>
    rw [List.length_cons] at hn
    have hdx : (x :: live e).Nodup := hd.sublist ((List.sublist_append_right xs (live e)).cons_cons x)
    obtain ⟨hlive, hheap, hn1, -, -⟩ := pqInsert_spec (by omega) hh hdx
    have hperm : (xs ++ live (pqInsert x e)).Perm (x :: xs ++ live e) :=
      (hlive.append_left xs).trans List.perm_middle
    obtain ⟨hheap', hlive'⟩ := ih (by omega) hheap (hperm.nodup_iff.mpr hd)
    exact ⟨hheap', hlive'.trans hperm⟩

/-- After HT_INIT the live nodes are the counted leaves, in a heap, and weigh what was counted (`42_tree.md` R162). -/
theorem heapSum_loadQueue (hsum : ftSum e = e.scan.total.toNat) : HeapSum (loadQueue e) := by
  have hq := insertAll_queueOnly (leaves e) (unloaded e)
  have hlen : (unloaded e).tree.pqN.toNat + (leaves e).length ≤ 256 :=
    (Nat.zero_add _).trans_le (leaves_length e)
  have hnil : leaves e ++ live (unloaded e) = leaves e := List.append_nil _
  obtain ⟨hheap, hlive⟩ := insertAll_heap hlen (fun k hk => absurd hk (Nat.not_lt_zero k))
    (hnil.symm ▸ leaves_nodup e)
  rw [hnil] at hlive
  refine HeapSum.finalize ⟨hheap, hlive.nodup_iff.mpr (leaves_nodup e), ?_⟩
  have hfreq : freq (insertAll (leaves e) (unloaded e)) = freq e := hq.freq.trans (freq_congr rfl rfl)
  calc weights (insertAll (leaves e) (unloaded e)) (live (insertAll (leaves e) (unloaded e)))
      = weights e (leaves e) := (weights_perm _ hlive).trans (weights_congr fun x _ => congrFun hfreq x)
    _ = e.scan.total.toNat := (weights_leaves e).trans hsum
    _ = (insertAll (leaves e) (unloaded e)).scan.total.toNat := by rw [hq.scan]; rfl

/-! ### HT_STEP -/

/-- The new node changes no weight of a node that existed. -/
theorem freq_joined_old {n : Node} (hn : n.toNat < e.tree.nn.toNat) : freq (joined e) n = freq e n := by
  have hft : ftGet (joined e) n.toNat = ftGet e n.toNat := by rw [ftGet, ftGet, (joined_treeOnly e).scan]
  rw [freq, freq, hft, joined_get, if_neg (Nat.ne_of_lt hn)]

namespace Merging

variable (h : Merging e)
include h

theorem freq_joined_new : freq (joined e) e.tree.nn = (joinedNode e).freq := by
  have hnew : ¬ isLeaf e.tree.nn = true := by
    rw [isLeaf_iff]
    exact Nat.not_lt.mpr h.room.1
  rw [freq, if_neg hnew, joined_get, if_pos rfl]

/-- The live nodes are the two least and those that stay, which are in a heap (`42_tree.md` R160). -/
theorem live_perm (hs : HeapSum e) :
    (live e).Perm (pqTop e :: pqTop (pqRemove e) :: live (joined e)) ∧ HeapOk (pqRemove (pqRemove e)) := by
  have h2 := h.two
  obtain ⟨hp1, -, hh1, hn1, -, -⟩ := pqRemove_spec (by omega) hs.heap hs.nodup
  have hd1 := (List.nodup_cons.mp (hp1.nodup_iff.mp hs.nodup)).2
  obtain ⟨hp2, -, hh2, -, -, -⟩ := pqRemove_spec (by omega) hh1 hd1
  exact ⟨hp1.trans (hp2.cons _), hh2⟩

/-- The nodes that stay are in a heap by their new weights too, which are the old ones. -/
theorem joined_heap (hs : HeapSum e) : HeapOk (joined e) := by
  obtain ⟨hperm, hheap⟩ := h.live_perm hs
  have hold : ∀ k, k < (joined e).tree.pqN.toNat → freq (joined e) (pqGet (joined e).tree.pq k)
      = freq (pqRemove (pqRemove e)) (pqGet (joined e).tree.pq k) := by
    intro k hk
    have hmem : pqGet (joined e).tree.pq k ∈ live e :=
      hperm.mem_iff.mpr (.tail _ (.tail _ (mem_entries.mpr ⟨k, hk, rfl⟩)))
    rw [freq_joined_old (h.queueWithin.nodes _ hmem), (pqRemove_twice_queueOnly e).freq]
  intro k hk hk1
  rw [less, hold k hk, hold ((k - 1) / 2) (by omega)]
  exact hheap k hk hk1

/-- The parent weighs what its children do, and nothing wraps around (`42_tree.md` R164). -/
theorem freq_parent (hs : HeapSum e) :
    (freq (joined e) e.tree.nn).toNat + weights e (live (joined e)) = e.scan.total.toNat := by
  have hw := (weights_perm e (h.live_perm hs).1).symm.trans hs.total
  rw [weights_cons, weights_cons] at hw
  have hlt := e.scan.total.isLt
  have hadd : (joinedNode e).freq.toNat = (freq e (pqTop e)).toNat + (freq e (pqTop (pqRemove e))).toNat := by
    rw [joinedNode, BitVec.toNat_add]
    omega
  rw [h.freq_joined_new, hadd]
  omega

theorem heapSum_mergeTwo (hs : HeapSum e) : HeapSum (mergeTwo e) := by
  have hperm := (h.live_perm hs).1
  have hold : ∀ x ∈ live (joined e), x.toNat < e.tree.nn.toNat := fun x hx =>
    h.queueWithin.nodes x (hperm.mem_iff.mpr (.tail _ (.tail _ hx)))
  have hdold : (live (joined e)).Nodup :=
    (List.nodup_cons.mp (List.nodup_cons.mp (hperm.nodup_iff.mp hs.nodup)).2).2
  have hfresh : (e.tree.nn :: live (joined e)).Nodup :=
    List.nodup_cons.mpr ⟨fun hmem => Nat.lt_irrefl _ (hold _ hmem), hdold⟩
  have hsize : (joined e).tree.pqN.toNat < 511 := by
    have hle := h.joined_queueWithin.1.size
    omega
  obtain ⟨hlive, hheap, -, -, -⟩ := pqInsert_spec hsize (h.joined_heap hs) hfresh
  have hq := pqInsert_queueOnly e.tree.nn (joined e)
  rw [mergeTwo_eq]
  refine HeapSum.finalize ⟨hheap, hlive.nodup_iff.mpr hfresh, ?_⟩
  calc weights (pqInsert e.tree.nn (joined e)) (live (pqInsert e.tree.nn (joined e)))
      = weights (joined e) (e.tree.nn :: live (joined e)) :=
        (weights_perm _ hlive).trans (weights_congr fun x _ => congrFun hq.freq x)
    _ = (freq (joined e) e.tree.nn).toNat + weights e (live (joined e)) := by
        rw [weights_cons, weights_congr fun x hx => freq_joined_old (hold x hx)]
    _ = e.scan.total.toNat := h.freq_parent hs
    _ = (pqInsert e.tree.nn (joined e)).scan.total.toNat := by rw [hq.scan, (joined_treeOnly e).scan]

end Merging

/-! ### The invariant -/

/-- Between a command's parts: the tables in order, `total` the sum of the counts, and the heap in order. -/
structure Counted (e : Engine) : Prop where
  tables : TablesInv e
  counts : ftSum e = e.scan.total.toNat
  heap : HeapInv e

/-- While a header is read into the counts their sum is open, and no build has started; where a command stops the
heap is in order still. -/
theorem counted_kept :
    TablesKeep Counted (fun e => TablesInv e ∧ e.tree.phase = .none) (fun e => TablesInv e ∧ HeapInv e) where
  same := fun e f hs => by
    exact ⟨fun h => ⟨tablesInv_same hs h.tables, counts_same hs.1 h.counts, heapInv_same hs h.heap⟩,
      fun h => ⟨tablesInv_same hs h.1, by rw [hs.2.1]; exact h.2⟩,
      fun h => ⟨tablesInv_same hs h.1, heapInv_same hs h.2⟩⟩
  stop := by
    rintro e (h | h)
    · exact ⟨h.tables, h.heap⟩
    · exact ⟨h.1, heapInv_of_none h.2⟩
  clear := fun e h => ⟨tablesInv_clearTable h.tables, ftSum_clearTable e, heapInv_of_none rfl⟩
  count := fun _ a h hmax =>
    ⟨tablesInv_countSymbol h.tables a, ftSum_countSymbol h.counts hmax a, heapInv_of_none rfl⟩
  load := fun e h =>
    ⟨tablesInv_loadQueue h.tables, counts_same (e := e) (loadQueue_treeOnly e).scan h.counts,
      (heapInv_iff _).mpr fun _ => heapSum_loadQueue h.counts⟩
  merge := fun e h hp => by
    have hm := merging_of_phase h.tables hp
    have hheap := (heapInv_iff e).mp h.heap (by rw [hp]; decide)
    exact ⟨hm.tablesInv_mergeTwo, counts_same (mergeTwo_treeOnly e).scan h.counts,
      (heapInv_iff _).mpr fun _ => hm.heapSum_mergeTwo hheap⟩
  build := fun e b h hp hb =>
    ⟨tablesInv_setBook h.tables hp hb, counts_same (e := e) rfl h.counts, (heapInv_iff _).mpr fun hp' =>
      ((heapInv_iff e).mp h.heap hp').congr rfl rfl rfl rfl⟩
  drop := fun _ h => ⟨tablesInv_treeDropped h.tables, rfl⟩
  loadCount := fun _ _ w hx h => ⟨tablesInv_ftSet h.1 hx w, h.2⟩
  loadTotal := fun _ _ h => h
  agree := fun _ h hsum => ⟨h.1, hsum, heapInv_of_none h.2⟩

/-- A step keeps the sum of the counts while there is no fault, and the heap, given the tables in order. -/
theorem counts_heap_step {s t : State} (h : TablesInv s.eng ∧ CountInv s.eng ∧ HeapInv s.eng)
    (hstep : step s = .next t) : TablesInv t.eng ∧ CountInv t.eng ∧ HeapInv t.eng :=
  counted_kept.step (I := fun e => TablesInv e ∧ CountInv e ∧ HeapInv e)
    (fun _ ⟨ht, hc, hh⟩ hf => ⟨ht, hc hf, hh⟩)
    (fun _ h => ⟨h.tables, fun _ => h.counts, h.heap⟩)
    (fun _ ⟨ht, hh⟩ hf => ⟨ht, fun hf' => absurd (hf.symm.trans hf') (by decide), hh⟩)
    ⟨tablesInv_reset, fun _ => ftSum_reset, heapInv_of_none rfl⟩ h hstep

/-- Settles O60: the tables with their book, and the ports, are kept by themselves; the counts and the heap are kept
where the tables are in order. -/
theorem stepKeepsInvariant : Obligations.StepKeepsInvariant := by
  rintro s t ⟨htree, hport, hcount, hheap⟩ hstep
  obtain ⟨-, hcount', hheap'⟩ := counts_heap_step ⟨htree.1, hcount, hheap⟩ hstep
  exact ⟨(stepKeepsTreeInvariant s t hstep).2 htree, stepKeepsPortInvariant s t hport hstep, hcount', hheap'⟩

end Sys2Proof.Machine
end

-- ==== Proofs: the register window ====
section
namespace Sys2Proof.Machine

/-! ### Which word each address shows (`20_memory.md` R76) -/

/-- An address of the window as a number. -/
theorem address_toNat {n : Nat} (h : n < 4096) : (BitVec.ofNat 12 n).toNat = n := by
  rw [BitVec.toNat_ofNat, Nat.mod_eq_of_lt h]

theorem regRead_low (e : Engine) {a : BitVec 12} (h : a.toNat < 0x100) : regRead e a = lowWord e a.toNat := by
  rw [regRead, if_pos h]

theorem regRead_count (e : Engine) {x : Nat} (h : x < 256) :
    regRead e (BitVec.ofNat 12 (0x100 + x)) = ftGet e x := by
  rw [regRead, address_toNat (by omega), if_neg (by omega), if_pos (by omega), Nat.add_sub_cancel_left]

theorem regRead_codeInfo (e : Engine) {x : Nat} (h : x < 256) :
    regRead e (BitVec.ofNat 12 (0x200 + x)) = (cbLen e x).setWidth 32 ||| flagBit (cbHas e x) 8 := by
  rw [regRead, address_toNat (by omega), if_neg (by omega), if_neg (by omega), if_pos (by omega),
    Nat.add_sub_cancel_left]

theorem regRead_queue (e : Engine) {k : Nat} (h : k < 256) :
    regRead e (BitVec.ofNat 12 (0x300 + k)) = (pqGet e.tree.pq k).setWidth 32 := by
  rw [regRead, address_toNat (by omega), if_neg (by omega), if_neg (by omega), if_neg (by omega), if_pos (by omega),
    Nat.add_sub_cancel_left]

theorem regRead_weight (e : Engine) {k : Nat} (h : k < 255) :
    regRead e (BitVec.ofNat 12 (0x400 + k)) = (ndGet e (k + Config.firstInternal)).freq := by
  rw [regRead, address_toNat (by omega), if_neg (by omega), if_neg (by omega), if_neg (by omega), if_neg (by omega),
    if_pos (by omega), Nat.add_sub_cancel_left]

theorem regRead_children (e : Engine) {k : Nat} (h : k < 255) :
    regRead e (BitVec.ofNat 12 (0x500 + k)) =
      (ndGet e (k + Config.firstInternal)).left.setWidth 32
        ||| ((ndGet e (k + Config.firstInternal)).right.setWidth 32 <<< 9) := by
  rw [regRead, address_toNat (by omega), if_neg (by omega), if_neg (by omega), if_neg (by omega), if_neg (by omega),
    if_neg (by omega), if_neg (by omega), if_pos (by omega), Nat.add_sub_cancel_left]

theorem regRead_code (e : Engine) {x w : Nat} (hx : x < 256) (hw : w < 8) :
    regRead e (BitVec.ofNat 12 (0x800 + 8 * x + w)) = codeWord e x w := by
  have hword : (0x800 + 8 * x + w - 0x800) / 8 = x ∧ (0x800 + 8 * x + w - 0x800) % 8 = w := by omega
  rw [regRead, address_toNat (by omega), if_neg (by omega), if_neg (by omega), if_neg (by omega), if_neg (by omega),
    if_neg (by omega), if_neg (by omega), if_neg (by omega), if_neg (by omega), hword.1, hword.2]

theorem lowWord_reserved (e : Engine) {n : Nat} (h : 10 ≤ n) : lowWord e n = 0#32 := by
  obtain ⟨k, rfl⟩ := Nat.exists_eq_add_of_le' h
  rfl

/-- The three runs of reserved addresses (`20_memory.md` R76). -/
theorem regRead_reserved (e : Engine) {a : BitVec 12}
    (h : 0x00A ≤ a.toNat ∧ a.toNat ≤ 0x0FF ∨ a = 0x4FF#12 ∨ 0x5FF ≤ a.toNat ∧ a.toNat ≤ 0x7FF) :
    regRead e a = 0#32 := by
  rcases h with ⟨hlo, hhi⟩ | rfl | ⟨hlo, hhi⟩
  · rw [regRead_low e (by omega), lowWord_reserved e hlo]
  · rfl
  · rw [regRead, if_neg (by omega), if_neg (by omega), if_neg (by omega), if_neg (by omega), if_neg (by omega),
      if_neg (by omega), if_neg (by omega), if_pos (by omega)]

/-! ### The window after reset (`20_memory.md` R78) -/

theorem lowWord_reset (n : Nat) :
    lowWord Engine.reset n = if n = 4 then 0x100#32 else if n = 7 then 0x800#32 else 0#32 := by
  by_cases h : n < 10
  · revert n
    decide
  · rw [lowWord_reserved _ (by omega), if_neg (by omega), if_neg (by omega)]

theorem codeWord_reset (x w : Nat) : codeWord Engine.reset x w = 0#32 := by
  simp only [codeWord, codeBit_reset]
  rfl

/-- The tables' words: an empty table reads as its reset entry. -/
theorem regRead_reset_high {a : BitVec 12} (h : 0x100 ≤ a.toNat) : regRead Engine.reset a = 0#32 := by
  have hlen (x : Nat) : cbLen Engine.reset x = 0#8 := rfl
  have hhas (x : Nat) : cbHas Engine.reset x = false := rfl
  have hnode (i : Nat) : ndGet Engine.reset i = nodeZero := rfl
  rw [regRead, if_neg (by omega)]
  split_ifs
  · rfl
  · rw [hlen, hhas]
    rfl
  · rfl
  · rfl
  · rfl
  · rw [hnode]
    rfl
  · rfl
  · exact codeWord_reset _ _

/-- Settles O8: the ten words at the bottom one by one, and the tables' words, which are all 0. -/
theorem windowAfterReset : Obligations.WindowAfterReset := by
  intro a
  have hnn : a = 0x004#12 ↔ a.toNat = 4 := BitVec.toNat_inj.symm
  have hbr : a = 0x007#12 ↔ a.toNat = 7 := BitVec.toNat_inj.symm
  simp only [hnn, hbr]
  by_cases hlow : a.toNat < 0x100
  · rw [regRead_low _ hlow, lowWord_reset]
  · rw [regRead_reset_high (by omega), if_neg (by omega), if_neg (by omega)]

/-! ### The code words (`20_memory.md` R79) -/

theorem wordOfBits_getLsbD {bits : List Bool} (hlen : bits.length = 32) {i : Nat} (h : i < 32) :
    (wordOfBits bits).getLsbD (31 - i) = bits[i] := by
  calc (wordOfBits bits).getLsbD (31 - i)
      = (bitsToNat bits).testBit (bits.length - 1 - i) := by
        rw [wordOfBits, BitVec.getLsbD_ofNat, decide_eq_true (by omega : 31 - i < 32), Bool.true_and, hlen]
        rfl
    _ = bits[i] := bitsToNat_testBit bits i (by omega)

theorem codeWord_getLsbD (e : Engine) (x w : Nat) {i : Nat} (h : i < 32) :
    (codeWord e x w).getLsbD (31 - i) = codeBit e x (32 * w + i) := by
  rw [codeWord, wordOfBits_getLsbD (by simp) h]
  simp

/-- The example of R79: the code `110`. -/
theorem codeWord_110 {e : Engine} {x : Nat} (h : cbGet e x = some [true, true, false]) (w : Nat) :
    codeWord e x w = if w = 0 then 0xC0000000#32 else 0#32 := by
  have hcode : cbCode e x = [true, true, false] := by rw [cbCode, h]; rfl
  cases w with
  | zero =>
    simp only [codeWord, codeBit, hcode]
    rfl
  | succ w =>
    have hbit (i : Nat) : codeBit e x (32 * (w + 1) + i) = false := by
      rw [codeBit, hcode, List.getD_eq_default _ _ (by simp; omega), Bool.and_false]
    simp only [codeWord, hbit]
    rfl

/-- Settles O10: bit `31 − i` of the word is the `i`-th of the 32 bits it is made of. -/
theorem codeWindowBits : Obligations.CodeWindowBits := by
  refine fun e x hx => ⟨fun w i hw hi => ?_, fun hcode => ⟨?_, fun w hw0 hw => ?_, ?_⟩⟩
  · rw [regRead_code e hx hw, codeWord_getLsbD e x w hi, codeBit, Config.maxLen]
    by_cases h : 32 * w + i < 255
    · rw [if_pos h, decide_eq_true h, Bool.true_and]
    · rw [if_neg h, decide_eq_false h, Bool.false_and]
  · exact (regRead_code e hx (by decide : 0 < 8)).trans (codeWord_110 hcode 0)
  · rw [regRead_code e hx hw, codeWord_110 hcode, if_neg (by omega)]
  · rw [regRead_codeInfo e hx, cbLen, cbHas, cbCode, hcode]
    rfl

/-! ### The fields of a word (`20_memory.md` R76, R77) -/

@[simp] theorem getElem_flagBit_same (b : Bool) {p : Nat} (h : p < 32) : (flagBit b p)[p] = b := by
  simp [flagBit]

@[simp] theorem getElem_flagBit_other (b : Bool) {p i : Nat} (h : i < 32) (hne : i ≠ p) :
    (flagBit b p)[i] = false := by
  have hbit : i < p ∨ 0 < i - p := by omega
  rcases hbit with hlt | hgt
  · simp [flagBit, hlt]
  · simp [flagBit, BitVec.getLsbD_ofBool, hgt.ne']

/-- A word of a field and the flag above it. -/
theorem flagged_fields {n : Nat} (x : BitVec n) (b : Bool) (h : n < 32) :
    let w : U32 := x.setWidth 32 ||| flagBit b n
    w.extractLsb' 0 n = x ∧ w.getLsbD n = b ∧ w.extractLsb' (n + 1) (32 - (n + 1)) = 0#(32 - (n + 1)) := by
  refine ⟨?_, ?_, ?_⟩
  · ext i hi
    simp (disch := omega) [BitVec.getLsbD_eq_getElem]
  · simp [BitVec.getLsbD_of_ge, h]
  · ext i hi
    simp (disch := omega) [BitVec.getLsbD_of_ge]

/-- A word of two fields, the second above the first. -/
theorem pair_fields {m n : Nat} (x : BitVec m) (y : BitVec n) (h : m + n ≤ 32) :
    let w : U32 := x.setWidth 32 ||| (y.setWidth 32 <<< m)
    w.extractLsb' 0 m = x ∧ w.extractLsb' m n = y ∧ w.extractLsb' (m + n) (32 - (m + n)) = 0#(32 - (m + n)) := by
  refine ⟨?_, ?_, ?_⟩
  · ext i hi
    simp (disch := omega) [BitVec.getLsbD_eq_getElem, hi]
  · ext i hi
    simp (disch := omega) [BitVec.getLsbD_eq_getElem, BitVec.getLsbD_of_ge]
  · ext i hi
    simp (disch := omega) [BitVec.getLsbD_of_ge]

theorem readerWord_fields (r : BitReader) :
    let w : U32 := r.buf.setWidth 32 ||| (r.pos.setWidth 32 <<< 8) ||| flagBit r.eos 12
    w.extractLsb' 0 8 = r.buf ∧ w.extractLsb' 8 4 = r.pos ∧ w.getLsbD 12 = r.eos ∧
      w.extractLsb' 13 19 = 0#19 := by
  refine ⟨?_, ?_, ?_, ?_⟩
  · ext i hi
    simp (disch := omega) [BitVec.getLsbD_eq_getElem, hi]
  · ext i hi
    simp (disch := omega) [BitVec.getLsbD_eq_getElem, BitVec.getLsbD_of_ge]
  · simp [BitVec.getLsbD_of_ge]
  · ext i hi
    simp (disch := omega) [BitVec.getLsbD_of_ge]

theorem statusWord_fields (e : Engine) :
    let w := statusWord e
    w.extractLsb' 0 3 = e.stat.err ∧ w.getLsbD 3 = e.stat.fault ∧ w.getLsbD 4 = e.stat.incomplete ∧
      w.getLsbD 5 = e.br.isOpen ∧ w.getLsbD 6 = e.bw.isOpen ∧ w.getLsbD 7 = e.br.eos ∧
      w.extractLsb' 8 2 = e.tree.phase.code ∧ w.getLsbD 10 = e.book.done ∧ w.getLsbD 11 = e.tree.rootValid ∧
      w.extractLsb' 12 20 = 0#20 := by
  refine ⟨?_, ?_, ?_, ?_, ?_, ?_, ?_, ?_, ?_, ?_⟩
  · ext i hi
    have h8 : i < 8 := by omega
    simp (disch := omega) [statusWord, BitVec.getLsbD_eq_getElem, h8]
  · simp [statusWord, BitVec.getLsbD_of_ge]
  · simp [statusWord, BitVec.getLsbD_of_ge]
  · simp [statusWord, BitVec.getLsbD_of_ge]
  · simp [statusWord, BitVec.getLsbD_of_ge]
  · simp [statusWord, BitVec.getLsbD_of_ge]
  · ext i hi
    simp (disch := omega) [statusWord, BitVec.getLsbD_eq_getElem, BitVec.getLsbD_of_ge]
  · simp [statusWord, BitVec.getLsbD_of_ge]
  · simp [statusWord, BitVec.getLsbD_of_ge]
  · ext i hi
    simp (disch := omega) [statusWord, BitVec.getLsbD_of_ge]

/-- Settles O9: the low words by their definition, the tables' words by the address of each entry. -/
theorem statusWordFields : Obligations.StatusWordFields := by
  refine ⟨statusWord_fields, rfl, rfl, rfl, rfl, fun e => ?_, fun e x hx => ?_, fun e i hlo hhi => ?_,
    fun e a ha => regRead_reserved e ha⟩
  · obtain ⟨hroot, hvalid, hroot0⟩ := flagged_fields e.tree.root e.tree.rootValid (by decide)
    obtain ⟨hbuf, hcnt, hbw0⟩ := pair_fields e.bw.buf e.bw.cnt (by decide)
    obtain ⟨hbyte, hpos, heos, hbr0⟩ := readerWord_fields e.br
    exact ⟨rfl, rfl, hroot, hvalid, hroot0, rfl, rfl, hbuf, hcnt, hbw0, hbyte, hpos, heos, hbr0, rfl, rfl⟩
  · have h : x < 256 := Nat.lt_succ_of_le hx
    obtain ⟨hlen, hhas, hzero⟩ := flagged_fields (cbLen e x) (cbHas e x) (by decide)
    rw [regRead_codeInfo e h]
    exact ⟨regRead_count e h, hlen, hhas, hzero, regRead_queue e h⟩
  · have h : i - 256 < 255 := by omega
    have hi : i - 256 + Config.firstInternal = i := Nat.sub_add_cancel hlo
    obtain ⟨hleft, hright, hzero⟩ := pair_fields (ndGet e i).left (ndGet e i).right (by decide)
    rw [regRead_weight e h, regRead_children e h, hi]
    exact ⟨rfl, hleft, hright, hzero⟩

end Sys2Proof.Machine
end

-- ==== Proofs: the contents of the streams ====
section
namespace Sys2Proof.Machine

/-! ### Claims about the contents of the streams -/

/-- A claim about the source's content and the sink's (`20_memory.md` R61, R64). -/
def OfStreams (C : List Byte → List Byte → Prop) (s : State) : Prop := C s.env.src s.env.snk

/-- The procedure keeps the claim, however it ends. -/
abbrev StreamsKept {ε α : Type} (C : List Byte → List Byte → Prop) (p : EStateM ε State α) : Prop :=
  Leads (OfStreams C) (OfStreams C) (OfStreams C) p

/-- Sending a byte to the sink keeps the claim. -/
def KeptBySending (C : List Byte → List Byte → Prop) : Prop := ∀ src snk b, C src snk → C src (snk ++ [b])

/-- Emptying the sink keeps the claim. -/
def KeptByEmptying (C : List Byte → List Byte → Prop) : Prop := ∀ src snk, C src snk → C src []

variable {C : List Byte → List Byte → Prop}

/-- A `require` touches no stream, whether it passes or raises. -/
theorem streams_require_bind {β : Type} {c : Bool} {k : FaultKind} {q : Unit → Proc β} (hq : StreamsKept C (q ())) :
    StreamsKept C (require c k >>= q) := Leads.require_bind (fun _ h => h) fun _ => hq

/-- A write to registers touches no stream. -/
theorem streams_modEng_bind {β : Type} {f : Engine → Engine} {q : Unit → Proc β} (hq : StreamsKept C (q ())) :
    StreamsKept C (modEng f >>= q) := Leads.modEng_bind (fun _ h => h) hq

/-! ### Procedures that send nothing: every claim is kept

A claim that emptying the sink breaks is not kept by all units, so `UnitsKeep` does not give it: it is taken through
each command on its own, from the units the command is made of. -/

theorem srcOpenCall_streams : StreamsKept C srcOpenCall := by
  intro s h
  rw [run_srcOpenCall]
  cases nextAnswerOf s <;> exact h

theorem snkCloseCall_streams : StreamsKept C snkCloseCall := by
  intro s h
  rw [run_snkCloseCall]
  cases nextAnswerOf s <;> exact h

theorem srcByte_streams : StreamsKept C srcByte := by
  intro s h
  rw [run_srcByte]
  split
  · cases nextAnswerOf s with
    | normal => cases s.env.src[s.env.srcPos]? <;> exact h
    | _ => exact h
  · exact h

theorem readBit_streams : StreamsKept C readBit := by
  intro s h
  rw [run_readBit]
  split
  · exact h
  · split
    · split
      · cases nextAnswerOf s with
        | normal => cases s.env.src[s.env.srcPos]? <;> exact h
        | _ => exact h
      · exact h
    · exact h

theorem pSrcOpen_streams : StreamsKept C pSrcOpen :=
  Leads.read fun _ => streams_require_bind <| srcOpenCall_streams.call.bind fun _ =>
    streams_require_bind <| streams_modEng_bind <| Leads.done _

theorem pSrcClose_streams : StreamsKept C pSrcClose := by
  intro s h
  rw [run_pSrcClose]
  split
  · cases nextAnswerOf s <;> exact h
  · exact h

theorem pSnkClose_streams : StreamsKept C pSnkClose := by
  refine Leads.read fun e => ?_
  split
  · exact streams_modEng_bind <| snkCloseCall_streams.call.bind fun _ =>
      streams_modEng_bind <| streams_require_bind <| Leads.done _
  · exact Leads.done _

theorem pFtClr_streams : StreamsKept C pFtClr := streams_modEng_bind (Leads.done _)

theorem pFtInc_streams (a : Byte) : StreamsKept C (pFtInc a) :=
  Leads.read fun _ => streams_require_bind <| streams_modEng_bind (Leads.done _)

theorem scanLoop_streams (n : Nat) : StreamsKept C (scanLoop n) := by
  induction n with
  | zero => exact Leads.stuck (fun _ h => h) _
  | succ n ih =>
    refine srcByte_streams.bind fun r => ?_
    cases r with
    | none => exact Leads.done ()
    | some b => exact (pFtInc_streams b).bind fun _ => ih

theorem pFtScan_streams : StreamsKept C pFtScan :=
  (Leads.ofState scanLoop_streams _).bind fun _ => Leads.read fun _ => Leads.done _

theorem pHtInit_streams : StreamsKept C pHtInit :=
  streams_modEng_bind <| Leads.read fun _ => Leads.done _

theorem pHtStep_streams : StreamsKept C pHtStep :=
  Leads.read fun _ => streams_require_bind <| streams_modEng_bind (Leads.done _)

theorem mergeLoop_streams (n : Nat) : StreamsKept C (mergeLoop n) := by
  induction n with
  | zero => exact Leads.stuck (fun _ h => h) _
  | succ n ih =>
    refine Leads.read fun e => ?_
    split
    · exact pHtStep_streams.bind fun _ => ih
    · exact Leads.done ()

theorem pHtBuild_streams : StreamsKept C pHtBuild :=
  pHtInit_streams.bind fun _ => (Leads.ofState mergeLoop_streams _).bind fun _ => Leads.read fun _ => Leads.done _

theorem pCbBuild_streams : StreamsKept C pCbBuild := by
  refine Leads.read fun e => streams_require_bind ?_
  cases buildBook e with
  | none => exact Leads.stuck (fun _ h => h) _
  | some b => exact streams_modEng_bind (Leads.done _)

theorem pBrBit_streams : StreamsKept C pBrBit := readBit_streams.bind fun _ => Leads.done _

theorem pHdrRd_streams : StreamsKept C pHdrRd :=
  Leads.hdrRd (H := OfStreams C) (fun _ h => h) (fun _ h => h) readBit_streams (fun _ _ _ _ h => h)
    (fun _ _ h => h) fun _ h _ => h

theorem walkToLeaf_streams (n : Nat) : StreamsKept C (walkToLeaf n) := by
  induction n with
  | zero => exact Leads.stuck (fun _ h => h) _
  | succ n ih =>
    refine Leads.read fun e => ?_
    split
    · exact Leads.done ()
    · refine readBit_streams.bind fun r => ?_
      cases r with
      | none => exact Leads.raise (fun _ h => h) _
      | some b => exact streams_modEng_bind ih

/-! ### Procedures that send: a claim kept by sending is kept -/

section Sending

variable (hsend : KeptBySending C)
include hsend

theorem flushByte_streams (v : Byte) : StreamsKept C (flushByte v) := by
  intro s h
  rw [run_flushByte]
  cases nextAnswerOf s with
  | normal => exact hsend _ _ v h
  | _ => exact h

theorem writeBit_streams (b : Bool) : StreamsKept C (writeBit b) := by
  intro s h
  rw [run_writeBit]
  split
  · split
    · exact flushByte_streams hsend _ s h
    · exact h
  · exact h

theorem sinkByte_streams (b : Byte) : StreamsKept C (sinkByte b) := by
  intro s h
  rw [run_sinkByte]
  split
  · cases nextAnswerOf s with
    | normal => exact hsend _ _ b h
    | _ => exact h
  · exact h

theorem writeBits_streams (bits : List Bool) : StreamsKept C (writeBits bits) := by
  induction bits with
  | nil => exact Leads.done ()
  | cons b bits ih => exact (writeBit_streams hsend b).bind fun _ => ih

theorem writeWords_streams (ws : List U32) : StreamsKept C (writeWords ws) := by
  induction ws with
  | nil => exact Leads.done ()
  | cons w ws ih => exact (writeBits_streams hsend (wordBits w)).bind fun _ => ih

theorem pBwBit_streams (a : BitVec 8) : StreamsKept C (pBwBit a) := by
  unfold pBwBit
  cases bitOperand a with
  | none => exact Leads.raise (fun _ h => h) _
  | some b => exact (writeBit_streams hsend b).bind fun _ => Leads.done _

theorem flushPadded_streams : StreamsKept C flushPadded := by
  refine Leads.read fun e => ?_
  split
  · exact Leads.done _
  · exact (flushByte_streams hsend _).bind fun _ => Leads.done _

theorem pBwClose_streams : StreamsKept C pBwClose :=
  Leads.read fun _ => streams_require_bind <| (flushPadded_streams hsend).bind fun _ =>
    snkCloseCall_streams.call.bind fun _ => streams_modEng_bind <|
    streams_require_bind <| Leads.done _

theorem pHdrWr_streams : StreamsKept C pHdrWr :=
  Leads.read fun _ => (writeWords_streams hsend _).bind fun _ => Leads.done _

theorem pEncSym_streams (a : Byte) : StreamsKept C (pEncSym a) :=
  Leads.read fun _ => streams_require_bind <| (writeBits_streams hsend _).bind fun _ =>
    Leads.done _

theorem encodeLoop_streams (n : Nat) : StreamsKept C (encodeLoop n) := by
  induction n with
  | zero => exact Leads.stuck (fun _ h => h) _
  | succ n ih =>
    refine srcByte_streams.bind fun r => ?_
    cases r with
    | none => exact Leads.done ()
    | some b => exact (pEncSym_streams hsend b).bind fun _ => ih

theorem pEncRun_streams : StreamsKept C pEncRun :=
  Leads.read fun _ => streams_require_bind <|
    (Leads.ofState (encodeLoop_streams hsend) _).bind fun _ => Leads.done _

theorem pDecSym_streams : StreamsKept C pDecSym :=
  Leads.read fun _ => streams_require_bind <| streams_modEng_bind <|
    (Leads.ofState walkToLeaf_streams _).bind fun _ => Leads.read fun _ => (sinkByte_streams hsend _).bind fun _ =>
    streams_modEng_bind (Leads.done _)

theorem decodeLoop_streams (n : Nat) : StreamsKept C (decodeLoop n) := by
  induction n with
  | zero => exact Leads.done ()
  | succ n ih => exact (pDecSym_streams hsend).bind fun _ => ih

theorem pDecRun_streams : StreamsKept C pDecRun :=
  Leads.read fun _ => streams_require_bind <| (decodeLoop_streams hsend _).bind fun _ =>
    Leads.done _

end Sending

/-! ### Opening the sink -/

theorem snkOpenCall_streams (hempty : KeptByEmptying C) : StreamsKept C snkOpenCall := by
  intro s h
  rw [run_snkOpenCall]
  cases nextAnswerOf s with
  | normal => exact hempty _ _ h
  | _ => exact h

theorem pSnkOpen_streams (hempty : KeptByEmptying C) : StreamsKept C pSnkOpen :=
  Leads.read fun _ => streams_require_bind <| (snkOpenCall_streams hempty).call.bind fun _ =>
    streams_require_bind <| streams_modEng_bind <| Leads.done _

/-- A claim kept by sending and by emptying is kept by every unit, so by the composites too. -/
theorem units_keep_streams (hsend : KeptBySending C) (hempty : KeptByEmptying C) :
    UnitsKeep (OfStreams C) (OfStreams C) where
  stop := fun _ h => h
  srcOpen := pSrcOpen_streams
  srcClose := pSrcClose_streams
  snkOpen := pSnkOpen_streams hempty
  snkClose := pSnkClose_streams
  bwClose := pBwClose_streams hsend
  writeBit := writeBit_streams hsend
  readBit := readBit_streams
  srcByte := srcByte_streams
  sinkByte := sinkByte_streams hsend
  ftClr := pFtClr_streams
  ftInc := pFtInc_streams
  htInit := pHtInit_streams
  htStep := pHtStep_streams
  cbBuild := pCbBuild_streams
  hdrRd := pHdrRd_streams
  cursor := fun _ _ h => h

/-! ### Every command -/

/-- The commands of the control, the table, the tree, the code book and the readers, which send no byte. -/
def SendsNothing (i : Instr) : Prop :=
  i ∈ [.nop, .reset, .srcOpen, .srcClose, .snkClose, .ftClr, .ftScan, .htInit, .htStep, .htBuild, .cbBuild,
      .brBit, .hdrRd] ∨ (∃ a, i = .ftInc a)

/-- The commands that open the sink, and so empty it (`20_memory.md` R64). -/
def OpensSink (i : Instr) : Prop := i = .snkOpen ∨ i = .compress ∨ i = .decompress

/-- What a claim needs for a command to keep it. -/
theorem command_streams {i : Instr} {p : Proc U32} (hp : procOf i = some p)
    (hsend : ¬ SendsNothing i → KeptBySending C) (hempty : OpensSink i → KeptByEmptying C) : StreamsKept C p := by
  cases i <;> cases hp
  case srcOpen => exact pSrcOpen_streams
  case srcClose => exact pSrcClose_streams
  case snkOpen => exact pSnkOpen_streams (hempty (by simp [OpensSink]))
  case snkClose => exact pSnkClose_streams
  case ftClr => exact pFtClr_streams
  case ftInc a => exact pFtInc_streams a
  case ftScan => exact pFtScan_streams
  case htInit => exact pHtInit_streams
  case htStep => exact pHtStep_streams
  case htBuild => exact pHtBuild_streams
  case cbBuild => exact pCbBuild_streams
  case bwBit a => exact pBwBit_streams (hsend (by simp [SendsNothing])) a
  case bwClose => exact pBwClose_streams (hsend (by simp [SendsNothing]))
  case brBit => exact pBrBit_streams
  case hdrWr => exact pHdrWr_streams (hsend (by simp [SendsNothing]))
  case hdrRd => exact pHdrRd_streams
  case encSym a => exact pEncSym_streams (hsend (by simp [SendsNothing])) a
  case encRun => exact pEncRun_streams (hsend (by simp [SendsNothing]))
  case decSym => exact pDecSym_streams (hsend (by simp [SendsNothing]))
  case decRun => exact pDecRun_streams (hsend (by simp [SendsNothing]))
  case compress =>
    exact (units_keep_streams (hsend (by simp [SendsNothing])) (hempty (by simp [OpensSink]))).compress
  case decompress =>
    exact (units_keep_streams (hsend (by simp [SendsNothing])) (hempty (by simp [OpensSink]))).decompress

theorem releaseReset_streams {s : State} {v : Env} (hs : OfStreams C s) (hv : ReleaseReset s v) :
    C v.src v.snk := by
  obtain ⟨hsrc, -, hsnk⟩ := hv.streams
  rw [hsrc, hsnk]
  exact hs

/-- The response, the fault's entry and hardware reset leave both contents alone. -/
theorem procNext_streams {p : Proc U32} {s u : State} (hp : StreamsKept C p) (hs : OfStreams C s)
    (hn : ProcNext p s u) : OfStreams C u := by
  rcases hn with ⟨-, rfl⟩ | ⟨-, v, t, ht, rfl⟩ | ⟨-, k, t, ht, -, rfl⟩ | ⟨-, t, ht, rfl⟩ |
    ⟨-, k, t, v, ht, hv, rfl⟩
  · exact hs
  · exact (hp.of_ok hs ht :)
  · exact (hp.of_error hs ht :)
  · exact (hp.of_error hs ht :)
  · exact releaseReset_streams (hp.of_error hs ht) hv

/-- What a claim needs for `Exec` of a command to keep it. -/
theorem exec_streams {i : Instr} {s t : State} (h : exec i s = .next t)
    (hsend : ¬ SendsNothing i → KeptBySending C) (hempty : OpensSink i → KeptByEmptying C) (hs : OfStreams C s) :
    OfStreams C t := by
  rcases exec_next h with ⟨-, rfl⟩ | ⟨-, ⟨-, rfl⟩ | ⟨v, hv, rfl⟩⟩ | ⟨p, hp, hn⟩
  · exact hs
  · exact hs
  · exact releaseReset_streams hs hv
  · exact procNext_streams (command_streams hp hsend hempty) hs hn

/-- Settles O55: three claims about the contents, of which sending and emptying keep the first, sending the second,
and neither the third. -/
theorem streamsChangeOnlyAsStated : Obligations.StreamsChangeOnlyAsStated := by
  intro i s t h
  refine ⟨?_, fun hopen hcompress hdecompress => ?_, fun hi => ?_⟩
  · exact exec_streams (C := fun src _ => src = s.env.src) h (fun _ _ _ _ hc => hc) (fun _ _ _ hc => hc) rfl
  · have hopens : ¬ OpensSink i := by simp [OpensSink, hopen, hcompress, hdecompress]
    refine exec_streams (C := fun _ snk => ∃ sent, snk = s.env.snk ++ sent) h (fun _ _ snk b hc => ?_)
      (fun ho => absurd ho hopens) ⟨[], by simp⟩
    obtain ⟨sent, rfl⟩ := hc
    exact ⟨sent ++ [b], List.append_assoc _ _ _⟩
  · have hopens : ¬ OpensSink i := by
      rintro (rfl | rfl | rfl) <;> simp at hi
    exact exec_streams (C := fun _ snk => snk = s.env.snk) h (fun hn => absurd hi hn)
      (fun ho => absurd ho hopens) rfl

end Sys2Proof.Machine
end

-- ==== Proofs: the encoding of the commands ====
section
namespace Sys2Proof.Machine

/-! ### The fields of a word (`30_encoding.md` R90) -/

@[simp] theorem encode_opcode (i : Instr) : (encode i).opcode = i.opcode := (Laws.Fields.fields_of_append _ _).1

@[simp] theorem encode_operand (i : Instr) : (encode i).operand = i.operand := (Laws.Fields.fields_of_append _ _).2

theorem opcode_append_operand (w : Command) : w.opcode ++ w.operand = w := by
  have hglue : w.opcode ++ w.operand = w.extractLsb' 0 (8 + 8) :=
    BitVec.extractLsb'_append_extractLsb'_eq_extractLsb' rfl
  rw [hglue, BitVec.extractLsb'_eq_self]

theorem encode_eq_iff {i : Instr} {w : Command} :
    encode i = w ↔ i.opcode = w.opcode ∧ i.operand = w.operand := by
  constructor
  · rintro rfl
    simp
  · rintro ⟨hop, harg⟩
    rw [encode, hop, harg, opcode_append_operand]

/-! ### The opcode map (`30_encoding.md` R92) -/

/-- The 24 opcodes in use. -/
def usedOpcodes : List (BitVec 8) :=
  [0x00#8, 0x01#8, 0x02#8, 0x03#8, 0x04#8, 0x05#8, 0x10#8, 0x11#8, 0x12#8, 0x20#8, 0x21#8, 0x22#8, 0x30#8,
    0x40#8, 0x41#8, 0x50#8, 0x60#8, 0x61#8, 0x70#8, 0x71#8, 0x80#8, 0x81#8, 0xF0#8, 0xF1#8]

theorem opcodeMap_keys (a : BitVec 8) : (opcodeMap a).map Prod.fst = usedOpcodes.map BitVec.toNat := rfl

/-- Each row of the map holds its command's own opcode, and passes the operand given to a command that has one. -/
theorem opcodeMap_row (a : BitVec 8) :
    ∀ row ∈ opcodeMap a, row.1 = row.2.opcode.toNat ∧ (row.2.kind ≠ .none → row.2.operand = a) := by
  simp [opcodeMap, Instr.opcode, Instr.kind, Instr.operand]

theorem operand_of_kind_none {i : Instr} (h : i.kind = .none) : i.operand = 0#8 := by
  cases i <;> cases h <;> rfl

theorem kind_eq_none_iff (i : Instr) : i.kind = .none ↔ i.opcode ∉ [0x11#8, 0x70#8, 0x40#8] := by
  cases i <;> simp [Instr.kind, Instr.opcode]

theorem kind_eq_bit_iff (i : Instr) : i.kind = .bit ↔ i.opcode = 0x40#8 := by
  cases i <;> simp [Instr.kind, Instr.opcode]

theorem legal_iff (k : OperandKind) (a : BitVec 8) :
    k.legal a = true ↔ ¬ ((k = .none ∧ a ≠ 0#8) ∨ (k = .bit ∧ 1 < a.toNat)) := by
  cases k <;> simp [OperandKind.legal]

theorem selectCommand_opcode_operand (i : Instr) : selectCommand i.opcode i.operand = some i := by
  cases i <;> rfl

theorem of_selectCommand {op a : BitVec 8} {i : Instr} (h : selectCommand op a = some i) :
    i.opcode = op ∧ (i.kind ≠ .none → i.operand = a) := by
  obtain ⟨before, after, hmap, -⟩ := List.lookup_eq_some_iff.mp h
  obtain ⟨hkey, harg⟩ := opcodeMap_row a (op.toNat, i) (by simp [hmap])
  exact ⟨(BitVec.eq_of_toNat_eq hkey).symm, harg⟩

theorem selectCommand_eq_none_iff (op a : BitVec 8) : selectCommand op a = none ↔ op ∉ usedOpcodes := by
  rw [← List.mem_map_of_injective BitVec.toNat_injective, ← opcodeMap_keys a, selectCommand,
    List.lookup_eq_none_iff]
  simp only [List.mem_map, bne_iff_ne, not_exists, not_and]
  exact forall₂_congr fun _ _ => ne_comm

/-! ### Decoding and encoding are inverse (`30_encoding.md` R92, R95) -/

theorem decode_eq_ok_iff_select {w : Command} {i : Instr} :
    decode w = .ok i ↔ selectCommand w.opcode w.operand = some i ∧ i.kind.legal w.operand = true := by
  unfold decode
  cases selectCommand w.opcode w.operand with
  | none => simp
  | some j =>
    by_cases hlegal : j.kind.legal w.operand = true
    · simp only [hlegal, if_true, Except.ok.injEq, Option.some.injEq]
      exact ⟨fun h => ⟨h, h ▸ hlegal⟩, And.left⟩
    · simp only [hlegal, if_false, Option.some.injEq, reduceCtorEq, false_iff]
      exact fun h => hlegal (h.1 ▸ h.2)

/-- A legal operand is the command's own: a command of kind `none` has operand 0, and only 0 is legal there. -/
theorem operand_of_legal {i : Instr} {a : BitVec 8} (harg : i.kind ≠ .none → i.operand = a)
    (hlegal : i.kind.legal a = true) : i.operand = a := by
  by_cases hkind : i.kind = .none
  · rw [hkind] at hlegal
    exact (operand_of_kind_none hkind).trans (beq_iff_eq.mp hlegal).symm
  · exact harg hkind

/-- What decoding answers: the one well-formed command whose word it is. -/
theorem decode_eq_ok_iff {w : Command} {i : Instr} :
    decode w = .ok i ↔ encode i = w ∧ i.wellFormed = true := by
  rw [decode_eq_ok_iff_select, encode_eq_iff]
  constructor
  · rintro ⟨hselect, hlegal⟩
    obtain ⟨hop, harg⟩ := of_selectCommand hselect
    have hown : i.operand = w.operand := operand_of_legal harg hlegal
    exact ⟨⟨hop, hown⟩, by rw [Instr.wellFormed, hown, hlegal]⟩
  · rintro ⟨⟨hop, harg⟩, hwf⟩
    rw [← hop, ← harg]
    exact ⟨selectCommand_opcode_operand i, hwf⟩

theorem decode_of_encode_eq {w : Command} {i : Instr} (hword : encode i = w) (hwf : i.wellFormed = true) :
    decode w = .ok i := decode_eq_ok_iff.mpr ⟨hword, hwf⟩

/-- Settles O1: what decoding answers, at the word of the command. -/
theorem decodeOfEncode : Obligations.DecodeOfEncode := fun _ => decode_of_encode_eq rfl

/-- Settles O2: what decoding answers, read from the answer. -/
theorem encodeOfDecode : Obligations.EncodeOfDecode := fun _ _ => decode_eq_ok_iff.mp

/-- Settles O3: each word is put together of the opcode and the operand of its command. -/
theorem decodedWordsOfTheMap : Obligations.DecodedWordsOfTheMap := by
  unfold Obligations.DecodedWordsOfTheMap
  and_intros <;> exact decode_of_encode_eq rfl rfl

/-! ### The legal words (`30_encoding.md` R95) -/

/-- Every byte, in order. -/
def allBytes : List (BitVec 8) := (List.finRange 256).map BitVec.ofFin

theorem allBytes_length : allBytes.length = 256 := by simp [allBytes]

theorem mem_allBytes (a : BitVec 8) : a ∈ allBytes := List.mem_map.mpr ⟨a.toFin, List.mem_finRange _, rfl⟩

theorem allBytes_nodup : allBytes.Nodup :=
  (List.nodup_finRange 256).map fun _ _ h => congrArg BitVec.toFin h

/-- The 21 commands of kind `none`. -/
def operandlessCommands : List Instr :=
  [.nop, .reset, .srcOpen, .srcClose, .snkOpen, .snkClose, .ftClr, .ftScan, .htInit, .htStep, .htBuild,
    .cbBuild, .bwClose, .brBit, .hdrWr, .hdrRd, .encRun, .decSym, .decRun, .compress, .decompress]

/-- The well-formed commands: 21 without an operand, `BW_BIT` with 0 or 1, and two with any byte. -/
def legalCommands : List Instr :=
  operandlessCommands ++ [.bwBit 0#8, .bwBit 1#8] ++ (allBytes.map .ftInc ++ allBytes.map .encSym)

theorem mem_legalCommands_iff (i : Instr) : i ∈ legalCommands ↔ i.wellFormed = true := by
  have hbit : ∀ a : BitVec 8, a = 0#8 ∨ a = 1#8 ↔ a.toNat ≤ 1 := fun a => by bv_omega
  cases i <;>
    simp [legalCommands, operandlessCommands, mem_allBytes, Instr.wellFormed, Instr.kind, Instr.operand,
      OperandKind.legal, hbit]

theorem legalCommands_nodup : legalCommands.Nodup := by
  have hfixed : (operandlessCommands ++ [Instr.bwBit 0#8, Instr.bwBit 1#8]).Nodup := by decide
  have hinc : (allBytes.map Instr.ftInc).Nodup := allBytes_nodup.map fun _ _ => Instr.ftInc.inj
  have henc : (allBytes.map Instr.encSym).Nodup := allBytes_nodup.map fun _ _ => Instr.encSym.inj
  refine hfixed.append (hinc.append henc ?_) ?_ <;> simp [List.Disjoint, operandlessCommands]

/-- The words that decode. -/
def legalWords : List Command := legalCommands.map encode

theorem legalWords_length : legalWords.length = 535 := by
  simp [legalWords, legalCommands, operandlessCommands, allBytes_length]

theorem mem_legalWords_iff (w : Command) : w ∈ legalWords ↔ ∃ i, decode w = .ok i := by
  simp [legalWords, mem_legalCommands_iff, decode_eq_ok_iff, and_comm]

/-- Two well-formed commands with one word are both what that word decodes to. -/
theorem legalWords_nodup : legalWords.Nodup := by
  refine List.Nodup.map_on (fun i hi j hj hword => ?_) legalCommands_nodup
  have hdecode : decode (encode i) = .ok i := decodeOfEncode i ((mem_legalCommands_iff i).mp hi)
  rw [hword, decodeOfEncode j ((mem_legalCommands_iff j).mp hj)] at hdecode
  exact (Except.ok.inj hdecode).symm

/-- The three ways in which a word is illegal (`30_encoding.md` R95). -/
theorem notMem_legalWords_iff (w : Command) :
    w ∉ legalWords ↔ w.opcode ∉ usedOpcodes ∨
      (w.opcode ∉ [0x11#8, 0x70#8, 0x40#8] ∧ w.operand ≠ 0#8) ∨ (w.opcode = 0x40#8 ∧ 1 < w.operand.toNat) := by
  simp only [mem_legalWords_iff, decode_eq_ok_iff_select]
  cases hselect : selectCommand w.opcode w.operand with
  | none =>
    have hunused : w.opcode ∉ usedOpcodes := (selectCommand_eq_none_iff _ _).mp hselect
    simp [hunused]
  | some i =>
    have hused : ¬ w.opcode ∉ usedOpcodes := by simp [← selectCommand_eq_none_iff _ w.operand, hselect]
    rw [← (of_selectCommand hselect).1] at hused ⊢
    rw [or_iff_right hused, ← kind_eq_none_iff, ← kind_eq_bit_iff, ← not_iff_not, ← legal_iff]
    simp

/-- An illegal word in a ready state raises `BadCommand`, and nothing else happens (`30_encoding.md` R93, R95). -/
theorem runCommand_illegal {w : Command} (hw : ¬ ∃ i, decode w = .ok i) {s : State} (hs : Ready s)
    (hrelease : ReleaseAnswered s) : runCommand w s = .next (faultState .badCommand s) := by
  cases hdecode : decode w with
  | ok i => exact absurd ⟨i, hdecode⟩ hw
  | error r =>
    calc runCommand w s = execIllegal s := by simp only [runCommand, hdecode]
      _ = .next (faultState .badCommand s) := execute_of_raise hs (run_raise _ s) hrelease

/-- Settles O4: the words of the well-formed commands are the legal ones. -/
theorem illegalWordsRaiseBadCommand : Obligations.IllegalWordsRaiseBadCommand :=
  ⟨legalWords, legalWords_length, legalWords_nodup, mem_legalWords_iff, fun w =>
    ⟨notMem_legalWords_iff w, fun hw _ hs hrelease =>
      ⟨runCommand_illegal (mt (mem_legalWords_iff w).mpr hw) hs hrelease, rfl⟩⟩⟩

end Sys2Proof.Machine
end

-- ==== Proofs: the bit writer and the bit reader ====
section
namespace Sys2Proof.Machine

/-! ### Commands one after another (`30_encoding.md` R97) -/

theorem execAll_cons {i : Instr} {s t : State} (h : exec i s = .next t) (rest : List Instr) :
    execAll (i :: rest) s = execAll rest t := by
  simp only [execAll, h]

/-! ### Opening a stream (`46_control.md` R243, R245) -/

/-- The state after SNK_OPEN (R245), where it is answered: the sink empty, a fresh writer. -/
def sinkOpened (s : State) : State :=
  { s with
    eng := { s.eng with bw := { buf := 0#8, cnt := 0#3, isOpen := true } }
    env := { afterCalls 1 s.env with snk := [], snkDone := false } }

theorem pSnkOpen_of_normal {s : State} (hc : s.eng.bw.isOpen = false) (hn : nextAnswerOf s = .normal) :
    pSnkOpen s = .ok 0#32 (sinkOpened s) := by
  have hreq : require (!s.eng.bw.isOpen) .badSequence s = .ok () s := by simp [hc]
  unfold pSnkOpen
  rw [bind_of_ok (run_getEng s), bind_of_ok hreq, run_bind, call, run_snkOpenCall, hn]
  rfl

/-- The state after SRC_OPEN (R243), where it is answered: the source at byte 0, a fresh reader. -/
def sourceOpened (s : State) : State :=
  { s with
    eng := { s.eng with br := { buf := 0#8, pos := 8#4, eos := false, isOpen := true } }
    env := { afterCalls 1 s.env with srcPos := 0 } }

theorem pSrcOpen_of_normal {s : State} (hc : s.eng.br.isOpen = false) (hn : nextAnswerOf s = .normal) :
    pSrcOpen s = .ok 0#32 (sourceOpened s) := by
  have hreq : require (!s.eng.br.isOpen) .badSequence s = .ok () s := by simp [hc]
  unfold pSrcOpen
  rw [bind_of_ok (run_getEng s), bind_of_ok hreq, run_bind, call, run_srcOpenCall, hn]
  rfl

/-! ### BW_BIT (`40_bitio.md` R121, R122) -/

/-- A legal bit operand is its own low bit. -/
theorem bitOperand_of_le {a : BitVec 8} (h : a.toNat ≤ 1) : ∃ b, bitOperand a = some b ∧ lowBit b = a := by
  have ha : a = 0#8 ∨ a = 1#8 := by bv_omega
  rcases ha with rfl | rfl
  · exact ⟨false, rfl, rfl⟩
  · exact ⟨true, rfl, rfl⟩

theorem bitOperand_of_bit (b : Bool) : bitOperand (if b then 1#8 else 0#8) = some b := by
  cases b <;> rfl

section BwBit

variable {a : BitVec 8} {b : Bool} {s t : State} (hb : bitOperand a = some b) (hs : Ready s)
include hb

theorem pBwBit_eq : pBwBit a = (do writeBit b; pure 0#32) := by
  rw [pBwBit, hb]

include hs

theorem exec_bwBit_of_ok (h : writeBit b s = .ok () t) : exec (.bwBit a) s = .next (answeredOk 0#32 t) := by
  rw [exec_eq rfl, pBwBit_eq hb]
  exact execute_of_ok hs (bind_of_ok h _)

theorem exec_bwBit_of_raise {k : FaultKind} (h : writeBit b s = .error (.raise k) t) (ht : ReleaseAnswered t) :
    exec (.bwBit a) s = .next (faultState k t) := by
  rw [exec_eq rfl, pBwBit_eq hb]
  exact execute_of_raise hs (bind_of_error h _) ht

end BwBit

/-- Settles O32: the three cases of `WriteBit` on an open sink, for the bit the operand stands for. -/
theorem bwBitAppendsBit : Obligations.BwBitAppendsBit := by
  intro s a hs ha ho v
  obtain ⟨b, hb, rfl⟩ := bitOperand_of_le ha
  have hwrite := run_writeBit b s
  rw [if_pos ho, ho] at hwrite
  refine ⟨fun h7 => ?_, fun h7 hn => ?_, fun h7 hn hr => ?_⟩
  · rw [if_neg h7] at hwrite
    exact exec_bwBit_of_ok hb hs hwrite
  · rw [if_pos h7, run_flushByte, hn, ho] at hwrite
    exact exec_bwBit_of_ok hb hs hwrite
  · rw [if_pos h7, run_flushByte, hn] at hwrite
    exact exec_bwBit_of_raise hb hs hwrite hr

/-! ### BW_CLOSE (`40_bitio.md` R123) -/

/-- The end of BW_CLOSE and of SNK_CLOSE: the sink is closed and released, whichever way it is answered. -/
def closeSink (v : U32) : Proc U32 := do
  let ok ← call snkCloseCall
  modEng (setSnkOpen false)
  require ok .ioUnavailable
  pure v

/-- The state after an answered `SnkClose`, the sink released. -/
def sinkClosed (s : State) : State :=
  { s with
    eng := { s.eng with bw := { s.eng.bw with isOpen := false } }
    env := { afterCalls 1 s.env with snkDone := true } }

theorem run_closeSink (v : U32) (s : State) :
    closeSink v s = (match nextAnswerOf s with
      | .normal => .ok v (sinkClosed s)
      | .ioErr => .error (.raise .ioUnavailable) (sinkClosed s)
      | .silent => .error (.cut (.fault .environmentSilent)) (asked s)
      | .hwReset => .error (.cut .hwReset) (asked s)) := by
  unfold closeSink
  rw [run_bind, call, run_snkCloseCall]
  cases nextAnswerOf s <;> rfl

/-- How many zeros fill the waiting bits up to a byte, where any wait. -/
def padOf (s : State) : Nat := 8 - s.eng.bw.cnt.toNat

/-- The state after the waiting bits were sent, padded with zeros on the right. -/
def padFlushed (s : State) : State :=
  { s with
    eng := { s.eng with bw := { buf := 0#8, cnt := 0#3, isOpen := s.eng.bw.isOpen } }
    env := { afterCalls 1 s.env with snk := s.env.snk ++ [s.eng.bw.buf <<< padOf s] } }

theorem flushPadded_of_empty {s : State} (h : s.eng.bw.cnt = 0#3) : flushPadded s = .ok 0#32 s := by
  unfold flushPadded
  rw [bind_of_ok (run_getEng s), if_pos h]
  rfl

theorem flushPadded_of_waiting {s : State} (h : s.eng.bw.cnt ≠ 0#3) :
    flushPadded s = (match nextAnswerOf s with
      | .normal => .ok (BitVec.ofNat 32 (padOf s)) (padFlushed s)
      | .ioErr => .error (.raise .ioUnavailable) (asked s)
      | .silent => .error (.cut (.fault .environmentSilent)) (asked s)
      | .hwReset => .error (.cut .hwReset) (asked s)) := by
  unfold flushPadded
  rw [bind_of_ok (run_getEng s), if_neg h, run_bind, run_flushByte]
  cases nextAnswerOf s <;> rfl

/-- On an open sink BW_CLOSE is its flush and its close. -/
theorem pBwClose_of_open {s : State} (ho : s.eng.bw.isOpen = true) :
    pBwClose s = (flushPadded >>= closeSink) s := by
  have hreq : require s.eng.bw.isOpen .streamClosed s = .ok () s := by simp [ho]
  unfold pBwClose
  rw [bind_of_ok (run_getEng s), bind_of_ok hreq]
  rfl

theorem pBwClose_of_empty {s : State} (ho : s.eng.bw.isOpen = true) (hc : s.eng.bw.cnt = 0#3) :
    pBwClose s = closeSink 0#32 s := by
  rw [pBwClose_of_open ho, bind_of_ok (flushPadded_of_empty hc)]

theorem pBwClose_of_sent {s : State} (ho : s.eng.bw.isOpen = true) (hc : s.eng.bw.cnt ≠ 0#3)
    (hn : nextAnswerOf s = .normal) :
    pBwClose s = closeSink (BitVec.ofNat 32 (padOf s)) (padFlushed s) := by
  have hflush := flushPadded_of_waiting hc
  rw [hn] at hflush
  rw [pBwClose_of_open ho, bind_of_ok hflush]

theorem pBwClose_of_unsent {s : State} (ho : s.eng.bw.isOpen = true) (hc : s.eng.bw.cnt ≠ 0#3)
    (hn : nextAnswerOf s = .ioErr) : pBwClose s = .error (.raise .ioUnavailable) (asked s) := by
  have hflush := flushPadded_of_waiting hc
  rw [hn] at hflush
  rw [pBwClose_of_open ho, bind_of_error hflush]

theorem sinkClosed_padFlushed (s : State) :
    sinkClosed (padFlushed s) =
      { s with
        eng := { s.eng with bw := { buf := 0#8, cnt := 0#3, isOpen := false } }
        env :=
          { afterCalls 2 s.env with snk := s.env.snk ++ [s.eng.bw.buf <<< padOf s], snkDone := true } } := by
  simp [sinkClosed, padFlushed, afterCalls]

/-- Settles O34: with no bit waiting only the close can fail, else the flush or the close can. -/
theorem bwClosePadsAndCloses : Obligations.BwClosePadsAndCloses := by
  intro s hs ho pad asked' emptied padded
  have hpadded : sinkClosed (padFlushed s) = padded := sinkClosed_padFlushed s
  rw [← hpadded, exec_eq rfl]
  refine ⟨fun hc => ?_, fun hc => ⟨fun hn hr => ?_, fun hn hn2 => ?_, fun hn hn2 hr => ?_⟩⟩
  · have hclose := (pBwClose_of_empty ho hc).trans (run_closeSink 0#32 s)
    refine ⟨fun hn => ?_, fun hn hr => ?_⟩
    · rw [hn] at hclose
      exact execute_of_ok hs hclose
    · rw [hn] at hclose
      exact execute_of_raise hs hclose hr
  · exact execute_of_raise hs (pBwClose_of_unsent ho hc hn) hr
  · have hclose := (pBwClose_of_sent ho hc hn).trans (run_closeSink _ _)
    rw [show nextAnswerOf (padFlushed s) = .normal from hn2] at hclose
    exact execute_of_ok hs hclose
  · have hclose := (pBwClose_of_sent ho hc hn).trans (run_closeSink _ _)
    rw [show nextAnswerOf (padFlushed s) = .ioErr from hn2] at hclose
    exact execute_of_raise hs hclose hr

/-! ### The closed sink -/

section ClosedSink

variable {s : State} (hc : s.eng.bw.isOpen = false)
include hc

theorem writeBit_closed (b : Bool) : writeBit b s = .error (.raise .streamClosed) s := by
  rw [run_writeBit, if_neg (by simp [hc])]

theorem writeBits_closed {bits : List Bool} (h : bits ≠ []) :
    writeBits bits s = .error (.raise .streamClosed) s := by
  cases bits with
  | nil => exact absurd rfl h
  | cons b rest => exact bind_of_error (writeBit_closed hc b) _

theorem write32_closed (w : U32) : write32 w s = .error (.raise .streamClosed) s :=
  writeBits_closed hc (by simp [wordBits])

theorem writeWords_closed {ws : List U32} (h : ws ≠ []) :
    writeWords ws s = .error (.raise .streamClosed) s := by
  cases ws with
  | nil => exact absurd rfl h
  | cons w rest => exact bind_of_error (write32_closed hc w) _

theorem pBwClose_closed : pBwClose s = .error (.raise .streamClosed) s := by
  unfold pBwClose
  rw [bind_of_ok (run_getEng s), bind_of_error (by rw [run_require, hc]; rfl)]

theorem pHdrWr_closed : pHdrWr s = .error (.raise .streamClosed) s := by
  have hwords : headerWords s.eng ≠ [] := List.append_ne_nil_of_right_ne_nil _ (List.cons_ne_nil _ _)
  unfold pHdrWr
  rw [bind_of_ok (run_getEng s), bind_of_error (writeWords_closed hc hwords)]

end ClosedSink

/-- Settles O33: each of the three raises at its first test of the sink. -/
theorem closedSinkRaisesStreamClosed : Obligations.ClosedSinkRaisesStreamClosed := by
  intro s a hs hr hc ha
  obtain ⟨b, hb, -⟩ := bitOperand_of_le ha
  exact ⟨exec_bwBit_of_raise hb hs (writeBit_closed hc b) hr,
    (exec_eq rfl s).trans (execute_of_raise hs (pBwClose_closed hc) hr),
    (exec_eq rfl s).trans (execute_of_raise hs (pHdrWr_closed hc) hr)⟩

/-! ### The bits written (`40_bitio.md` R124) -/

theorem bitsToNat_replicate_false (n : Nat) : bitsToNat (List.replicate n false) = 0 := by
  induction n with
  | zero => rfl
  | succ n ih => rw [List.replicate_succ', bitsToNat_snoc, ih]; rfl

/-- A bit sequence padded is its whole bytes and its rest padded. -/
theorem paddedBytes_eq (bits : List Bool) : paddedBytes bits = wholeBytes bits ++ paddedBytes (restBits bits) := by
  rw [paddedBytes, (wholeBytes_append _ _).1, paddedBytes, restBits_length, Nat.mod_mod]

theorem paddedBytes_length (bits : List Bool) : (paddedBytes bits).length = (bits.length + 7) / 8 := by
  rw [paddedBytes, wholeBytes_length, List.length_append, List.length_replicate]
  omega

/-- Bits that wait in a writer, padded, are the one byte BW_CLOSE sends, or none. -/
theorem paddedBytes_waiting {w : BitWriter} (hw : WriterOk w) :
    paddedBytes (waiting w) = if w.cnt = 0#3 then [] else [w.buf <<< (8 - w.cnt.toNat)] := by
  have hcnt := w.cnt.isLt
  rw [paddedBytes, waiting_length]
  split
  · rename_i h0
    exact wholeBytes_short (by simp [h0])
  · rename_i h0
    have hpos : w.cnt.toNat ≠ 0 := fun h => h0 (BitVec.eq_of_toNat_eq h)
    have hpad : (8 - w.cnt.toNat % 8) % 8 = 8 - w.cnt.toNat := by omega
    have hlen : (waiting w ++ List.replicate (8 - w.cnt.toNat) false).length = 8 := by
      rw [List.length_append, waiting_length, List.length_replicate]
      omega
    have hnum : bitsToNat (waiting w ++ List.replicate (8 - w.cnt.toNat) false)
        = w.buf.toNat <<< (8 - w.cnt.toNat) := by
      rw [bitsToNat_append, bitsToNat_replicate_false, bitsToNat_waiting hw.1, List.length_replicate,
        Nat.shiftLeft_eq, Nat.add_zero]
    rw [hpad, (wholeBytes_eight hlen).1, hnum]
    rfl

/-- BW_CLOSE, where every call is answered: the sink holds all bits, the last byte padded, and is finished. -/
theorem pBwClose_padded {s : State} (ho : s.eng.bw.isOpen = true) (hw : WriterOk s.eng.bw) (hio : IoOk s) :
    ∃ v t, pBwClose s = .ok v t ∧ t.env.snk = s.env.snk ++ paddedBytes (waiting s.eng.bw) ∧
      t.env.snkDone = true := by
  rw [paddedBytes_waiting hw]
  by_cases hc : s.eng.bw.cnt = 0#3
  · refine ⟨0#32, sinkClosed s, ?_, by simp [hc, sinkClosed], rfl⟩
    rw [pBwClose_of_empty ho hc, run_closeSink, ioOk_next hio]
  · have hio' : IoOk (padFlushed s) := ioOk_of_answers hio 1 rfl
    refine ⟨BitVec.ofNat 32 (padOf s), sinkClosed (padFlushed s), ?_,
      by simp [hc, sinkClosed, padFlushed, padOf], rfl⟩
    rw [pBwClose_of_sent ho hc (ioOk_next hio), run_closeSink, ioOk_next hio']

/-- BW_BIT commands for the bits, one after another, write them in order. -/
theorem execAll_bwBits {s : State} (bits : List Bool) (hs : Ready s) (ho : s.eng.bw.isOpen = true)
    (hw : WriterOk s.eng.bw) (hio : IoOk s) :
    execAll (bits.map fun b => .bwBit (if b then 1#8 else 0#8)) (answeredOk 0#32 s)
      = .next (answeredOk 0#32 (written bits s)) := by
  induction bits generalizing s with
  | nil => rw [written_nil ho hw]; rfl
  | cons b bits ih =>
    have hbit : exec (.bwBit (if b then 1#8 else 0#8)) (answeredOk 0#32 s)
        = .next (answeredOk 0#32 (written [b] s)) :=
      exec_bwBit_of_ok (t := written [b] (answeredOk 0#32 s)) (bitOperand_of_bit b) hs
        (writeBit_written b ho hw (ioOk_next hio))
    obtain ⟨hok, hopen⟩ := written_writerOk [b] s
    have hrest := ih (s := written [b] s) hs hopen hok (ioOk_of_answers hio _ rfl)
    rw [List.map_cons, execAll_cons hbit, hrest, written_written]
    rfl

/-- Settles O35: SNK_OPEN leaves nothing waiting, the bits are written in order, and BW_CLOSE pads the rest. -/
theorem writerPacksBits : Obligations.WriterPacksBits := by
  intro s bits hs hio hc
  have hopen : exec .snkOpen s = .next (answeredOk 0#32 (sinkOpened s)) :=
    (exec_eq rfl s).trans (execute_of_ok hs (pSnkOpen_of_normal hc (ioOk_next hio)))
  have hio' : IoOk (sinkOpened s) := ioOk_of_answers hio 1 rfl
  have hbits := execAll_bwBits (s := sinkOpened s) bits hs rfl (writerOk_empty true) hio'
  have hrest : (restBits bits).length < 8 := by rw [restBits_length]; omega
  have hok : WriterOk (writerHolding (restBits bits)) := writerHolding_ok hrest
  obtain ⟨v, u, hclose, hsnk, hdone⟩ := pBwClose_padded (s := answeredOk 0#32 (written bits (sinkOpened s))) rfl
    hok (ioOk_of_answers hio' _ rfl)
  refine ⟨answeredOk 0#32 (written bits (sinkOpened s)), answeredOk v u, (execAll_cons hopen _).trans hbits, rfl,
    wholeBytes_length bits, rfl, ?_, ?_, (exec_eq rfl _).trans (execute_of_ok hs hclose), ?_,
    paddedBytes_length bits, hdone, rfl⟩
  · rw [← waiting_length, ← restBits_length]
    exact congrArg List.length (waiting_writerHolding hrest)
  · exact (bitsToNat_waiting hok.1).symm.trans (congrArg bitsToNat (waiting_writerHolding hrest))
  · calc u.env.snk = wholeBytes bits ++ paddedBytes (waiting (writerHolding (restBits bits))) := hsnk
      _ = paddedBytes bits := by rw [waiting_writerHolding hrest, ← paddedBytes_eq]

/-! ### BR_BIT (`40_bitio.md` R127, R128) -/

theorem bitResult_some (b : Bool) : bitResult (some b) = if b then 1#32 else 0#32 := by
  cases b <;> rfl

section BrBit

variable {s t : State} (hs : Ready s)
include hs

theorem exec_brBit_of_ok {r : Option Bool} (h : readBit s = .ok r t) :
    exec .brBit s = .next (answeredOk (bitResult r) t) :=
  (exec_eq rfl s).trans (execute_of_ok hs (bind_of_ok h _))

theorem exec_brBit_of_raise {k : FaultKind} (h : readBit s = .error (.raise k) t) (ht : ReleaseAnswered t) :
    exec .brBit s = .next (faultState k t) :=
  (exec_eq rfl s).trans (execute_of_raise hs (bind_of_error h _) ht)

end BrBit

/-- Settles O36: the cases of `ReadBit` with the source open where it is called. -/
theorem brBitDeliversNextBit : Obligations.BrBitDeliversNextBit := by
  intro s hs r
  have hread := run_readBit s
  refine ⟨fun he => ?_, fun he hpos => ?_, fun b he h8 ho hn hb => ?_, fun he h8 ho hn hb => ?_,
    fun he h8 ho hn hr => ?_⟩
  · rw [if_pos he] at hread
    exact exec_brBit_of_ok hs hread
  · have h8 : s.eng.br.pos ≠ 8#4 := fun h => by simp [r, h] at hpos
    rw [if_neg (ne_true_of_eq_false he), if_neg h8] at hread
    rw [← bitResult_some]
    exact exec_brBit_of_ok hs hread
  · rw [if_neg (ne_true_of_eq_false he), if_pos h8, if_pos ho, hn, hb] at hread
    rw [← bitResult_some]
    exact exec_brBit_of_ok hs hread
  · rw [if_neg (ne_true_of_eq_false he), if_pos h8, if_pos ho, hn, hb] at hread
    exact exec_brBit_of_ok hs hread
  · rw [if_neg (ne_true_of_eq_false he), if_pos h8, if_pos ho, hn] at hread
    exact exec_brBit_of_raise hs hread hr

/-! ### The bits read (`40_bitio.md` R129) -/

/-- Reading gives the next of the bits left, if one is left, and leaves the others. -/
theorem readBit_unread {s : State} (ho : s.eng.br.isOpen = true) (hr : ReaderOk s) (hio : IoOk s) :
    ∃ t, readBit s = .ok (unread s).head? t ∧ unread t = (unread s).tail ∧ ReaderOk t ∧ readTo s t := by
  cases hu : unread s with
  | nil =>
    obtain ⟨t, hread, hleft, -, hok, hto⟩ := readBit_none ho hr hio hu
    exact ⟨t, hread, hleft, hok, hto⟩
  | cons b rest => exact readBit_some ho hr hio hu

theorem unread_length {s : State} (he : s.eng.br.eos = false) :
    (unread s).length = 8 - s.eng.br.pos.toNat + 8 * (s.env.src.length - s.env.srcPos) := by
  simp [unread, he, buffered]

/-- The source stands after the byte of the last bit delivered, as long as it stood so for the bits before. -/
theorem readBit_srcPos {s t : State} {r : Option Bool} {k : Nat} (hr : ReaderOk s)
    (hleft : (unread s).length = 8 * s.env.src.length - k)
    (hpos : s.env.srcPos = min ((k + 7) / 8) s.env.src.length) (h : readBit s = .ok r t) :
    t.env.srcPos = min ((k + 1 + 7) / 8) s.env.src.length := by
  obtain ⟨hle, -, hsrc⟩ := hr
  rw [run_readBit] at h
  cases he : s.eng.br.eos with
  | true =>
    rw [if_pos he] at h
    cases h
    simp only [unread, he, if_true, List.length_nil] at hleft
    omega
  | false =>
    rw [if_neg (ne_true_of_eq_false he)] at h
    rw [unread_length he] at hleft
    by_cases h8 : s.eng.br.pos = 8#4
    · rw [if_pos h8] at h
      have hp : s.eng.br.pos.toNat = 8 := by rw [h8]; rfl
      split at h
      · cases hn : nextAnswerOf s with
        | normal =>
          rw [hn] at h
          cases hb : s.env.src[s.env.srcPos]? with
          | some b =>
            have hlt := (List.getElem?_eq_some_iff.mp hb).1
            rw [hb] at h
            cases h
            simp only
            omega
          | none =>
            have hge := List.getElem?_eq_none_iff.mp hb
            rw [hb] at h
            cases h
            simp only [afterCalls_srcPos]
            omega
        | _ => rw [hn] at h; cases h
      · cases h
    · rw [if_neg h8] at h
      have hne : s.eng.br.pos.toNat ≠ 8 := fun hc => h8 (BitVec.eq_of_toNat_eq hc)
      cases h
      simp only
      omega

/-- The machine after SRC_OPEN and `k` BR_BIT commands over the source `src`. -/
structure ReadSoFar (src : List Byte) (k : Nat) (s : State) : Prop where
  ready : Ready s
  isOpen : s.eng.br.isOpen = true
  answers : IoOk s
  reader : ReaderOk s
  source : s.env.src = src
  left : unread s = (streamBits src).drop k
  pos : s.env.srcPos = min ((k + 7) / 8) src.length

theorem readSoFar_srcOpen {s : State} (hs : Ready s) (hio : IoOk s) :
    ReadSoFar s.env.src 0 (answeredOk 0#32 (sourceOpened s)) where
  ready := hs
  isOpen := rfl
  answers := ioOk_of_answers hio 1 rfl
  reader := ⟨Nat.le_refl 8, fun _ => rfl, Nat.zero_le _⟩
  source := rfl
  left := rfl
  pos := (Nat.zero_min _).symm

namespace ReadSoFar

variable {src : List Byte} {k : Nat} {s : State}

/-- The next BR_BIT answers stream bit `k`. -/
theorem brBit (h : ReadSoFar src k s) :
    ∃ t, exec .brBit s = .next t ∧ t.eng.stat.result = bitResult (streamBits src)[k]? ∧
      ReadSoFar src (k + 1) t := by
  obtain ⟨t, hread, hleft, hok, hto⟩ := readBit_unread h.isOpen h.reader h.answers
  have hlen : (unread s).length = 8 * s.env.src.length - k := by simp [h.left, h.source]
  have hpos := readBit_srcPos h.reader hlen (h.source ▸ h.pos) hread
  have ⟨hframe, hopen, _⟩ := hto
  have hstat : t.eng.stat = s.eng.stat := by rw [hframe]
  have hsrc : t.env.src = s.env.src := by rw [hframe]
  rw [h.left, List.head?_drop] at hread
  rw [h.left, List.tail_drop] at hleft
  rw [h.source] at hpos hsrc
  exact ⟨answeredOk _ t, exec_brBit_of_ok h.ready hread, rfl,
    { ready := (congrArg Status.fault hstat).trans h.ready
      isOpen := hopen.trans h.isOpen
      answers := readTo_ioOk (t := t) hto h.answers
      reader := hok
      source := hsrc
      left := hleft
      pos := hpos }⟩

/-- The last of `n + 1` more BR_BIT commands answers stream bit `k + n`. -/
theorem brBits (n : Nat) (h : ReadSoFar src k s) :
    ∃ t, execAll (List.replicate (n + 1) .brBit) s = .next t ∧
      t.eng.stat.result = bitResult (streamBits src)[k + n]? ∧ ReadSoFar src (k + n + 1) t := by
  induction n generalizing k s with
  | zero =>
    obtain ⟨t, hexec, hresult, ht⟩ := h.brBit
    exact ⟨t, execAll_cons hexec [], hresult, ht⟩
  | succ n ih =>
    obtain ⟨t, hexec, -, ht⟩ := h.brBit
    obtain ⟨u, hall, hlast, hu⟩ := ih ht
    rw [Nat.add_right_comm k 1 n] at hlast hu
    exact ⟨u, (execAll_cons hexec _).trans hall, hlast, hu⟩

end ReadSoFar

/-- Settles O37: after SRC_OPEN all stream bits are left, and each BR_BIT takes one. -/
theorem readerReturnsTheStream : Obligations.ReaderReturnsTheStream := by
  intro s k hs hio hc
  have hopen : exec .srcOpen s = .next (answeredOk 0#32 (sourceOpened s)) :=
    (exec_eq rfl s).trans (execute_of_ok hs (pSrcOpen_of_normal hc (ioOk_next hio)))
  obtain ⟨t, hexec, hresult, ht⟩ := (readSoFar_srcOpen hs hio).brBits k
  rw [Nat.zero_add] at hresult ht
  refine ⟨t, (execAll_cons hopen _).trans hexec, ?_, ?_⟩
  · rw [hresult]
    rcases (streamBits s.env.src)[k]? with _ | _ | _ <;> rfl
  · rw [ht.pos, show (k + 1 + 7) / 8 = k / 8 + 1 by omega]

end Sys2Proof.Machine
end

-- ==== Proofs: the frequency table ====
section
namespace Sys2Proof.Machine

/-! ### Counting bytes (`41_freq.md` R141 to R144) -/

section Counting

variable (a : Byte) (e : Engine) (x : Nat)

/-- Counting writes the frequency table and `total` and drops the tree and the code book, nothing else. -/
theorem countSymbol_frame : countSymbol a e = treeDropped { e with scan := (countSymbol a e).scan } := by
  rw [countSymbol, invalidate_eq]
  rfl

@[simp] theorem countSymbol_total : (countSymbol a e).scan.total = e.scan.total + 1#32 := rfl

theorem ftGet_countSymbol :
    ftGet (countSymbol a e) x = if x = a.toNat then ftGet e a.toNat + 1#32 else ftGet e x :=
  ftGet_ftSet e (symIndex a) x _

@[simp] theorem ftGet_clearTable : ftGet (clearTable e) x = 0#32 := rfl

end Counting

/-- The block after the given bytes are counted, in order. -/
def countAll : List Byte → Engine → Engine
  | [], e => e
  | b :: rest, e => countAll rest (countSymbol b e)

theorem countAll_append (p q : List Byte) (e : Engine) : countAll (p ++ q) e = countAll q (countAll p e) := by
  induction p generalizing e with
  | nil => rfl
  | cons b p ih => exact ih _

theorem countAll_frame (bytes : List Byte) (e : Engine) :
    countAll bytes e = if bytes = [] then e else treeDropped { e with scan := (countAll bytes e).scan } := by
  induction bytes generalizing e with
  | nil => rfl
  | cons b rest ih =>
    rw [if_neg (List.cons_ne_nil b rest), countAll, ih (countSymbol b e), countSymbol_frame]
    split <;> rfl

theorem countAll_total (bytes : List Byte) (e : Engine) :
    (countAll bytes e).scan.total = e.scan.total + BitVec.ofNat 32 bytes.length := by
  induction bytes generalizing e with
  | nil => simp [countAll]
  | cons b rest ih =>
    rw [countAll, ih, countSymbol_total, BitVec.add_assoc, List.length_cons, Nat.add_comm, BitVec.ofNat_add]

theorem countOf_cons (b : Byte) (rest : List Byte) (x : Nat) :
    countOf (b :: rest) x = (if x = b.toNat then 1#32 else 0#32) + countOf rest x := by
  by_cases hx : x = b.toNat
  · subst hx
    simp [countOf, BitVec.ofNat_add, BitVec.add_comm]
  · simp [countOf, hx, Ne.symm hx]

theorem ftGet_countAll (bytes : List Byte) (e : Engine) (x : Nat) :
    ftGet (countAll bytes e) x = ftGet e x + countOf bytes x := by
  induction bytes generalizing e with
  | nil => simp [countAll, countOf]
  | cons b rest ih =>
    rw [countAll, ih, ftGet_countSymbol, countOf_cons]
    split
    · subst_vars
      rw [BitVec.add_assoc]
    · simp

/-- `total` stays the sum of the counts while it does not overflow (`10_state.md` R25). -/
theorem ftSum_countAll {bytes : List Byte} {e : Engine} (hsum : ftSum e = e.scan.total.toNat)
    (hroom : e.scan.total.toNat + bytes.length < 2 ^ 32) :
    ftSum (countAll bytes e) = (countAll bytes e).scan.total.toNat := by
  induction bytes generalizing e with
  | nil => exact hsum
  | cons b rest ih =>
    rw [List.length_cons] at hroom
    have hmax : e.scan.total ≠ Config.maxTotal := fun h => by
      rw [h, Config.maxTotal, BitVec.toNat_ofNat] at hroom
      omega
    refine ih (ftSum_countSymbol hsum hmax b) ?_
    rw [countSymbol_total, BitVec.toNat_add]
    simp only [BitVec.toNat_ofNat]
    omega

/-! ### FT_CLR and FT_INC (`41_freq.md` R142, R143) -/

theorem run_pFtClr (s : State) : pFtClr s = .ok 0#32 (modEngine clearTable s) := rfl

/-- FT_INC, in every case. -/
theorem run_pFtInc (a : Byte) (s : State) :
    pFtInc a s =
      if s.eng.scan.total = Config.maxTotal then .error (.raise .countOverflow) s
      else .ok (ftGet s.eng a.toNat + 1#32) (modEngine (countSymbol a) s) := by
  unfold pFtInc
  rw [bind_of_ok (run_getEng s)]
  by_cases hmax : s.eng.scan.total = Config.maxTotal
  · have hreq : require (s.eng.scan.total != Config.maxTotal) .countOverflow s
        = .error (.raise .countOverflow) s := by simp [hmax]
    rw [if_pos hmax, bind_of_error hreq]
  · have hreq : require (s.eng.scan.total != Config.maxTotal) .countOverflow s = .ok () s := by simp [hmax]
    rw [if_neg hmax, bind_of_ok hreq, bind_of_ok (run_modEng _ s), run_pure, ftGet_countSymbol]
    simp [symIndex]

/-- Settles O19: the cleared table reads 0 everywhere and leaves the other registers but the tree's flags. -/
theorem ftClrClearsTable : Obligations.FtClrClearsTable := fun s hs =>
  ⟨answeredOk 0#32 (modEngine clearTable s), (exec_eq rfl s).trans (execute_of_ok hs (run_pFtClr s)),
    ftGet_clearTable s.eng, rfl, rfl⟩

/-- Settles O20: FT_INC either counts its symbol or finds `total` at its largest. -/
theorem ftIncCountsOne : Obligations.FtIncCountsOne := by
  intro s a hs
  have hrun := run_pFtInc a s
  refine ⟨fun hmax => ?_, fun hmax hr => ?_⟩
  · refine ⟨_, (exec_eq rfl s).trans (execute_of_ok hs (hrun.trans (if_neg hmax))), ?_, fun x hx => ?_, rfl, ?_⟩
    · exact (ftGet_countSymbol a s.eng a.toNat).trans (if_pos rfl)
    · exact (ftGet_countSymbol a s.eng x).trans (if_neg hx)
    · rw [modEngine_eq, countSymbol_frame]
      rfl
  · exact (exec_eq rfl s).trans (execute_of_raise hs (hrun.trans (if_pos hmax)) hr)

/-! ### FT_SCAN (`41_freq.md` R147) -/

section ScanSteps

variable {n : Nat} {s t : State}

theorem scanLoop_of_eos (h : srcByte s = .ok none t) : scanLoop (n + 1) s = .ok () t := bind_of_ok h _

theorem scanLoop_of_error {e : Stop} (h : srcByte s = .error e t) : scanLoop (n + 1) s = .error e t :=
  bind_of_error h _

theorem scanLoop_of_byte {b : Byte} (h : srcByte s = .ok (some b) t) (hmax : t.eng.scan.total ≠ Config.maxTotal) :
    scanLoop (n + 1) s = scanLoop n (modEngine (countSymbol b) t) := by
  have hcount := (run_pFtInc b t).trans (if_neg hmax)
  rw [scanLoop, bind_of_ok h]
  exact bind_of_ok hcount _

theorem pFtScan_of_ok (h : scanLoop (bytesLeft s + 1) s = .ok () t) : pFtScan s = .ok t.eng.scan.total t :=
  bind_of_ok h _

theorem pFtScan_of_error {e : Stop} (h : scanLoop (bytesLeft s + 1) s = .error e t) : pFtScan s = .error e t :=
  bind_of_error h _

end ScanSteps

/-- The bytes the source still delivers (`20_memory.md` R62). -/
def sourceRest (s : State) : List Byte := s.env.src.drop s.env.srcPos

theorem sourceRest_length (s : State) : (sourceRest s).length = bytesLeft s := List.length_drop

theorem sourceRest_getElem? (s : State) (k : Nat) : (sourceRest s)[k]? = s.env.src[s.env.srcPos + k]? :=
  List.getElem?_drop

/-- The state after `k` bytes of the source are read and counted. -/
def scanned (k : Nat) (s : State) : State :=
  { s with
    eng := countAll ((sourceRest s).take k) s.eng
    env := { afterCalls k s.env with srcPos := s.env.srcPos + k } }

section Scanning

variable {k n : Nat} {s : State}

/-- Reading the next byte and counting it. -/
theorem scanned_succ {b : Byte} (hb : (sourceRest s)[k]? = some b) :
    modEngine (countSymbol b)
        { scanned k s with
          env := { afterCalls 1 (scanned k s).env with srcPos := (scanned k s).env.srcPos + 1 } }
      = scanned (k + 1) s := by
  have htake : (sourceRest s).take (k + 1) = (sourceRest s).take k ++ [b] := by
    rw [List.take_add_one, hb, Option.toList_some]
  have hdrop : (s.env.answers.drop k).drop 1 = s.env.answers.drop (k + 1) := List.drop_drop
  rw [modEngine_eq, scanned, scanned, htake, countAll_append]
  simp only [afterCalls, hdrop, countAll, Nat.add_assoc]

theorem scanned_br : (scanned k s).eng.br = s.eng.br := by
  rw [scanned, countAll_frame]
  split <;> rfl

theorem ftGet_scanned (x : Nat) :
    ftGet (scanned k s).eng x = ftGet s.eng x + countOf ((sourceRest s).take k) x := ftGet_countAll _ _ x

variable (hk : k ≤ (sourceRest s).length)
include hk

theorem scanned_total : (scanned k s).eng.scan.total = s.eng.scan.total + BitVec.ofNat 32 k := by
  rw [scanned, countAll_total, List.length_take, Nat.min_eq_left hk]

theorem scanned_eng :
    (scanned k s).eng =
      if k = 0 then s.eng else treeDropped { s.eng with scan := (scanned k s).eng.scan } := by
  have hnil : (sourceRest s).take k = [] ↔ k = 0 := by
    rw [← List.length_eq_zero_iff, List.length_take, Nat.min_eq_left hk]
  exact (countAll_frame _ _).trans (if_congr hnil rfl rfl)

/-- The loop counts `k` bytes where `k` reads are answered and `total` has room for them. -/
theorem scanLoop_scanned (ho : s.eng.br.isOpen = true)
    (hans : ∀ i < k, nextAnswerOf (scanned i s) = .normal)
    (hroom : s.eng.scan.total.toNat + k < 2 ^ 32) : scanLoop (n + k) s = scanLoop n (scanned k s) := by
  induction k generalizing n with
  | zero => rfl
  | succ k ih =>
    have hk' : k < (sourceRest s).length := hk
    obtain ⟨b, hb⟩ : ∃ b, (sourceRest s)[k]? = some b := ⟨_, List.getElem?_eq_getElem hk'⟩
    have hb' : s.env.src[s.env.srcPos + k]? = some b := sourceRest_getElem? s k ▸ hb
    have hread := run_srcByte (scanned k s)
    rw [scanned_br, if_pos ho, hans k (Nat.lt_succ_self k)] at hread
    simp only [show (scanned k s).env.src[(scanned k s).env.srcPos]? = some b from hb'] at hread
    have htotal : (scanned k s).eng.scan.total ≠ Config.maxTotal := fun h => by
      have hmax := congrArg BitVec.toNat ((scanned_total hk'.le).symm.trans h)
      simp only [Config.maxTotal, BitVec.toNat_add, BitVec.toNat_ofNat] at hmax
      omega
    calc scanLoop (n + (k + 1)) s = scanLoop (n + 1 + k) s := by rw [Nat.add_right_comm, Nat.add_assoc]
      _ = scanLoop (n + 1) (scanned k s) :=
        ih hk'.le (fun i hi => hans i (Nat.lt_succ_of_lt hi)) (Nat.lt_of_succ_lt hroom)
      _ = scanLoop n (scanned (k + 1) s) := by rw [scanLoop_of_byte hread htotal, scanned_succ hb]

/-- The loop of FT_SCAN reaches its read after the `k`-th byte. -/
theorem scanLoop_bytesLeft (ho : s.eng.br.isOpen = true)
    (hans : ∀ i < k, nextAnswerOf (scanned i s) = .normal)
    (hroom : s.eng.scan.total.toNat + k < 2 ^ 32) :
    ∃ n, scanLoop (bytesLeft s + 1) s = scanLoop (n + 1) (scanned k s) := by
  obtain ⟨n, hn⟩ := Nat.exists_eq_add_of_le' (sourceRest_length s ▸ hk)
  refine ⟨n, ?_⟩
  rw [hn, Nat.add_right_comm]
  exact scanLoop_scanned hk ho hans hroom

theorem ftSum_scanned (hsum : ftSum s.eng = s.eng.scan.total.toNat)
    (hroom : s.eng.scan.total.toNat + k < 2 ^ 32) :
    ftSum (scanned k s).eng = (scanned k s).eng.scan.total.toNat := by
  refine ftSum_countAll hsum ?_
  rwa [List.length_take, Nat.min_eq_left hk]

/-- The state after the read that ends a scan: what FT_SCAN changes (R147). -/
theorem asked_scanned :
    asked (scanned k s) =
      { s with
        eng := if k = 0 then s.eng else treeDropped { s.eng with scan := (scanned k s).eng.scan }
        env := { afterCalls (k + 1) s.env with srcPos := s.env.srcPos + k } } := by
  have hdrop : (s.env.answers.drop k).drop 1 = s.env.answers.drop (k + 1) := List.drop_drop
  rw [← scanned_eng hk]
  simp only [asked, scanned, afterCalls, hdrop]

end Scanning

/-- FT_SCAN, where every call is answered: the rest of the source is counted (R147). -/
theorem pFtScan_of_ioOk {s : State} (ho : s.eng.br.isOpen = true) (hio : IoOk s)
    (hroom : s.eng.scan.total.toNat + (sourceRest s).length < 2 ^ 32) :
    pFtScan s = .ok (scanned (sourceRest s).length s).eng.scan.total (asked (scanned (sourceRest s).length s)) := by
  have hans : ∀ i, nextAnswerOf (scanned i s) = .normal := fun i => ioOk_next (ioOk_of_answers hio i rfl)
  obtain ⟨n, hloop⟩ := scanLoop_bytesLeft (Nat.le_refl _) ho (fun i _ => hans i) hroom
  have hend : (scanned (sourceRest s).length s).env.src[(scanned (sourceRest s).length s).env.srcPos]? = none :=
    (sourceRest_getElem? s _).symm.trans (List.getElem?_eq_none (Nat.le_refl _))
  have hread := run_srcByte (scanned (sourceRest s).length s)
  rw [scanned_br, if_pos ho, hans] at hread
  simp only [hend] at hread
  exact pFtScan_of_ok (hloop.trans (scanLoop_of_eos hread))

/-- FT_SCAN, where the read after `k` bytes is answered `IOERR`: these bytes stay counted (R264). -/
theorem pFtScan_of_ioErr {s : State} {k : Nat} {later : List Answer} (ho : s.eng.br.isOpen = true)
    (hk : k ≤ (sourceRest s).length) (hans : s.env.answers = List.replicate k .normal ++ .ioErr :: later)
    (hroom : s.eng.scan.total.toNat + k < 2 ^ 32) :
    pFtScan s = .error (.raise .ioUnavailable) (asked (scanned k s)) := by
  have hnormal : ∀ i < k, nextAnswerOf (scanned i s) = .normal := fun i hi => by
    simp [nextAnswerOf, scanned, hans, List.head?_drop, List.getElem?_append, hi]
  have herr : nextAnswerOf (scanned k s) = .ioErr := by simp [nextAnswerOf, scanned, hans]
  obtain ⟨n, hloop⟩ := scanLoop_bytesLeft hk ho hnormal hroom
  have hread := run_srcByte (scanned k s)
  rw [scanned_br, if_pos ho, herr] at hread
  exact pFtScan_of_error (hloop.trans (scanLoop_of_error hread))

/-- Settles O21: FT_SCAN counts as many bytes as its reads deliver, up to the end of the source or the failed
read. -/
theorem ftScanCountsTheRest : Obligations.FtScanCountsTheRest := by
  intro s hs ho rest hroom
  refine ⟨fun hio => ?_, fun k later hk hans hlater => ?_⟩
  · have hnil : rest = [] ↔ rest.length = 0 := List.length_eq_zero_iff.symm
    refine ⟨_, (exec_eq rfl s).trans (execute_of_ok hs (pFtScan_of_ioOk ho hio hroom)), fun x => ?_,
      scanned_total (Nat.le_refl _), ?_⟩
    · exact (ftGet_scanned x).trans (by rw [List.take_length]; rfl)
    · simp only [hnil]
      exact congrArg (answeredOk _) (asked_scanned (Nat.le_refl _))
  · have hrelease : Answering (asked (scanned k s)) := fun a ha => hlater a (by
      simpa [scanned, hans, List.drop_append] using ha)
    exact ⟨_, (exec_eq rfl s).trans (execute_of_raise hs
      (pFtScan_of_ioErr ho hk hans (lt_of_le_of_lt (Nat.add_le_add_left hk _) hroom))
      (releaseAnswered_of_answering hrelease)), ftGet_scanned, scanned_total hk,
      congrArg (faultState _) (asked_scanned hk)⟩

/-! ### The counts of a whole source (`41_freq.md` R148) -/

/-- The positions of a list that hold a value are as many as its occurrences. -/
theorem length_filter_positions (bytes : List Byte) (p : Byte → Bool) :
    ((List.range bytes.length).filter fun k => p (bytes.getD k 0#8)).length = bytes.countP p := by
  have hmap : (List.range bytes.length).map (fun k => bytes.getD k 0#8) = bytes := by
    refine List.ext_getElem (by simp) fun i h1 h2 => ?_
    simp [h2]
  rw [← List.countP_eq_length_filter]
  conv_rhs => rw [← hmap, List.countP_map]
  rfl

theorem countOf_toNat {bytes : List Byte} (h : bytes.length < 2 ^ 32) (x : Nat) :
    (countOf bytes x).toNat = bytes.countP fun b => b.toNat == x := by
  rw [countOf, BitVec.toNat_ofNat, Nat.mod_eq_of_lt (lt_of_le_of_lt List.countP_le_length h)]

/-- The state after SRC_OPEN and FT_CLR: the source at byte 0, the table clear. -/
def openedAndCleared (s : State) : State :=
  answeredOk 0#32 (modEngine clearTable (answeredOk 0#32 (sourceOpened s)))

@[simp] theorem openedAndCleared_total (s : State) : (openedAndCleared s).eng.scan.total = 0#32 := rfl
@[simp] theorem openedAndCleared_rest (s : State) : sourceRest (openedAndCleared s) = s.env.src := rfl
@[simp] theorem ftGet_openedAndCleared (s : State) (x : Nat) : ftGet (openedAndCleared s).eng x = 0#32 := rfl

theorem ftSum_openedAndCleared (s : State) : ftSum (openedAndCleared s).eng = 0 :=
  (ftSum_congr (e := clearTable s.eng) rfl).trans (ftSum_clearTable s.eng)

theorem execAll_openedAndCleared {s : State} (hs : Ready s) (hio : IoOk s) (hc : s.eng.br.isOpen = false)
    (rest : List Instr) : execAll (.srcOpen :: .ftClr :: rest) s = execAll rest (openedAndCleared s) := by
  have hopen : exec .srcOpen s = .next (answeredOk 0#32 (sourceOpened s)) :=
    (exec_eq rfl s).trans (execute_of_ok hs (pSrcOpen_of_normal hc (ioOk_next hio)))
  have hclear : exec .ftClr (answeredOk 0#32 (sourceOpened s)) = .next (openedAndCleared s) :=
    (exec_eq rfl _).trans (execute_of_ok hs (run_pFtClr _))
  rw [execAll_cons hopen, execAll_cons hclear]

/-- Settles O22: the table is clear and the source at byte 0 when FT_SCAN starts. -/
theorem countsOfTheWholeSource : Obligations.CountsOfTheWholeSource := by
  intro s hs hio hc hlen
  have hroom : (openedAndCleared s).eng.scan.total.toNat + (sourceRest (openedAndCleared s)).length < 2 ^ 32 := by
    simpa using hlen
  have hscan := (exec_eq (i := .ftScan) rfl (openedAndCleared s)).trans
    (execute_of_ok hs (pFtScan_of_ioOk rfl (ioOk_of_answers hio 1 rfl) hroom))
  have htotal : (scanned s.env.src.length (openedAndCleared s)).eng.scan.total.toNat = s.env.src.length := by
    rw [scanned_total (s := openedAndCleared s) (Nat.le_refl s.env.src.length), openedAndCleared_total,
      BitVec.zero_add, BitVec.toNat_ofNat, Nat.mod_eq_of_lt hlen]
  have hcount : ∀ x, ftGet (scanned s.env.src.length (openedAndCleared s)).eng x = countOf s.env.src x := fun x => by
    rw [ftGet_scanned, openedAndCleared_rest, List.take_length, ftGet_openedAndCleared, BitVec.zero_add]
  have hsum : ftSum (scanned s.env.src.length (openedAndCleared s)).eng = s.env.src.length :=
    (ftSum_scanned (Nat.le_refl _) (ftSum_openedAndCleared s) hroom).trans htotal
  refine ⟨_, (execAll_openedAndCleared hs hio hc _).trans (execAll_cons hscan []), rfl, fun x _ => ?_, htotal,
    (ftSum_congr rfl).trans hsum⟩
  rw [length_filter_positions s.env.src fun b => b.toNat == x, ← countOf_toNat hlen]
  exact congrArg BitVec.toNat (hcount x)

end Sys2Proof.Machine
end

-- ==== Proofs: the closed or failing source ====
section
namespace Sys2Proof.Machine

/-! ### The buffered bits (`10_state.md` R36) -/

/-- The reader with `k` more bits of its buffer delivered (`40_bitio.md` R127). -/
def delivered (k : Nat) (r : BitReader) : BitReader := { r with pos := r.pos + BitVec.ofNat 4 k }

@[simp] theorem delivered_zero (r : BitReader) : delivered 0 r = r := by simp [delivered]

@[simp] theorem delivered_delivered (j k : Nat) (r : BitReader) :
    delivered j (delivered k r) = delivered (k + j) r := by
  simp only [delivered, BitVec.add_assoc, BitVec.ofNat_add]

section Buffered

variable {r : BitReader}

theorem buffered_length (r : BitReader) : (buffered r).length = 8 - r.pos.toNat := by simp [buffered]

theorem delivered_pos {k : Nat} (h : r.pos.toNat + k < 16) : (delivered k r).pos.toNat = r.pos.toNat + k := by
  simp only [delivered, BitVec.toNat_add, BitVec.toNat_ofNat]
  omega

theorem buffered_step (h : r.pos.toNat < 8) :
    buffered r = r.buf.getLsbD (7 - r.pos.toNat) :: buffered (delivered 1 r) := by
  rw [buffered, buffered, delivered_pos (by omega), show 8 - r.pos.toNat = 8 - (r.pos.toNat + 1) + 1 by omega,
    List.range_succ_eq_map, List.map_cons, List.map_map]
  refine congrArg _ (List.map_congr_left fun i _ => ?_)
  simp only [Function.comp, delivered, Nat.succ_eq_add_one]
  congr 1
  omega

variable {b : Bool} {p q : List Bool}

theorem pos_lt_of_buffered (h : buffered r = b :: q) : r.pos.toNat < 8 := by
  have hlen := buffered_length r
  rw [h, List.length_cons] at hlen
  omega

theorem buffered_delivered (h : buffered r = p ++ q) : buffered (delivered p.length r) = q := by
  induction p generalizing r with
  | nil => rwa [List.length_nil, delivered_zero]
  | cons b p ih =>
    have hstep := buffered_step (pos_lt_of_buffered h)
    rw [h, List.cons_append, List.cons.injEq] at hstep
    have hrest := ih hstep.2.symm
    rwa [delivered_delivered, Nat.add_comm] at hrest

/-- All bits of the buffer delivered. -/
theorem delivered_all (hpos : r.pos.toNat ≤ 8) : delivered (buffered r).length r = { r with pos := 8#4 } := by
  have h8 : (delivered (buffered r).length r).pos = 8#4 := BitVec.eq_of_toNat_eq (by
    rw [delivered_pos (by rw [buffered_length]; omega), buffered_length, BitVec.toNat_ofNat]
    omega)
  rw [← h8]
  rfl

end Buffered

/-! ### Reads of the source (`40_bitio.md` R127, `41_freq.md` R146) -/

/-- The next read of the source fails, the environment left as `v`: the source is not open and no call is made, or
the call is answered `IOERR`. -/
def ReadFails (s : State) (v : Env) : Prop :=
  s.eng.br.isOpen = false ∧ v = s.env ∨
    s.eng.br.isOpen = true ∧ nextAnswerOf s = .ioErr ∧ v = afterCalls 1 s.env

section Reads

variable {s : State} {v : Env}

theorem srcByte_fails (h : ReadFails s v) : srcByte s = .error (.raise .ioUnavailable) { s with env := v } := by
  rw [run_srcByte]
  rcases h with ⟨hc, rfl⟩ | ⟨ho, hn, rfl⟩
  · rw [if_neg (ne_true_of_eq_false hc)]
  · rw [if_pos ho, hn]
    rfl

/-- A bit that is buffered is delivered, whatever the source does. -/
theorem readBit_buffered {b : Bool} {rest : List Bool} (he : s.eng.br.eos = false)
    (hb : buffered s.eng.br = b :: rest) :
    readBit s = .ok (some b) { s with eng := { s.eng with br := delivered 1 s.eng.br } } := by
  have hlt := pos_lt_of_buffered hb
  have h8 : s.eng.br.pos ≠ 8#4 := fun h => by simp [h] at hlt
  have hbit := (buffered_step hlt).symm.trans hb
  rw [List.cons.injEq] at hbit
  rw [run_readBit, if_neg (ne_true_of_eq_false he), if_neg h8, hbit.1]
  rfl

/-- The state where a refill failed: nothing buffered is left (R127). -/
def refillFailed (v : Env) (s : State) : State :=
  { s with eng := { s.eng with br := { s.eng.br with pos := 8#4 } }, env := v }

theorem refillFailed_of_drained (h8 : s.eng.br.pos = 8#4) : refillFailed v s = { s with env := v } := by
  rw [refillFailed, ← h8]

variable (hv : ReadFails s v) (he : s.eng.br.eos = false)
include hv he

theorem readBit_fails (h8 : s.eng.br.pos = 8#4) :
    readBit s = .error (.raise .ioUnavailable) { s with env := v } := by
  rw [run_readBit, if_neg (ne_true_of_eq_false he), if_pos h8]
  rcases hv with ⟨hc, rfl⟩ | ⟨ho, hn, rfl⟩
  · rw [if_neg (ne_true_of_eq_false hc)]
  · rw [if_pos ho, hn]
    rfl

variable (hpos : s.eng.br.pos.toNat ≤ 8)
include hpos

/-- A word of more bits than are buffered is not read (`45_decompress.md` R216). -/
theorem readBitsInto_fails {n : Nat} (hn : (buffered s.eng.br).length < n) (w : U32) :
    readBitsInto n w s = .error (.raise .ioUnavailable) (refillFailed v s) := by
  induction n generalizing s w with
  | zero => exact absurd hn (Nat.not_lt_zero _)
  | succ n ih =>
    cases hb : buffered s.eng.br with
    | nil =>
      have h8 : s.eng.br.pos = 8#4 := by
        have hlen := buffered_length s.eng.br
        rw [hb, List.length_nil] at hlen
        exact BitVec.eq_of_toNat_eq (by rw [BitVec.toNat_ofNat]; omega)
      rw [refillFailed_of_drained h8]
      exact bind_of_error (readBit_fails hv he h8) _
    | cons b rest =>
      have hlt := pos_lt_of_buffered hb
      have hrest : buffered (delivered 1 s.eng.br) = rest := buffered_delivered (p := [b]) hb
      rw [readBitsInto, bind_of_ok (readBit_buffered he hb)]
      refine ih (s := { s with eng := { s.eng with br := delivered 1 s.eng.br } }) hv he ?_ ?_ _
      · rw [delivered_pos (by omega)]
        exact hlt
      · rw [hb, List.length_cons] at hn
        rw [hrest]
        omega

theorem read32_fails : read32 s = .error (.raise .ioUnavailable) (refillFailed v s) :=
  readBitsInto_fails hv he hpos (by rw [buffered_length]; omega) _

/-- HDR_RD reads no count from the buffer alone (`45_decompress.md` R217). -/
theorem pHdrRd_fails :
    pHdrRd s = .error (.raise .ioUnavailable) (refillFailed v (modEngine treeDropped s)) := by
  have hread : readCounts (List.range Config.nSym) (modEngine invalidate s)
      = .error (.raise .ioUnavailable) (refillFailed v (modEngine treeDropped s)) := by
    rw [Config.nSym, List.range_succ_eq_map, readCounts, show invalidate = treeDropped from funext invalidate_eq]
    exact bind_of_error (read32_fails (s := modEngine treeDropped s) hv he hpos) _
  rw [pHdrRd, bind_of_ok (run_modEng _ s), bind_of_error hread]

end Reads

theorem pFtScan_fails {s : State} {v : Env} (hv : ReadFails s v) :
    pFtScan s = .error (.raise .ioUnavailable) { s with env := v } :=
  pFtScan_of_error (scanLoop_of_error (srcByte_fails hv))

theorem pEncRun_fails {s : State} {v : Env} (hv : ReadFails s v) (hd : s.eng.book.done = true) :
    pEncRun s = .error (.raise .ioUnavailable) { s with env := v } := by
  have hreq : require s.eng.book.done .badSequence s = .ok () s := by simp [hd]
  have hloop : encodeLoop (bytesLeft s + 1) s = .error (.raise .ioUnavailable) { s with env := v } :=
    bind_of_error (srcByte_fails hv) _
  rw [pEncRun, bind_of_ok (run_getEng s), bind_of_ok hreq]
  exact bind_of_error hloop _

/-! ### The walk over the buffered bits (`45_decompress.md` R223) -/

theorem follow_cons_eq_some {e : Engine} {n m : Node} {b : Bool} {path : List Bool} :
    follow e n (b :: path) = some m ↔ isLeaf n = false ∧ follow e (childOf e n b) path = some m := by
  cases h : isLeaf n <;> simp [follow, h]

/-- The state of a walk `k` buffered bits further, at node `n`. -/
def walkedTo (k : Nat) (n : Node) (s : State) : State :=
  { s with eng := { s.eng with br := delivered k s.eng.br, dec := { s.eng.dec with cur := n } } }

theorem follow_walkedTo (k : Nat) (m : Node) (s : State) (n : Node) (path : List Bool) :
    follow (walkedTo k m s).eng n path = follow s.eng n path :=
  follow_congr (e := (walkedTo k m s).eng) (e' := s.eng) rfl n path

section Walks

variable {s : State} {n : Node}

theorem walkToLeaf_leaf (fuel : Nat) (h : isLeaf s.eng.dec.cur = true) : walkToLeaf (fuel + 1) s = .ok () s := by
  rw [walkToLeaf, bind_of_ok (run_getEng s), if_pos h, run_pure]

theorem walkToLeaf_fails {v : Env} (fuel : Nat) (h : isLeaf s.eng.dec.cur = false) (hv : ReadFails s v)
    (he : s.eng.br.eos = false) (h8 : s.eng.br.pos = 8#4) :
    walkToLeaf (fuel + 1) s = .error (.raise .ioUnavailable) (refillFailed v s) := by
  rw [walkToLeaf, bind_of_ok (run_getEng s), if_neg (ne_true_of_eq_false h), bind_of_error (readBit_fails hv he h8),
    refillFailed_of_drained h8]

/-- One turn at an inner node takes a buffered bit to the child it leads to. -/
theorem walkToLeaf_turn {b : Bool} {rest : List Bool} (fuel : Nat) (h : isLeaf s.eng.dec.cur = false)
    (he : s.eng.br.eos = false) (hb : buffered s.eng.br = b :: rest) :
    walkToLeaf (fuel + 1) s = walkToLeaf fuel (walkedTo 1 (childOf s.eng s.eng.dec.cur b) s) := by
  rw [walkToLeaf, bind_of_ok (run_getEng s), if_neg (ne_true_of_eq_false h), bind_of_ok (readBit_buffered he hb)]
  rfl

/-- The walk follows the buffered bits as far as they lead. -/
theorem walkToLeaf_walkedTo {path rest : List Bool} (fuel : Nat) (he : s.eng.br.eos = false)
    (hb : buffered s.eng.br = path ++ rest) (hf : follow s.eng s.eng.dec.cur path = some n) :
    walkToLeaf (fuel + path.length) s = walkToLeaf fuel (walkedTo path.length n s) := by
  induction path generalizing s with
  | nil =>
    rw [follow_nil, Option.some.injEq] at hf
    simp only [walkedTo, List.length_nil, delivered_zero, ← hf, Nat.add_zero]
  | cons b path ih =>
    obtain ⟨hl, hf⟩ := follow_cons_eq_some.mp hf
    rw [List.length_cons, ← Nat.add_assoc, walkToLeaf_turn _ hl he hb,
      ih (s := walkedTo 1 (childOf s.eng s.eng.dec.cur b) s) he (buffered_delivered (p := [b]) hb)
        ((follow_walkedTo _ _ s _ path).trans hf)]
    simp only [walkedTo, delivered_delivered, Nat.add_comm]

/-- The bits buffered are fewer than the turns DEC_SYM allows. -/
theorem exists_fuel_of_buffered {path rest : List Bool} (hb : buffered s.eng.br = path ++ rest) :
    ∃ fuel, bitBound s + 1 = fuel + 1 + path.length := by
  have hlen := buffered_length s.eng.br
  rw [hb, List.length_append] at hlen
  exact ⟨bitBound s - path.length, by unfold bitBound; omega⟩

end Walks

/-! ### DEC_SYM on buffered bits (`45_decompress.md` R223) -/

/-- The tree and the reader as DEC_SYM needs them to walk over buffered bits (R223). -/
structure Decoding (s : State) : Prop where
  phase : s.eng.tree.phase = .done
  rootValid : s.eng.tree.rootValid = true
  eos : s.eng.br.eos = false
  pos : s.eng.br.pos.toNat ≤ 8

/-- The state DEC_SYM walks from. -/
def atRoot (s : State) : State := modEngine (setDecCur s.eng.tree.root) s

theorem follow_atRoot (s : State) (n : Node) (path : List Bool) :
    follow (atRoot s).eng n path = follow s.eng n path :=
  follow_congr (e := (atRoot s).eng) (e' := s.eng) rfl n path

/-- What DEC_SYM does with the leaf its walk reached. -/
def emitSymbol : Proc U32 := do
  let e ← getEng
  sinkByte (symbolOf e.dec.cur)
  modEng fun e => setDecCur e.tree.root (setDecRem (e.dec.rem - 1#32) e)
  pure ((symbolOf e.dec.cur).setWidth 32)

/-- The state where the refill of DEC_SYM failed at node `n`. -/
def stoppedAt (n : Node) (v : Env) (s : State) : State :=
  { s with
    eng := { s.eng with br := { s.eng.br with pos := 8#4 }, dec := { cur := n, rem := s.eng.dec.rem } }
    env := v }

/-- The state after DEC_SYM took `k` buffered bits for symbol `b`. -/
def symbolEmitted (b : Byte) (k : Nat) (s : State) : State :=
  { s with
    eng :=
      { s.eng with
        br := delivered k s.eng.br
        dec := { cur := s.eng.tree.root, rem := s.eng.dec.rem - 1#32 } }
    env := { afterCalls 1 s.env with snk := s.env.snk ++ [b] } }

theorem follow_symbolEmitted (b : Byte) (k : Nat) (s : State) (n : Node) (path : List Bool) :
    follow (symbolEmitted b k s).eng n path = follow s.eng n path :=
  follow_congr (e := (symbolEmitted b k s).eng) (e' := s.eng) rfl n path

theorem symbolOf_leafOf (b : Byte) : symbolOf (leafOf b.toNat) = b := by
  apply BitVec.eq_of_toNat_eq
  rw [symbolOf, BitVec.toNat_setWidth, leafOf_toNat b.isLt]
  exact Nat.mod_eq_of_lt b.isLt

theorem run_emitSymbol {b : Byte} {s : State} (hc : s.eng.dec.cur = leafOf b.toNat) (ho : s.eng.bw.isOpen = true)
    (hn : nextAnswerOf s = .normal) : emitSymbol s = .ok (b.setWidth 32) (symbolEmitted b 0 s) := by
  have hsend := run_sinkByte b s
  rw [if_pos ho, hn] at hsend
  rw [emitSymbol, bind_of_ok (run_getEng s), hc, symbolOf_leafOf, bind_of_ok hsend, symbolEmitted, delivered_zero]
  rfl

theorem symbolEmitted_walkedTo (b : Byte) (k : Nat) (n : Node) (s : State) :
    symbolEmitted b 0 (walkedTo k n (atRoot s)) = symbolEmitted b k s := by
  simp only [symbolEmitted, delivered_zero]
  rfl

theorem refillFailed_walkedTo (k : Nat) (n : Node) (v : Env) (s : State) :
    refillFailed v (walkedTo k n (atRoot s)) = stoppedAt n v s := rfl

section DecSym

variable {s : State} (hd : Decoding s)
include hd

/-- The walk of DEC_SYM over the buffered bits it follows. -/
theorem walkToLeaf_atRoot {n : Node} {path rest : List Bool} (hb : buffered s.eng.br = path ++ rest)
    (hf : follow s.eng s.eng.tree.root path = some n) :
    ∃ fuel, walkToLeaf (bitBound (atRoot s) + 1) (atRoot s)
      = walkToLeaf (fuel + 1) (walkedTo path.length n (atRoot s)) := by
  obtain ⟨fuel, hfuel⟩ := exists_fuel_of_buffered (s := atRoot s) hb
  exact ⟨fuel, hfuel ▸ walkToLeaf_walkedTo _ hd.eos hb ((follow_atRoot s _ path).trans hf)⟩

variable (hrem : s.eng.dec.rem ≠ 0#32)
include hrem

/-- DEC_SYM is its walk from the root and what it does at the leaf. -/
theorem pDecSym_atRoot :
    pDecSym s = (do (fun t => walkToLeaf (bitBound t + 1) t : Proc Unit); emitSymbol : Proc U32) (atRoot s) := by
  have hreq : require (s.eng.tree.phase == .done && s.eng.tree.rootValid && s.eng.dec.rem != 0#32) .badSequence s
      = .ok () s := by simp [hd.phase, hd.rootValid, hrem]
  rw [pDecSym, bind_of_ok (run_getEng s), bind_of_ok hreq, bind_of_ok (run_modEng _ s)]
  rfl

/-- The buffered bits end at an inner node and the refill fails. -/
theorem pDecSym_fails {v : Env} {n : Node} (hv : ReadFails s v)
    (hf : follow s.eng s.eng.tree.root (buffered s.eng.br) = some n) (hn : isLeaf n = false) :
    pDecSym s = .error (.raise .ioUnavailable) (stoppedAt n v s) := by
  obtain ⟨fuel, hwalk⟩ := walkToLeaf_atRoot hd (List.append_nil _).symm hf
  have h8 : (delivered (buffered s.eng.br).length s.eng.br).pos = 8#4 :=
    congrArg BitReader.pos (delivered_all hd.pos)
  have hrefill := walkToLeaf_fails (s := walkedTo (buffered s.eng.br).length n (atRoot s)) (v := v) fuel hn hv
    hd.eos h8
  rw [refillFailed_walkedTo] at hrefill
  rw [pDecSym_atRoot hd hrem]
  exact bind_of_error (p := fun t => walkToLeaf (bitBound t + 1) t) (hwalk.trans hrefill) _

/-- The buffered bits begin with the path of a symbol, and the sink takes it. -/
theorem pDecSym_buffered {b : Byte} {path rest : List Bool} (hb : buffered s.eng.br = path ++ rest)
    (hp : IsPath s.eng b.toNat path) (ho : s.eng.bw.isOpen = true) (hn : nextAnswerOf s = .normal) :
    pDecSym s = .ok (b.setWidth 32) (symbolEmitted b path.length s) := by
  obtain ⟨fuel, hwalk⟩ := walkToLeaf_atRoot hd hb hp
  have hleaf := walkToLeaf_leaf (s := walkedTo path.length (leafOf b.toNat) (atRoot s)) fuel (isLeaf_leafOf b.isLt)
  have hemit := run_emitSymbol (s := walkedTo path.length (leafOf b.toNat) (atRoot s)) rfl ho hn
  rw [pDecSym_atRoot hd hrem, ← symbolEmitted_walkedTo b path.length (leafOf b.toNat)]
  exact (bind_of_ok (p := fun t => walkToLeaf (bitBound t + 1) t) (hwalk.trans hleaf) _).trans hemit

end DecSym

/-! ### DEC_RUN on buffered bits (`45_decompress.md` R225) -/

/-- The state where DEC_RUN emitted the symbols of `out` from the buffer and its refill failed at node `n`. -/
def runStopped (out : List Byte) (n : Node) (s : State) : State :=
  { s with
    eng :=
      { s.eng with
        br := { s.eng.br with pos := 8#4 }
        dec := { cur := n, rem := s.eng.dec.rem - BitVec.ofNat 32 out.length } }
    env := { afterCalls out.length s.env with snk := s.env.snk ++ out } }

theorem runStopped_nil (n : Node) (s : State) : runStopped [] n s = stoppedAt n s.env s := by
  simp only [runStopped, stoppedAt, List.length_nil, List.append_nil, BitVec.sub_zero, afterCalls_zero]

theorem runStopped_symbolEmitted (b : Byte) (k : Nat) (out : List Byte) (n : Node) (s : State) :
    runStopped out n (symbolEmitted b k s) = runStopped (b :: out) n s := by
  have hrem : s.eng.dec.rem - 1#32 - BitVec.ofNat 32 out.length
      = s.eng.dec.rem - BitVec.ofNat 32 (b :: out).length := by
    rw [List.length_cons, Nat.add_comm, BitVec.ofNat_add]
    exact sub_sub _ _ _
  have hans : (s.env.answers.drop 1).drop out.length = s.env.answers.drop (b :: out).length := by
    rw [List.drop_drop, List.length_cons, Nat.add_comm]
  simp only [runStopped, symbolEmitted, delivered, afterCalls, hrem, hans, List.append_assoc, List.singleton_append]

theorem ne_zero_of_lt_toNat {w : U32} {n : Nat} (h : n < w.toNat) : w ≠ 0#32 := by
  rintro rfl
  exact Nat.not_lt_zero n h

theorem toNat_sub_one_add_one {w : U32} (h : w ≠ 0#32) : (w - 1#32).toNat + 1 = w.toNat := by
  have hpos : w.toNat ≠ 0 := fun h0 => h (BitVec.eq_of_toNat_eq h0)
  have hlt := w.isLt
  rw [BitVec.toNat_sub, BitVec.toNat_ofNat]
  omega

section DecodeLoop

variable {s t : State} (hrem : s.eng.dec.rem ≠ 0#32)
include hrem

theorem decodeLoop_of_error {e : Stop} (h : pDecSym s = .error e t) :
    decodeLoop s.eng.dec.rem.toNat s = .error e t := by
  rw [← toNat_sub_one_add_one hrem]
  exact bind_of_error h _

/-- A symbol decoded leaves the loop as many turns as symbols are still owed. -/
theorem decodeLoop_of_ok {w : U32} (h : pDecSym s = .ok w t) (ht : t.eng.dec.rem = s.eng.dec.rem - 1#32) :
    decodeLoop s.eng.dec.rem.toNat s = decodeLoop t.eng.dec.rem.toNat t := by
  rw [← toNat_sub_one_add_one hrem, ht]
  exact bind_of_ok h _

end DecodeLoop

theorem pDecRun_of_error {s t : State} {e : Stop} (hp : s.eng.tree.phase = .done)
    (h : decodeLoop s.eng.dec.rem.toNat s = .error e t) : pDecRun s = .error e t := by
  have hreq : require (s.eng.tree.phase == .done) .badSequence s = .ok () s := by simp [hp]
  rw [pDecRun, bind_of_ok (run_getEng s), bind_of_ok hreq, bind_of_error h]

theorem decoding_symbolEmitted {s : State} (hd : Decoding s) (b : Byte) {path rest : List Bool}
    (hb : buffered s.eng.br = path ++ rest) : Decoding (symbolEmitted b path.length s) := by
  have hpos := hd.pos
  have hlen := buffered_length s.eng.br
  rw [hb, List.length_append] at hlen
  refine ⟨hd.phase, hd.rootValid, hd.eos, ?_⟩
  rw [symbolEmitted, delivered_pos (by omega)]
  omega

/-- The loop of DEC_RUN emits the symbols whose codes are buffered, then its refill fails. -/
theorem decodeLoop_closed {s : State} {out : List Byte} {code : Nat → List Bool} {tail : List Bool} {n : Node}
    (hd : Decoding s) (hio : IoOk s) (hc : s.eng.br.isOpen = false)
    (ho : s.eng.bw.isOpen = true) (hlen : out.length < s.eng.dec.rem.toNat)
    (hpath : ∀ b ∈ out, IsPath s.eng b.toNat (code b.toNat))
    (hb : buffered s.eng.br = payloadBits code out ++ tail)
    (hf : follow s.eng s.eng.tree.root tail = some n) (hn : isLeaf n = false) :
    decodeLoop s.eng.dec.rem.toNat s = .error (.raise .ioUnavailable) (runStopped out n s) := by
  induction out generalizing s with
  | nil =>
    have hrem := ne_zero_of_lt_toNat hlen
    rw [runStopped_nil]
    exact decodeLoop_of_error hrem (pDecSym_fails hd hrem (.inl ⟨hc, rfl⟩) (hb ▸ hf) hn)
  | cons b out ih =>
    have hrem := ne_zero_of_lt_toNat hlen
    have hb' : buffered s.eng.br = code b.toNat ++ (payloadBits code out ++ tail) := by
      rw [hb, payloadBits, List.flatMap_cons, List.append_assoc, payloadBits]
    have hsym := pDecSym_buffered hd hrem hb' (hpath b List.mem_cons_self) ho (ioOk_next hio)
    have hroom : out.length < (s.eng.dec.rem - 1#32).toNat := by
      rw [← toNat_sub_one_add_one hrem, List.length_cons] at hlen
      exact Nat.lt_of_succ_lt_succ hlen
    rw [decodeLoop_of_ok hrem hsym rfl, ← runStopped_symbolEmitted b (code b.toNat).length]
    exact ih (decoding_symbolEmitted hd b hb') (ioOk_of_answers hio 1 rfl) hc ho hroom
      (fun c hcm => (follow_symbolEmitted _ _ s _ _).trans (hpath c (List.mem_cons_of_mem b hcm)))
      (buffered_delivered hb') ((follow_symbolEmitted _ _ s _ _).trans hf)

/-- Settles O38: every command reads at once or drains the buffer first, and its next read of the source fails. -/
theorem closedSourceRaisesIOUnavailable : Obligations.ClosedSourceRaisesIOUnavailable := by
  refine ⟨fun s failed hs hr hfail => ?_,
    fun s out code tail n hs hio hc he hpos ho hp hv hlen hpath hb hf hn => ?_⟩
  · obtain ⟨v, hv, rfl⟩ : ∃ v, ReadFails s v ∧ failed = { s with env := v } := by
      rcases hfail with ⟨hc, rfl⟩ | ⟨ho, hn, rfl⟩
      · exact ⟨failed.env, .inl ⟨hc, rfl⟩, rfl⟩
      · exact ⟨_, .inr ⟨ho, hn, rfl⟩, rfl⟩
    refine ⟨(exec_eq rfl s).trans (execute_of_raise hs (pFtScan_fails hv) hr),
      fun hd => (exec_eq rfl s).trans (execute_of_raise hs (pEncRun_fails hv hd) hr), fun he h8 => ?_,
      fun he hpos => (exec_eq rfl s).trans (execute_of_raise hs (pHdrRd_fails hv he hpos) hr),
      fun n he hpos hp hroot hrem hf hn => ?_⟩
    · exact exec_brBit_of_raise hs (readBit_fails hv he h8) hr
    · have hsym := pDecSym_fails ⟨hp, hroot, he, hpos⟩ hrem hv hf hn
      exact ⟨(exec_eq rfl s).trans (execute_of_raise hs hsym hr),
        (exec_eq rfl s).trans (execute_of_raise hs (pDecRun_of_error hp (decodeLoop_of_error hrem hsym)) hr)⟩
  · have hrun := pDecRun_of_error hp (decodeLoop_closed ⟨hp, hv, he, hpos⟩ hio hc ho hlen hpath hb hf hn)
    exact (exec_eq rfl s).trans (execute_of_raise hs hrun (releaseAnswered_of_ioOk (ioOk_of_answers hio _ rfl)))

end Sys2Proof.Machine
end

-- ==== Proofs: HT_INIT loads the leaves ====
section
namespace Sys2Proof.Machine

variable {e f : Engine}

/-! ### The live nodes and the end of a build step -/

@[simp] theorem live_length (e : Engine) : (live e).length = e.tree.pqN.toNat := entries_length _ _

theorem live_of_one (h : e.tree.pqN.toNat = 1) : live e = [pqTop e] := by
  rw [live_eq, h]
  rfl

theorem live_finalize (e : Engine) : live (finalize e) = live e := by
  obtain ⟨r, b, p, heq⟩ := finalize_eq e
  rw [heq]
  rfl

theorem heapOk_finalize (h : HeapOk e) : HeapOk (finalize e) := by
  obtain ⟨r, b, p, heq⟩ := finalize_eq e
  rw [heq]
  exact h

/-- `Finalize` where there is no root yet (`42_tree.md` R161): the one node left, if it is one, is the root. -/
theorem finalize_of_no_root (h : e.tree.rootValid = false) :
    finalize e = { e with tree := { e.tree with
      root := if e.tree.pqN.toNat = 1 then pqTop e else e.tree.root
      rootValid := decide (e.tree.pqN.toNat = 1)
      phase := if e.tree.pqN.toNat ≤ 1 then .done else .merging } } := by
  unfold finalize finalizeWith
  split
  · rename_i h0
    simp [h0, setPhase_eq, setRoot_eq]
  · split
    · rename_i h1
      simp [h1, setPhase_eq, setRoot_eq]
    · rename_i h0 h1
      have hne0 : e.tree.pqN.toNat ≠ 0 := fun hn => h0 (BitVec.eq_of_toNat_eq hn)
      have hne1 : e.tree.pqN.toNat ≠ 1 := fun hn => h1 (BitVec.eq_of_toNat_eq hn)
      have hmany : ¬ e.tree.pqN.toNat ≤ 1 := by omega
      rw [if_neg hne1, if_neg hmany, decide_eq_false hne1, ← h]
      rfl

/-- The least of some nodes is the same one in whatever order they stand (`42_tree.md` R157, R166). -/
theorem least_unique {a b : Node} {xs ys : List Node} (hp : (a :: xs).Perm (b :: ys))
    (ha : ∀ x ∈ xs, less e a x = true) (hb : ∀ y ∈ ys, less e b y = true) : a = b := by
  rcases List.mem_cons.mp (hp.mem_iff.mp List.mem_cons_self) with h | hay
  · exact h
  · rcases List.mem_cons.mp (hp.mem_iff.mpr List.mem_cons_self) with h | hbx
    · exact h.symm
    · have hcycle := less_trans (ha b hbx) (hb a hay)
      rw [less_irrefl] at hcycle
      cases hcycle

/-! ### A build under way -/

/-- What every HT_INIT and HT_STEP leaves, whatever the tables held before (`42_tree.md` R158, R161, R164): distinct
nodes of the arena in a heap, room in the arena for the merges to come, and flags that say whether it is over. -/
structure Building (e : Engine) : Prop where
  heap : HeapOk e
  nodup : (live e).Nodup
  exist : ∀ x ∈ live e, x.toNat < e.tree.nn.toNat
  arena : 256 ≤ e.tree.nn.toNat
  room : e.tree.nn.toNat + e.tree.pqN.toNat ≤ 512
  phase : e.tree.phase = if e.tree.pqN.toNat ≤ 1 then .done else .merging
  rootValid : e.tree.rootValid = decide (e.tree.pqN.toNat = 1)

/-- Under the invariant a build that has begun merging is under way. -/
theorem building_of_inv {s : State} (h : Inv s) (hp : s.eng.tree.phase = .merging) :
    Building s.eng ∧ 2 ≤ s.eng.tree.pqN.toNat := by
  obtain ⟨⟨htables, -⟩, -, -, hheap⟩ := h
  have hm := merging_of_phase htables hp
  have hs := (heapInv_iff _).mp hheap (by rw [hp]; decide)
  have h2 := hm.two
  obtain ⟨-, ⟨harena, hroom, -⟩, -⟩ := htables
  refine ⟨⟨hs.heap, hs.nodup, hm.queueWithin.nodes, harena, hroom, ?_, ?_⟩, h2⟩
  · rw [hp, if_neg (by omega)]
  · rw [hm.root, decide_eq_false (by omega)]

/-! ### HT_INIT -/

theorem leaves_count (e : Engine) : (leaves e).length = leafCount e := List.length_map _

/-- HT_INIT, whatever the block held before (`42_tree.md` R162). -/
theorem loadQueue_spec (e : Engine) :
    (live (loadQueue e)).Perm (leaves e) ∧ HeapOk (loadQueue e) ∧
      loadQueue e = { e with
        tree := { e.tree with
          nn := 256#9, pq := (loadQueue e).tree.pq, pqN := BitVec.ofNat 9 (leaves e).length
          root := if (leaves e).length = 1 then (leaves e).headD 0#9 else 0#9
          rootValid := decide ((leaves e).length = 1)
          phase := if (leaves e).length ≤ 1 then .done else .merging }
        book := { e.book with done := false } } := by
  have hq : QueueOnly (unloaded e) (insertAll (leaves e) (unloaded e)) := insertAll_queueOnly _ _
  have hsize : (unloaded e).tree.pqN.toNat + (leaves e).length ≤ 256 := (Nat.zero_add _).trans_le (leaves_length e)
  have hnil : leaves e ++ live (unloaded e) = leaves e := List.append_nil _
  obtain ⟨hheap, hlive⟩ := insertAll_heap hsize (fun k hk => absurd hk (Nat.not_lt_zero k))
    (hnil.symm ▸ leaves_nodup e)
  rw [hnil] at hlive
  rw [loadQueue_eq, live_finalize]
  refine ⟨hlive, heapOk_finalize hheap, ?_⟩
  generalize insertAll (leaves e) (unloaded e) = q at hq hlive
  have hlen : q.tree.pqN.toNat = (leaves e).length := (live_length q).symm.trans hlive.length_eq
  have hpqN : q.tree.pqN = BitVec.ofNat 9 (leaves e).length := by rw [← hlen, BitVec.ofNat_toNat, BitVec.setWidth_eq]
  have hroot : (if (leaves e).length = 1 then pqTop q else q.tree.root)
      = if (leaves e).length = 1 then (leaves e).headD 0#9 else 0#9 := by
    by_cases h1 : (leaves e).length = 1
    · rw [live_of_one (hlen.trans h1)] at hlive
      rw [if_pos h1, if_pos h1, ← List.singleton_perm.mp hlive]
      rfl
    · rw [if_neg h1, if_neg h1, hq]
      rfl
  rw [finalize_of_no_root hq.rootValid, hlen, hroot]
  rw [hq, hpqN]
  rfl

theorem pqN_loadQueue (e : Engine) : (loadQueue e).tree.pqN.toNat = (leaves e).length :=
  (live_length _).symm.trans (loadQueue_spec e).1.length_eq

theorem nn_loadQueue (e : Engine) : (loadQueue e).tree.nn = 256#9 := by rw [(loadQueue_spec e).2.2]

theorem building_loadQueue (e : Engine) : Building (loadQueue e) := by
  obtain ⟨hlive, hheap, heq⟩ := loadQueue_spec e
  have hn := pqN_loadQueue e
  have hle := leaves_length e
  have hnn : (loadQueue e).tree.nn.toNat = 256 := by rw [nn_loadQueue]; rfl
  refine ⟨hheap, hlive.nodup_iff.mpr (leaves_nodup e), fun x hx => ?_, hnn.ge, by omega, ?_, ?_⟩
  · rw [hnn]
    exact leaves_lt (hlive.mem_iff.mp hx)
  · rw [hn, heq]
  · rw [hn, heq]

theorem run_pHtInit (s : State) :
    pHtInit s = .ok ((loadQueue s.eng).tree.pqN.setWidth 32) (modEngine loadQueue s) := rfl

theorem exec_htInit {s : State} (hs : Ready s) :
    exec .htInit s = .next (answeredOk ((loadQueue s.eng).tree.pqN.setWidth 32) (modEngine loadQueue s)) :=
  (exec_eq rfl s).trans (execute_of_ok hs (run_pHtInit s))

/-- Settles O23: inserting the leaves into the empty queue keeps the heap, and `Finalize` reads their number. -/
theorem htInitLoadsLeaves : Obligations.HtInitLoadsLeaves := by
  intro s hs placed
  obtain ⟨hlive, hheap, heq⟩ := loadQueue_spec s.eng
  have hresult : (loadQueue s.eng).tree.pqN.setWidth 32 = BitVec.ofNat 32 placed.length :=
    BitVec.eq_of_toNat_eq (by
      have hn := pqN_loadQueue s.eng
      have hle := leaves_length s.eng
      change _ = (BitVec.ofNat 32 (leaves s.eng).length).toNat
      simp only [BitVec.toNat_setWidth, BitVec.toNat_ofNat]
      omega)
  have hexec := exec_htInit hs
  rw [hresult, modEngine_eq] at hexec
  generalize loadQueue s.eng = m at hlive hheap heq hexec
  exact ⟨_, hexec, hlive, hheap,
    congrArg (fun t => answeredOk (BitVec.ofNat 32 placed.length) { s with eng := t }) heq⟩

end Sys2Proof.Machine
end

-- ==== Proofs: HT_STEP merges the two least nodes ====
section
namespace Sys2Proof.Machine

variable {e : Engine}

/-- The live nodes that an HT_STEP leaves in the queue (`42_tree.md` R163). -/
def spared (e : Engine) : List Node := live (pqRemove (pqRemove e))

theorem joined_pq (e : Engine) : (joined e).tree.pq = (pqRemove (pqRemove e)).tree.pq := rfl

theorem joined_pqN (e : Engine) : (joined e).tree.pqN = (pqRemove (pqRemove e)).tree.pqN := rfl

theorem live_joined (e : Engine) : live (joined e) = spared e := by
  rw [spared, live_eq, live_eq, joined_pq, joined_pqN]

theorem nd_mergeTwo (e : Engine) : (mergeTwo e).tree.nd = (joined e).tree.nd := by
  rw [mergeTwo_eq]
  obtain ⟨r, b, p, heq⟩ := finalize_eq (pqInsert e.tree.nn (joined e))
  rw [heq]
  rfl

/-- The arena after HT_STEP: one node is written (`42_tree.md` R163). -/
theorem ndGet_mergeTwo (e : Engine) (i : Nat) :
    ndGet (mergeTwo e) i = if i = e.tree.nn.toNat then joinedNode e else ndGet e i := by
  rw [ndGet, nd_mergeTwo]
  exact joined_get e i

namespace Building

variable (h : Building e) (h2 : 2 ≤ e.tree.pqN.toNat)
include h h2

/-- The two nodes taken out of the queue have the least keys, the first the least (`42_tree.md` R160, R163). -/
theorem two_least :
    (live e).Perm ((joinedNode e).left :: (joinedNode e).right :: spared e) ∧
      (∀ x ∈ (joinedNode e).right :: spared e, less e (joinedNode e).left x = true) ∧
      (∀ x ∈ spared e, less e (joinedNode e).right x = true) ∧
      HeapOk (pqRemove (pqRemove e)) ∧ (pqRemove (pqRemove e)).tree.pqN = e.tree.pqN - 1#9 - 1#9 := by
  have hless : less (pqRemove e) = less e := by rw [pqRemove_queueOnly e]; exact less_congr rfl rfl
  obtain ⟨hperm1, hleast1, hheap1, hn1, heq1, -⟩ := pqRemove_spec (by omega) h.heap h.nodup
  have hnodup1 := (List.nodup_cons.mp (hperm1.nodup_iff.mp h.nodup)).2
  obtain ⟨hperm2, hleast2, hheap2, -, heq2, -⟩ := pqRemove_spec (by omega) hheap1 hnodup1
  rw [hless] at hleast2
  refine ⟨hperm1.trans (hperm2.cons _), fun x hx => hleast1 x (hperm2.mem_iff.mpr hx), hleast2, hheap2, ?_⟩
  rw [heq2, heq1]

theorem spared_exist {x : Node} (hx : x ∈ spared e) : x.toNat < e.tree.nn.toNat :=
  h.exist x ((h.two_least h2).1.mem_iff.mpr (.tail _ (.tail _ hx)))

theorem spared_length : (spared e).length = e.tree.pqN.toNat - 2 := by
  have hlen := (h.two_least h2).1.length_eq
  rw [live_length, List.length_cons, List.length_cons] at hlen
  omega

theorem spared_eq_nil_iff : spared e = [] ↔ e.tree.pqN.toNat = 2 := by
  rw [← List.length_eq_zero_iff, h.spared_length h2]
  omega

/-- The nodes that stay are in a heap by their new weights too, which are the old ones. -/
theorem joined_heap : HeapOk (joined e) := by
  obtain ⟨-, -, -, hheap, -⟩ := h.two_least h2
  have hfreq : ∀ n ∈ spared e, freq (joined e) n = freq (pqRemove (pqRemove e)) n := fun n hn => by
    rw [freq_joined_old (h.spared_exist h2 hn), (pqRemove_twice_queueOnly e).freq]
  rw [heapOk_iff, joined_pq, joined_pqN]
  rw [spared] at hfreq
  generalize pqRemove (pqRemove e) = r at hheap hfreq
  intro k hk hk1
  rw [less, hfreq _ (mem_entries.mpr ⟨k, hk, rfl⟩), hfreq _ (mem_entries.mpr ⟨(k - 1) / 2, by omega, rfl⟩)]
  exact hheap k hk hk1

/-- With the new node the live nodes are still distinct, since it is above them all (`42_tree.md` R163). -/
theorem new_nodup : (e.tree.nn :: spared e).Nodup := by
  have hnodup := (h.two_least h2).1.nodup_iff.mp h.nodup
  exact List.nodup_cons.mpr ⟨fun hmem => Nat.lt_irrefl _ (h.spared_exist h2 hmem),
    (List.nodup_cons.mp (List.nodup_cons.mp hnodup).2).2⟩

/-- The block before the new node is queued: the node is in the arena, and two are out of the queue. -/
theorem joined_eq :
    joined e = { e with tree := { e.tree with
      nd := (joined e).tree.nd, nn := e.tree.nn + 1#9, pq := (joined e).tree.pq, pqN := e.tree.pqN - 1#9 - 1#9 } } := by
  obtain ⟨-, -, -, -, hn⟩ := h.two_least h2
  rw [joined, pqRemove_twice_queueOnly e, hn]
  rfl

/-- HT_STEP, in any state of a build with two live nodes or more (`42_tree.md` R163). -/
theorem mergeTwo_spec :
    (live (mergeTwo e)).Perm (e.tree.nn :: spared e) ∧ HeapOk (mergeTwo e) ∧
      mergeTwo e = { e with tree :=
        { nd := (mergeTwo e).tree.nd, nn := e.tree.nn + 1#9, pq := (mergeTwo e).tree.pq, pqN := e.tree.pqN - 1#9
          root := if spared e = [] then e.tree.nn else e.tree.root
          rootValid := decide (spared e = [])
          phase := if spared e = [] then .done else .merging } } := by
  have hlen := h.spared_length h2
  have hjoined := h.joined_eq h2
  have hlive := live_joined e
  have hsize : (joined e).tree.pqN.toNat = e.tree.pqN.toNat - 2 := by rw [← live_length, hlive, hlen]
  have hfresh : (e.tree.nn :: live (joined e)).Nodup := hlive.symm ▸ h.new_nodup h2
  have hlt := e.tree.pqN.isLt
  obtain ⟨hlive', hheap', hsize', heq, -⟩ := pqInsert_spec (by omega) (h.joined_heap h2) hfresh
  rw [nd_mergeTwo, mergeTwo_eq, live_finalize]
  generalize pqInsert e.tree.nn (joined e) = q at hlive' hheap' hsize' heq
  refine ⟨hlive ▸ hlive', heapOk_finalize hheap', ?_⟩
  have hroot : q.tree.rootValid = false := by
    rw [heq, joined_rootValid, h.rootValid, decide_eq_false (by omega)]
  have hone : q.tree.pqN.toNat = 1 ↔ spared e = [] := by
    rw [h.spared_eq_nil_iff h2]
    omega
  have hdone : q.tree.pqN.toNat ≤ 1 ↔ spared e = [] := by
    rw [h.spared_eq_nil_iff h2]
    omega
  have htop : (if spared e = [] then pqTop q else q.tree.root) = if spared e = [] then e.tree.nn else e.tree.root := by
    by_cases hnil : spared e = []
    · rw [live_of_one (hone.mpr hnil), hlive, hnil] at hlive'
      rw [if_pos hnil, if_pos hnil, List.singleton_inj.mp (List.singleton_perm.mp hlive')]
    · rw [if_neg hnil, if_neg hnil, heq, hjoined]
  rw [finalize_of_no_root hroot]
  simp only [hone, hdone, htop]
  rw [heq, hjoined, BitVec.sub_add_cancel]

theorem nn_mergeTwo : (mergeTwo e).tree.nn.toNat = e.tree.nn.toNat + 1 := by
  have hroom := h.room
  have heq : (mergeTwo e).tree.nn = e.tree.nn + 1#9 := by rw [(h.mergeTwo_spec h2).2.2]
  rw [heq, BitVec.toNat_add]
  simp only [BitVec.toNat_ofNat]
  omega

theorem pqN_mergeTwo : (mergeTwo e).tree.pqN.toNat = e.tree.pqN.toNat - 1 := by
  have hlen := (h.mergeTwo_spec h2).1.length_eq
  rw [live_length, List.length_cons, h.spared_length h2] at hlen
  omega

/-- HT_STEP keeps the build in order (`42_tree.md` R158, R164). -/
theorem building_mergeTwo : Building (mergeTwo e) := by
  obtain ⟨hlive, hheap, heq⟩ := h.mergeTwo_spec h2
  have hn := h.pqN_mergeTwo h2
  have hnn := h.nn_mergeTwo h2
  have harena := h.arena
  have hroom := h.room
  generalize mergeTwo e = m at hlive hheap heq hn hnn
  have hone : m.tree.pqN.toNat = 1 ↔ spared e = [] := by
    rw [h.spared_eq_nil_iff h2]
    omega
  have hdone : m.tree.pqN.toNat ≤ 1 ↔ spared e = [] := by
    rw [h.spared_eq_nil_iff h2]
    omega
  refine ⟨hheap, hlive.nodup_iff.mpr (h.new_nodup h2), fun x hx => ?_, by omega, by omega, ?_, ?_⟩
  · rw [hnn]
    rcases List.mem_cons.mp (hlive.mem_iff.mp hx) with rfl | hold
    · exact Nat.lt_succ_self _
    · exact (h.spared_exist h2 hold).trans (Nat.lt_succ_self _)
  · simp only [hdone]
    rw [heq]
  · simp only [hone]
    rw [heq]

end Building

theorem run_pHtStep {s : State} (hp : s.eng.tree.phase = .merging) :
    pHtStep s = .ok (s.eng.tree.nn.setWidth 32) (modEngine mergeTwo s) := by
  have hreq : require (s.eng.tree.phase == .merging) .badSequence s = .ok () s := by rw [hp]; rfl
  rw [pHtStep, bind_of_ok (run_getEng s), bind_of_ok hreq]
  rfl

theorem exec_htStep {s : State} (hs : Ready s) (hp : s.eng.tree.phase = .merging) :
    exec .htStep s = .next (answeredOk (s.eng.tree.nn.setWidth 32) (modEngine mergeTwo s)) :=
  (exec_eq rfl s).trans (execute_of_ok hs (run_pHtStep hp))

/-- Settles O24: the two nodes extracted are the least live ones, and the queue takes the new one in their place. -/
theorem htStepMergesTwoLeast : Obligations.HtStepMergesTwoLeast := by
  intro s hs hinv hp
  obtain ⟨h, h2⟩ := building_of_inv hinv hp
  obtain ⟨hperm, hleast, hnext, -, -⟩ := h.two_least h2
  obtain ⟨hlive, hheap, heq⟩ := h.mergeTwo_spec h2
  have hnode := ndGet_mergeTwo s.eng
  have hexec := exec_htStep hs hp
  rw [modEngine_eq] at hexec
  generalize mergeTwo s.eng = m at hlive hheap heq hnode hexec
  exact ⟨_, (joinedNode s.eng).left, (joinedNode s.eng).right, spared s.eng, hexec, hperm, hleast, hnext,
    (hnode _).trans (if_pos rfl), fun i hi => (hnode i).trans (if_neg hi), hlive, hheap,
    congrArg (fun e => answeredOk (s.eng.tree.nn.setWidth 32) { s with eng := e }) heq⟩

end Sys2Proof.Machine
end

-- ==== Proofs: HT_BUILD finishes the tree ====
section
namespace Sys2Proof.Machine

variable {e f : Engine}

/-! ### Merging again and again (`42_tree.md` R164) -/

theorem iterate_mergeTwo_treeOnly (k : Nat) (e : Engine) : TreeOnly e (mergeTwo^[k] e) := by
  induction k generalizing e with
  | zero => rfl
  | succ k ih => exact (mergeTwo_treeOnly e).trans (ih (mergeTwo e))

/-- Every HT_STEP makes one node and takes one out of the queue. -/
theorem Building.iterate {k : Nat} (h : Building e) (hk : k ≤ e.tree.pqN.toNat - 1) :
    Building (mergeTwo^[k] e) ∧ (mergeTwo^[k] e).tree.pqN.toNat = e.tree.pqN.toNat - k ∧
      (mergeTwo^[k] e).tree.nn.toNat = e.tree.nn.toNat + k := by
  induction k with
  | zero => exact ⟨h, rfl, rfl⟩
  | succ k ih =>
    obtain ⟨hb, hn, hnn⟩ := ih (by omega)
    have h2 : 2 ≤ (mergeTwo^[k] e).tree.pqN.toNat := by omega
    have hn' := hb.pqN_mergeTwo h2
    have hnn' := hb.nn_mergeTwo h2
    rw [Function.iterate_succ_apply']
    exact ⟨hb.building_mergeTwo h2, by omega, by omega⟩

/-- The last node made is the root. -/
theorem Building.root_iterate (h : Building e) (h2 : 2 ≤ e.tree.pqN.toNat) :
    (mergeTwo^[e.tree.pqN.toNat - 1] e).tree.root.toNat = e.tree.nn.toNat + e.tree.pqN.toNat - 2 := by
  obtain ⟨k, hk⟩ : ∃ k, e.tree.pqN.toNat = k + 2 := ⟨e.tree.pqN.toNat - 2, by omega⟩
  obtain ⟨hb, hn, hnn⟩ := h.iterate (k := k) (by omega)
  have hlast : (mergeTwo^[k] e).tree.pqN.toNat = 2 := by omega
  have hroot : (mergeTwo (mergeTwo^[k] e)).tree.root = (mergeTwo^[k] e).tree.nn := by
    rw [(hb.mergeTwo_spec hlast.ge).2.2]
    exact if_pos ((hb.spared_eq_nil_iff hlast.ge).mpr hlast)
  rw [show e.tree.pqN.toNat - 1 = k + 1 by omega, Function.iterate_succ_apply', hroot, hnn]
  omega

/-! ### The block after HT_BUILD -/

/-- The block after HT_BUILD: HT_INIT, then one HT_STEP fewer than there are leaves (`42_tree.md` R164, R165). -/
def treeBuilt (e : Engine) : Engine := mergeTwo^[leafCount e - 1] (loadQueue e)

theorem pqN_loadQueue_eq_leafCount (e : Engine) : (loadQueue e).tree.pqN.toNat = leafCount e :=
  (pqN_loadQueue e).trans (leaves_count e)

/-- HT_BUILD writes the tree builder's elements and takes the mark off the code book (`42_tree.md` R165). -/
theorem treeBuilt_treeOnly (e : Engine) : TreeOnly (setCbDone false e) (treeBuilt e) :=
  (loadQueue_treeOnly e).trans (iterate_mergeTwo_treeOnly _ _)

theorem building_treeBuilt (e : Engine) :
    Building (treeBuilt e) ∧ (treeBuilt e).tree.pqN.toNat = leafCount e - (leafCount e - 1) ∧
      (treeBuilt e).tree.nn.toNat = 256 + (leafCount e - 1) := by
  have hn := pqN_loadQueue_eq_leafCount e
  obtain ⟨hb, hn', hnn⟩ := (building_loadQueue e).iterate (k := leafCount e - 1) (by omega)
  rw [nn_loadQueue] at hnn
  exact ⟨hb, hn'.trans (by rw [hn]), hnn⟩

/-- The build is over, and there is a root where a symbol has a count (`42_tree.md` R161, R165). -/
theorem treeBuilt_flags (e : Engine) :
    (treeBuilt e).tree.phase = .done ∧ (treeBuilt e).tree.rootValid = decide (1 ≤ leafCount e) := by
  obtain ⟨hb, hn, -⟩ := building_treeBuilt e
  refine ⟨hb.phase.trans (if_pos (by omega)), hb.rootValid.trans (decide_eq_decide.mpr ?_)⟩
  omega

theorem treeBuilt_of_le_one (h : leafCount e ≤ 1) : treeBuilt e = loadQueue e := by
  rw [treeBuilt, show leafCount e - 1 = 0 by omega]
  rfl

theorem root_loadQueue (e : Engine) :
    (loadQueue e).tree.root = if leafCount e = 1 then (leaves e).headD 0#9 else 0#9 := by
  rw [(loadQueue_spec e).2.2, leaves_count]

theorem root_of_no_leaf (h : leafCount e = 0) : (treeBuilt e).tree.root = 0#9 := by
  rw [treeBuilt_of_le_one (by omega), root_loadQueue, if_neg (by omega)]

theorem root_of_lone_leaf (h : leafCount e = 1) :
    ∃ x, x < 256 ∧ ftGet e x ≠ 0#32 ∧ (treeBuilt e).tree.root = leafOf x := by
  rw [treeBuilt_of_le_one h.le, root_loadQueue, if_pos h]
  obtain ⟨n, hn⟩ := List.length_eq_one_iff.mp ((leaves_count e).trans h)
  obtain ⟨x, hx, hcount, hleaf⟩ := mem_leaves.mp (hn ▸ List.mem_singleton_self n)
  exact ⟨x, hx, hcount, by rw [hn, hleaf]; rfl⟩

theorem root_of_leaves (h : 2 ≤ leafCount e) : (treeBuilt e).tree.root.toNat = 256 + leafCount e - 2 := by
  have hn := pqN_loadQueue_eq_leafCount e
  have hroot := (building_loadQueue e).root_iterate (hn.symm ▸ h)
  rw [nn_loadQueue, hn] at hroot
  exact hroot

/-! ### Running the commands -/

theorem modEngine_iterate_succ (g : Engine → Engine) (k : Nat) (s : State) :
    modEngine g^[k] (modEngine g s) = modEngine g^[k + 1] s := rfl

/-- The loop of HT_BUILD ends where the build is over (`42_tree.md` R165). -/
theorem mergeLoop_over {s : State} (n : Nat) (h : Building s.eng) (h1 : s.eng.tree.pqN.toNat ≤ 1) :
    mergeLoop (n + 1) s = .ok () s := by
  rw [mergeLoop, bind_of_ok (run_getEng s), h.phase, if_pos h1]
  rfl

theorem mergeLoop_merging {s : State} (n : Nat) (h : Building s.eng) (h2 : 2 ≤ s.eng.tree.pqN.toNat) :
    mergeLoop (n + 1) s = mergeLoop n (modEngine mergeTwo s) := by
  have hp : s.eng.tree.phase = .merging := h.phase.trans (if_neg (by omega))
  rw [mergeLoop, bind_of_ok (run_getEng s), if_pos hp, bind_of_ok (run_pHtStep hp)]

/-- The loop of HT_BUILD merges until one node is left, and its bound is large enough (`42_tree.md` R165). -/
theorem run_mergeLoop {n : Nat} {s : State} (h : Building s.eng) (hn : s.eng.tree.pqN.toNat ≤ n + 1) :
    mergeLoop (n + 1) s = .ok () (modEngine (mergeTwo^[s.eng.tree.pqN.toNat - 1]) s) := by
  induction n generalizing s with
  | zero =>
    rw [mergeLoop_over 0 h hn, Nat.sub_eq_zero_of_le hn]
    rfl
  | succ n ih =>
    by_cases h2 : 2 ≤ s.eng.tree.pqN.toNat
    · have hpqN := h.pqN_mergeTwo h2
      obtain ⟨k, hk⟩ : ∃ k, s.eng.tree.pqN.toNat = k + 2 := ⟨s.eng.tree.pqN.toNat - 2, by omega⟩
      have hk1 : (mergeTwo s.eng).tree.pqN.toNat = k + 1 := by omega
      have hrest := ih (s := modEngine mergeTwo s)
      rw [modEngine_eng, hk1] at hrest
      rw [mergeLoop_merging _ h h2, hrest (h.building_mergeTwo h2) (by omega), hk]
      exact congrArg (EStateM.Result.ok ()) (modEngine_iterate_succ mergeTwo k s)
    · have h1 : s.eng.tree.pqN.toNat ≤ 1 := by omega
      rw [mergeLoop_over _ h h1, Nat.sub_eq_zero_of_le h1]
      rfl

theorem pHtBuild_of_ok {s t u : State} {v : U32} (hinit : pHtInit s = .ok v t)
    (hloop : mergeLoop (t.eng.tree.pqN.toNat + 1) t = .ok () u) : pHtBuild s = .ok (rootWord u.eng) u :=
  (bind_of_ok hinit _).trans
    (bind_of_ok (p := fun s => mergeLoop (s.eng.tree.pqN.toNat + 1) s) (a := ()) (t := u) hloop _)

/-- HT_BUILD completes, in any state (`42_tree.md` R165). -/
theorem run_pHtBuild (s : State) : pHtBuild s = .ok (rootWord (treeBuilt s.eng)) (modEngine treeBuilt s) := by
  have hloop := run_mergeLoop (s := modEngine loadQueue s) (building_loadQueue s.eng) (Nat.le_succ _)
  have hbuilt : modEngine (mergeTwo^[(modEngine loadQueue s).eng.tree.pqN.toNat - 1]) (modEngine loadQueue s)
      = modEngine treeBuilt s := by
    rw [modEngine_eng, pqN_loadQueue_eq_leafCount]
    rfl
  rw [hbuilt] at hloop
  have hrun := pHtBuild_of_ok (run_pHtInit s) hloop
  rwa [modEngine_eng] at hrun

theorem exec_htBuild {s : State} (hs : Ready s) :
    exec .htBuild s = .next (answeredOk (rootWord (treeBuilt s.eng)) (modEngine treeBuilt s)) :=
  (exec_eq rfl s).trans (execute_of_ok hs (run_pHtBuild s))

/-! ### HT_BUILD as a sequence of commands

Between two commands `result` is written, which no operation of the tree builder reads. -/

theorem siftUp_congr (h : less f = less e) (n k : Nat) (pq : Table Node) : siftUp f n k pq = siftUp e n k pq := by
  induction n generalizing k pq with
  | zero => rfl
  | succ n ih => simp only [siftUp, h, ih]

theorem leastChild_congr (h : less f = less e) : leastChild f = leastChild e := by
  funext n k pq
  rw [leastChild, leastChild, h]

theorem siftDown_congr (h : less f = less e) (n m k : Nat) (pq : Table Node) :
    siftDown f n m k pq = siftDown e n m k pq := by
  induction m generalizing k pq with
  | zero => rfl
  | succ m ih => rw [siftDown, siftDown, leastChild_congr h, ih]

section Result

variable (v : U32) (x : Node) (e : Engine)

theorem less_setResult : less (setResult v e) = less e := less_congr rfl rfl

theorem pqInsert_setResult : pqInsert x (setResult v e) = setResult v (pqInsert x e) := by
  simp only [pqInsert, siftUp_congr (less_setResult v e)]
  rfl

theorem pqRemove_setResult : pqRemove (setResult v e) = setResult v (pqRemove e) := by
  simp only [pqRemove, siftDown_congr (less_setResult v e), setResult_tree]
  split <;> rfl

theorem finalize_setResult : finalize (setResult v e) = setResult v (finalize e) := by
  unfold finalize finalizeWith
  rw [setResult_tree]
  split_ifs <;> rfl

theorem joined_setResult : joined (setResult v e) = setResult v (joined e) := by
  simp only [joined, joinedNode, pqRemove_setResult]
  rfl

theorem mergeTwo_setResult : mergeTwo (setResult v e) = setResult v (mergeTwo e) := by
  rw [mergeTwo_eq, mergeTwo_eq, joined_setResult, setResult_tree, pqInsert_setResult, finalize_setResult]

theorem iterate_mergeTwo_setResult (k : Nat) : mergeTwo^[k] (setResult v e) = setResult v (mergeTwo^[k] e) :=
  Function.Commute.iterate_left (g := setResult v) (mergeTwo_setResult v) k e

end Result

theorem answeredOk_modEngine_eng (v : U32) (g : Engine → Engine) (s : State) :
    (answeredOk v (modEngine g s)).eng = setResult v (g s.eng) := rfl

theorem Building.setResult (h : Building e) (v : U32) : Building (setResult v e) :=
  ⟨h.heap, h.nodup, h.exist, h.arena, h.room, h.phase, h.rootValid⟩

/-- HT_STEP commands one after another merge as often (`42_tree.md` R165). -/
theorem execAll_htStep {k : Nat} {s : State} (hs : Ready s) (h : Building s.eng)
    (hk : k ≤ s.eng.tree.pqN.toNat - 1) :
    ∃ u, execAll (List.replicate k .htStep) s = .next u ∧ u.eng.tree = (mergeTwo^[k] s.eng).tree := by
  induction k generalizing s with
  | zero => exact ⟨s, rfl, rfl⟩
  | succ k ih =>
    have h2 : 2 ≤ s.eng.tree.pqN.toNat := by omega
    have hp : s.eng.tree.phase = .merging := h.phase.trans (if_neg (by omega))
    have hexec := exec_htStep hs hp
    have heng := answeredOk_modEngine_eng (s.eng.tree.nn.setWidth 32) mergeTwo s
    generalize answeredOk _ (modEngine mergeTwo s) = t at hexec heng
    have hready : Ready t := by
      rw [Ready, heng, setResult_stat, (mergeTwo_treeOnly s.eng).stat]
      exact hs
    have hn : t.eng.tree.pqN.toNat = s.eng.tree.pqN.toNat - 1 := by
      rw [heng, setResult_tree, h.pqN_mergeTwo h2]
    obtain ⟨u, hu, htree⟩ := ih hready (heng ▸ (h.building_mergeTwo h2).setResult _) (by omega)
    refine ⟨u, (execAll_cons hexec _).trans hu, htree.trans ?_⟩
    rw [heng, iterate_mergeTwo_setResult, setResult_tree, Function.iterate_succ_apply]

/-- HT_INIT and the HT_STEP commands after it leave the tree of HT_BUILD (`42_tree.md` R165). -/
theorem execAll_htInit_htStep {s : State} (hs : Ready s) :
    ∃ u, execAll (.htInit :: List.replicate (leafCount s.eng - 1) .htStep) s = .next u ∧
      u.eng.tree = (treeBuilt s.eng).tree := by
  have hexec := exec_htInit hs
  have heng := answeredOk_modEngine_eng ((loadQueue s.eng).tree.pqN.setWidth 32) loadQueue s
  generalize answeredOk _ (modEngine loadQueue s) = t at hexec heng
  have hready : Ready t := by
    rw [Ready, heng, setResult_stat, (loadQueue_treeOnly s.eng).stat]
    exact hs
  have hn : t.eng.tree.pqN.toNat = leafCount s.eng := by
    rw [heng, setResult_tree, pqN_loadQueue_eq_leafCount]
  obtain ⟨u, hu, htree⟩ := execAll_htStep (k := leafCount s.eng - 1) hready
    (heng ▸ (building_loadQueue s.eng).setResult _) (by rw [hn])
  refine ⟨u, (execAll_cons hexec _).trans hu, htree.trans ?_⟩
  rw [heng, iterate_mergeTwo_setResult, setResult_tree, treeBuilt]

/-- Settles O25: every merge makes one node and takes one out of the queue, so the loop ends with the last as root. -/
theorem htBuildFinishesTree : Obligations.HtBuildFinishesTree := by
  intro s hs n
  have hexec := exec_htBuild hs
  have hframe := treeBuilt_treeOnly s.eng
  obtain ⟨-, -, hnn⟩ := building_treeBuilt s.eng
  obtain ⟨hphase, hvalid⟩ := treeBuilt_flags s.eng
  have hroot0 := root_of_no_leaf (e := s.eng)
  have hroot1 := root_of_lone_leaf (e := s.eng)
  have hroot2 := root_of_leaves (e := s.eng)
  have hcommands := execAll_htInit_htStep hs
  rw [modEngine_eq] at hexec
  generalize treeBuilt s.eng = m at *
  exact ⟨_, hexec, hnn, hroot0, hroot1, hroot2, hvalid, hphase, hcommands,
    congrArg (fun e => answeredOk (rootWord m) { s with eng := e }) hframe⟩

end Sys2Proof.Machine
end

-- ==== Proofs: the tree is a function of the counts ====
section
namespace Sys2Proof.Machine

variable {e f : Engine}

/-- The two builds have reached the same tree from the same counts: the same nodes made, the same ones live in
whatever order the queues hold them (`42_tree.md` R166, R167). -/
structure Alike (e f : Engine) : Prop where
  counts : ∀ x, x < 256 → ftGet e x = ftGet f x
  nodes : ∀ i, 256 ≤ i → i < e.tree.nn.toNat → ndGet e i = ndGet f i
  live : (live e).Perm (live f)
  nn : e.tree.nn = f.tree.nn
  root : e.tree.root = f.tree.root
  rootValid : e.tree.rootValid = f.tree.rootValid

namespace Alike

theorem freq (h : Alike e f) {n : Node} (hn : n.toNat < e.tree.nn.toNat) : freq e n = freq f n := by
  by_cases hleaf : isLeaf n = true
  · rw [Machine.freq, Machine.freq, if_pos hleaf, if_pos hleaf, h.counts _ ((isLeaf_iff n).mp hleaf)]
  · have hinner : 256 ≤ n.toNat := Nat.not_lt.mp fun hlt => hleaf ((isLeaf_iff n).mpr hlt)
    rw [Machine.freq, Machine.freq, if_neg hleaf, if_neg hleaf, h.nodes _ hinner hn]

theorem less (h : Alike e f) {a b : Node} (ha : a.toNat < e.tree.nn.toNat) (hb : b.toNat < e.tree.nn.toNat) :
    less e a b = less f a b := by
  rw [Machine.less, Machine.less, h.freq ha, h.freq hb]

theorem pqN (h : Alike e f) : e.tree.pqN.toNat = f.tree.pqN.toNat := by
  rw [← live_length, ← live_length, h.live.length_eq]

/-- Equal counts place the same leaves (`42_tree.md` R162). -/
theorem loadQueue (h : ∀ x, x < 256 → ftGet e x = ftGet f x) : Alike (loadQueue e) (loadQueue f) := by
  have hleaves : leaves e = leaves f :=
    congrArg (List.map leafOf) (List.filter_congr fun x hx => by rw [h x (List.mem_range.mp hx)])
  obtain ⟨hlive, -, heq⟩ := loadQueue_spec e
  obtain ⟨hlive', -, heq'⟩ := loadQueue_spec f
  rw [hleaves] at hlive heq
  have hscan := (loadQueue_treeOnly e).scan
  have hscan' := (loadQueue_treeOnly f).scan
  refine ⟨fun x hx => ?_, fun i hlo hi => ?_, hlive.trans hlive'.symm, ?_, ?_, ?_⟩
  · rw [ftGet, ftGet, hscan, hscan']
    exact h x hx
  · rw [nn_loadQueue] at hi
    exact absurd hi (Nat.not_lt.mpr hlo)
  all_goals rw [heq, heq']

section Merge

variable (h : Alike e f) (he : Building e) (hf : Building f) (h2 : 2 ≤ e.tree.pqN.toNat)
include h he hf h2

/-- Keys are distinct, so both builds extract the same two nodes, in the same order (`42_tree.md` R157, R166). -/
theorem merged : joinedNode e = joinedNode f ∧ (spared e).Perm (spared f) := by
  obtain ⟨hperm, hleast, hnext, -, -⟩ := he.two_least h2
  obtain ⟨hperm', hleast', hnext', -, -⟩ := hf.two_least (h.pqN ▸ h2)
  have hboth := hperm.symm.trans (h.live.trans hperm')
  have hexist : ∀ n ∈ (joinedNode f).left :: (joinedNode f).right :: spared f, n.toNat < e.tree.nn.toNat :=
    fun n hn => he.exist n (h.live.mem_iff.mpr (hperm'.mem_iff.mpr hn))
  have hleft : (joinedNode e).left = (joinedNode f).left := least_unique hboth hleast fun x hx =>
    (h.less (hexist _ (.head _)) (hexist x (.tail _ hx))).trans (hleast' x hx)
  rw [hleft] at hboth
  have hothers := hboth.cons_inv
  have hright : (joinedNode e).right = (joinedNode f).right := least_unique hothers hnext fun x hx =>
    (h.less (hexist _ (.tail _ (.head _))) (hexist x (.tail _ (.tail _ hx)))).trans (hnext' x hx)
  rw [hright] at hothers
  refine ⟨?_, hothers.cons_inv⟩
  have hweight : (joinedNode e).freq = (joinedNode f).freq := by
    change Machine.freq e (joinedNode e).left + Machine.freq e (joinedNode e).right
      = Machine.freq f (joinedNode f).left + Machine.freq f (joinedNode f).right
    rw [hleft, hright, h.freq (hexist _ (.head _)), h.freq (hexist _ (.tail _ (.head _)))]
  calc joinedNode e = ⟨(joinedNode e).freq, (joinedNode e).left, (joinedNode e).right⟩ := rfl
    _ = joinedNode f := by rw [hweight, hleft, hright]

theorem mergeTwo : Alike (mergeTwo e) (mergeTwo f) := by
  have h2' : 2 ≤ f.tree.pqN.toNat := h.pqN ▸ h2
  obtain ⟨hnode, hspared⟩ := h.merged he hf h2
  obtain ⟨hlive, -, heq⟩ := he.mergeTwo_spec h2
  obtain ⟨hlive', -, heq'⟩ := hf.mergeTwo_spec h2'
  have hnil : spared e = [] ↔ spared f = [] := by
    rw [he.spared_eq_nil_iff h2, hf.spared_eq_nil_iff h2', h.pqN]
  have hscan := (mergeTwo_treeOnly e).scan
  have hscan' := (mergeTwo_treeOnly f).scan
  refine ⟨fun x hx => ?_, fun i hlo hi => ?_, ?_, ?_, ?_, ?_⟩
  · rw [ftGet, ftGet, hscan, hscan']
    exact h.counts x hx
  · rw [he.nn_mergeTwo h2] at hi
    rw [ndGet_mergeTwo, ndGet_mergeTwo, hnode, ← h.nn]
    split
    · rfl
    · exact h.nodes i hlo (by omega)
  · rw [h.nn] at hlive
    exact hlive.trans ((hspared.cons _).trans hlive'.symm)
  · rw [heq, heq', h.nn]
  · rw [heq, heq']
    simp only [hnil, h.nn, h.root]
  · rw [heq, heq']
    simp only [hnil]

end Merge

theorem iterate {k : Nat} (h : Alike e f) (he : Building e) (hf : Building f) (hk : k ≤ e.tree.pqN.toNat - 1) :
    Alike (Machine.mergeTwo^[k] e) (Machine.mergeTwo^[k] f) := by
  induction k with
  | zero => exact h
  | succ k ih =>
    obtain ⟨he', hn, -⟩ := he.iterate (k := k) (by omega)
    obtain ⟨hf', -, -⟩ := hf.iterate (k := k) (h.pqN ▸ by omega)
    rw [Function.iterate_succ_apply', Function.iterate_succ_apply']
    exact (ih (by omega)).mergeTwo he' hf' (by omega)

/-- Equal counts build the same tree (`42_tree.md` R167). -/
theorem treeBuilt (h : ∀ x, x < 256 → ftGet e x = ftGet f x) : Alike (treeBuilt e) (treeBuilt f) := by
  have hload := loadQueue h
  have hn := pqN_loadQueue_eq_leafCount e
  have hcount : leafCount f = leafCount e := by
    rw [← pqN_loadQueue_eq_leafCount, ← pqN_loadQueue_eq_leafCount, hload.pqN]
  rw [Machine.treeBuilt, Machine.treeBuilt, hcount]
  exact hload.iterate (building_loadQueue e) (building_loadQueue f) (by rw [hn])

end Alike

/-- Settles O26: from equal counts the two builds stay alike, merge by merge. -/
theorem treeDependsOnlyOnCounts : Obligations.TreeDependsOnlyOnCounts := by
  intro s s' t t' hs hs' hcounts ht ht'
  rw [exec_htBuild hs, modEngine_eq] at ht
  rw [exec_htBuild hs', modEngine_eq] at ht'
  have hbuilt := Alike.treeBuilt hcounts
  generalize treeBuilt s.eng = m at ht hbuilt
  generalize treeBuilt s'.eng = m' at ht' hbuilt
  cases ht
  cases ht'
  exact ⟨hbuilt.nn, hbuilt.root, hbuilt.rootValid, hbuilt.nodes⟩

end Sys2Proof.Machine
end

-- ==== Proofs: the paths of the code book ====
section
namespace Sys2Proof.Machine

variable {e : Engine} {d : Nat} {n m : Node} {b : Book}

/-! ### Paths through an arena in order (`10_state.md` R28) -/

/-- The children of a node that exists were created before it (`10_state.md` R28). -/
def ChildrenBelow (e : Engine) : Prop :=
  ∀ i, i < e.tree.nn.toNat → 256 ≤ i → (ndGet e i).left.toNat < i ∧ (ndGet e i).right.toNat < i

theorem le_of_not_leaf (h : isLeaf n = false) : 256 ≤ n.toNat :=
  Nat.not_lt.mp fun hlt => ne_true_of_eq_false h ((isLeaf_iff n).mpr hlt)

theorem ChildrenBelow.childOf_lt (h : ChildrenBelow e) (hn : n.toNat < e.tree.nn.toNat) (hl : isLeaf n = false)
    (bit : Bool) : (childOf e n bit).toNat < n.toNat := by
  obtain ⟨hleft, hright⟩ := h n.toNat hn (le_of_not_leaf hl)
  cases bit with
  | false => exact hleft
  | true => exact hright

/-- A path has no more branches than there are internal nodes up to its start (`43_codebook.md` R182). -/
theorem ChildrenBelow.follow_length_le (h : ChildrenBelow e) {p : List Bool} (hn : n.toNat < e.tree.nn.toNat)
    (hd : n.toNat ≤ 255 + d) (hp : follow e n p = some m) : p.length ≤ d := by
  induction p generalizing n d with
  | nil => exact Nat.zero_le d
  | cons bit p ih =>
    cases hl : isLeaf n with
    | true => rw [follow_leaf hl] at hp; cases hp
    | false =>
      rw [follow, hl] at hp
      have hlo := le_of_not_leaf hl
      have hchild := h.childOf_lt hn hl bit
      obtain ⟨k, rfl⟩ : ∃ k, d = k + 1 := ⟨d - 1, by omega⟩
      exact Nat.succ_le_succ (ih (by omega) (by omega) hp)

/-! ### The traversal as it descends (`43_codebook.md` R181) -/

theorem codeWalk_leaf (hl : isLeaf n = true) (d : Nat) (path : List Bool) (b : Book) :
    codeWalk e d n path b = some (recordCode n path b) := by
  cases d with
  | zero => exact if_pos hl
  | succ d => exact if_pos hl

/-- At an internal node the right subtree is walked with the book the left one leaves. -/
theorem codeWalk_node (hl : isLeaf n = false) (d : Nat) (path : List Bool) (b : Book) :
    codeWalk e (d + 1) n path b = (codeWalk e d (childOf e n false) (path ++ [false]) b).bind fun b1 =>
      codeWalk e d (childOf e n true) (path ++ [true]) b1 := by
  change _ = (codeWalk e d (ndGet e n.toNat).left (path ++ [false]) b).bind _
  rw [codeWalk, if_neg (ne_true_of_eq_false hl)]
  cases codeWalk e d (ndGet e n.toNat).left (path ++ [false]) b <;> rfl

/-- Where every child is below its parent, 255 branches are enough (`43_codebook.md` R182). -/
theorem ChildrenBelow.codeWalk_ends (h : ChildrenBelow e) (hn : n.toNat < e.tree.nn.toNat) (hd : n.toNat ≤ 255 + d)
    (path : List Bool) (b : Book) : ∃ b1, codeWalk e d n path b = some b1 := by
  induction d generalizing n path b with
  | zero => exact ⟨_, codeWalk_leaf ((isLeaf_iff n).mpr (Nat.lt_succ_of_le hd)) 0 path b⟩
  | succ d ih =>
    cases hl : isLeaf n with
    | true => exact ⟨_, codeWalk_leaf hl _ path b⟩
    | false =>
      have hchild := h.childOf_lt hn hl
      have hends := fun bit => ih (n := childOf e n bit) ((hchild bit).trans hn) (by have := hchild bit; omega)
      obtain ⟨b1, hleft⟩ := hends false (path ++ [false]) b
      rw [codeWalk_node hl, hleft]
      exact hends true (path ++ [true]) b1

/-- No path from the root of an arena in order is longer than the traversal can take (`43_codebook.md` R181). -/
theorem ChildrenBelow.buildBook_ends (h : ChildrenBelow e)
    (hroot : e.tree.rootValid = true → e.tree.root.toNat < e.tree.nn.toNat) : ∃ b, buildBook e = some b := by
  unfold buildBook
  split
  · have hlt := e.tree.nn.isLt
    have hn := hroot ‹_›
    exact h.codeWalk_ends hn (show _ ≤ 255 + 255 by omega) [] _
  · exact ⟨_, rfl⟩

/-- The codes of a book are paths of its tree, and every leaf of the tree has one (`43_codebook.md` R180). -/
theorem buildBook_codes (h : buildBook e = some b) :
    (∀ x path, tableGet none b.cb x = some path → e.tree.rootValid = true ∧ x < 256 ∧ IsPath e x path) ∧
      ∀ x path, x < 256 → e.tree.rootValid = true → IsPath e x path → (tableGet none b.cb x).isSome = true := by
  obtain ⟨-, -, hpaths, hcovers⟩ := buildBook_spec h
  have htree : ∀ x path, IsPath (setBook b.cb e) x path ↔ IsPath e x path := fun x path => by
    rw [IsPath, follow_congr (setBook_tree b.cb e)]
    rfl
  refine ⟨fun x path hx => ?_, fun x path hx hv hp => hcovers x path hx hv ((htree x path).mpr hp)⟩
  obtain ⟨hx', hv, hp⟩ := hpaths x path hx
  exact ⟨hv, hx', (htree x path).mp hp⟩

/-! ### CB_BUILD -/

theorem require_done {s : State} (hp : s.eng.tree.phase = .done) :
    require (s.eng.tree.phase == .done) .badSequence s = .ok () s := by
  rw [hp]
  rfl

/-- CB_BUILD on a finished build whose traversal ends (`43_codebook.md` R181). -/
theorem run_pCbBuild {s : State} (hp : s.eng.tree.phase = .done) (hb : buildBook s.eng = some b) :
    pCbBuild s = .ok (BitVec.ofNat 32 b.count) (modEngine (setBook b.cb) s) := by
  rw [pCbBuild, bind_of_ok (run_getEng s), bind_of_ok (require_done hp), hb]
  rfl

theorem exec_cbBuild {s : State} (hs : Ready s) (hp : s.eng.tree.phase = .done) (hb : buildBook s.eng = some b) :
    exec .cbBuild s = .next (answeredOk (BitVec.ofNat 32 b.count) (modEngine (setBook b.cb) s)) :=
  (exec_eq rfl s).trans (execute_of_ok hs (run_pCbBuild hp hb))

/-- The procedure returns only with a whole book (`43_codebook.md` R181). -/
theorem pCbBuild_eq_ok {s t : State} {v : U32} (h : pCbBuild s = .ok v t) :
    ∃ b, buildBook s.eng = some b ∧ t = modEngine (setBook b.cb) s := by
  rw [pCbBuild, bind_of_ok (run_getEng s)] at h
  obtain ⟨_, t', hreq, hbook⟩ := bind_eq_ok.mp h
  obtain rfl : s = t' := by
    rw [run_require] at hreq
    split at hreq <;> cases hreq
    rfl
  cases hb : buildBook s.eng with
  | none => rw [hb] at hbook; cases hbook
  | some b =>
    rw [hb] at hbook
    cases hbook
    exact ⟨b, rfl, rfl⟩

/-- A command's response is `OK` only where its procedure has returned (`30_encoding.md` R93). -/
theorem execute_eq_ok {p : Proc U32} {s u : State} (h : execute (runProc p) s = .next u)
    (hrsp : u.host.rsp = some .ok) : ∃ v t, p s = .ok v t ∧ u = answeredOk v t := by
  rcases execute_next h with ⟨-, rfl⟩ | ⟨-, v, t, hp, rfl⟩ | ⟨-, _, _, -, -, rfl⟩ | ⟨-, _, -, rfl⟩ |
    ⟨-, _, _, _, -, -, rfl⟩
  case inr.inl => exact ⟨v, t, hp, rfl⟩
  all_goals cases hrsp

/-- Settles O28: in an arena in order the traversal ends, and it records the paths it takes. -/
theorem cbBuildRecordsPaths : Obligations.CbBuildRecordsPaths := by
  rintro s hs ⟨-, ⟨-, -, hchildren⟩, ⟨-, hqueue⟩, hphase, -⟩ hp
  have hroot : s.eng.tree.rootValid = true → s.eng.tree.root.toNat < s.eng.tree.nn.toNat := by
    intro hv
    obtain ⟨h1, htop⟩ : s.eng.tree.pqN.toNat = 1 ∧ s.eng.tree.root = pqGet s.eng.tree.pq 0 := by
      simpa [phaseOk, hp, hv] using hphase
    rw [htop]
    exact hqueue 0 (by omega)
  obtain ⟨b, hb⟩ := ChildrenBelow.buildBook_ends hchildren hroot
  obtain ⟨hpaths, hcovers⟩ := buildBook_codes hb
  refine ⟨_, exec_cbBuild hs hp hb, hpaths, hcovers, fun hv => ?_, rfl⟩
  rw [buildBook, hv] at hb
  cases hb
  rfl

/-- Settles O31: a code that another code extends ends at a leaf, where no branch leads on. -/
theorem codesArePrefixFree : Obligations.CodesArePrefixFree := by
  intro s t _ hexec hrsp x y p q hne hx hy hprefix
  obtain ⟨v, t', hrun, rfl⟩ := execute_eq_ok ((exec_eq rfl s).symm.trans hexec) hrsp
  obtain ⟨b, hb, rfl⟩ := pCbBuild_eq_ok hrun
  obtain ⟨-, hx', hp⟩ := (buildBook_codes hb).1 x p hx
  obtain ⟨-, hy', hq⟩ := (buildBook_codes hb).1 y q hy
  obtain ⟨r, rfl⟩ := hprefix
  rw [IsPath, follow_append, hp, Option.bind_some] at hq
  cases r with
  | nil =>
    rw [follow_nil, Option.some_inj] at hq
    exact hne (by rw [← leafOf_toNat hx', hq, leafOf_toNat hy'])
  | cons bit r => rw [follow_leaf (isLeaf_leafOf hx')] at hq; cases hq

/-- Settles O30: the traversal of a root that is a leaf records the empty path and ends. -/
theorem loneLeafCodeIsEmpty : Obligations.LoneLeafCodeIsEmpty := by
  intro s hs hp hv hl
  have hb : buildBook s.eng = some (recordCode s.eng.tree.root [] { cb := [], count := 0 }) := by
    rw [buildBook, if_pos hv, codeWalk_leaf hl]
  exact ⟨_, exec_cbBuild hs hp hb, rfl, rfl, fun x => recordCode_get s.eng.tree.root [] { cb := [], count := 0 } x⟩

end Sys2Proof.Machine
end

-- ==== Proofs: the code book of a built tree ====
section
namespace Sys2Proof.Machine

variable {e f : Engine} {d d' : Nat} {n m : Node} {b b1 : Book}

/-! ### The leaves below a node, in the order of the traversal (`43_codebook.md` R181) -/

/-- The leaves reached from node `n` by at most `d` branches, left to right. -/
def leavesBelow (e : Engine) : Nat → Node → List Node
  | 0, n => if isLeaf n then [n] else []
  | d + 1, n =>
    if isLeaf n then [n] else leavesBelow e d (childOf e n false) ++ leavesBelow e d (childOf e n true)

theorem leavesBelow_leaf (hl : isLeaf n = true) (d : Nat) : leavesBelow e d n = [n] := by
  cases d with
  | zero => exact if_pos hl
  | succ d => exact if_pos hl

theorem leavesBelow_node (hl : isLeaf n = false) (d : Nat) :
    leavesBelow e (d + 1) n = leavesBelow e d (childOf e n false) ++ leavesBelow e d (childOf e n true) :=
  if_neg (ne_true_of_eq_false hl)

theorem mem_leavesBelow_of_follow {p : List Bool} (hm : isLeaf m = true) (hd : p.length ≤ d)
    (hp : follow e n p = some m) : m ∈ leavesBelow e d n := by
  induction p generalizing n d with
  | nil =>
    rw [follow_nil, Option.some_inj] at hp
    rw [hp, leavesBelow_leaf hm]
    exact List.mem_singleton_self m
  | cons bit p ih =>
    cases hl : isLeaf n with
    | true => rw [follow_leaf hl] at hp; cases hp
    | false =>
      rw [follow, hl] at hp
      obtain ⟨k, rfl⟩ : ∃ k, d = k + 1 := ⟨d - 1, (Nat.sub_add_cancel (Nat.one_le_of_lt hd)).symm⟩
      have hchild := ih (Nat.le_of_succ_le_succ hd) hp
      rw [leavesBelow_node hl, List.mem_append]
      cases bit with
      | false => exact .inl hchild
      | true => exact .inr hchild

theorem follow_of_mem_leavesBelow (h : m ∈ leavesBelow e d n) : ∃ p, follow e n p = some m := by
  induction d generalizing n with
  | zero =>
    rw [leavesBelow] at h
    split at h
    · exact ⟨[], by rw [follow_nil, List.mem_singleton.mp h]⟩
    · cases h
  | succ d ih =>
    cases hl : isLeaf n with
    | true =>
      rw [leavesBelow_leaf hl] at h
      exact ⟨[], by rw [follow_nil, List.mem_singleton.mp h]⟩
    | false =>
      have hbranch : ∀ bit, m ∈ leavesBelow e d (childOf e n bit) → ∃ p, follow e n p = some m := by
        intro bit hmem
        obtain ⟨p, hp⟩ := ih hmem
        exact ⟨bit :: p, by rwa [follow, hl]⟩
      rw [leavesBelow_node hl, List.mem_append] at h
      exact h.elim (hbranch false) (hbranch true)

/-- Where no leaf is met twice, only one path leads to it (`43_codebook.md` R184). -/
theorem path_unique {p q : List Bool} (hnodup : (leavesBelow e d n).Nodup) (hm : isLeaf m = true)
    (hpd : p.length ≤ d) (hqd : q.length ≤ d) (hp : follow e n p = some m) (hq : follow e n q = some m) :
    p = q := by
  induction p generalizing n d q with
  | nil =>
    rw [follow_nil, Option.some_inj] at hp
    cases q with
    | nil => rfl
    | cons bit q => rw [hp, follow_leaf hm] at hq; cases hq
  | cons bit p ih =>
    cases hl : isLeaf n with
    | true => rw [follow_leaf hl] at hp; cases hp
    | false =>
      cases q with
      | nil =>
        rw [follow_nil, Option.some_inj] at hq
        rw [hq, hm] at hl
        cases hl
      | cons bit' q =>
        obtain ⟨k, rfl⟩ : ∃ k, d = k + 1 := ⟨d - 1, (Nat.sub_add_cancel (Nat.one_le_of_lt hpd)).symm⟩
        rw [List.length_cons, Nat.add_le_add_iff_right] at hpd hqd
        rw [follow, hl] at hp hq
        rw [leavesBelow_node hl, List.nodup_append] at hnodup
        obtain ⟨hleft, hright, hapart⟩ := hnodup
        have hmp := mem_leavesBelow_of_follow hm hpd hp
        have hmq := mem_leavesBelow_of_follow hm hqd hq
        cases bit <;> cases bit'
        · rw [ih hleft hpd hqd hp hq]
        · exact absurd rfl (hapart m hmp m hmq)
        · exact absurd rfl (hapart m hmq m hmp)
        · rw [ih hright hpd hqd hp hq]

/-- The leaves below a node depend on the arena up to it alone, and 255 branches reach them all. -/
theorem leavesBelow_congr (h : ChildrenBelow e) (hsame : ∀ i, i < e.tree.nn.toNat → ndGet f i = ndGet e i)
    (hn : n.toNat < e.tree.nn.toNat) (hd : n.toNat ≤ 255 + d) (hd' : n.toNat ≤ 255 + d') :
    leavesBelow f d' n = leavesBelow e d n := by
  induction d generalizing n d' with
  | zero =>
    have hl : isLeaf n = true := (isLeaf_iff n).mpr (Nat.lt_succ_of_le hd)
    rw [leavesBelow_leaf hl, leavesBelow_leaf hl]
  | succ d ih =>
    cases hl : isLeaf n with
    | true => rw [leavesBelow_leaf hl, leavesBelow_leaf hl]
    | false =>
      have hlo := le_of_not_leaf hl
      obtain ⟨k, rfl⟩ : ∃ k, d' = k + 1 := ⟨d' - 1, by omega⟩
      have hbranch : ∀ bit, leavesBelow f k (childOf f n bit) = leavesBelow e d (childOf e n bit) := fun bit => by
        have hlt := h.childOf_lt hn hl bit
        have hchild : childOf f n bit = childOf e n bit := by rw [childOf, childOf, hsame _ hn]
        rw [hchild]
        exact ih (by omega) (by omega) (by omega)
      rw [leavesBelow_node hl, leavesBelow_node hl, hbranch, hbranch]

/-- The traversal records one code for each leaf it meets (`43_codebook.md` R181). -/
theorem codeWalk_count {path : List Bool} (h : codeWalk e d n path b = some b1) :
    b1.count = b.count + (leavesBelow e d n).length := by
  induction d generalizing n path b b1 with
  | zero =>
    rw [codeWalk] at h
    split at h
    · cases h
      rw [leavesBelow_leaf ‹_›]
      rfl
    · cases h
  | succ d ih =>
    cases hl : isLeaf n with
    | true =>
      rw [codeWalk_leaf hl] at h
      cases h
      rw [leavesBelow_leaf hl]
      rfl
    | false =>
      rw [codeWalk_node hl, Option.bind_eq_some_iff] at h
      obtain ⟨b', hleft, hright⟩ := h
      rw [leavesBelow_node hl, List.length_append, ih hright, ih hleft, Nat.add_assoc]

/-! ### A tree of all counted leaves -/

theorem leaves_congr (h : f.scan = e.scan) : leaves f = leaves e := by
  simp only [leaves, ftGet, h]

theorem leafOf_mem_leaves {x : Nat} (hx : x < 256) : leafOf x ∈ leaves e ↔ ftGet e x ≠ 0#32 := by
  rw [mem_leaves]
  refine ⟨fun ⟨y, hy, hcount, hleaf⟩ => ?_, fun hcount => ⟨x, hx, hcount, rfl⟩⟩
  rwa [← leafOf_toNat hx, ← hleaf, leafOf_toNat hy]

theorem leafCount_congr (h : f.scan = e.scan) : leafCount f = leafCount e := by
  rw [← leaves_count, ← leaves_count, leaves_congr h]

theorem ndGet_mergeTwo_old {i : Nat} (hi : i < e.tree.nn.toNat) : ndGet (mergeTwo e) i = ndGet e i := by
  rw [ndGet_mergeTwo, if_neg (Nat.ne_of_lt hi)]

/-- A build under way whose live nodes stand for the counted leaves, each leaf below one of them and met there once
(`42_tree.md` R164). -/
structure Forest (e : Engine) : Prop extends Building e where
  children : ChildrenBelow e
  below : ((live e).flatMap (leavesBelow e 255)).Perm (leaves e)
  root : e.tree.rootValid = true → live e = [e.tree.root]

/-- HT_INIT makes every counted leaf a tree of its own (`42_tree.md` R162). -/
theorem forest_loadQueue (e : Engine) : Forest (loadQueue e) := by
  obtain ⟨hlive, -, heq⟩ := loadQueue_spec e
  have hleaves : leaves (loadQueue e) = leaves e := leaves_congr (loadQueue_treeOnly e).scan
  refine ⟨building_loadQueue e, fun i hi hlo => ?_, ?_, fun hv => ?_⟩
  · rw [nn_loadQueue] at hi
    exact absurd hi (Nat.not_lt.mpr hlo)
  · have hself : (live (loadQueue e)).flatMap (leavesBelow (loadQueue e) 255)
        = (live (loadQueue e)).flatMap fun n => [n] := List.flatMap_congr fun n hn =>
      leavesBelow_leaf ((isLeaf_iff n).mpr (leaves_lt (hlive.mem_iff.mp hn))) 255
    rw [hself, List.flatMap_singleton', hleaves]
    exact hlive
  · generalize loadQueue e = m at hlive heq hv
    rw [heq] at hv
    obtain ⟨x, hx⟩ := List.length_eq_one_iff.mp (of_decide_eq_true hv)
    have hroot : m.tree.root = x := by rw [heq, hx]; rfl
    rw [hx] at hlive
    rw [hroot]
    exact List.perm_singleton.mp hlive

theorem flatMap_leavesBelow_congr (h : ChildrenBelow e) (hsame : ∀ i, i < e.tree.nn.toNat → ndGet f i = ndGet e i)
    {xs : List Node} (hxs : ∀ n ∈ xs, n.toNat < e.tree.nn.toNat) :
    xs.flatMap (leavesBelow f 255) = xs.flatMap (leavesBelow e 255) :=
  List.flatMap_congr fun n hn => by
    have hlt := hxs n hn
    have hnn := e.tree.nn.isLt
    exact leavesBelow_congr h hsame hlt (by omega) (by omega)

theorem Forest.setResult (h : Forest e) (v : U32) : Forest (setResult v e) where
  toBuilding := h.toBuilding.setResult v
  children := h.children
  below :=
    have hsame := flatMap_leavesBelow_congr (f := Machine.setResult v e) h.children (fun _ _ => rfl) h.exist
    (List.Perm.of_eq hsame).trans h.below
  root := h.root

section Merge

variable (h : Forest e) (h2 : 2 ≤ e.tree.pqN.toNat)
include h h2

theorem Forest.joined_exist :
    (joinedNode e).left.toNat < e.tree.nn.toNat ∧ (joinedNode e).right.toNat < e.tree.nn.toNat := by
  obtain ⟨hperm, -⟩ := h.two_least h2
  exact ⟨h.exist _ (hperm.mem_iff.mpr (.head _)), h.exist _ (hperm.mem_iff.mpr (.tail _ (.head _)))⟩

/-- The new node has the leaves of the two it joins (`42_tree.md` R163). -/
theorem Forest.leavesBelow_new : leavesBelow (mergeTwo e) 255 e.tree.nn
    = leavesBelow e 255 (joinedNode e).left ++ leavesBelow e 255 (joinedNode e).right := by
  obtain ⟨hleft, hright⟩ := h.joined_exist h2
  have hroom := h.room
  have hnew : isLeaf e.tree.nn = false := decide_eq_false (Nat.not_lt.mpr h.arena)
  have hchild : ∀ bit, childOf (mergeTwo e) e.tree.nn bit
      = if bit then (joinedNode e).right else (joinedNode e).left := fun bit => by
    rw [childOf, ndGet_mergeTwo, if_pos rfl]
  have hold : ∀ n : Node, n.toNat < e.tree.nn.toNat → leavesBelow (mergeTwo e) 254 n = leavesBelow e 255 n :=
    fun n hn => leavesBelow_congr h.children (fun _ => ndGet_mergeTwo_old) hn (by omega) (by omega)
  calc leavesBelow (mergeTwo e) 255 e.tree.nn
      = leavesBelow (mergeTwo e) 254 (joinedNode e).left ++ leavesBelow (mergeTwo e) 254 (joinedNode e).right := by
        rw [leavesBelow_node hnew, hchild, hchild]
        rfl
    _ = leavesBelow e 255 (joinedNode e).left ++ leavesBelow e 255 (joinedNode e).right := by
        rw [hold _ hleft, hold _ hright]

/-- HT_STEP puts the leaves of its two trees under one node (`42_tree.md` R163). -/
theorem Forest.mergeTwo : Forest (mergeTwo e) := by
  obtain ⟨hleft, hright⟩ := h.joined_exist h2
  obtain ⟨hperm, -⟩ := h.two_least h2
  obtain ⟨hlive, -, heq⟩ := h.mergeTwo_spec h2
  refine ⟨h.building_mergeTwo h2, fun i hi hlo => ?_, ?_, fun hv => ?_⟩
  · rw [h.nn_mergeTwo h2] at hi
    rw [ndGet_mergeTwo]
    split
    · rename_i hnew
      exact hnew ▸ ⟨hleft, hright⟩
    · exact h.children i (by omega) hlo
  · have hspared := flatMap_leavesBelow_congr h.children (fun _ => ndGet_mergeTwo_old) fun _ => h.spared_exist h2
    rw [leaves_congr (mergeTwo_treeOnly e).scan]
    calc List.Perm ((live (Machine.mergeTwo e)).flatMap (leavesBelow (Machine.mergeTwo e) 255))
          ((e.tree.nn :: spared e).flatMap (leavesBelow (Machine.mergeTwo e) 255)) := hlive.flatMap_right _
      _ = ((joinedNode e).left :: (joinedNode e).right :: spared e).flatMap (leavesBelow e 255) := by
        rw [List.flatMap_cons, h.leavesBelow_new h2, hspared, List.flatMap_cons, List.flatMap_cons, List.append_assoc]
      List.Perm _ ((live e).flatMap (leavesBelow e 255)) := (hperm.flatMap_right _).symm
      List.Perm _ (leaves e) := h.below
  · generalize Machine.mergeTwo e = m at hlive heq hv
    rw [heq] at hv
    have hnil := of_decide_eq_true hv
    have hroot : m.tree.root = e.tree.nn := by
      rw [heq]
      exact if_pos hnil
    rw [hnil] at hlive
    rw [hroot]
    exact List.perm_singleton.mp hlive

end Merge

theorem Forest.iterate {k : Nat} (h : Forest e) (hk : k ≤ e.tree.pqN.toNat - 1) :
    Forest (Machine.mergeTwo^[k] e) := by
  induction k with
  | zero => exact h
  | succ k ih =>
    obtain ⟨-, hn, -⟩ := h.toBuilding.iterate (k := k) (by omega)
    rw [Function.iterate_succ_apply']
    exact (ih (by omega)).mergeTwo (by omega)

theorem forest_treeBuilt (e : Engine) : Forest (treeBuilt e) :=
  (forest_loadQueue e).iterate (by rw [pqN_loadQueue_eq_leafCount])

/-! ### The finished tree and its book -/

/-- The leaves of the tree: none where there is no root. -/
def treeLeaves (e : Engine) : List Node := if e.tree.rootValid then leavesBelow e 255 e.tree.root else []

theorem buildBook_count (h : buildBook e = some b) : b.count = (treeLeaves e).length := by
  unfold buildBook at h
  unfold treeLeaves
  split at h
  · rename_i hv
    rw [if_pos hv, codeWalk_count h]
    exact Nat.zero_add _
  · rename_i hv
    cases h
    rw [if_neg hv]
    rfl

section Finished

variable (h : Forest e) (hp : e.tree.phase = .done)
include h

theorem Forest.root_exist (hv : e.tree.rootValid = true) : e.tree.root.toNat < e.tree.nn.toNat :=
  h.exist _ (h.root hv ▸ List.mem_singleton_self _)

theorem Forest.path_length_le {p : List Bool} (hv : e.tree.rootValid = true)
    (hpath : follow e e.tree.root p = some m) : p.length ≤ 255 := by
  have hroot := h.root_exist hv
  have hnn := e.tree.nn.isLt
  exact h.children.follow_length_le hroot (by omega) hpath

theorem Forest.mem_treeLeaves_iff (hm : isLeaf m = true) :
    m ∈ treeLeaves e ↔ e.tree.rootValid = true ∧ ∃ path, follow e e.tree.root path = some m := by
  unfold treeLeaves
  split
  · rename_i hv
    exact ⟨fun hmem => ⟨hv, follow_of_mem_leavesBelow hmem⟩, fun ⟨_, _, hpath⟩ =>
      mem_leavesBelow_of_follow hm (h.path_length_le hv hpath) hpath⟩
  · rename_i hv
    exact ⟨fun hmem => absurd hmem List.not_mem_nil, fun ⟨hv', _⟩ => absurd hv' hv⟩

include hp

/-- The finished tree has the counted leaves and no others, each once (`42_tree.md` R164). -/
theorem Forest.treeLeaves_perm : (treeLeaves e).Perm (leaves e) := by
  have hbelow := h.below
  unfold treeLeaves
  split
  · rename_i hv
    rwa [h.root hv, List.flatMap_singleton] at hbelow
  · rename_i hv
    have hnot1 : e.tree.pqN.toNat ≠ 1 := fun h1 => hv (h.rootValid.trans (decide_eq_true h1))
    have hle1 : e.tree.pqN.toNat ≤ 1 := by
      by_contra hmany
      have hphase := h.phase
      rw [if_neg hmany, hp] at hphase
      cases hphase
    have hnil : live e = [] := List.length_eq_zero_iff.mp ((live_length e).trans (by omega))
    rwa [hnil] at hbelow

/-- A symbol has a path from the root exactly where it has a count (`43_codebook.md` R180). -/
theorem Forest.path_iff_counted {x : Nat} (hx : x < 256) :
    (e.tree.rootValid = true ∧ ∃ path, IsPath e x path) ↔ ftGet e x ≠ 0#32 := by
  rw [← h.mem_treeLeaves_iff (isLeaf_leafOf hx), (h.treeLeaves_perm hp).mem_iff, leafOf_mem_leaves hx]

theorem Forest.isPath_unique {x : Nat} {p q : List Bool} (hx : x < 256) (hv : e.tree.rootValid = true)
    (hxp : IsPath e x p) (hxq : IsPath e x q) : p = q := by
  have hnodup := (h.treeLeaves_perm hp).nodup_iff.mpr (leaves_nodup e)
  rw [treeLeaves, if_pos hv] at hnodup
  exact path_unique hnodup (isLeaf_leafOf hx) (h.path_length_le hv hxp) (h.path_length_le hv hxq) hxp hxq

variable (hb : buildBook e = some b)
include hb

theorem Forest.count_of_book : b.count = leafCount e := by
  rw [buildBook_count hb, (h.treeLeaves_perm hp).length_eq, leaves_count]

theorem Forest.code_iff_isPath {x : Nat} {path : List Bool} (hx : x < 256) :
    tableGet none b.cb x = some path ↔ e.tree.rootValid = true ∧ IsPath e x path := by
  obtain ⟨hpaths, hcovers⟩ := buildBook_codes hb
  refine ⟨fun hget => ?_, fun ⟨hv, hpath⟩ => ?_⟩
  · obtain ⟨hv, -, hpath⟩ := hpaths x path hget
    exact ⟨hv, hpath⟩
  · obtain ⟨code, hcode⟩ := Option.isSome_iff_exists.mp (hcovers x path hx hv hpath)
    obtain ⟨-, -, hpath'⟩ := hpaths x code hcode
    rw [h.isPath_unique hp hx hv hpath hpath']
    exact hcode

theorem Forest.coded_iff_counted {x : Nat} (hx : x < 256) :
    (tableGet none b.cb x).isSome = true ↔ ftGet e x ≠ 0#32 := by
  rw [← h.path_iff_counted hp hx, ← exists_and_left, Option.isSome_iff_exists]
  exact exists_congr fun _ => h.code_iff_isPath hp hb hx

end Finished

theorem htBuild_forest {s t : State} (hs : Ready s) (h : exec .htBuild s = .next t) :
    Ready t ∧ t.eng.tree.phase = .done ∧ t.eng.scan = s.eng.scan ∧ Forest t.eng := by
  have ht := Host.Outcome.next.inj ((exec_htBuild hs).symm.trans h)
  have heng := answeredOk_modEngine_eng (rootWord (treeBuilt s.eng)) treeBuilt s
  rw [ht] at heng
  have hframe := treeBuilt_treeOnly s.eng
  rw [Ready, heng]
  exact ⟨(congrArg Status.fault hframe.stat).trans hs, (treeBuilt_flags s.eng).1, hframe.scan,
    (forest_treeBuilt s.eng).setResult _⟩

/-- Settles O29: the tree has each counted leaf once, so the traversal records that many codes, one path for each. -/
theorem codeBookOfBuiltTree : Obligations.CodeBookOfBuiltTree := by
  intro s t hs hexec
  obtain ⟨ht, hp, hscan, hforest⟩ := htBuild_forest hs hexec
  obtain ⟨b, hb⟩ := hforest.children.buildBook_ends hforest.root_exist
  have hbuild := exec_cbBuild ht hp hb
  rw [hforest.count_of_book hp hb, leafCount_congr hscan] at hbuild
  refine ⟨_, hbuild, rfl, fun x hx => ?_, fun x path hx => hforest.code_iff_isPath hp hb hx⟩
  have hft : ftGet s.eng x = ftGet t.eng x := by rw [ftGet, ftGet, hscan]
  rw [hft]
  exact hforest.coded_iff_counted hp hb hx

end Sys2Proof.Machine
end

-- ==== Proofs: HDR_WR, ENC_SYM and ENC_RUN write their bits ====
section
namespace Sys2Proof.Machine

variable {s t : State}

/-! ### The header written (`44_compress.md` R196, R197) -/

theorem headerBytes_length (ft : Nat → U32) (total : U32) : (headerBytes ft total).length = 1028 := by
  have hwords : ((List.range 256).map fun x => (wordBytes (ft x)).length).sum = 1024 := by
    rw [show (fun x => (wordBytes (ft x)).length) = fun _ => 4 from rfl, List.map_const', List.sum_replicate,
      List.length_range]
    rfl
  rw [headerBytes, List.length_append, List.length_flatMap, hwords]
  rfl

/-- The bytes of the words HDR_WR writes are the header's (`30_encoding.md` R105). -/
theorem flatMap_headerWords (e : Engine) :
    (headerWords e).flatMap wordBytes = headerBytes (ftGet e) e.scan.total := by
  rw [headerWords, List.flatMap_append, List.flatMap_map, List.flatMap_singleton]
  rfl

/-- Whole bytes written with no bit waiting go to the sink as they are. -/
theorem written_streamBits (l : List Byte) (h : s.eng.bw = { buf := 0#8, cnt := 0#3, isOpen := true }) :
    written (streamBits l) s = { s with env := { afterCalls l.length s.env with snk := s.env.snk ++ l } } := by
  obtain ⟨hbytes, hrest⟩ := wholeBytes_streamBits l
  have hlen : (streamBits l).length / 8 = l.length := by rw [streamBits_length]; omega
  have hnil : waiting s.eng.bw = [] := by rw [h]; rfl
  have hempty : writerHolding [] = s.eng.bw := h.symm
  simp only [written, hnil, List.nil_append, hbytes, hrest, hlen, hempty]

section Writing

variable (ho : s.eng.bw.isOpen = true) (hw : WriterOk s.eng.bw) (hio : IoOk s)
include ho hw hio

theorem write32_written (w : U32) : write32 w s = .ok () (written (streamBits (wordBytes w)) s) := by
  rw [write32, wordBits_eq]
  exact writeBits_written _ ho hw hio

/-- Words written in order are the bits of their bytes. -/
theorem writeWords_written (ws : List U32) :
    writeWords ws s = .ok () (written (streamBits (ws.flatMap wordBytes)) s) := by
  induction ws generalizing s with
  | nil =>
    rw [List.flatMap_nil, streamBits_nil, written_nil ho hw]
    rfl
  | cons w ws ih =>
    obtain ⟨hok, hopen⟩ := written_writerOk (streamBits (wordBytes w)) s
    have hrest := ih hopen hok (ioOk_of_answers hio _ rfl)
    rw [writeWords, bind_of_ok (write32_written ho hw hio w), hrest, written_written, List.flatMap_cons,
      streamBits_append]

/-- HDR_WR, where every call is answered, from whatever bit position the writer stands at (R197). -/
theorem pHdrWr_written :
    pHdrWr s = .ok 0#32 (written (streamBits (headerBytes (ftGet s.eng) s.eng.scan.total)) s) := by
  have hwords := writeWords_written ho hw hio (headerWords s.eng)
  rw [flatMap_headerWords] at hwords
  rw [pHdrWr, bind_of_ok (run_getEng s), bind_of_ok hwords, run_pure]

end Writing

/-- Settles O39: the header's words are its bytes' bits, and after SNK_OPEN no other bit shares a byte with them. -/
theorem hdrWrWritesHeaderBits : Obligations.HdrWrWritesHeaderBits := by
  intro s hs hio
  refine ⟨fun ho hw => ?_, fun hc => ?_⟩
  · intro bits
    have hcalls : bits.length / 8 = 1028 := by
      have hwait := waiting_lt s.eng.bw
      have hlen : bits.length = (waiting s.eng.bw).length + 8 * 1028 := by
        rw [List.length_append, streamBits_length, headerBytes_length]
      omega
    rw [← hcalls]
    exact (exec_eq rfl s).trans (execute_of_ok hs (pHdrWr_written ho hw hio))
  · have hopen : exec .snkOpen s = .next (answeredOk 0#32 (sinkOpened s)) :=
      (exec_eq rfl s).trans (execute_of_ok hs (pSnkOpen_of_normal hc (ioOk_next hio)))
    have hrun := pHdrWr_written (s := answeredOk 0#32 (sinkOpened s)) rfl (writerOk_empty true)
      (ioOk_of_answers hio 1 rfl)
    rw [written_streamBits _ rfl] at hrun
    have hexec := (exec_eq (i := .hdrWr) rfl _).trans (execute_of_ok (s := answeredOk 0#32 (sinkOpened s)) hs hrun)
    exact ⟨_, (execAll_cons hopen _).trans (execAll_cons hexec []), rfl, headerBytes_length _ _, rfl, rfl⟩

/-! ### The code of a symbol (`44_compress.md` R201) -/

theorem cbHas_of_code {e : Engine} {x : Nat} {code : List Bool} (h : cbGet e x = some code) : cbHas e x = true := by
  rw [cbHas, h]
  rfl

theorem cbCode_of_code {e : Engine} {x : Nat} {code : List Bool} (h : cbGet e x = some code) :
    cbCode e x = code := by
  rw [cbCode, h]
  rfl

/-- The length of a code no longer than `MAXLEN` fits its register (`10_state.md` R32). -/
theorem cbLen_toNat {e : Engine} {x : Nat} (h : (cbCode e x).length ≤ 255) :
    (cbLen e x).toNat = (cbCode e x).length := by
  rw [cbLen, BitVec.toNat_ofNat]
  omega

theorem cbLen_setWidth {e : Engine} {x : Nat} (h : (cbCode e x).length ≤ 255) :
    (cbLen e x).setWidth 32 = BitVec.ofNat 32 (cbCode e x).length := by
  refine BitVec.eq_of_toNat_eq ?_
  rw [BitVec.toNat_setWidth, cbLen_toNat h, BitVec.toNat_ofNat]

/-- ENC_SYM of a symbol with a code is the writing of its code (R201). -/
theorem pEncSym_of_coded {a : Byte} (hd : s.eng.book.done = true) (hc : cbHas s.eng a.toNat = true)
    (hwrite : writeBits (cbCode s.eng a.toNat) s = .ok () t) :
    pEncSym a s = .ok ((cbLen s.eng a.toNat).setWidth 32) t := by
  have hreq : require (s.eng.book.done && cbHas s.eng (symIndex a)) .badSequence s = .ok () s := by
    simp [hd, symIndex, hc]
  rw [pEncSym, bind_of_ok (run_getEng s), bind_of_ok hreq]
  exact bind_of_ok hwrite _

/-- Settles O40: ENC_SYM writes its code's bits one after another, and no bit of an empty code. -/
theorem encSymEmitsCode : Obligations.EncSymEmitsCode := by
  intro s a code hs hio hd hget hlen
  obtain rfl := cbCode_of_code hget
  have hexec : ∀ t, writeBits (cbCode s.eng a.toNat) s = .ok () t →
      exec (.encSym a) s = .next (answeredOk (BitVec.ofNat 32 (cbCode s.eng a.toNat).length) t) := fun t hwrite => by
    rw [← cbLen_setWidth hlen]
    exact (exec_eq rfl s).trans (execute_of_ok hs (pEncSym_of_coded hd (cbHas_of_code hget) hwrite))
  refine ⟨fun hnil => ?_, fun ho hw => hexec _ (writeBits_written _ ho hw hio)⟩
  have hnone := hexec s (by rw [hnil]; rfl)
  rwa [hnil] at hnone

/-! ### The codes of the rest of the source (`44_compress.md` R203) -/

/-- The state after `k` bytes of the source are read. -/
def bytesRead (k : Nat) (s : State) : State :=
  { s with env := { afterCalls k s.env with srcPos := s.env.srcPos + k } }

@[simp] theorem bytesRead_zero (s : State) : bytesRead 0 s = s := rfl

theorem bytesRead_bytesRead (j k : Nat) (s : State) : bytesRead k (bytesRead j s) = bytesRead (j + k) s := by
  simp [bytesRead, afterCalls, Nat.add_assoc]

/-- Reads and writes do not disturb each other: each call takes one answer, whichever comes first. -/
theorem bytesRead_written (k : Nat) (bits : List Bool) (s : State) :
    bytesRead k (written bits s) = written bits (bytesRead k s) := by
  simp [bytesRead, written, afterCalls, Nat.add_comm]

theorem sourceRest_bytesRead_one {b : Byte} {rest : List Byte} (h : sourceRest s = b :: rest) :
    sourceRest (bytesRead 1 s) = rest := by
  rw [← List.tail_cons (a := b) (as := rest), ← h]
  exact List.tail_drop.symm

theorem srcByte_of_byte {b : Byte} {rest : List Byte} (ho : s.eng.br.isOpen = true)
    (hn : nextAnswerOf s = .normal) (h : sourceRest s = b :: rest) : srcByte s = .ok (some b) (bytesRead 1 s) := by
  have hb : s.env.src[s.env.srcPos]? = some b := by
    have hhead := sourceRest_getElem? s 0
    rwa [h, List.getElem?_cons_zero, Nat.add_zero, eq_comm] at hhead
  rw [run_srcByte, if_pos ho, hn]
  simp only [hb]
  rfl

theorem srcByte_of_end (ho : s.eng.br.isOpen = true) (hn : nextAnswerOf s = .normal) (h : sourceRest s = []) :
    srcByte s = .ok none (asked s) := by
  have hb : s.env.src[s.env.srcPos]? = none := by
    have hhead := sourceRest_getElem? s 0
    rwa [h, List.getElem?_nil, Nat.add_zero, eq_comm] at hhead
  rw [run_srcByte, if_pos ho, hn]
  simp only [hb]

/-- The loop of ENC_RUN reads and encodes the bytes left and ends at the end of the source (R203). -/
theorem encodeLoop_encoded {rest : List Byte} (ho : s.eng.br.isOpen = true) (hopen : s.eng.bw.isOpen = true)
    (hw : WriterOk s.eng.bw) (hio : IoOk s) (hd : s.eng.book.done = true) (hrest : sourceRest s = rest)
    (hcoded : ∀ b ∈ rest, cbHas s.eng b.toNat = true) :
    encodeLoop (rest.length + 1) s
      = .ok () (asked (bytesRead rest.length (written (payloadBits (cbCode s.eng) rest) s))) := by
  induction rest generalizing s with
  | nil =>
    have hnil : written (payloadBits (cbCode s.eng) []) s = s := written_nil hopen hw
    rw [hnil, encodeLoop, bind_of_ok (srcByte_of_end ho (ioOk_next hio) hrest)]
    rfl
  | cons b rest ih =>
    have hio1 : IoOk (bytesRead 1 s) := ioOk_of_answers hio 1 rfl
    have hsym := pEncSym_of_coded (s := bytesRead 1 s) hd (hcoded b List.mem_cons_self)
      (writeBits_written _ hopen hw hio1)
    obtain ⟨hw', hopen'⟩ := written_writerOk (cbCode s.eng b.toNat) (bytesRead 1 s)
    have hloop := ih (s := written (cbCode s.eng b.toNat) (bytesRead 1 s)) ho hopen' hw'
      (ioOk_of_answers hio1 _ rfl) hd (sourceRest_bytesRead_one hrest)
      fun c hc => hcoded c (List.mem_cons_of_mem b hc)
    have hpayload : payloadBits (cbCode s.eng) (b :: rest)
        = cbCode s.eng b.toNat ++ payloadBits (cbCode s.eng) rest := List.flatMap_cons
    rw [encodeLoop, bind_of_ok (srcByte_of_byte ho (ioOk_next hio) hrest)]
    refine (bind_of_ok hsym _).trans (hloop.trans ?_)
    change EStateM.Result.ok () (asked (bytesRead rest.length (written (payloadBits (cbCode s.eng) rest) _))) = _
    rw [written_written, ← hpayload, ← bytesRead_written, bytesRead_bytesRead, List.length_cons, Nat.add_comm]

/-- ENC_RUN, where every call is answered and every byte left has a code (R203). -/
theorem pEncRun_encoded (ho : s.eng.br.isOpen = true) (hopen : s.eng.bw.isOpen = true)
    (hw : WriterOk s.eng.bw) (hio : IoOk s) (hd : s.eng.book.done = true)
    (hcoded : ∀ b ∈ sourceRest s, cbHas s.eng b.toNat = true) :
    pEncRun s = .ok 0#32 (asked (bytesRead (sourceRest s).length
      (written (payloadBits (cbCode s.eng) (sourceRest s)) s))) := by
  have hreq : require s.eng.book.done .badSequence s = .ok () s := by simp [hd]
  have hloop := encodeLoop_encoded ho hopen hw hio hd rfl hcoded
  rw [sourceRest_length] at hloop ⊢
  rw [pEncRun, bind_of_ok (run_getEng s), bind_of_ok hreq]
  exact bind_of_ok (p := fun s => encodeLoop (bytesLeft s + 1) s) hloop _

/-- Settles O41: the loop reads each byte left, writes its code, and ends at the end of the source. -/
theorem encRunEncodesTheRest : Obligations.EncRunEncodesTheRest := by
  intro s hs hio hd ho hopen hw rest hcoded bits
  have hexec := (exec_eq (i := .encRun) rfl s).trans
    (execute_of_ok hs (pEncRun_encoded ho hopen hw hio hd hcoded))
  have hcalls : bits.length / 8 + (rest.length + 1) = rest.length + 1 + bits.length / 8 := Nat.add_comm _ _
  rw [← hcalls]
  refine hexec.trans ?_
  simp only [asked, bytesRead, afterCalls, written, List.drop_drop]
  rfl

end Sys2Proof.Machine
end

-- ==== Proofs: COMPRESS writes the stream ====
section
namespace Sys2Proof.Machine

variable {e f : Engine} {s t : State}

/-! ### Counts and codes of an input (`30_encoding.md` R107, R108) -/

theorem countOf_ne_zero_iff {input : List Byte} (h : input.length < 2 ^ 32) (x : Nat) :
    countOf input x ≠ 0#32 ↔ x ∈ input.map BitVec.toNat := by
  have hzero : countOf input x ≠ 0#32 ↔ (countOf input x).toNat ≠ 0 :=
    not_congr ⟨fun h0 => by rw [h0]; rfl, fun h0 => BitVec.eq_of_toNat_eq h0⟩
  rw [hzero, countOf_toNat h, ← Nat.pos_iff_ne_zero, List.countP_pos_iff, List.mem_map]
  simp only [beq_iff_eq]

/-- Each symbol adds its code as often as it occurs. -/
theorem payloadBits_length (code : Nat → List Bool) (input : List Byte) :
    (payloadBits code input).length
      = ((List.range 256).map fun x => (input.countP fun b => b.toNat == x) * (code x).length).sum := by
  rw [sum_map_range]
  induction input with
  | nil => simp [payloadBits]
  | cons b input ih =>
    have hcons : payloadBits code (b :: input) = code b.toNat ++ payloadBits code input := List.flatMap_cons
    have hone : ∑ x ∈ Finset.range 256, (if (b.toNat == x) = true then 1 else 0) * (code x).length
        = (code b.toNat).length := by
      simp [Finset.sum_ite_eq, b.isLt]
    simp only [List.countP_cons, Nat.add_mul, Finset.sum_add_distrib, hone]
    rw [hcons, List.length_append, ih, Nat.add_comm]

/-- The length of the payload from the counts and the code lengths (`44_compress.md` R209). -/
theorem sum_counts_lengths {input : List Byte} (hinput : input.length < 2 ^ 32)
    (hcounts : ∀ x, ftGet e x = countOf input x) (hlen : ∀ x, (cbCode e x).length ≤ 255) :
    ((List.range 256).map fun x => (ftGet e x).toNat * (cbLen e x).toNat).sum
      = (payloadBits (cbCode e) input).length := by
  rw [payloadBits_length]
  refine congrArg List.sum (List.map_congr_left fun x _ => ?_)
  rw [hcounts, countOf_toNat hinput, cbLen_toNat (hlen x)]

/-! ### The paths of trees built from equal counts (`42_tree.md` R167) -/

/-- Paths from a node both builds have made lead to the same nodes. -/
theorem Alike.follow (h : Alike e f) (hc : ChildrenBelow e) {n : Node} (hn : n.toNat < e.tree.nn.toNat)
    (p : List Bool) : follow e n p = follow f n p := by
  induction p generalizing n with
  | nil => rw [follow_nil, follow_nil]
  | cons bit p ih =>
    cases hl : isLeaf n with
    | true => rw [follow_leaf hl, follow_leaf hl]
    | false =>
      have hchild : childOf e n bit = childOf f n bit := by
        rw [childOf, childOf, h.nodes n.toNat (le_of_not_leaf hl) hn]
      have hlt := (hc.childOf_lt hn hl bit).trans hn
      rw [Machine.follow, Machine.follow, hl, ← hchild]
      exact ih hlt

/-- The paths of the tree HT_BUILD makes are a function of the counts. -/
theorem isPath_treeBuilt_congr (h : ∀ x, x < 256 → ftGet e x = ftGet f x) (x : Nat) (path : List Bool) :
    ((treeBuilt e).tree.rootValid = true ∧ IsPath (treeBuilt e) x path) ↔
      ((treeBuilt f).tree.rootValid = true ∧ IsPath (treeBuilt f) x path) := by
  have halike := Alike.treeBuilt h
  have hforest := forest_treeBuilt e
  rw [← halike.rootValid]
  refine and_congr_right fun hv => ?_
  rw [IsPath, IsPath, ← halike.root, halike.follow hforest.children (hforest.root_exist hv)]

/-- The paths of the tree a run of HT_BUILD leaves. -/
theorem isPath_htBuild (hs : Ready s) (h : exec .htBuild s = .next t) (x : Nat) (path : List Bool) :
    (t.eng.tree.rootValid = true ∧ IsPath t.eng x path) ↔
      ((treeBuilt s.eng).tree.rootValid = true ∧ IsPath (treeBuilt s.eng) x path) := by
  have ht := Host.Outcome.next.inj ((exec_htBuild hs).symm.trans h)
  have htree : t.eng.tree = (treeBuilt s.eng).tree := by rw [← ht]; rfl
  rw [IsPath, IsPath, htree, follow_congr htree]

section Book

variable {b : Book} (hb : buildBook (treeBuilt e) = some b) {x : Nat}
include hb

/-- The codes of the counts' book are the paths of the tree HT_BUILD makes of them, in any block that holds them. -/
theorem code_iff_isPath_of_counts (h : ∀ x, x < 256 → ftGet e x = ftGet f x) (hx : x < 256) (path : List Bool) :
    tableGet none b.cb x = some path ↔
      (treeBuilt f).tree.rootValid = true ∧ IsPath (treeBuilt f) x path :=
  ((forest_treeBuilt e).code_iff_isPath (treeBuilt_flags e).1 hb hx).trans (isPath_treeBuilt_congr h x path)

theorem coded_iff_counted (hx : x < 256) : (tableGet none b.cb x).isSome = true ↔ ftGet e x ≠ 0#32 := by
  have hft : ftGet (treeBuilt e) x = ftGet e x := by rw [ftGet, (treeBuilt_treeOnly e).scan]; rfl
  rw [← hft]
  exact (forest_treeBuilt e).coded_iff_counted (treeBuilt_flags e).1 hb hx

/-- No code is longer than `MAXLEN` (`43_codebook.md` R182). -/
theorem code_length_le (x : Nat) : ((tableGet none b.cb x).getD []).length ≤ 255 := by
  cases hcode : tableGet none b.cb x with
  | none => exact Nat.zero_le _
  | some code =>
    obtain ⟨hv, -, hpath⟩ := (buildBook_codes hb).1 x code hcode
    exact (forest_treeBuilt e).path_length_le hv hpath

end Book

/-! ### The passes of COMPRESS (`44_compress.md` R207) -/

/-- The first pass over the source: its bytes counted. -/
def countingPass : Proc U32 := do
  let _ ← pSrcOpen
  let _ ← pFtClr
  let _ ← pFtScan
  pSrcClose

/-- The counts' tree and its code book. -/
def buildingPass : Proc U32 := do
  let _ ← pHtBuild
  pCbBuild

/-- The sink opened and the header written. -/
def headerPass : Proc U32 := do
  let _ ← pSnkOpen
  pHdrWr

/-- The second pass over the source: its bytes' codes written and the sink closed. -/
def payloadPass : Proc U32 := do
  let _ ← pSrcOpen
  let _ ← pEncRun
  let _ ← pSrcClose
  pBwClose

/-- On closed streams COMPRESS is its passes, one after another. -/
theorem pCompress_of_closed (hr : s.eng.br.isOpen = false) (hw : s.eng.bw.isOpen = false) :
    pCompress s = (do
      let _ ← countingPass
      let _ ← buildingPass
      let _ ← headerPass
      let _ ← payloadPass
      let e ← getEng
      pure e.scan.total : Proc U32) s := by
  have hreq : require (!s.eng.br.isOpen && !s.eng.bw.isOpen) .badSequence s = .ok () s := by simp [hr, hw]
  rw [pCompress, bind_of_ok (run_getEng s), bind_of_ok hreq]
  simp only [countingPass, buildingPass, headerPass, payloadPass, bind_assoc]

/-! ### The first pass: the input counted -/

/-- The reader of a source that was opened and closed with no bit read (`46_control.md` R243, R244). -/
def idleReader : BitReader := { buf := 0#8, pos := 8#4, eos := false, isOpen := false }

/-- The state after SRC_CLOSE of an open source (R244), where it is answered. -/
def sourceClosed (s : State) : State :=
  { s with eng := { s.eng with br := { s.eng.br with isOpen := false } }, env := afterCalls 1 s.env }

theorem pSrcClose_of_normal (ho : s.eng.br.isOpen = true) (hn : nextAnswerOf s = .normal) :
    pSrcClose s = .ok 0#32 (sourceClosed s) := by
  rw [run_pSrcClose, if_pos ho, hn]
  rfl

/-- The state where COMPRESS starts to scan: the source at byte 0, the table clear. -/
def scanReady (s : State) : State := modEngine clearTable (sourceOpened s)

theorem scanned_scanReady_eng (s : State) :
    (scanned s.env.src.length (scanReady s)).eng
      = { treeDropped (sourceOpened s).eng with
          scan := (scanned s.env.src.length (scanReady s)).eng.scan } := by
  have heng := scanned_eng (s := scanReady s) (Nat.le_refl s.env.src.length)
  split at heng
  · rw [heng]
    rfl
  · exact heng

/-- The first pass leaves the counts of the input in the table (`41_freq.md` R148). -/
theorem run_countingPass (hio : IoOk s) (hc : s.eng.br.isOpen = false) (hlen : s.env.src.length < 2 ^ 32) :
    ∃ v t, countingPass s = .ok v t ∧ (∀ x, ftGet t.eng x = countOf s.env.src x) ∧
      t.eng.scan.total = BitVec.ofNat 32 s.env.src.length ∧
      t.eng = { treeDropped s.eng with scan := t.eng.scan, br := idleReader } ∧
      t.host = s.host ∧ t.env.src = s.env.src ∧ IoOk t := by
  have hio1 : IoOk (scanReady s) := ioOk_of_answers hio 1 rfl
  have hio2 : IoOk (scanned s.env.src.length (scanReady s)) := ioOk_of_answers hio1 _ rfl
  have hio3 : IoOk (asked (scanned s.env.src.length (scanReady s))) := ioOk_of_answers hio2 1 rfl
  have heng := scanned_scanReady_eng s
  have hscan : pFtScan (scanReady s) = _ := pFtScan_of_ioOk rfl hio1 ((Nat.zero_add _).trans_lt hlen)
  have hclose := pSrcClose_of_normal (s := asked (scanned s.env.src.length (scanReady s)))
    (by rw [asked_eng, heng]; rfl) (ioOk_next hio3)
  refine ⟨0#32, sourceClosed (asked (scanned s.env.src.length (scanReady s))), ?_, fun x => ?_, ?_, ?_, rfl, rfl,
    ioOk_of_answers hio3 1 rfl⟩
  · rw [countingPass, bind_of_ok (pSrcOpen_of_normal hc (ioOk_next hio)), bind_of_ok (run_pFtClr _)]
    exact (bind_of_ok hscan _).trans hclose
  · exact (ftGet_scanned (s := scanReady s) x).trans
      ((BitVec.zero_add _).trans (congrArg (countOf · x) List.take_length))
  · exact (scanned_total (s := scanReady s) (Nat.le_refl _)).trans (BitVec.zero_add _)
  · rw [sourceClosed, asked_eng, heng]
    rfl

/-! ### The counts' tree and its book -/

/-- The book of the counts' tree, whatever the block held before (`42_tree.md` R165, `43_codebook.md` R181). -/
theorem run_buildingPass (s : State) :
    ∃ b v t, buildBook (treeBuilt s.eng) = some b ∧ buildingPass s = .ok v t ∧ t.env = s.env ∧ t.host = s.host ∧
      t.eng = { s.eng with tree := (treeBuilt s.eng).tree, book := { cb := b.cb, done := true } } := by
  have hforest := forest_treeBuilt s.eng
  have hframe := treeBuilt_treeOnly s.eng
  obtain ⟨b, hb⟩ := hforest.children.buildBook_ends hforest.root_exist
  have hbook := run_pCbBuild (s := modEngine treeBuilt s) (treeBuilt_flags s.eng).1 hb
  refine ⟨b, _, _, hb, (bind_of_ok (run_pHtBuild s) _).trans hbook, rfl, rfl, ?_⟩
  exact congrArg (setBook b.cb) hframe

/-! ### The second pass: the stream written -/

theorem flushPadded_emptied {v : U32} (ho : s.eng.bw.isOpen = true) (hw : WriterOk s.eng.bw)
    (h : flushPadded s = .ok v t) :
    t.eng = { s.eng with bw := { buf := 0#8, cnt := 0#3, isOpen := true } } ∧ t.host = s.host ∧
      t.env.src = s.env.src := by
  by_cases hc : s.eng.bw.cnt = 0#3
  · rw [flushPadded_of_empty hc] at h
    cases h
    have hnone : waiting s.eng.bw = [] := List.length_eq_zero_iff.mp (by rw [waiting_length, hc]; rfl)
    have hbw := writerHolding_waiting hw.1 ho
    rw [hnone] at hbw
    exact ⟨congrArg (fun w => { s.eng with bw := w }) hbw.symm, rfl, rfl⟩
  · rw [flushPadded_of_waiting hc] at h
    split at h <;> cases h
    exact ⟨by rw [padFlushed, ho], rfl, rfl⟩

/-- BW_CLOSE that ends well leaves the writer empty and the sink closed (`40_bitio.md` R123). -/
theorem pBwClose_emptied {v : U32} (ho : s.eng.bw.isOpen = true) (hw : WriterOk s.eng.bw)
    (h : pBwClose s = .ok v t) :
    t.eng = { s.eng with bw := { buf := 0#8, cnt := 0#3, isOpen := false } } ∧ t.host = s.host ∧
      t.env.src = s.env.src := by
  rw [pBwClose_of_open ho] at h
  obtain ⟨pad, u, hflush, hclose⟩ := bind_eq_ok.mp h
  obtain ⟨heng, hhost, hsrc⟩ := flushPadded_emptied ho hw hflush
  rw [run_closeSink] at hclose
  split at hclose <;> cases hclose
  exact ⟨by rw [sinkClosed, heng], hhost, hsrc⟩

/-- The header of the table is all an opened sink then holds (`44_compress.md` R198). -/
theorem run_headerPass (hio : IoOk s) (hw : s.eng.bw.isOpen = false) :
    ∃ t, headerPass s = .ok 0#32 t ∧ t.env.snk = headerBytes (ftGet s.eng) s.eng.scan.total ∧
      t.env.src = s.env.src ∧ t.host = s.host ∧
      t.eng = { s.eng with bw := { buf := 0#8, cnt := 0#3, isOpen := true } } ∧ IoOk t := by
  have hio1 : IoOk (sinkOpened s) := ioOk_of_answers hio 1 rfl
  have hheader := pHdrWr_written (s := sinkOpened s) rfl (writerOk_empty true) hio1
  rw [written_streamBits _ rfl] at hheader
  exact ⟨_, (bind_of_ok (pSnkOpen_of_normal hw (ioOk_next hio)) _).trans hheader, rfl, rfl, rfl, rfl,
    ioOk_of_answers hio1 _ rfl⟩

/-- The state after ENC_RUN of the second pass: every byte of the input read and its code written. -/
def payloadEncoded (s : State) : State :=
  asked (bytesRead s.env.src.length (written (payloadBits (cbCode s.eng) s.env.src) (sourceOpened s)))

theorem ioOk_payloadEncoded (hio : IoOk s) : IoOk (payloadEncoded s) := by
  have hio1 : IoOk (sourceOpened s) := ioOk_of_answers hio 1 rfl
  have hio2 : IoOk (written (payloadBits (cbCode s.eng) s.env.src) (sourceOpened s)) := ioOk_of_answers hio1 _ rfl
  have hio3 := ioOk_of_answers (t := bytesRead s.env.src.length _) hio2 _ rfl
  exact ioOk_of_answers hio3 1 rfl

/-- The bits that begin no byte wait, the others are sent. -/
theorem payloadEncoded_sent (hw : s.eng.bw = { buf := 0#8, cnt := 0#3, isOpen := true }) :
    waiting (payloadEncoded s).eng.bw = restBits (payloadBits (cbCode s.eng) s.env.src) ∧
      (payloadEncoded s).env.snk = s.env.snk ++ wholeBytes (payloadBits (cbCode s.eng) s.env.src) := by
  have hnone : waiting (sourceOpened s).eng.bw ++ payloadBits (cbCode s.eng) s.env.src
      = payloadBits (cbCode s.eng) s.env.src := congrArg (waiting · ++ _) hw
  have hrest : (restBits (payloadBits (cbCode s.eng) s.env.src)).length < 8 := by rw [restBits_length]; omega
  rw [payloadEncoded, written, hnone]
  exact ⟨waiting_writerHolding hrest, rfl⟩

/-- The second pass adds the codes of the input, zero-padded (`30_encoding.md` R108), and closes both streams. -/
theorem run_payloadPass (hio : IoOk s) (hr : s.eng.br.isOpen = false)
    (hw : s.eng.bw = { buf := 0#8, cnt := 0#3, isOpen := true }) (hd : s.eng.book.done = true)
    (hcoded : ∀ b ∈ s.env.src, cbHas s.eng b.toNat = true) :
    ∃ v t, payloadPass s = .ok v t ∧
      t.env.snk = s.env.snk ++ paddedBytes (payloadBits (cbCode s.eng) s.env.src) ∧
      t.env.snkDone = true ∧ t.env.src = s.env.src ∧ t.host = s.host ∧
      t.eng = { s.eng with bw := { buf := 0#8, cnt := 0#3, isOpen := false }, br := idleReader } := by
  have hencode : pEncRun (sourceOpened s) = .ok 0#32 (payloadEncoded s) :=
    pEncRun_encoded rfl (congrArg BitWriter.isOpen hw) (hw ▸ writerOk_empty true : WriterOk s.eng.bw)
      (ioOk_of_answers hio 1 rfl) hd hcoded
  have hio1 := ioOk_payloadEncoded hio
  have hclose := pSrcClose_of_normal (s := payloadEncoded s) rfl (ioOk_next hio1)
  obtain ⟨hok, hopen⟩ : WriterOk (payloadEncoded s).eng.bw ∧ (payloadEncoded s).eng.bw.isOpen = true :=
    written_writerOk _ _
  obtain ⟨hwait, hsent⟩ := payloadEncoded_sent hw
  obtain ⟨v, t, hend, hsnk, hdone⟩ := pBwClose_padded (s := sourceClosed (payloadEncoded s)) hopen hok
    (ioOk_of_answers hio1 1 rfl)
  obtain ⟨heng, hhost, hsrc⟩ := pBwClose_emptied (s := sourceClosed (payloadEncoded s)) hopen hok hend
  refine ⟨v, t, ?_, ?_, hdone, hsrc, hhost, heng⟩
  · rw [payloadPass, bind_of_ok (pSrcOpen_of_normal hr (ioOk_next hio)), bind_of_ok hencode]
    exact (bind_of_ok hclose _).trans hend
  · calc t.env.snk = (payloadEncoded s).env.snk ++ paddedBytes (waiting (payloadEncoded s).eng.bw) := hsnk
      _ = s.env.snk ++ paddedBytes (payloadBits (cbCode s.eng) s.env.src) := by
        rw [hwait, hsent, List.append_assoc, ← paddedBytes_eq]

/-! ### COMPRESS (`44_compress.md` R207, R209) -/

/-- COMPRESS, where every call is answered: a table `e` with the counts of the input, the book `b` of their tree, and
the stream they give. -/
theorem run_pCompress (hio : IoOk s) (hr : s.eng.br.isOpen = false) (hw : s.eng.bw.isOpen = false)
    (hlen : s.env.src.length < 2 ^ 32) :
    ∃ (e : Engine) (b : Book) (t : State), pCompress s = .ok (BitVec.ofNat 32 s.env.src.length) t ∧
      (∀ x, ftGet e x = countOf s.env.src x) ∧ e.scan.total = BitVec.ofNat 32 s.env.src.length ∧
      buildBook (treeBuilt e) = some b ∧
      t.env.snk = headerBytes (ftGet e) e.scan.total ++ paddedBytes (payloadBits (cbCode t.eng) s.env.src) ∧
      t.env.snkDone = true ∧ t.env.src = s.env.src ∧ t.host = s.host ∧
      t.eng =
        { s.eng with
          scan := e.scan
          tree := (treeBuilt e).tree
          book := { cb := b.cb, done := true }
          bw := { buf := 0#8, cnt := 0#3, isOpen := false }
          br := idleReader } := by
  obtain ⟨_, t1, hcounting, hcounts, htotal, heng1, hhost1, hsrc1, hio1⟩ := run_countingPass hio hr hlen
  obtain ⟨b, _, t2, hb, hbuilding, henv2, hhost2, heng2⟩ := run_buildingPass t1
  have hw2 : t2.eng.bw.isOpen = false := by rw [heng2, heng1]; exact hw
  have hio2 : IoOk t2 := by rw [IoOk, henv2]; exact hio1
  obtain ⟨t3, hheader, hsnk3, hsrc3, hhost3, heng3, hio3⟩ := run_headerPass hio2 hw2
  have hr3 : t3.eng.br.isOpen = false := by rw [heng3, heng2, heng1]; rfl
  have hd3 : t3.eng.book.done = true := by rw [heng3, heng2]
  have hcoded : ∀ c ∈ t3.env.src, cbHas t3.eng c.toNat = true := fun c hc => by
    rw [hsrc3, henv2, hsrc1] at hc
    rw [cbHas, cbGet, heng3, heng2, coded_iff_counted hb c.isLt, hcounts, countOf_ne_zero_iff hlen]
    exact List.mem_map_of_mem hc
  obtain ⟨_, t4, hpayload, hsnk4, hdone, hsrc4, hhost4, heng4⟩ :=
    run_payloadPass hio3 hr3 (by rw [heng3]) hd3 hcoded
  have hscan4 : t4.eng.scan = t1.eng.scan := by rw [heng4, heng3, heng2]
  have hcodes : cbCode t4.eng = cbCode t3.eng := by rw [heng4]; rfl
  have hheader2 : headerBytes (ftGet t2.eng) t2.eng.scan.total = headerBytes (ftGet t1.eng) t1.eng.scan.total := by
    rw [heng2]; rfl
  have hsrc : t3.env.src = s.env.src := by rw [hsrc3, henv2, hsrc1]
  refine ⟨t1.eng, b, t4, ?_, hcounts, htotal, hb, ?_, hdone, hsrc4.trans hsrc, ?_, ?_⟩
  · rw [pCompress_of_closed hr hw, bind_of_ok hcounting, bind_of_ok hbuilding, bind_of_ok hheader,
      bind_of_ok hpayload, bind_of_ok (run_getEng t4), hscan4, htotal, run_pure]
  · rw [hsnk4, hsnk3, hheader2, hcodes, hsrc]
  · rw [hhost4, hhost3, hhost2, hhost1]
  · rw [heng4, heng3, heng2, heng1]
    rfl

/-- Settles O42: the two passes read the same input, so the table and the book of the first are those of the stream
the second writes. -/
theorem compressWritesTheStream : Obligations.CompressWritesTheStream := by
  intro s hs hio hr hw hlen
  obtain ⟨e, b, t, hrun, hcounts, htotal, hb, hsnk, hdone, hsrc, hhost, heng⟩ := run_pCompress hio hr hw hlen
  have hft : ftGet t.eng = ftGet e := by rw [heng]; rfl
  have hget : ∀ x, cbGet t.eng x = tableGet none b.cb x := fun x => by rw [heng]; rfl
  have hcodelen : ∀ x, (cbCode t.eng x).length ≤ 255 := fun x => by
    rw [cbCode, hget]
    exact code_length_le hb x
  have hpayload := sum_counts_lengths hlen (fun x => (congrFun hft x).trans (hcounts x)) hcodelen
  have hbytes : t.env.snk = headerBytes (countOf s.env.src) (BitVec.ofNat 32 s.env.src.length)
      ++ paddedBytes (payloadBits (cbCode t.eng) s.env.src) := by rw [hsnk, htotal, funext hcounts]
  refine ⟨answeredOk (BitVec.ofNat 32 s.env.src.length) t, (exec_eq rfl s).trans (execute_of_ok hs hrun), ?_, ?_,
    hbytes, ?_, hdone, hsrc, fun x _ => (congrFun hft x).trans (hcounts x), ?_, fun x hx => ?_,
    fun f u hf hcountsf hexec x path hx => ?_, ?_, ?_, ?_, ?_, ?_⟩
  · exact congrArg (fun h : HostPort => { h with rsp := some .ok }) hhost
  · rw [answeredOk, heng]
  · change t.env.snk.length = 1028 + (((List.range 256).map fun x =>
      (ftGet t.eng x).toNat * (cbLen t.eng x).toNat).sum + 7) / 8
    rw [hbytes, List.length_append, headerBytes_length, paddedBytes_length, hpayload]
  · rw [answeredOk, heng]
    exact htotal
  · change (cbGet t.eng x).isSome = true ↔ _
    rw [hget, coded_iff_counted hb hx, hcounts, countOf_ne_zero_iff hlen]
  · change cbGet t.eng x = some path ↔ _
    rw [hget, isPath_htBuild hf hexec]
    exact code_iff_isPath_of_counts hb (fun y hy => (hcounts y).trans (hcountsf y hy).symm) hx path
  · rw [answeredOk, heng]
    exact (treeBuilt_flags e).1
  all_goals rw [answeredOk, heng]
  · rfl

end Sys2Proof.Machine
end

-- ==== Proofs: the reader ahead of a bit sequence ====
section
namespace Sys2Proof.Machine

variable {s t u : State} {m n : Nat} {b : Bool} {bits rest : List Bool}

/-! ### What reading leaves (`40_bitio.md` R127, R129) -/

/-- Every byte taken of the source was taken for a bit delivered of it (`40_bitio.md` R127). -/
def TakenOnDemand (s : State) : Prop :=
  s.eng.br.pos ≠ 0#4 ∧ (s.eng.br.eos = true → s.env.srcPos = s.env.src.length)

theorem readBit_takenOnDemand {r : Option Bool} (hr : ReaderOk s) (h : readBit s = .ok r t)
    (hs : TakenOnDemand s) : TakenOnDemand t := by
  obtain ⟨hle, -, hsrc⟩ := hr
  rw [run_readBit] at h
  by_cases he : s.eng.br.eos = true
  · rw [if_pos he] at h
    cases h
    exact hs
  rw [if_neg he] at h
  by_cases h8 : s.eng.br.pos = 8#4
  · rw [if_pos h8] at h
    split at h
    · cases hn : nextAnswerOf s with
      | normal =>
        rw [hn] at h
        cases hb : s.env.src[s.env.srcPos]? with
        | some c =>
          rw [hb] at h
          cases h
          exact ⟨show (1#4 : BitVec 4) ≠ 0#4 by decide, fun hc => absurd hc he⟩
        | none =>
          rw [hb] at h
          cases h
          exact ⟨hs.1, fun _ => Nat.le_antisymm hsrc (List.getElem?_eq_none_iff.mp hb)⟩
      | _ => rw [hn] at h; cases h
    · cases h
  · rw [if_neg h8] at h
    cases h
    refine ⟨fun h0 => ?_, fun hc => absurd hc he⟩
    have hnext := congrArg BitVec.toNat h0
    rw [BitVec.toNat_add] at hnext
    simp only [BitVec.toNat_ofNat] at hnext
    omega

/-- Reading led from `s` to `t`: only the reader, the position and the answers changed, as reading changes them. -/
structure ReadOn (s t : State) : Prop where
  frame : readTo s t
  eos : s.eng.br.eos = true → t.eng.br.eos = true
  onDemand : TakenOnDemand s → TakenOnDemand t

namespace ReadOn

theorem refl (s : State) : ReadOn s s := ⟨readTo_refl s, id, id⟩

theorem trans (h1 : ReadOn s t) (h2 : ReadOn t u) : ReadOn s u :=
  ⟨readTo_trans h1.frame h2.frame, h2.eos ∘ h1.eos, h2.onDemand ∘ h1.onDemand⟩

theorem eng (h : ReadOn s t) : t.eng = { s.eng with br := t.eng.br } := congrArg State.eng h.frame.1
theorem env (h : ReadOn s t) : t.env = { s.env with srcPos := t.env.srcPos, answers := t.env.answers } :=
  congrArg State.env h.frame.1
theorem host (h : ReadOn s t) : t.host = s.host := (congrArg State.host h.frame.1).trans rfl
theorem tree (h : ReadOn s t) : t.eng.tree = s.eng.tree := by rw [h.eng]
theorem bw (h : ReadOn s t) : t.eng.bw = s.eng.bw := by rw [h.eng]
theorem dec (h : ReadOn s t) : t.eng.dec = s.eng.dec := by rw [h.eng]
theorem stat (h : ReadOn s t) : t.eng.stat = s.eng.stat := by rw [h.eng]
theorem snk (h : ReadOn s t) : t.env.snk = s.env.snk := by rw [h.env]
theorem src (h : ReadOn s t) : t.env.src = s.env.src := by rw [h.env]
theorem snkDone (h : ReadOn s t) : t.env.snkDone = s.env.snkDone := by rw [h.env]
theorem isOpen (h : ReadOn s t) : t.eng.br.isOpen = s.eng.br.isOpen := h.frame.2.1

end ReadOn

/-- The state with the reader, the source position and the answers replaced. -/
def readAs (r : BitReader) (p : Nat) (a : List Answer) (s : State) : State :=
  { s with eng := { s.eng with br := r }, env := { s.env with srcPos := p, answers := a } }

/-- An update that leaves the reader and the source alone and takes `k` answers can as well be made before the
reading. -/
theorem ReadOn.map {f : State → State} (k : Nat)
    (hf : ∀ r p a s, f (readAs r p a s) = readAs r p (a.drop k) (f s)) (hsrc : ∀ s, (f s).env.src = s.env.src)
    (h : ReadOn s t) : ReadOn (f s) (f t) := by
  obtain ⟨⟨hframe, hopen, j, hj⟩, heos, hdemand⟩ := h
  have hself : ∀ u, f u = readAs u.eng.br u.env.srcPos (u.env.answers.drop k) (f u) := fun u =>
    hf u.eng.br u.env.srcPos u.env.answers u
  have hbr : ∀ u, (f u).eng.br = u.eng.br := fun u => congrArg (·.eng.br) (hself u)
  have hpos : ∀ u, (f u).env.srcPos = u.env.srcPos := fun u => congrArg (·.env.srcPos) (hself u)
  have hans : ∀ u, (f u).env.answers = u.env.answers.drop k := fun u => congrArg (·.env.answers) (hself u)
  have hdone : ∀ u, TakenOnDemand (f u) ↔ TakenOnDemand u := fun u => by
    rw [TakenOnDemand, TakenOnDemand, hbr, hpos, hsrc]
  refine ⟨⟨?_, ?_, j, ?_⟩, ?_, ?_⟩
  · rw [hbr, hpos, hans]
    exact (congrArg f hframe).trans (hf _ _ _ s)
  · rw [hbr, hbr, hopen]
  · rw [hans, hans, hj, List.drop_drop, List.drop_drop, Nat.add_comm]
  · rw [hbr, hbr]
    exact heos
  · rw [hdone, hdone]
    exact hdemand

/-! ### The bits ahead -/

/-- The reader will deliver `bits`, where every call is answered: the first `m` of them at least without a refill
from a closed source. -/
structure Ahead (m : Nat) (bits : List Bool) (s : State) : Prop where
  answers : IoOk s
  reader : ReaderOk s
  refill : s.eng.br.isOpen = true ∨ m ≤ 8 - s.eng.br.pos.toNat
  left : unread s = bits

namespace Ahead

/-- What lies ahead depends on the reader and the source alone. -/
theorem of_eq (h : Ahead m bits s) (k : Nat) (hbr : t.eng.br = s.eng.br) (hsrc : t.env.src = s.env.src)
    (hpos : t.env.srcPos = s.env.srcPos) (ha : t.env.answers = s.env.answers.drop k) : Ahead m bits t := by
  refine ⟨ioOk_of_answers h.answers k ha, ?_, ?_, ?_⟩
  · rw [ReaderOk, hbr, hsrc, hpos]
    exact h.reader
  · rw [hbr]
    exact h.refill
  · rw [unread, hbr, hsrc, hpos]
    exact h.left

theorem of_open (h : Ahead m bits s) (ho : s.eng.br.isOpen = true) (k : Nat) : Ahead k bits s :=
  ⟨h.answers, h.reader, .inl ho, h.left⟩

theorem eos_of_cons (h : Ahead m (b :: bits) s) : s.eng.br.eos = false := by
  have hleft := h.left
  cases he : s.eng.br.eos with
  | false => rfl
  | true =>
    rw [unread, if_pos he] at hleft
    cases hleft

/-- The next bit comes from the buffer where the source is closed. -/
theorem readBit_closed (h : Ahead (m + 1) (b :: bits) s) (hroom : m + 1 ≤ 8 - s.eng.br.pos.toNat) :
    ∃ t, readBit s = .ok (some b) t ∧ readTo s t ∧ ReaderOk t ∧ m ≤ 8 - t.eng.br.pos.toNat ∧ unread t = bits := by
  obtain ⟨hle, -, hsrc⟩ := h.reader
  have he := h.eos_of_cons
  have hleft := h.left
  have hstep := buffered_step (r := s.eng.br) (by omega)
  have hpos : (delivered 1 s.eng.br).pos.toNat = s.eng.br.pos.toNat + 1 := delivered_pos (by omega)
  rw [unread, if_neg (ne_true_of_eq_false he), hstep, List.cons_append, List.cons.injEq] at hleft
  rw [hleft.1] at hstep
  refine ⟨_, readBit_buffered he hstep, ⟨rfl, rfl, 0, rfl⟩, ⟨?_, fun hc => ?_, hsrc⟩, ?_, ?_⟩
  · exact hpos.trans_le (by omega)
  · exact absurd hc (ne_true_of_eq_false he)
  · exact (show m ≤ 8 - (s.eng.br.pos.toNat + 1) by omega).trans_eq (congrArg (8 - ·) hpos.symm)
  · exact (if_neg (ne_true_of_eq_false he)).trans hleft.2

/-- Reading takes the next bit ahead. -/
theorem readBit (h : Ahead (m + 1) (b :: bits) s) :
    ∃ t, readBit s = .ok (some b) t ∧ ReadOn s t ∧ Ahead m bits t := by
  obtain ⟨t, hread, hto, hok, hrefill, hleft⟩ : ∃ t, Machine.readBit s = .ok (some b) t ∧ readTo s t ∧ ReaderOk t ∧
      (t.eng.br.isOpen = true ∨ m ≤ 8 - t.eng.br.pos.toNat) ∧ unread t = bits := by
    rcases h.refill with ho | hroom
    · obtain ⟨t, hread, hleft, hok, hto⟩ := readBit_some ho h.reader h.answers h.left
      exact ⟨t, hread, hto, hok, .inl (hto.2.1.trans ho), hleft⟩
    · obtain ⟨t, hread, hto, hok, hroom', hleft⟩ := h.readBit_closed hroom
      exact ⟨t, hread, hto, hok, .inr hroom', hleft⟩
  exact ⟨t, hread, ⟨hto, fun he => absurd he (ne_true_of_eq_false h.eos_of_cons),
    readBit_takenOnDemand h.reader hread⟩, ⟨readTo_ioOk hto h.answers, hok, hrefill, hleft⟩⟩

/-- With no bit ahead reading gives the end of the stream, on an open source or one that has given it before. -/
theorem readBit_end (h : Ahead m [] s) (ho : s.eng.br.isOpen = true ∨ s.eng.br.eos = true) :
    ∃ t, Machine.readBit s = .ok none t ∧ t.eng.br.eos = true ∧ ReadOn s t ∧ Ahead 0 [] t := by
  obtain ⟨t, hread, hleft, he, hok, hto⟩ : ∃ t, Machine.readBit s = .ok none t ∧ unread t = [] ∧
      t.eng.br.eos = true ∧ ReaderOk t ∧ readTo s t := by
    rcases ho with ho | he
    · exact readBit_none ho h.reader h.answers h.left
    · exact ⟨s, by rw [run_readBit, if_pos he], h.left, he, h.reader, readTo_refl s⟩
  exact ⟨t, hread, he, ⟨hto, fun _ => he, readBit_takenOnDemand h.reader hread⟩,
    ⟨readTo_ioOk hto h.answers, hok, .inr (Nat.zero_le _), hleft⟩⟩

end Ahead

/-! ### Words of 32 bits (`45_decompress.md` R216) -/

/-- A bit shifted in at bit 0 is the next binary digit. -/
theorem ofNat_shiftIn (p : List Bool) (b : Bool) :
    (BitVec.ofNat 32 (bitsToNat p) <<< 1) ||| (BitVec.ofBool b).setWidth 32
      = BitVec.ofNat 32 (bitsToNat (p ++ [b])) := by
  have hbit : ((BitVec.ofBool b).setWidth 32).toNat = b.toNat := by cases b <;> rfl
  have heven : bitsToNat p % 2 ^ 32 * 2 ^ 1 % 2 ^ 32 = (bitsToNat p % 2 ^ 31) <<< 1 := by
    rw [Nat.shiftLeft_eq]
    omega
  apply BitVec.eq_of_toNat_eq
  rw [BitVec.toNat_or, hbit, BitVec.toNat_shiftLeft, BitVec.toNat_ofNat, BitVec.toNat_ofNat, Nat.shiftLeft_eq, heven,
    ← Nat.shiftLeft_add_eq_or_of_lt (by cases b <;> decide), Nat.shiftLeft_eq, bitsToNat_snoc]
  have hlt : b.toNat < 2 := by cases b <;> decide
  omega

theorem bitsToNat_wordBits (w : U32) : bitsToNat (wordBits w) = w.toNat := by
  have hlen : (wordBits w).length = 32 := by simp [wordBits]
  have hlt := bitsToNat_lt (wordBits w)
  rw [hlen] at hlt
  refine Nat.eq_of_testBit_eq fun i => ?_
  by_cases hi : i < 32
  · have hbit := bitsToNat_testBit (wordBits w) (31 - i) (by omega)
    simp only [hlen, show 32 - 1 - (31 - i) = i by omega] at hbit
    rw [hbit]
    simp [wordBits, show 31 - (31 - i) = i by omega, BitVec.getLsbD]
  · have hp : 2 ^ 32 ≤ 2 ^ i := Nat.pow_le_pow_right (by omega) (by omega)
    rw [Nat.testBit_lt_two_pow (by omega), Nat.testBit_lt_two_pow (w.isLt.trans_le hp)]

namespace Ahead

theorem readBitsInto {q : List Bool} (p : List Bool) (h : Ahead (q.length + m) (q ++ rest) s) :
    ∃ t, readBitsInto q.length (BitVec.ofNat 32 (bitsToNat p)) s = .ok (some (BitVec.ofNat 32 (bitsToNat (p ++ q)))) t ∧
      ReadOn s t ∧ Ahead m rest t := by
  induction q generalizing p s with
  | nil =>
    rw [List.length_nil, Nat.zero_add] at h
    rw [List.append_nil]
    exact ⟨s, rfl, .refl s, h⟩
  | cons b q ih =>
    rw [List.length_cons, Nat.add_right_comm] at h
    obtain ⟨t, hread, hon, ht⟩ := h.readBit
    obtain ⟨u, hrest, hon', hu⟩ := ih (p ++ [b]) ht
    refine ⟨u, ?_, hon.trans hon', hu⟩
    rw [List.length_cons, Machine.readBitsInto, bind_of_ok hread]
    simp only [ofNat_shiftIn]
    rw [hrest, List.append_assoc, List.singleton_append]

/-- `Read32` gives the word whose bits lie ahead (R216). -/
theorem read32 {w : U32} (h : Ahead (32 + m) (wordBits w ++ rest) s) :
    ∃ t, read32 s = .ok (some w) t ∧ ReadOn s t ∧ Ahead m rest t := by
  have hlen : (wordBits w).length = 32 := by simp [wordBits]
  obtain ⟨t, hread, hon, ht⟩ := readBitsInto (q := wordBits w) [] (hlen ▸ h)
  rw [hlen, List.nil_append, bitsToNat_wordBits, BitVec.ofNat_toNat, BitVec.setWidth_eq] at hread
  exact ⟨t, hread, hon, ht⟩

/-- Reading a word from an open source ends, with `EOS` where the bits run out within it (R216). -/
theorem readBitsInto_ends (h : Ahead 0 bits s) (ho : s.eng.br.isOpen = true) (n : Nat) (w : U32) :
    ∃ r t, Machine.readBitsInto n w s = .ok r t ∧ (bits.length < n → r = none) ∧ ReadOn s t ∧
      Ahead 0 (bits.drop n) t := by
  induction n generalizing bits s w with
  | zero => exact ⟨some w, s, rfl, fun hlt => absurd hlt (Nat.not_lt_zero _), .refl s, h⟩
  | succ n ih =>
    cases bits with
    | nil =>
      obtain ⟨t, hread, -, hon, ht⟩ := h.readBit_end (.inl ho)
      exact ⟨none, t, bind_of_ok hread _, fun _ => rfl, hon, ht⟩
    | cons b bits =>
      obtain ⟨t, hread, hon, ht⟩ := (h.of_open ho 1).readBit
      obtain ⟨r, u, hrest, hnone, hon', hu⟩ := ih ht (hon.isOpen.trans ho) ((w <<< 1) ||| (BitVec.ofBool b).setWidth 32)
      refine ⟨r, u, (bind_of_ok hread _).trans hrest, fun hlt => hnone ?_, hon.trans hon', hu⟩
      exact Nat.lt_of_succ_lt_succ hlt

end Ahead

end Sys2Proof.Machine
end

-- ==== Proofs: HDR_RD loads the header ====
section
namespace Sys2Proof.Machine

variable {s t u : State} {m : Nat} {xs : List Nat} {ft : Nat → U32} {total : U32} {bits rest : List Bool}

/-! ### The header's words (`30_encoding.md` R105) -/

/-- The header's bits are those of its words: the counts, then the total. -/
theorem streamBits_headerBytes (ft : Nat → U32) (total : U32) :
    streamBits (headerBytes ft total) = (List.range 256).flatMap (fun x => wordBits (ft x)) ++ wordBits total := by
  simp only [headerBytes, streamBits_append, wordBits_eq]
  rw [streamBits, List.flatMap_assoc]
  rfl

theorem headerBytes_congr {f g : Nat → U32} (h : ∀ x, x < 256 → f x = g x) (total : U32) :
    headerBytes f total = headerBytes g total := by
  have hmap : (List.range 256).map (fun x => wordBytes (f x)) = (List.range 256).map fun x => wordBytes (g x) :=
    List.map_congr_left fun x hx => congrArg wordBytes (h x (List.mem_range.mp hx))
  rw [headerBytes, headerBytes, List.flatMap_def, List.flatMap_def, hmap]

/-! ### The counts loaded (`45_decompress.md` R217) -/

/-- The state with the frequency table and `total` replaced. -/
def withScan (c : Scanner) (s : State) : State := { s with eng := { s.eng with scan := c } }

/-- Reading header words led from `s` to `t`: beside what reading changes, only the table and `total` changed. -/
def HeaderRead (s t : State) : Prop := ReadOn (withScan t.eng.scan s) t

theorem ReadOn.headerRead (h : ReadOn s t) : HeaderRead s t := by
  have hscan : t.eng.scan = s.eng.scan := by rw [h.eng]
  rw [HeaderRead, hscan]
  exact h

namespace HeaderRead

theorem trans (h1 : HeaderRead s t) (h2 : HeaderRead t u) : HeaderRead s u :=
  (ReadOn.map (f := withScan u.eng.scan) 0 (fun _ _ _ _ => rfl) (fun _ => rfl) h1).trans h2

/-- A write to the table or to `total` after header words were read. -/
theorem write (h : HeaderRead s t) (c : Scanner) : HeaderRead s (withScan c t) :=
  h.trans (ReadOn.refl (withScan c t))

theorem readOn (h : HeaderRead s t) : ReadOn (withScan t.eng.scan s) t := h

theorem dec (h : HeaderRead s t) : t.eng.dec = s.eng.dec := h.readOn.dec
theorem tree (h : HeaderRead s t) : t.eng.tree = s.eng.tree := h.readOn.tree
theorem bw (h : HeaderRead s t) : t.eng.bw = s.eng.bw := h.readOn.bw
theorem isOpen (h : HeaderRead s t) : t.eng.br.isOpen = s.eng.br.isOpen := h.readOn.isOpen
theorem snk (h : HeaderRead s t) : t.env.snk = s.env.snk := h.readOn.snk
theorem snkDone (h : HeaderRead s t) : t.env.snkDone = s.env.snkDone := h.readOn.snkDone
theorem src (h : HeaderRead s t) : t.env.src = s.env.src := h.readOn.src
theorem ioOk (h : HeaderRead s t) (hio : IoOk s) : IoOk t := readTo_ioOk (s := withScan t.eng.scan s) h.frame hio

end HeaderRead

theorem Ahead.withScan (h : Ahead m bits s) (c : Scanner) : Ahead m bits (withScan c s) := h.of_eq 0 rfl rfl rfl rfl

/-- Counts whose words lie ahead are loaded, each at its symbol. -/
theorem readCounts_loaded (h : Ahead (32 * xs.length + m) (xs.flatMap (fun x => wordBits (ft x)) ++ rest) s) :
    ∃ t, readCounts xs s = .ok () t ∧ HeaderRead s t ∧ Ahead m rest t ∧
      ∀ x, ftGet t.eng x = if x ∈ xs then ft x else ftGet s.eng x := by
  induction xs generalizing s with
  | nil =>
    rw [List.length_nil, Nat.mul_zero, Nat.zero_add] at h
    exact ⟨s, rfl, (ReadOn.refl s).headerRead, h, fun x => rfl⟩
  | cons y xs ih =>
    rw [List.flatMap_cons, List.append_assoc, List.length_cons,
      show 32 * (xs.length + 1) + m = 32 + (32 * xs.length + m) by omega] at h
    obtain ⟨t, hword, hon, ht⟩ := h.read32
    have hset := hon.headerRead.write (ftSet t.eng y (ft y)).scan
    obtain ⟨u, hrest, hread, hu, hcounts⟩ := ih (ht.withScan (ftSet t.eng y (ft y)).scan)
    refine ⟨u, ?_, hset.trans hread, hu, fun x => ?_⟩
    · rw [readCounts, bind_of_ok hword]
      exact hrest
    · have hget : ftGet (ftSet t.eng y (ft y)) x = if x = y then ft y else ftGet s.eng x := by
        rw [ftGet_ftSet, ftGet, ftGet, hon.eng]
      rw [hcounts]
      change (if x ∈ xs then ft x else ftGet (ftSet t.eng y (ft y)) x) = _
      rw [hget]
      by_cases hx : x = y <;> simp [hx]

/-- Loading counts from an open source ends: as many words are taken, or the bits ran out and it raises. -/
theorem readCounts_ends (xs : List Nat) (h : Ahead 0 bits s) (ho : s.eng.br.isOpen = true) :
    ∃ t, HeaderRead s t ∧ t.eng.scan.total = s.eng.scan.total ∧
      (readCounts xs s = .error (.raise .corruptHeader) t ∨
        readCounts xs s = .ok () t ∧ Ahead 0 (bits.drop (32 * xs.length)) t) := by
  induction xs generalizing s bits with
  | nil => exact ⟨s, (ReadOn.refl s).headerRead, rfl, .inr ⟨rfl, h⟩⟩
  | cons y xs ih =>
    obtain ⟨r, t, hword, -, hon, ht⟩ := h.readBitsInto_ends ho 32 0#32
    have htotal : t.eng.scan.total = s.eng.scan.total := by rw [hon.eng]
    cases r with
    | none => exact ⟨t, hon.headerRead, htotal, .inl (bind_of_ok (p := read32) hword _)⟩
    | some w =>
      have hset := hon.headerRead.write (ftSet t.eng y w).scan
      have hstep : readCounts (y :: xs) s = readCounts xs (withScan (ftSet t.eng y w).scan t) :=
        bind_of_ok (p := read32) hword _
      obtain ⟨u, hread, hsame, hend⟩ := ih (ht.withScan (ftSet t.eng y w).scan) (hset.isOpen.trans ho)
      rw [← hstep, List.drop_drop, show 32 + 32 * xs.length = 32 * (y :: xs).length by
        rw [List.length_cons, Nat.mul_succ, Nat.add_comm]] at hend
      exact ⟨u, hset.trans hread, hsame.trans htotal, hend⟩

/-! ### HDR_RD (`45_decompress.md` R217, R218) -/

/-- The end of HDR_RD: the total, loaded, is compared with the sum of the counts. -/
def checkTotal (w : U32) : Proc U32 := do
  let e ← getEng
  require (ftSum e == w.toNat) .corruptHeader
  modEng (setDecRem w)
  pure w

theorem checkTotal_equal {w : U32} (h : ftSum s.eng = w.toNat) :
    checkTotal w s = .ok w (modEngine (setDecRem w) s) := by
  have hreq : require (ftSum s.eng == w.toNat) .corruptHeader s = .ok () s := by
    rw [run_require, if_pos (beq_iff_eq.mpr h)]
  rw [checkTotal, bind_of_ok (run_getEng s), bind_of_ok hreq]
  rfl

theorem checkTotal_unequal {w : U32} (h : ftSum s.eng ≠ w.toNat) :
    checkTotal w s = .error (.raise .corruptHeader) s := by
  have hreq : require (ftSum s.eng == w.toNat) .corruptHeader s = .error (.raise .corruptHeader) s := by
    rw [run_require, if_neg (mt beq_iff_eq.mp h)]
  rw [checkTotal, bind_of_ok (run_getEng s), bind_of_error hreq]

theorem pHdrRd_eq (s : State) :
    pHdrRd s = (do
      readCounts (List.range Config.nSym)
      let r ← read32
      match r with
      | none => raise .corruptHeader
      | some w => do
        modEng (setTotal w)
        checkTotal w : Proc U32) (modEngine treeDropped s) := rfl

section HdrRd

variable (h : Ahead 0 bits s) (ho : s.eng.br.isOpen = true)
include h ho

/-- HDR_RD over a whole header loads it and goes on to compare the total. -/
theorem pHdrRd_of_header (hbits : bits = streamBits (headerBytes ft total) ++ rest) :
    ∃ t, pHdrRd s = checkTotal total t ∧ HeaderRead (modEngine treeDropped s) t ∧ Ahead 0 rest t ∧
      (∀ x, x < 256 → ftGet t.eng x = ft x) ∧ t.eng.scan.total = total := by
  rw [hbits, streamBits_headerBytes, List.append_assoc] at h
  have hstart : Ahead (32 * (List.range 256).length + (32 + 0)) _ (modEngine treeDropped s) :=
    (h.of_open ho _).of_eq 0 rfl rfl rfl rfl
  obtain ⟨t, hcounts, hread, ht, hget⟩ := readCounts_loaded hstart
  obtain ⟨u, hword, hon, hu⟩ := ht.read32
  refine ⟨modEngine (setTotal total) u, ?_, (hread.trans hon.headerRead).write _, hu.withScan _, fun x hx => ?_, rfl⟩
  · rw [pHdrRd_eq, Config.nSym, bind_of_ok hcounts, bind_of_ok hword]
    exact bind_of_ok (run_modEng (setTotal total) u) fun _ => checkTotal total
  · calc ftGet (setTotal total u.eng) x = ftGet t.eng x := by rw [ftGet, hon.eng]; rfl
      _ = ft x := by rw [hget, if_pos (List.mem_range.mpr hx)]

/-- HDR_RD over fewer bits than a header raises, with `total` as it was. -/
theorem pHdrRd_of_short (hshort : bits.length < 8224) :
    ∃ t, pHdrRd s = .error (.raise .corruptHeader) t ∧ HeaderRead (modEngine treeDropped s) t ∧
      t.eng.scan.total = s.eng.scan.total := by
  have hstart : Ahead 0 bits (modEngine treeDropped s) := h.of_eq 0 rfl rfl rfl rfl
  obtain ⟨t, hread, htotal, hraise | ⟨hcounts, ht⟩⟩ := readCounts_ends (List.range 256) hstart ho
  · exact ⟨t, by rw [pHdrRd_eq, Config.nSym, bind_of_error hraise], hread, htotal⟩
  · obtain ⟨r, u, hword, hnone, hon, -⟩ := ht.readBitsInto_ends (hread.isOpen.trans ho) 32 0#32
    have hlen : (bits.drop (32 * (List.range 256).length)).length < 32 := by
      rw [List.length_drop, List.length_range]
      omega
    obtain rfl := hnone hlen
    have hword' : read32 t = .ok none u := hword
    refine ⟨u, ?_, hread.trans hon.headerRead, ?_⟩
    · rw [pHdrRd_eq, Config.nSym, bind_of_ok hcounts, bind_of_ok hword']
      rfl
    · rw [hon.eng]
      exact htotal

end HdrRd

/-- The sum HDR_RD forms depends on the counts alone. -/
theorem ftSum_of_counts {e : Engine} (h : ∀ x, x < 256 → ftGet e x = ft x) :
    ftSum e = ((List.range 256).map fun x => (ft x).toNat).sum := by
  have hmap : (List.range 256).map (fun x => (ftGet e x).toNat) = (List.range 256).map fun x => (ft x).toNat :=
    List.map_congr_left fun x hx => congrArg BitVec.toNat (h x (List.mem_range.mp hx))
  exact congrArg List.sum hmap

section Header

variable (h : Ahead 0 (streamBits (headerBytes ft total) ++ rest) s) (ho : s.eng.br.isOpen = true)
include h ho

theorem pHdrRd_of_good (hsum : ((List.range 256).map fun x => (ft x).toNat).sum = total.toNat) :
    ∃ t, pHdrRd s = .ok total (modEngine (setDecRem total) t) ∧ HeaderRead (modEngine treeDropped s) t ∧
      Ahead 0 rest t ∧ (∀ x, x < 256 → ftGet t.eng x = ft x) ∧ t.eng.scan.total = total := by
  obtain ⟨t, hcheck, hread, ht, hcounts, htotal⟩ := pHdrRd_of_header h ho rfl
  exact ⟨t, hcheck.trans (checkTotal_equal ((ftSum_of_counts hcounts).trans hsum)), hread, ht, hcounts, htotal⟩

theorem pHdrRd_of_bad (hsum : ((List.range 256).map fun x => (ft x).toNat).sum ≠ total.toNat) :
    ∃ t, pHdrRd s = .error (.raise .corruptHeader) t ∧ HeaderRead (modEngine treeDropped s) t ∧
      Ahead 0 rest t ∧ (∀ x, x < 256 → ftGet t.eng x = ft x) ∧ t.eng.scan.total = total := by
  obtain ⟨t, hcheck, hread, ht, hcounts, htotal⟩ := pHdrRd_of_header h ho rfl
  exact ⟨t, hcheck.trans (checkTotal_unequal ((ftSum_of_counts hcounts).trans_ne hsum)), hread, ht, hcounts, htotal⟩

end Header

/-- Settles O43: the words are loaded one after another, and the sum of the counts is the total. -/
theorem hdrRdLoadsHeader : Obligations.HdrRdLoadsHeader := by
  intro s ft total rest hs hio hr ho hu hsum
  obtain ⟨t, hrun, hread, ht, hcounts, htotal⟩ :=
    pHdrRd_of_good (rest := rest) ⟨hio, hr, .inl ho, hu⟩ ho hsum
  refine ⟨_, (exec_eq rfl s).trans (execute_of_ok hs hrun), hcounts, htotal, ht.left, ?_⟩
  exact congrArg (fun v => answeredOk total (modEngine (setDecRem total) v)) hread.frame.1

/-! ### Corrupt headers (`45_decompress.md` R218, R227, `30_encoding.md` R111) -/

/-- What `CorruptHeader` raised by HDR_RD leaves of the state it started in (`60_exceptions.md` R264). -/
structure HeaderRefused (s t : State) : Prop where
  rsp : t.host.rsp = some .fault
  err : t.eng.stat.err = 2#3
  dec : t.eng.dec = s.eng.dec
  phase : t.eng.tree.phase = .none
  snk : t.env.snk = s.env.snk
  snkDone : t.env.snkDone = (s.eng.bw.isOpen || s.env.snkDone)
  src : t.env.src = s.env.src

theorem HeaderRead.refused (h : HeaderRead (modEngine treeDropped s) t) :
    HeaderRefused s (faultState .corruptHeader t) := by
  refine ⟨rfl, rfl, h.dec, ?_, h.snk, ?_, h.src⟩
  · exact (congrArg Builder.phase h.tree).trans rfl
  · change (t.eng.bw.isOpen || t.env.snkDone) = _
    rw [h.bw, h.snkDone]
    rfl

/-- DECOMPRESS raises what HDR_RD raises on the source it opened. -/
theorem pDecompress_of_error {e : Stop} (hio : IoOk s) (hr : s.eng.br.isOpen = false) (hw : s.eng.bw.isOpen = false)
    (h : pHdrRd (sourceOpened s) = .error e t) : pDecompress s = .error e t := by
  have hreq : require (!s.eng.br.isOpen && !s.eng.bw.isOpen) .badSequence s = .ok () s := by simp [hr, hw]
  rw [pDecompress, bind_of_ok (run_getEng s), bind_of_ok hreq, bind_of_ok (pSrcOpen_of_normal hr (ioOk_next hio)),
    bind_of_error h]

theorem ahead_sourceOpened (hio : IoOk s) : Ahead 0 (streamBits s.env.src) (sourceOpened s) :=
  ⟨ioOk_of_answers hio 1 rfl, ⟨Nat.le_refl 8, fun _ => rfl, Nat.zero_le _⟩, .inl rfl, rfl⟩

/-- Settles O44: the bits run out within a word, or all words are loaded and the total is no sum; the fault that is
taken keeps the state HDR_RD had reached. -/
theorem badHeadersAreCorrupt : Obligations.BadHeadersAreCorrupt := by
  intro s hs hio
  refine ⟨fun hr ho => ⟨fun hshort => ?_, fun ft total rest hu hsum => ?_⟩, fun hr hw hbad => ?_⟩
  · obtain ⟨t, hrun, hread, htotal⟩ := pHdrRd_of_short ⟨hio, hr, .inl ho, rfl⟩ ho hshort
    have hleft : HeaderRefused s _ := hread.refused
    exact ⟨_, (exec_eq rfl s).trans (execute_of_raise hs hrun (releaseAnswered_of_ioOk (hread.ioOk hio))), hleft.rsp,
      hleft.err, htotal, hleft.dec, hleft.phase, hleft.snk⟩
  · obtain ⟨t, hrun, hread, ht, hcounts, htotal⟩ :=
      pHdrRd_of_bad (rest := rest) ⟨hio, hr, .inl ho, hu⟩ ho hsum
    have hleft : HeaderRefused s _ := hread.refused
    exact ⟨_, (exec_eq rfl s).trans (execute_of_raise hs hrun (releaseAnswered_of_ioOk ht.answers)), hleft.rsp,
      hleft.err, htotal, hcounts, hleft.dec, hleft.phase, hleft.snk⟩
  · have hopened := ahead_sourceOpened hio
    obtain ⟨t, hrun, hread⟩ : ∃ t, pHdrRd (sourceOpened s) = .error (.raise .corruptHeader) t ∧
        HeaderRead (modEngine treeDropped (sourceOpened s)) t := by
      rcases hbad with hshort | ⟨ft, total, after, hsrc, hsum⟩
      · obtain ⟨t, hrun, hread, -⟩ := pHdrRd_of_short hopened rfl (by rw [streamBits_length]; omega)
        exact ⟨t, hrun, hread⟩
      · rw [hsrc, streamBits_append] at hopened
        obtain ⟨t, hrun, hread, -⟩ := pHdrRd_of_bad hopened rfl hsum
        exact ⟨t, hrun, hread⟩
    have hleft : HeaderRefused (sourceOpened s) _ := hread.refused
    refine ⟨_, (exec_eq rfl s).trans (execute_of_raise hs (pDecompress_of_error hio hr hw hrun)
      (releaseAnswered_of_ioOk (hread.ioOk hopened.answers))), hleft.rsp, hleft.err, hleft.snk, ?_, hleft.src⟩
    rw [hleft.snkDone]
    exact congrArg (· || s.env.snkDone) hw

end Sys2Proof.Machine
end

-- ==== Proofs: DEC_SYM and DEC_RUN follow their codes ====
section
namespace Sys2Proof.Machine

variable {s t u : State} {m : Nat} {n : Node} {b : Byte} {path bits rest : List Bool}

/-- What comes after depends on how the first procedure ends alone. -/
theorem bind_of_eq {α β : Type} {p p' : Proc α} (h : p s = p' t) (q : α → Proc β) : (p >>= q) s = (p' >>= q) t := by
  rw [run_bind, run_bind, h]

/-! ### The walk over the bits ahead (`45_decompress.md` R223) -/

/-- The state with the decoder's cursor at node `n`. -/
def atNode (n : Node) (s : State) : State := modEngine (setDecCur n) s

theorem ReadOn.atNode (h : ReadOn s t) (n : Node) : ReadOn (atNode n s) (atNode n t) :=
  ReadOn.map (f := Machine.atNode n) 0 (fun _ _ _ _ => rfl) (fun _ => rfl) h

theorem Ahead.atNode (h : Ahead m bits s) (n : Node) : Ahead m bits (atNode n s) := h.of_eq 0 rfl rfl rfl rfl

/-- One turn at an inner node takes the next bit to the child it leads to. -/
theorem walkToLeaf_bit {bit : Bool} (fuel : Nat) (hl : isLeaf s.eng.dec.cur = false)
    (h : Ahead (m + 1) (bit :: bits) s) :
    ∃ t, walkToLeaf (fuel + 1) s = walkToLeaf fuel (atNode (childOf s.eng s.eng.dec.cur bit) t) ∧ ReadOn s t ∧
      Ahead m bits t := by
  obtain ⟨t, hread, hon, ht⟩ := h.readBit
  have hchild : childOf t.eng t.eng.dec.cur bit = childOf s.eng s.eng.dec.cur bit := by rw [hon.eng]; rfl
  refine ⟨t, ?_, hon, ht⟩
  rw [walkToLeaf, bind_of_ok (run_getEng s), if_neg (ne_true_of_eq_false hl), bind_of_ok hread, ← hchild]
  rfl

/-- The walk takes the bits of a path to the node it leads to. -/
theorem walkToLeaf_path (fuel : Nat) (h : Ahead (path.length + m) (path ++ rest) s)
    (hf : follow s.eng s.eng.dec.cur path = some n) :
    ∃ t, walkToLeaf (fuel + path.length) s = walkToLeaf fuel t ∧ ReadOn (atNode n s) t ∧ Ahead m rest t := by
  induction path generalizing s with
  | nil =>
    rw [follow_nil, Option.some.injEq] at hf
    rw [List.length_nil, Nat.zero_add] at h
    subst hf
    exact ⟨s, rfl, ReadOn.refl s, h⟩
  | cons bit path ih =>
    obtain ⟨hl, hf⟩ := follow_cons_eq_some.mp hf
    rw [List.length_cons, Nat.add_right_comm] at h
    obtain ⟨t, hturn, hon, ht⟩ := walkToLeaf_bit (fuel + path.length) hl h
    rw [← follow_congr (e := (atNode (childOf s.eng s.eng.dec.cur bit) t).eng) hon.tree] at hf
    obtain ⟨u, hwalk, hon', hu⟩ := ih (ht.atNode _) hf
    exact ⟨u, hturn.trans hwalk, (hon.atNode n).trans hon', hu⟩

/-- Where the bits ahead end at an inner node the walk raises there (R224). -/
theorem walkToLeaf_truncated (fuel : Nat) (h : Ahead m [] s) (ho : s.eng.br.isOpen = true ∨ s.eng.br.eos = true)
    (hl : isLeaf s.eng.dec.cur = false) :
    ∃ t, walkToLeaf (fuel + 1) s = .error (.raise .truncatedStream) t ∧ t.eng.br.eos = true ∧ ReadOn s t ∧
      Ahead 0 [] t := by
  obtain ⟨t, hread, heos, hon, ht⟩ := h.readBit_end ho
  refine ⟨t, ?_, heos, hon, ht⟩
  rw [walkToLeaf, bind_of_ok (run_getEng s), if_neg (ne_true_of_eq_false hl), bind_of_ok hread]
  rfl

/-- The bits ahead are fewer than the turns DEC_SYM allows. -/
theorem Ahead.exists_fuel (h : Ahead m (path ++ rest) s) : ∃ fuel, bitBound s + 1 = fuel + 1 + path.length := by
  have hlen : (unread s).length ≤ bitBound s := by
    cases he : s.eng.br.eos with
    | true => rw [unread, if_pos he]; exact Nat.zero_le _
    | false =>
      rw [unread_length he, bitBound, bytesLeft]
      omega
  rw [h.left, List.length_append] at hlen
  exact ⟨bitBound s - path.length, by omega⟩

/-! ### DEC_SYM (`45_decompress.md` R223) -/

/-- The symbols of `out` decoded but for the reader's part: they are in the sink and counted, and the cursor is at the
root again. -/
def emitted (out : List Byte) (s : State) : State :=
  { s with
    eng :=
      { s.eng with
        dec :=
          { cur := if out = [] then s.eng.dec.cur else s.eng.tree.root
            rem := s.eng.dec.rem - BitVec.ofNat 32 out.length } }
    env := { afterCalls out.length s.env with snk := s.env.snk ++ out } }

theorem emitted_nil (s : State) : emitted [] s = s := by
  simp only [emitted, if_true, List.length_nil, BitVec.sub_zero, afterCalls_zero, List.append_nil]

theorem symbolEmitted_zero (b : Byte) (s : State) : symbolEmitted b 0 s = emitted [b] s := by
  rw [symbolEmitted, delivered_zero]
  rfl

theorem emitted_emitted (b : Byte) (out : List Byte) (s : State) :
    emitted out (emitted [b] s) = emitted (b :: out) s := by
  have hrem : s.eng.dec.rem - 1#32 - BitVec.ofNat 32 out.length
      = s.eng.dec.rem - BitVec.ofNat 32 (b :: out).length := by
    rw [List.length_cons, Nat.add_comm, BitVec.ofNat_add]
    exact sub_sub _ _ _
  have hans : (s.env.answers.drop 1).drop out.length = s.env.answers.drop (b :: out).length := by
    rw [List.drop_drop, List.length_cons, Nat.add_comm]
  have hcur : (if out = [] then s.eng.tree.root else s.eng.tree.root) = s.eng.tree.root := ite_self _
  simp only [emitted, List.cons_ne_nil, if_false, hcur, List.length_singleton, afterCalls, hrem, hans,
    List.append_assoc, List.singleton_append]

theorem ReadOn.emitted (h : ReadOn s t) (out : List Byte) : ReadOn (emitted out s) (emitted out t) :=
  ReadOn.map (f := Machine.emitted out) out.length (fun _ _ _ _ => rfl) (fun _ => rfl) h

theorem Ahead.emitted (h : Ahead m bits s) (out : List Byte) : Ahead m bits (emitted out s) :=
  h.of_eq out.length rfl rfl rfl rfl

/-- With the sink closed the symbol is not emitted (R222). -/
theorem emitSymbol_closed (hc : s.eng.bw.isOpen = false) : emitSymbol s = .error (.raise .streamClosed) s := by
  have hsend := run_sinkByte (symbolOf s.eng.dec.cur) s
  rw [if_neg (ne_true_of_eq_false hc)] at hsend
  rw [emitSymbol, bind_of_ok (run_getEng s), bind_of_error hsend]

section DecSym

variable (hp : s.eng.tree.phase = .done) (hv : s.eng.tree.rootValid = true) (hrem : s.eng.dec.rem ≠ 0#32)
include hp hv hrem

/-- DEC_SYM over the bits of a path from the root, up to the node the path leads to. -/
theorem pDecSym_path (h : Ahead (path.length + m) (path ++ rest) s)
    (hf : follow s.eng s.eng.tree.root path = some n) :
    ∃ fuel t, pDecSym s = (walkToLeaf (fuel + 1) >>= fun _ => emitSymbol) t ∧ ReadOn (atNode n s) t ∧
      Ahead m rest t := by
  have hroot := h.atNode s.eng.tree.root
  obtain ⟨fuel, hfuel⟩ := hroot.exists_fuel
  obtain ⟨t, hwalk, hon, ht⟩ := walkToLeaf_path (fuel + 1) hroot ((follow_atRoot s _ path).trans hf)
  have hreq : require (s.eng.tree.phase == .done && s.eng.tree.rootValid && s.eng.dec.rem != 0#32) .badSequence s
      = .ok () s := by simp [hp, hv, hrem]
  refine ⟨fuel, t, ?_, hon, ht⟩
  calc pDecSym s = (do (fun t => walkToLeaf (bitBound t + 1) t : Proc Unit); emitSymbol : Proc U32) (atRoot s) := by
        rw [pDecSym, bind_of_ok (run_getEng s), bind_of_ok hreq, bind_of_ok (run_modEng _ s)]
        rfl
    _ = (walkToLeaf (fuel + 1) >>= fun _ => emitSymbol) t :=
        bind_of_eq (p := fun t => walkToLeaf (bitBound t + 1) t) ((congrArg (walkToLeaf · _) hfuel).trans hwalk) _

/-- DEC_SYM walks the code of a symbol to its leaf and goes on to emit it. -/
theorem pDecSym_leaf (h : Ahead (path.length + m) (path ++ rest) s) (hpath : IsPath s.eng b.toNat path) :
    ∃ t, pDecSym s = emitSymbol t ∧ ReadOn (atNode (leafOf b.toNat) s) t ∧ Ahead m rest t := by
  obtain ⟨fuel, t, hrun, hon, ht⟩ := pDecSym_path hp hv hrem h hpath
  have hleaf : isLeaf t.eng.dec.cur = true := by
    rw [hon.dec]
    exact isLeaf_leafOf b.isLt
  exact ⟨t, hrun.trans (bind_of_ok (walkToLeaf_leaf fuel hleaf) _), hon, ht⟩

theorem pDecSym_emitted (h : Ahead (path.length + m) (path ++ rest) s) (hpath : IsPath s.eng b.toNat path)
    (ho : s.eng.bw.isOpen = true) :
    ∃ t, pDecSym s = .ok (b.setWidth 32) t ∧ ReadOn (emitted [b] s) t ∧ Ahead m rest t := by
  obtain ⟨t, hrun, hon, ht⟩ := pDecSym_leaf hp hv hrem h hpath
  have hcur : t.eng.dec.cur = leafOf b.toNat := by rw [hon.dec]; rfl
  have hemit := run_emitSymbol hcur ((congrArg BitWriter.isOpen hon.bw).trans ho) (ioOk_next ht.answers)
  rw [symbolEmitted_zero] at hemit
  exact ⟨_, hrun.trans hemit, hon.emitted [b], ht.emitted [b]⟩

theorem pDecSym_closedSink (h : Ahead (path.length + m) (path ++ rest) s) (hpath : IsPath s.eng b.toNat path)
    (hc : s.eng.bw.isOpen = false) :
    ∃ t, pDecSym s = .error (.raise .streamClosed) t ∧ ReadOn (atNode (leafOf b.toNat) s) t ∧ Ahead m rest t := by
  obtain ⟨t, hrun, hon, ht⟩ := pDecSym_leaf hp hv hrem h hpath
  exact ⟨t, hrun.trans (emitSymbol_closed ((congrArg BitWriter.isOpen hon.bw).trans hc)), hon, ht⟩

theorem pDecSym_truncated (h : Ahead bits.length bits s) (ho : s.eng.br.isOpen = true ∨ s.eng.br.eos = true)
    (hf : follow s.eng s.eng.tree.root bits = some n) (hl : isLeaf n = false) :
    ∃ t, pDecSym s = .error (.raise .truncatedStream) t ∧ t.eng.br.eos = true ∧ ReadOn (atNode n s) t ∧
      Ahead 0 [] t := by
  obtain ⟨fuel, t, hrun, hon, ht⟩ := pDecSym_path (m := 0) (rest := []) hp hv hrem (by simpa using h) hf
  have hinner : isLeaf t.eng.dec.cur = false := by
    rw [hon.dec]
    exact hl
  have hends : t.eng.br.isOpen = true ∨ t.eng.br.eos = true := ho.imp hon.isOpen.trans hon.eos
  obtain ⟨u, hwalk, heos, hon', hu⟩ := walkToLeaf_truncated fuel ht hends hinner
  exact ⟨u, hrun.trans (bind_of_error hwalk _), heos, hon.trans hon', hu⟩

end DecSym

section Premises

variable (hio : IoOk s) (hr : ReaderOk s)
include hio hr

/-- The bits of a path are ahead as the reader needs them. -/
theorem ahead_of_unread (hroom : s.eng.br.isOpen = true ∨ path.length ≤ 8 - s.eng.br.pos.toNat)
    (hu : unread s = path ++ rest) : Ahead (path.length + 0) (path ++ rest) s := ⟨hio, hr, hroom, hu⟩

/-- All bits left are ahead, on an open source or one that has given its end. -/
theorem ahead_all (ho : s.eng.br.isOpen = true ∨ s.eng.br.eos = true) : Ahead (unread s).length (unread s) s := by
  refine ⟨hio, hr, ho.imp_right fun he => ?_, rfl⟩
  rw [unread, if_pos he]
  exact Nat.zero_le _

end Premises

theorem exists_byte {x : Nat} (hx : x < 256) : ∃ b : Byte, b.toNat = x :=
  ⟨BitVec.ofNat 8 x, (BitVec.toNat_ofNat x 8).trans (Nat.mod_eq_of_lt hx)⟩

/-- Settles O45: the walk takes the path's bits and ends at the leaf, whose symbol the sink takes. -/
theorem decSymEmitsSymbol : Obligations.DecSymEmitsSymbol := by
  intro s x path rest hs hio hr hp hv hrem ho hroom hx hpath hu
  obtain ⟨b, rfl⟩ := exists_byte hx
  obtain ⟨t, hrun, hon, ht⟩ := pDecSym_emitted hp hv hrem (ahead_of_unread hio hr hroom hu) hpath ho
  refine ⟨_, (exec_eq rfl s).trans (execute_of_ok hs hrun), ht.left, ?_⟩
  rw [BitVec.ofNat_toNat, BitVec.ofNat_toNat, BitVec.setWidth_eq]
  exact congrArg (answeredOk (b.setWidth 32)) hon.frame.1

/-- Settles O46: the walk follows all bits left and meets the end of the stream at an inner node. -/
theorem decSymTruncatedStream : Obligations.DecSymTruncatedStream := by
  intro s n hs hio hr hp hv hrem ho hf hl
  obtain ⟨t, hrun, heos, hon, ht⟩ := pDecSym_truncated hp hv hrem (ahead_all hio hr ho) ho hf hl
  refine ⟨_, (exec_eq rfl s).trans (execute_of_raise hs hrun (releaseAnswered_of_ioOk ht.answers)), rfl, rfl, hon.dec,
    heos, ht.reader.2.1 heos, rfl, releasedWriter_closed _, hon.snk, ?_, hon.tree, ?_, ?_⟩
  · change (t.eng.bw.isOpen || t.env.snkDone) = _
    rw [hon.bw, hon.snkDone, Bool.or_comm]
    rfl
  · exact (congrArg Engine.scan hon.eng).trans rfl
  · exact (congrArg Engine.book hon.eng).trans rfl

/-- Settles O47: the walk is the same with the sink closed; what follows it raises. -/
theorem decSymClosedSink : Obligations.DecSymClosedSink := by
  intro s x path rest hs hio hr hp hv hrem hc hroom hx hpath hu
  obtain ⟨b, rfl⟩ := exists_byte hx
  obtain ⟨t, hrun, hon, ht⟩ := pDecSym_closedSink hp hv hrem (ahead_of_unread hio hr hroom hu) hpath hc
  exact ⟨_, (exec_eq rfl s).trans (execute_of_raise hs hrun (releaseAnswered_of_ioOk ht.answers)), rfl, rfl, hon.dec,
    ht.left, hon.snk⟩

/-! ### DEC_RUN (`45_decompress.md` R225, R226) -/

theorem isPath_congr {e f : Engine} (h : e.tree = f.tree) (x : Nat) (path : List Bool) :
    IsPath e x path ↔ IsPath f x path := by
  rw [IsPath, IsPath, h, follow_congr h]

/-- The loop of DEC_RUN emits the symbols whose codes lie ahead, as many as are owed. -/
theorem decodeLoop_emitted {input : List Byte} {code : Nat → List Bool} (hp : s.eng.tree.phase = .done)
    (hlen : s.eng.dec.rem.toNat = input.length) (hv : input ≠ [] → s.eng.tree.rootValid = true)
    (ho : s.eng.bw.isOpen = true) (hpath : ∀ b ∈ input, IsPath s.eng b.toNat (code b.toNat))
    (h : Ahead ((payloadBits code input).length + m) (payloadBits code input ++ rest) s) :
    ∃ t, decodeLoop s.eng.dec.rem.toNat s = .ok () t ∧ ReadOn (emitted input s) t ∧ Ahead m rest t := by
  induction input generalizing s with
  | nil =>
    rw [hlen, emitted_nil]
    rw [payloadBits, List.flatMap_nil, List.length_nil, Nat.zero_add] at h
    exact ⟨s, rfl, ReadOn.refl s, h⟩
  | cons b input ih =>
    have hcons : payloadBits code (b :: input) = code b.toNat ++ payloadBits code input := List.flatMap_cons
    have hrem : s.eng.dec.rem ≠ 0#32 := ne_zero_of_lt_toNat (n := input.length) (hlen ▸ Nat.lt_succ_self _)
    have hroot := hv (List.cons_ne_nil b input)
    rw [hcons, List.length_append, List.append_assoc, Nat.add_assoc] at h
    obtain ⟨t, hsym, hon, ht⟩ := pDecSym_emitted hp hroot hrem h (hpath b List.mem_cons_self) ho
    have htree : t.eng.tree = s.eng.tree := hon.tree
    have hremt : t.eng.dec.rem = s.eng.dec.rem - 1#32 := congrArg Decoder.rem hon.dec
    have hlent : t.eng.dec.rem.toNat = input.length := by
      rw [← toNat_sub_one_add_one hrem, ← hremt, List.length_cons] at hlen
      exact Nat.succ.inj hlen
    obtain ⟨u, hloop, hon', hu⟩ := ih (htree ▸ hp) hlent (fun _ => htree ▸ hroot)
      ((congrArg BitWriter.isOpen hon.bw).trans ho)
      (fun c hc => (isPath_congr htree _ _).mpr (hpath c (List.mem_cons_of_mem b hc))) ht
    refine ⟨u, (decodeLoop_of_ok hrem hsym hremt).trans hloop, ?_, hu⟩
    rw [← emitted_emitted]
    exact (hon.emitted input).trans hon'

theorem pDecRun_of_ok (hp : s.eng.tree.phase = .done) (h : decodeLoop s.eng.dec.rem.toNat s = .ok () t) :
    pDecRun s = .ok 0#32 t := by
  rw [pDecRun, bind_of_ok (run_getEng s), bind_of_ok (require_done hp), bind_of_ok h, run_pure]

/-- All symbols owed decoded, none is owed. -/
theorem emitted_dec {input : List Byte} (hlen : s.eng.dec.rem.toNat = input.length) :
    (emitted input s).eng.dec = { cur := if input = [] then s.eng.dec.cur else s.eng.tree.root, rem := 0#32 } := by
  have hrem : s.eng.dec.rem - BitVec.ofNat 32 input.length = 0#32 := by
    rw [← hlen, BitVec.ofNat_toNat, BitVec.setWidth_eq, BitVec.sub_self]
  exact congrArg (Decoder.mk _) hrem

/-- Settles O48: the loop takes as many turns as symbols are owed, each the code of one symbol. -/
theorem decRunDecodesExactly : Obligations.DecRunDecodesExactly := by
  intro s input code rest hs hio hr hp hlen
  refine ⟨fun hnil => ?_, fun hne hv ho hroom hpath hu => ?_⟩
  · have hloop : decodeLoop s.eng.dec.rem.toNat s = .ok () s := by
      rw [hlen, hnil]
      rfl
    exact (exec_eq rfl s).trans (execute_of_ok hs (pDecRun_of_ok hp hloop))
  · obtain ⟨t, hloop, hon, ht⟩ :=
      decodeLoop_emitted hp hlen (fun _ => hv) ho hpath (ahead_of_unread hio hr hroom hu)
    have hdec : t.eng.dec = { cur := s.eng.tree.root, rem := 0#32 } := by rw [hon.dec, emitted_dec hlen, if_neg hne]
    refine ⟨_, (exec_eq rfl s).trans (execute_of_ok hs (pDecRun_of_ok hp hloop)), ht.left, ?_⟩
    rw [← hdec, hon.dec]
    exact congrArg (answeredOk 0#32) hon.frame.1

end Sys2Proof.Machine
end

-- ==== Proofs: DECOMPRESS writes the input back ====
section
namespace Sys2Proof.Machine

variable {s t : State} {m : Nat} {ft : Nat → U32} {total : U32} {input payload : List Byte}
  {code : Nat → List Bool} {bits rest : List Bool}

/-! ### The parts of DECOMPRESS (`45_decompress.md` R227) -/

/-- The header loaded, its counts' tree built, and the sink opened. -/
def loadingPass : Proc U32 := do
  let _ ← pSrcOpen
  let _ ← pHdrRd
  let _ ← pHtBuild
  pSnkOpen

/-- Both streams closed. -/
def closingPass : Proc U32 := do
  let _ ← pSnkClose
  pSrcClose

/-- On closed streams DECOMPRESS loads the header, decodes and closes the streams. -/
theorem pDecompress_of_closed (hr : s.eng.br.isOpen = false) (hw : s.eng.bw.isOpen = false) :
    pDecompress s = (do
      let _ ← loadingPass
      let _ ← pDecRun
      let _ ← closingPass
      let e ← getEng
      pure e.scan.total : Proc U32) s := by
  have hreq : require (!s.eng.br.isOpen && !s.eng.bw.isOpen) .badSequence s = .ok () s := by simp [hr, hw]
  rw [pDecompress, bind_of_ok (run_getEng s), bind_of_ok hreq]
  simp only [loadingPass, closingPass, bind_assoc]

/-- The state DECOMPRESS decodes from: the header `ft`, `total` loaded, `bits` left to read, the sink empty. -/
structure Loaded (ft : Nat → U32) (total : U32) (bits : List Bool) (s t : State) : Prop where
  ahead : Ahead 0 bits t
  srcOpen : t.eng.br.isOpen = true
  onDemand : TakenOnDemand t
  counts : ∀ x, x < 256 → ftGet t.eng x = ft x
  tree : ∃ e, (∀ x, x < 256 → ftGet e x = ft x) ∧ t.eng.tree = (treeBuilt e).tree
  book : t.eng.book = { s.eng.book with done := false }
  bw : t.eng.bw = { buf := 0#8, cnt := 0#3, isOpen := true }
  dec : t.eng.dec.rem = total
  stat : t.eng.stat = s.eng.stat
  host : t.host = s.host
  src : t.env.src = s.env.src
  snk : t.env.snk = []
  total : t.eng.scan.total = total

/-- After a good header its tree is built, whatever the block held before. -/
theorem run_loadingPass (hio : IoOk s) (hr : s.eng.br.isOpen = false) (hw : s.eng.bw.isOpen = false)
    (hsrc : s.env.src = headerBytes ft total ++ payload)
    (hsum : ((List.range 256).map fun x => (ft x).toNat).sum = total.toNat) :
    ∃ v t, loadingPass s = .ok v t ∧ Loaded ft total (streamBits payload) s t := by
  have hopened := ahead_sourceOpened hio
  have honDemand : TakenOnDemand (sourceOpened s) := ⟨(by decide : (8#4 : BitVec 4) ≠ 0#4), fun h => nomatch h⟩
  rw [hsrc, streamBits_append] at hopened
  obtain ⟨t, hheader, hread, ht, hcounts, htotal⟩ := pHdrRd_of_good hopened rfl hsum
  have hbuild := run_pHtBuild (modEngine (setDecRem total) t)
  have hflags := treeBuilt_treeOnly (modEngine (setDecRem total) t).eng
  have htree : ∃ e, (∀ x, x < 256 → ftGet e x = ft x) ∧
      (treeBuilt (modEngine (setDecRem total) t).eng).tree = (treeBuilt e).tree :=
    ⟨(modEngine (setDecRem total) t).eng, hcounts, rfl⟩
  rw [modEngine_eq treeBuilt] at hbuild
  generalize treeBuilt (modEngine (setDecRem total) t).eng = e at hbuild hflags htree
  have hio' : IoOk { modEngine (setDecRem total) t with eng := e } := ht.answers
  have hbw : e.bw.isOpen = false := by
    rw [hflags.bw]
    exact (congrArg BitWriter.isOpen hread.bw).trans hw
  have hopen := pSnkOpen_of_normal (s := { modEngine (setDecRem total) t with eng := e }) hbw (ioOk_next hio')
  have hrun : loadingPass s = .ok 0#32 (sinkOpened { modEngine (setDecRem total) t with eng := e }) := by
    rw [loadingPass, bind_of_ok (pSrcOpen_of_normal hr (ioOk_next hio)), bind_of_ok hheader, bind_of_ok hbuild]
    exact hopen
  refine ⟨_, _, hrun, ht.of_eq 1 hflags.br rfl rfl rfl, ?_, ?_, fun x hx => ?_, htree, ?_, rfl, ?_, ?_,
    hread.readOn.host, hread.src, rfl, (congrArg Scanner.total hflags.scan).trans htotal⟩
  · exact (congrArg BitReader.isOpen hflags.br).trans hread.isOpen
  · have hdemand := hread.readOn.onDemand honDemand
    rw [TakenOnDemand] at hdemand ⊢
    exact (congrArg (fun r : BitReader => r.pos ≠ 0#4 ∧ (r.eos = true → t.env.srcPos = t.env.src.length))
      hflags.br).mpr hdemand
  · exact (congrArg (fun c : Scanner => tableGet 0#32 c.ft x) hflags.scan).trans (hcounts x hx)
  · exact hflags.book.trans (congrArg (fun f : Engine => { f.book with done := false }) hread.readOn.eng)
  · exact congrArg (·.dec.rem) hflags
  · exact hflags.stat.trans hread.readOn.stat

theorem pSnkClose_of_normal (ho : s.eng.bw.isOpen = true) (hn : nextAnswerOf s = .normal) :
    pSnkClose s = .ok 0#32 (sinkClosed (modEngine clearWriter s)) := by
  have hclose := run_closeSink 0#32 (modEngine clearWriter s)
  rw [show nextAnswerOf (modEngine clearWriter s) = .normal from hn] at hclose
  rw [pSnkClose, bind_of_ok (run_getEng s), if_pos ho, bind_of_ok (run_modEng _ s)]
  exact hclose

theorem run_closingPass (hio : IoOk s) (hr : s.eng.br.isOpen = true) (hw : s.eng.bw.isOpen = true) :
    closingPass s = .ok 0#32 (sourceClosed (sinkClosed (modEngine clearWriter s))) := by
  have hio' : IoOk (sinkClosed (modEngine clearWriter s)) := ioOk_of_answers hio 1 rfl
  exact (bind_of_ok (pSnkClose_of_normal hw (ioOk_next hio)) _).trans (pSrcClose_of_normal hr (ioOk_next hio'))

/-! ### DECOMPRESS -/

/-- What DECOMPRESS leaves of the state it started in, after the header `ft`, `total` and the codes of `input`, with
`rest` not read. -/
structure Decompressed (ft : Nat → U32) (total : U32) (input : List Byte) (rest : List Bool) (s t : State) : Prop where
  ahead : Ahead 0 rest t
  onDemand : TakenOnDemand t
  counts : ∀ x, x < 256 → ftGet t.eng x = ft x
  book : t.eng.book = { s.eng.book with done := false }
  bw : t.eng.bw = { buf := 0#8, cnt := 0#3, isOpen := false }
  srcClosed : t.eng.br.isOpen = false
  dec : t.eng.dec.rem = 0#32
  stat : t.eng.stat = s.eng.stat
  host : t.host = s.host
  src : t.env.src = s.env.src
  snk : t.env.snk = input
  snkDone : t.env.snkDone = true
  total : t.eng.scan.total = total

/-- DECOMPRESS of a good header and the codes of an input, the codes paths of the tree of any table with the header's
counts. -/
theorem run_pDecompress (hio : IoOk s) (hr : s.eng.br.isOpen = false) (hw : s.eng.bw.isOpen = false)
    (hsrc : s.env.src = headerBytes ft total ++ payload)
    (hsum : ((List.range 256).map fun x => (ft x).toNat).sum = total.toNat) (hlen : total.toNat = input.length)
    (hcodes : ∀ e, (∀ x, x < 256 → ftGet e x = ft x) → ∀ y ∈ input,
      (treeBuilt e).tree.rootValid = true ∧ IsPath (treeBuilt e) y.toNat (code y.toNat))
    (hbits : streamBits payload = payloadBits code input ++ rest) :
    ∃ t, pDecompress s = .ok total t ∧ Decompressed ft total input rest s t := by
  obtain ⟨v, t, hload, ht⟩ := run_loadingPass hio hr hw hsrc hsum
  obtain ⟨e, hcounts, htree⟩ := ht.tree
  have hphase : t.eng.tree.phase = .done := htree ▸ (treeBuilt_flags e).1
  have hahead := ht.ahead.of_open ht.srcOpen ((payloadBits code input).length + 0)
  rw [hbits] at hahead
  have hroot : input ≠ [] → t.eng.tree.rootValid = true := fun hne => by
    rw [htree]
    exact (hcodes e hcounts _ (List.head_mem hne)).1
  have hpath : ∀ y ∈ input, IsPath t.eng y.toNat (code y.toNat) := fun y hy =>
    (isPath_congr htree _ _).mpr (hcodes e hcounts y hy).2
  have howed : t.eng.dec.rem.toNat = input.length := ht.dec ▸ hlen
  have hopen : t.eng.bw.isOpen = true := congrArg BitWriter.isOpen ht.bw
  obtain ⟨u, hloop, hon, hu⟩ := decodeLoop_emitted hphase howed hroot hopen hpath hahead
  have hclose := run_closingPass hu.answers (hon.isOpen.trans ht.srcOpen)
    ((congrArg BitWriter.isOpen hon.bw).trans hopen)
  have htotal : u.eng.scan.total = total := by
    rw [hon.eng]
    exact ht.total
  refine ⟨sourceClosed (sinkClosed (modEngine clearWriter u)), ?_, ?_⟩
  · rw [pDecompress_of_closed hr hw, bind_of_ok hload, bind_of_ok (pDecRun_of_ok hphase hloop), bind_of_ok hclose,
      bind_of_ok (run_getEng _), run_pure]
    exact congrArg (EStateM.Result.ok · _) htotal
  · have hsnk : u.env.snk = t.env.snk ++ input := hon.snk
    have hdec := congrArg Decoder.rem (hon.dec.trans (emitted_dec howed))
    refine ⟨⟨ioOk_of_answers hu.answers 2 ?_, hu.reader, .inr (Nat.zero_le _), hu.left⟩, ?_, fun x hx => ?_, ?_, rfl,
      rfl, hdec, hon.stat.trans ht.stat, hon.host.trans ht.host, hon.src.trans ht.src, ?_, rfl, htotal⟩
    · exact List.drop_drop
    · exact hon.onDemand ht.onDemand
    · exact (congrArg (ftGet · x) hon.eng).trans (ht.counts x hx)
    · exact (congrArg Engine.book hon.eng).trans ht.book
    · exact hsnk.trans (by rw [ht.snk, List.nil_append])

/-- Settles O49: equal counts give equal trees, so the codes are paths of the tree DECOMPRESS builds. -/
theorem decompressDecodesStream : Obligations.DecompressDecodesStream := by
  intro s b u total input payload code rest hb hexec hsum hlen hpath hroot hbits hs hio hr hw hsrc
  have hcodes : ∀ e, (∀ x, x < 256 → ftGet e x = ftGet b.eng x) → ∀ y ∈ input,
      (treeBuilt e).tree.rootValid = true ∧ IsPath (treeBuilt e) y.toNat (code y.toNat) := fun e he y hy =>
    (isPath_treeBuilt_congr he _ _).mpr
      ((isPath_htBuild hb hexec _ _).mp ⟨hroot (List.ne_nil_of_mem hy), hpath y hy⟩)
  obtain ⟨t, hrun, ht⟩ := run_pDecompress hio hr hw hsrc hsum hlen hcodes hbits
  refine ⟨_, (exec_eq rfl s).trans (execute_of_ok hs hrun), ?_, ?_, ht.snk, ht.snkDone, ht.src, ht.dec, ht.total,
    ht.counts, ht.book, ht.bw, ht.srcClosed⟩
  · exact congrArg (fun h : HostPort => { h with rsp := some .ok }) ht.host
  · exact congrArg (fun f : Status => { f with result := total }) ht.stat

/-! ### One repeated symbol (`43_codebook.md` R183) -/

/-- The lone symbol with a count is the root. -/
theorem isPath_oneSymbol {e : Engine} {x : Byte} {w : U32} (hw : w ≠ 0#32)
    (h : ∀ y, y < 256 → ftGet e y = if y = x.toNat then w else 0#32) :
    (treeBuilt e).tree.rootValid = true ∧ IsPath (treeBuilt e) x.toNat [] := by
  have hcounted : ∀ y, y < 256 → (ftGet e y ≠ 0#32 ↔ y = x.toNat) := fun y hy => by
    rw [h y hy]
    split <;> simp_all
  have hfilter : (List.range 256).filter (fun y => ftGet e y != 0#32) = (List.range 256).filter (· == x.toNat) :=
    List.filter_congr fun y hy => Bool.eq_iff_iff.mpr (by
      rw [bne_iff_ne, beq_iff_eq]
      exact hcounted y (List.mem_range.mp hy))
  have hone : leafCount e = 1 := by
    rw [leafCount, hfilter, ← List.countP_eq_length_filter]
    exact List.count_eq_one_of_mem List.nodup_range (List.mem_range.mpr x.isLt)
  obtain ⟨y, hy, hcount, hroot⟩ := root_of_lone_leaf hone
  refine ⟨(treeBuilt_flags e).2.trans (decide_eq_true hone.ge), ?_⟩
  rw [IsPath, follow_nil, hroot, (hcounted y hy).mp hcount]

/-- Where whole bytes are left to read, the source stands right before them. -/
theorem srcPos_of_onDemand {k : Nat} {after : List Byte} (h : Ahead m (streamBits after) t) (hd : TakenOnDemand t)
    (hsrc : t.env.src.length = k + after.length) : t.env.srcPos = k := by
  obtain ⟨hle, -, hin⟩ := h.reader
  have hlen := congrArg List.length h.left
  rw [streamBits_length] at hlen
  cases he : t.eng.br.eos with
  | true =>
    rw [unread, if_pos he, List.length_nil] at hlen
    have hend := hd.2 he
    omega
  | false =>
    have hne : t.eng.br.pos.toNat ≠ 0 := fun h0 => hd.1 (BitVec.eq_of_toNat_eq h0)
    rw [unread_length he] at hlen
    omega

/-- Settles O50: the root is a leaf, whose code is empty, so no bit of what follows the header is read. -/
theorem decompressOneSymbolStream : Obligations.DecompressOneSymbolStream := by
  intro s x n after hs hio hr hw hn hsrc
  have htoNat : (BitVec.ofNat 32 n).toNat = n := (BitVec.toNat_ofNat n 32).trans (Nat.mod_eq_of_lt hn)
  have hsum : ((List.range 256).map fun y => (if y = x.toNat then BitVec.ofNat 32 n else 0#32).toNat).sum
      = (BitVec.ofNat 32 n).toNat := by
    simp only [sum_map_range, apply_ite BitVec.toNat]
    simp [Finset.sum_ite_eq', x.isLt]
  have hcodes : ∀ e, (∀ y, y < 256 → ftGet e y = if y = x.toNat then BitVec.ofNat 32 n else 0#32) →
      ∀ y ∈ List.replicate n x, (treeBuilt e).tree.rootValid = true ∧ IsPath (treeBuilt e) y.toNat [] := by
    intro e he y hy
    obtain ⟨hn0, rfl⟩ := List.mem_replicate.mp hy
    exact isPath_oneSymbol (fun h0 => hn0 (htoNat.symm.trans (congrArg BitVec.toNat h0))) he
  have hpayload : payloadBits (fun _ => []) (List.replicate n x) = [] := by simp [payloadBits]
  obtain ⟨t, hrun, ht⟩ := run_pDecompress (rest := streamBits after) hio hr hw hsrc hsum
    (htoNat.trans List.length_replicate.symm) (code := fun _ => []) hcodes (by rw [hpayload, List.nil_append])
  have hpos : t.env.srcPos = 1028 := srcPos_of_onDemand ht.ahead ht.onDemand (by
    rw [ht.src, hsrc, List.length_append, headerBytes_length])
  exact ⟨_, (exec_eq rfl s).trans (execute_of_ok hs hrun), rfl, rfl, ht.snk, ht.snkDone, hpos, ht.srcClosed,
    congrArg BitWriter.isOpen ht.bw, ht.dec⟩

/-! ### What COMPRESS wrote (`45_decompress.md` R228) -/

/-- The counts of an input add up to its length. -/
theorem sum_countOf (h : input.length < 2 ^ 32) :
    ((List.range 256).map fun x => (countOf input x).toNat).sum = input.length := by
  have hcounts : ∀ x, x < 256 → ftGet (countAll input Engine.reset) x = countOf input x := fun x _ =>
    (ftGet_countAll input Engine.reset x).trans (BitVec.zero_add _)
  have hsum := ftSum_countAll (bytes := input) (e := Engine.reset) ftSum_reset ((Nat.zero_add _).trans_lt h)
  rw [countAll_total, ftSum_of_counts hcounts] at hsum
  rw [hsum]
  exact (congrArg BitVec.toNat (BitVec.zero_add _)).trans ((BitVec.toNat_ofNat _ 32).trans (Nat.mod_eq_of_lt h))

/-- The bits of a padded bit sequence are that sequence and the padding. -/
theorem streamBits_paddedBytes (bits : List Bool) : ∃ pad, streamBits (paddedBytes bits) = bits ++ pad := by
  have hnone : restBits (bits ++ List.replicate ((8 - bits.length % 8) % 8) false) = [] := by
    rw [← List.length_eq_zero_iff, restBits_length, List.length_append, List.length_replicate]
    omega
  have hwhole := streamBits_wholeBytes (bits ++ List.replicate ((8 - bits.length % 8) % 8) false)
  rw [hnone, List.append_nil] at hwhole
  exact ⟨_, hwhole⟩

/-- Settles O51: COMPRESS wrote the header of the input's counts and the input's codes, paths of the tree HT_BUILD
makes of those counts, which is what O49 asks of a stream. -/
theorem decompressOfCompress : Obligations.DecompressOfCompress := by
  intro s t s' hs hio hr hw hlen hexec hs' hio' hr' hw' hsrc
  obtain ⟨t0, hexec0, hhost, hstat, hsnk, -, -, -, hcounts, -, hcoded, hpaths, -, -, -, -, -⟩ :=
    compressWritesTheStream s hs hio hr hw hlen
  obtain rfl : t0 = t := Host.Outcome.next.inj (hexec0.symm.trans hexec)
  have hready : Ready t0 := (congrArg Status.fault hstat).trans hs
  have hbuild := exec_htBuild hready
  generalize answeredOk _ (modEngine treeBuilt t0) = u at hbuild
  have htotal : (BitVec.ofNat 32 s.env.src.length).toNat = s.env.src.length :=
    (BitVec.toNat_ofNat _ 32).trans (Nat.mod_eq_of_lt hlen)
  have hsum : ((List.range 256).map fun x => (ftGet t0.eng x).toNat).sum
      = (BitVec.ofNat 32 s.env.src.length).toNat := by
    rw [htotal, ← sum_countOf hlen]
    exact congrArg List.sum (List.map_congr_left fun x hx => congrArg BitVec.toNat (hcounts x (List.mem_range.mp hx)))
  have hcode : ∀ y ∈ s.env.src, u.eng.tree.rootValid = true ∧ IsPath u.eng y.toNat (cbCode t0.eng y.toNat) := by
    intro y hy
    obtain ⟨c, hc⟩ := Option.isSome_iff_exists.mp ((hcoded y.toNat y.isLt).mpr (List.mem_map_of_mem hy))
    rw [cbCode, hc]
    exact (hpaths t0 u hready hcounts hbuild y.toNat c y.isLt).mp hc
  obtain ⟨pad, hpad⟩ := streamBits_paddedBytes (payloadBits (cbCode t0.eng) s.env.src)
  obtain ⟨t', hexec', hhost', hstat', hsnk', -⟩ := decompressDecodesStream s' t0 u _ s.env.src _ (cbCode t0.eng) pad
    hready hbuild hsum htotal (fun y hy => (hcode y hy).2) (fun hne => (hcode _ (List.head_mem hne)).1) hpad hs' hio'
    hr' hw' (by rw [hsrc, hsnk, headerBytes_congr hcounts])
  exact ⟨t', hexec', by rw [hhost], by rw [hhost'], hsnk', by rw [hstat']⟩

end Sys2Proof.Machine
end

-- ==== Proofs: the control and stream commands ====
section
namespace Sys2Proof.Machine

variable {s t : State} {k : FaultKind}

/-! ### `Exec` of a command's procedure (`30_encoding.md` R93, R94) -/

theorem exec_of_ok {i : Instr} {p : Proc U32} {v : U32} (hi : procOf i = some p) (hs : Ready s)
    (hp : p s = .ok v t) : exec i s = .next (answeredOk v t) :=
  (exec_eq hi s).trans (execute_of_ok hs hp)

theorem exec_of_raise {i : Instr} {p : Proc U32} (hi : procOf i = some p) (hs : Ready s)
    (hp : p s = .error (.raise k) t) (ht : ReleaseAnswered t) : exec i s = .next (faultState k t) :=
  (exec_eq hi s).trans (execute_of_raise hs hp ht)

/-! ### NOP and RESET (`46_control.md` R241, R242) -/

/-- Settles O13: NOP has no procedure, so `Exec` gives the response alone. -/
theorem nopKeepsEverything : Obligations.NopKeepsEverything := by
  intro s hs
  rw [exec_nop, if_neg (ne_true_of_eq_false hs)]
  rfl

/-- Settles O14: the answered release leaves the released environment, and the block is reset after it. -/
theorem resetCommandResets : Obligations.ResetCommandResets := fun _ hr => exec_reset hr

/-! ### A stream closed (R244, R246) -/

theorem pSrcClose_of_closed (hc : s.eng.br.isOpen = false) : pSrcClose s = .ok 0#32 s := by
  rw [run_pSrcClose, if_neg (ne_true_of_eq_false hc)]

/-- Either answer to the call closes the source (`20_memory.md` R63). -/
theorem pSrcClose_of_answered (ho : s.eng.br.isOpen = true) (ha : NextAnswered s) :
    pSrcClose s = .ok 0#32 (sourceClosed s) := by
  rcases ha with hn | he
  · exact pSrcClose_of_normal ho hn
  · rw [run_pSrcClose, if_pos ho, he]
    rfl

theorem pSnkClose_of_closed (hc : s.eng.bw.isOpen = false) : pSnkClose s = .ok 0#32 s := by
  rw [pSnkClose, bind_of_ok (run_getEng s), if_neg (ne_true_of_eq_false hc)]
  rfl

/-- With an `IOERR` answer the sink is closed and released, and then the fault is raised. -/
theorem pSnkClose_of_ioErr (ho : s.eng.bw.isOpen = true) (he : nextAnswerOf s = .ioErr) :
    pSnkClose s = .error (.raise .ioUnavailable) (sinkClosed (modEngine clearWriter s)) := by
  have hclose := run_closeSink 0#32 (modEngine clearWriter s)
  rw [show nextAnswerOf (modEngine clearWriter s) = .ioErr from he] at hclose
  rw [pSnkClose, bind_of_ok (run_getEng s), if_pos ho, bind_of_ok (run_modEng _ s)]
  exact hclose

/-- Settles O15: each case is that of the procedure, which returns 0. -/
theorem sourceOpensAndCloses : Obligations.SourceOpensAndCloses := by
  intro s hs
  refine ⟨fun hc hn => ?_, fun hc => ?_, fun ho ha => ?_⟩
  · exact exec_of_ok rfl hs (pSrcOpen_of_normal hc hn)
  · exact exec_of_ok rfl hs (pSrcClose_of_closed hc)
  · exact exec_of_ok rfl hs (pSrcClose_of_answered ho ha)

/-- Settles O16: the procedure returns 0 with the sink opened. -/
theorem snkOpenEmptiesSink : Obligations.SnkOpenEmptiesSink := fun _ hs hc hn =>
  exec_of_ok rfl hs (pSnkOpen_of_normal hc hn)

/-- Settles O17: the writer is emptied and the sink closed before the answer is looked at. -/
theorem snkCloseDropsWaitingBits : Obligations.SnkCloseDropsWaitingBits := by
  intro s hs closed
  refine ⟨fun hc => ?_, fun ho hn => ?_, fun ho he hr => ?_⟩
  · exact exec_of_ok rfl hs (pSnkClose_of_closed hc)
  · exact exec_of_ok rfl hs (pSnkClose_of_normal ho hn)
  · exact exec_of_raise rfl hs (pSnkClose_of_ioErr ho he) hr

/-! ### An open refused (R243, R245, `44_compress.md` R207, `45_decompress.md` R227) -/

/-- A procedure that starts with a test of the registers raises there, with nothing done, when the test fails. -/
theorem run_guarded_of_false {α : Type} {c : Engine → Bool} {q : Engine → Proc α} (h : c s.eng = false) :
    (do let e ← getEng; require (c e) k; q e : Proc α) s = .error (.raise k) s := by
  have hreq : require (c s.eng) k s = .error (.raise k) s := by simp [h]
  rw [bind_of_ok (run_getEng s), bind_of_error hreq]

theorem pSrcOpen_of_open (ho : s.eng.br.isOpen = true) : pSrcOpen s = .error (.raise .badSequence) s :=
  run_guarded_of_false (c := fun e => !e.br.isOpen) (by simp [ho])

theorem pSnkOpen_of_open (ho : s.eng.bw.isOpen = true) : pSnkOpen s = .error (.raise .badSequence) s :=
  run_guarded_of_false (c := fun e => !e.bw.isOpen) (by simp [ho])

/-- The test COMPRESS and DECOMPRESS start with fails where either stream is open. -/
theorem not_bothClosed (ho : s.eng.br.isOpen = true ∨ s.eng.bw.isOpen = true) :
    (!s.eng.br.isOpen && !s.eng.bw.isOpen) = false := by
  rcases ho with h | h <;> simp [h]

theorem pCompress_of_open (ho : s.eng.br.isOpen = true ∨ s.eng.bw.isOpen = true) :
    pCompress s = .error (.raise .badSequence) s :=
  run_guarded_of_false (c := fun e => !e.br.isOpen && !e.bw.isOpen) (not_bothClosed ho)

theorem pDecompress_of_open (ho : s.eng.br.isOpen = true ∨ s.eng.bw.isOpen = true) :
    pDecompress s = .error (.raise .badSequence) s :=
  run_guarded_of_false (c := fun e => !e.br.isOpen && !e.bw.isOpen) (not_bothClosed ho)

theorem pSrcOpen_of_ioErr (hc : s.eng.br.isOpen = false) (he : nextAnswerOf s = .ioErr) :
    pSrcOpen s = .error (.raise .ioUnavailable) (asked s) := by
  have hreq : require (!s.eng.br.isOpen) .badSequence s = .ok () s := by simp [hc]
  rw [pSrcOpen, bind_of_ok (run_getEng s), bind_of_ok hreq, run_bind, call, run_srcOpenCall, he]
  rfl

theorem pSnkOpen_of_ioErr (hc : s.eng.bw.isOpen = false) (he : nextAnswerOf s = .ioErr) :
    pSnkOpen s = .error (.raise .ioUnavailable) (asked s) := by
  have hreq : require (!s.eng.bw.isOpen) .badSequence s = .ok () s := by simp [hc]
  rw [pSnkOpen, bind_of_ok (run_getEng s), bind_of_ok hreq, run_bind, call, run_snkOpenCall, he]
  rfl

/-- Settles O18: an open stream is met at the first test, before any call; an `IOERR` answer after the one call. -/
theorem refusedOpensFault : Obligations.RefusedOpensFault := by
  intro s hs
  refine ⟨fun hr => ⟨fun ho => ?_, fun ho => ?_, fun ho => ⟨?_, ?_⟩⟩, fun he hr => ⟨fun hc => ?_, fun hc => ?_⟩⟩
  · exact exec_of_raise rfl hs (pSrcOpen_of_open ho) hr
  · exact exec_of_raise rfl hs (pSnkOpen_of_open ho) hr
  · exact exec_of_raise rfl hs (pCompress_of_open ho) hr
  · exact exec_of_raise rfl hs (pDecompress_of_open ho) hr
  · exact exec_of_raise rfl hs (pSrcOpen_of_ioErr hc he) hr
  · exact exec_of_raise rfl hs (pSnkOpen_of_ioErr hc he) hr

end Sys2Proof.Machine
end

-- ==== Proofs: the moves between commands and the fault state ====
section
namespace Sys2Proof.Machine

variable {s t : State} {ms : List HostMove}

/-! ### The host's other moves (`20_memory.md` R80, `70_reset_and_hazards.md` R290, R294) -/

/-- A window read changes nothing but the word read. -/
theorem step_regRead {a : BitVec 12} (hm : s.host.moves = .regRead a :: ms) :
    step s = .next { s with host := { s.host with moves := ms, rdata := some (regRead s.eng a) } } := by
  simp only [step, hm]
  rfl

theorem step_hwReset (hm : s.host.moves = .hwReset :: ms) : step s = .next (hwReset (withMoves ms s)) := by
  simp only [step, hm]
  rfl

theorem step_bindSource {bytes : List Byte} (hm : s.host.moves = .bindSource bytes :: ms)
    (hc : s.eng.br.isOpen = false) :
    step s = .next
      { s with env := { s.env with src := bytes, srcPos := 0 }, host := { s.host with moves := ms } } := by
  simp only [step, hm]
  exact if_neg (ne_true_of_eq_false (b := (withMoves ms s).eng.br.isOpen) hc)

theorem step_bindSink (hm : s.host.moves = .bindSink :: ms) (hc : s.eng.bw.isOpen = false) :
    step s = .next
      { s with env := { s.env with snk := [], snkDone := false }, host := { s.host with moves := ms } } := by
  simp only [step, hm]
  exact if_neg (ne_true_of_eq_false (b := (withMoves ms s).eng.bw.isOpen) hc)

/-- Settles O6, move by move. -/
theorem hostMovesBetweenCommands : Obligations.HostMovesBetweenCommands := by
  intro s ms a bytes
  refine ⟨fun hm => ?_, step_regRead, step_hwReset, step_bindSource, step_bindSink⟩
  simp only [step, hm]

/-! ### The fault state (`60_exceptions.md` R263, R266) -/

/-- The word of RESET, and no other, decodes to it (`30_encoding.md` R92). -/
theorem decode_eq_reset_iff {w : Command} : decode w = .ok .reset ↔ w = 0x0100#16 := by
  rw [decode_eq_ok_iff, and_iff_left (show Instr.reset.wellFormed = true from rfl)]
  exact eq_comm

/-- In the fault state a command but RESET is refused. -/
theorem exec_refused {i : Instr} (hi : i ≠ .reset) (hf : s.eng.stat.fault = true) :
    exec i s = .next (respond .refused s) := by
  cases hp : procOf i with
  | some p => rw [exec_eq hp, execute_refused _ hf]
  | none =>
    cases i <;> cases hp
    · rw [exec_nop, if_pos hf]
    · exact absurd rfl hi

/-- In the fault state every word but that of RESET is refused, legal or not. -/
theorem runCommand_refused {w : Command} (hw : w ≠ 0x0100#16) (hf : s.eng.stat.fault = true) :
    runCommand w s = .next (respond .refused s) := by
  unfold runCommand
  split
  · rename_i i hi
    exact exec_refused (fun hreset => hw (decode_eq_reset_iff.mp (hreset ▸ hi))) hf
  · exact execute_refused _ hf

theorem runCommand_reset (s : State) : runCommand 0x0100#16 s = exec .reset s := by
  simp only [runCommand, decode_eq_reset_iff.mpr rfl]

/-- Settles O11: no word but that of RESET reaches a procedure. -/
theorem faultStateRefusesOtherWords : Obligations.FaultStateRefusesOtherWords := fun _ hf =>
  ⟨fun _ hw => runCommand_refused hw hf, fun _ _ => step_regRead⟩

/-- A step from the fault state either resets the block, on the RESET word or on hardware reset, or leaves it in the
fault state. -/
theorem step_of_fault (hf : s.eng.stat.fault = true) (hstep : step s = .next t) :
    ((s.host.moves.head? = some (.command 0x0100#16) ∨ s.host.moves.head? = some .hwReset) ∧
      t.eng = Engine.reset) ∨
    (¬ (s.host.moves.head? = some (.command 0x0100#16) ∨ s.host.moves.head? = some .hwReset) ∧
      t.eng.stat.fault = true) := by
  rcases step_next hstep with ⟨hm, rfl⟩ | ⟨m, ms, hm, hmove⟩
  · exact .inr ⟨by simp [hm], hf⟩
  rw [hm, List.head?_cons]
  rcases hmove with ⟨w, rfl, hrun⟩ | ⟨rfl, rfl⟩ | ⟨a, rfl, rfl⟩ | ⟨b, rfl, -, rfl⟩ | ⟨rfl, -, rfl⟩
  · by_cases hw : w = 0x0100#16
    · rw [hw, runCommand_reset] at hrun
      exact .inl ⟨.inl (by rw [hw]), exec_reset_eng hrun⟩
    · rw [runCommand_refused (s := withMoves ms s) hw hf] at hrun
      cases hrun
      exact .inr ⟨by simp [hw], hf⟩
  · exact .inl ⟨.inr rfl, rfl⟩
  · exact .inr ⟨by simp, hf⟩
  · exact .inr ⟨by simp, hf⟩
  · exact .inr ⟨by simp, hf⟩

/-- Settles O12: the two cases of a step from the fault state. -/
theorem onlyResetLeavesFaultState : Obligations.OnlyResetLeavesFaultState := by
  intro s t hf hstep resets
  rcases step_of_fault hf hstep with ⟨hr, ht⟩ | ⟨hr, ht⟩
  · exact ⟨fun _ => hr, fun _ => by rw [ht]; exact ⟨rfl, rfl, rfl, rfl⟩⟩
  · exact ⟨fun h => absurd (h.symm.trans ht) Bool.false_ne_true, fun h => absurd h hr⟩

/-! ### Commands out of order (`70_reset_and_hazards.md` R296, `60_exceptions.md` R260) -/

theorem pHtStep_not_merging (h : s.eng.tree.phase ≠ .merging) : pHtStep s = .error (.raise .badSequence) s :=
  run_guarded_of_false (c := fun e => e.tree.phase == .merging) (beq_false_of_ne h)

theorem pCbBuild_not_done (h : s.eng.tree.phase ≠ .done) : pCbBuild s = .error (.raise .badSequence) s :=
  run_guarded_of_false (c := fun e => e.tree.phase == .done) (beq_false_of_ne h)

theorem pDecRun_not_done (h : s.eng.tree.phase ≠ .done) : pDecRun s = .error (.raise .badSequence) s :=
  run_guarded_of_false (c := fun e => e.tree.phase == .done) (beq_false_of_ne h)

/-- DEC_SYM needs a finished build, a root and a symbol owed (`45_decompress.md` R223). -/
theorem pDecSym_unready (h : s.eng.tree.phase ≠ .done ∨ s.eng.tree.rootValid = false ∨ s.eng.dec.rem = 0#32) :
    pDecSym s = .error (.raise .badSequence) s := by
  refine run_guarded_of_false (c := fun e => e.tree.phase == .done && e.tree.rootValid && e.dec.rem != 0#32) ?_
  rcases h with h | h | h <;> simp [h]

/-- ENC_SYM needs a code for its symbol in a finished code book (`44_compress.md` R201). -/
theorem pEncSym_uncoded {a : Byte} (h : s.eng.book.done = false ∨ cbHas s.eng a.toNat = false) :
    pEncSym a s = .error (.raise .badSequence) s := by
  refine run_guarded_of_false (c := fun e => e.book.done && cbHas e (symIndex a)) ?_
  rcases h with h | h <;> simp [symIndex, h]

theorem pEncRun_no_book (h : s.eng.book.done = false) : pEncRun s = .error (.raise .badSequence) s :=
  run_guarded_of_false (c := fun e => e.book.done) h

/-- Settles O27: each command's first test fails. -/
theorem outOfOrderCommandsFault : Obligations.OutOfOrderCommandsFault := by
  intro s a hs hr bad
  refine ⟨fun h => ?_, fun h => ⟨?_, ?_, ?_⟩, fun h => ?_, fun h => ⟨?_, ?_⟩, fun h => ?_⟩
  · exact exec_of_raise rfl hs (pHtStep_not_merging h) hr
  · exact exec_of_raise rfl hs (pCbBuild_not_done h) hr
  · exact exec_of_raise rfl hs (pDecSym_unready (.inl h)) hr
  · exact exec_of_raise rfl hs (pDecRun_not_done h) hr
  · exact exec_of_raise rfl hs (pDecSym_unready (.inr h)) hr
  · exact exec_of_raise rfl hs (pEncSym_uncoded (.inl h)) hr
  · exact exec_of_raise rfl hs (pEncRun_no_book h) hr
  · exact exec_of_raise rfl hs (pEncSym_uncoded (.inr h)) hr

/-! ### Commands abandoned by hardware reset (`70_reset_and_hazards.md` R290) -/

/-- A procedure's command that gets no response was cut by hardware reset. -/
theorem procNext_no_response {p : Proc U32} (h : ProcNext p s t) (hrsp : t.host.rsp = none) :
    t.eng = Engine.reset := by
  rcases h with ⟨-, rfl⟩ | ⟨-, v, u, -, rfl⟩ | ⟨-, k, u, -, -, rfl⟩ | ⟨-, u, -, rfl⟩ | ⟨-, k, u, v, -, -, rfl⟩
  · cases hrsp
  · cases hrsp
  · cases hrsp
  · rfl
  · rfl

theorem exec_no_response {i : Instr} (h : exec i s = .next t) (hrsp : t.host.rsp = none) :
    t.eng = Engine.reset := by
  rcases exec_next h with ⟨-, rfl⟩ | ⟨rfl, -⟩ | ⟨p, -, hp⟩
  · cases hrsp
  · exact exec_reset_eng h
  · exact procNext_no_response hp hrsp

/-- No command word changes the source's content (`20_memory.md` R61). -/
theorem runCommand_src {w : Command} (h : runCommand w s = .next t) : t.env.src = s.env.src := by
  rcases runCommand_next h with ⟨i, -, hi⟩ | ⟨-, hillegal⟩
  · exact (streamsChangeOnlyAsStated i s t hi).1
  · exact procNext_streams (C := fun src _ => src = s.env.src) (Leads.raise (fun _ h => h) _) rfl hillegal

/-- Settles O54: the response is left out only where hardware reset cuts the command. -/
theorem abandonedCommandLeavesResetState : Obligations.AbandonedCommandLeavesResetState := by
  intro w s t h hrsp
  refine ⟨?_, runCommand_src h⟩
  rcases runCommand_next h with ⟨i, -, hi⟩ | ⟨-, hillegal⟩
  · exact exec_no_response hi hrsp
  · exact procNext_no_response hillegal hrsp

end Sys2Proof.Machine
end

-- ==== Proofs: how a command's procedure can stop ====
section
namespace Sys2Proof.Machine

variable {α β : Type} {s t u : State} {e : Stop} {K : FaultKind → Bool}

/-! ### The sink and the answers from one state to a later one -/

/-- The sink is finished, or the release of an open sink will finish it (`20_memory.md` R89). -/
def sinkDue (s : State) : Bool := s.env.snkDone || s.eng.bw.isOpen

/-- The sink is due to be finished as before, untouched where it is not, and answers were only taken off the list. -/
structure SinkKept (s t : State) : Prop where
  due : sinkDue t = sinkDue s
  snk : sinkDue s = false → t.env.snk = s.env.snk
  answers : t.env.answers <:+ s.env.answers

/-- Besides, the sink is open as before and no byte was given back to the source. -/
structure Calm (s t : State) : Prop extends SinkKept s t where
  isOpen : t.eng.bw.isOpen = s.eng.bw.isOpen
  left : bytesLeft t ≤ bytesLeft s

theorem SinkKept.refl (s : State) : SinkKept s s := ⟨rfl, fun _ => rfl, List.suffix_refl _⟩

theorem SinkKept.trans (h1 : SinkKept s t) (h2 : SinkKept t u) : SinkKept s u :=
  ⟨h2.due.trans h1.due, fun h => (h2.snk (h1.due.trans h)).trans (h1.snk h), h2.answers.trans h1.answers⟩

theorem Calm.refl (s : State) : Calm s s := ⟨.refl s, rfl, Nat.le_refl _⟩

theorem Calm.trans (h1 : Calm s t) (h2 : Calm t u) : Calm s u :=
  ⟨h1.toSinkKept.trans h2.toSinkKept, h2.isOpen.trans h1.isOpen, h2.left.trans h1.left⟩

/-- Registers but the sink's flag were written. -/
theorem Calm.of_env_eq (hopen : t.eng.bw.isOpen = s.eng.bw.isOpen) (henv : t.env = s.env) : Calm s t :=
  ⟨⟨by rw [sinkDue, sinkDue, hopen, henv], fun _ => by rw [henv], by rw [henv]⟩, hopen,
    by rw [bytesLeft, bytesLeft, henv]⟩

/-- One call was made, which sent a byte to an open sink at most. -/
theorem Calm.of_call (hopen : t.eng.bw.isOpen = s.eng.bw.isOpen) (hdone : t.env.snkDone = s.env.snkDone)
    (hsnk : s.eng.bw.isOpen = false → t.env.snk = s.env.snk) (hans : t.env.answers = s.env.answers.drop 1)
    (hleft : bytesLeft t ≤ bytesLeft s) : Calm s t := by
  refine ⟨⟨by rw [sinkDue, sinkDue, hopen, hdone], fun hdue => hsnk ?_, hans ▸ List.drop_suffix 1 _⟩, hopen, hleft⟩
  exact (Bool.or_eq_false_iff.mp hdue).2

theorem calm_asked (s : State) : Calm s (asked s) := .of_call rfl rfl (fun _ => rfl) rfl (Nat.le_refl _)

theorem calm_modEngine {f : Engine → Engine} (hf : (f s.eng).bw = s.eng.bw) : Calm s (modEngine f s) :=
  .of_env_eq (congrArg BitWriter.isOpen hf) rfl

/-! ### The ends of a procedure -/

/-- A fault of `K` is raised, or a call met an answer that cuts a command; no stop of the model is met. -/
def StopsWith (K : FaultKind → Bool) (s : State) : Stop → Prop
  | .raise k => K k = true
  | .cut .hwReset => .hwReset ∈ s.env.answers
  | .cut (.fault .environmentSilent) => .silent ∈ s.env.answers
  | .cut (.fault .arenaNotATree) => False
  | .cut (.fault .loopBoundExceeded) => False

theorem StopsWith.of_answers (h : t.env.answers <:+ s.env.answers) (he : StopsWith K t e) : StopsWith K s e := by
  cases e with
  | raise k => exact he
  | cut c =>
    cases c with
    | hwReset => exact h.mem he
    | fault f =>
      cases f with
      | environmentSilent => exact h.mem he
      | arenaNotATree => exact he
      | loopBoundExceeded => exact he

/-- From `s` the procedure stopped in `t`, with the sink kept. -/
def Stopped (K : FaultKind → Bool) (s : State) (e : Stop) (t : State) : Prop := SinkKept s t ∧ StopsWith K s e

theorem Stopped.of_kept (h : SinkKept s t) (he : Stopped K t e u) : Stopped K s e u :=
  ⟨h.trans he.1, he.2.of_answers h.answers⟩

/-- The procedure has returned in a state with `P`, or stopped by `e` in a state with `Q e`. -/
def EndsBy (P : State → Prop) (Q : Stop → State → Prop) : EStateM.Result Stop State α → Prop
  | .ok _ t => P t
  | .error e t => Q e t

section Ends

variable {P P' : State → Prop} {Q Q' : Stop → State → Prop}

theorem EndsBy.mono {r : EStateM.Result Stop State α} (hP : ∀ t, P t → P' t) (hQ : ∀ e t, Q e t → Q' e t)
    (h : EndsBy P Q r) : EndsBy P' Q' r := by
  cases r with
  | ok a t => exact hP t h
  | error e t => exact hQ e t h

theorem EndsBy.bind {p : Proc α} {q : α → Proc β} (hp : EndsBy P Q (p s))
    (hq : ∀ a t, p s = .ok a t → P t → EndsBy P' Q (q a t)) : EndsBy P' Q ((p >>= q) s) := by
  rw [run_bind]
  cases hr : p s with
  | ok a t => exact hq a t hr (by rwa [hr] at hp)
  | error e t => rwa [hr] at hp

theorem EndsBy.of_error {r : EStateM.Result Stop State α} (h : EndsBy P Q r) (hr : r = .error e t) : Q e t := by
  rwa [hr] at h

end Ends

/-- The sink is kept, and open as before, where the procedure returns. -/
abbrev Sound (K : FaultKind → Bool) (s : State) (r : EStateM.Result Stop State α) : Prop :=
  EndsBy (Calm s) (Stopped K s) r

/-- The sink is kept where the procedure returns, though it may be closed. -/
abbrev Settles (K : FaultKind → Bool) (s : State) (r : EStateM.Result Stop State α) : Prop :=
  EndsBy (SinkKept s) (Stopped K s) r

theorem Sound.settles {r : EStateM.Result Stop State α} (h : Sound K s r) : Settles K s r :=
  h.mono (fun _ ht => ht.toSinkKept) fun _ _ he => he

theorem Sound.of_calm {r : EStateM.Result Stop State α} (hs : Calm s t) (h : Sound K t r) : Sound K s r :=
  h.mono (fun _ ht => hs.trans ht) fun _ _ he => he.of_kept hs.toSinkKept

theorem Settles.of_kept {r : EStateM.Result Stop State α} (hs : SinkKept s t) (h : Settles K t r) : Settles K s r :=
  h.mono (fun _ ht => hs.trans ht) fun _ _ he => he.of_kept hs

theorem Sound.bind {p : Proc α} {q : α → Proc β} (hp : Sound K s (p s))
    (hq : ∀ a t, p s = .ok a t → Calm s t → Sound K t (q a t)) : Sound K s ((p >>= q) s) :=
  EndsBy.bind hp fun a t hr ht => (hq a t hr ht).of_calm ht

theorem Settles.bind {p : Proc α} {q : α → Proc β} (hp : Settles K s (p s))
    (hq : ∀ a t, SinkKept s t → Settles K t (q a t)) : Settles K s ((p >>= q) s) :=
  EndsBy.bind hp fun a t _ ht => (hq a t ht).of_kept ht

theorem sound_done (a : α) (s : State) : Sound K s ((pure a : Proc α) s) := Calm.refl s

theorem stopped_raise {k : FaultKind} (hk : K k = true) (s : State) : Stopped K s (.raise k) s := ⟨.refl s, hk⟩

theorem sound_read {q : Engine → Proc β} (hq : Sound K s (q s.eng s)) : Sound K s ((getEng >>= q) s) := hq

theorem sound_require_bind {c : Bool} {k : FaultKind} {q : Unit → Proc β} (hk : K k = true)
    (hq : Sound K s (q () s)) : Sound K s ((require c k >>= q) s) := by
  cases c with
  | false => exact stopped_raise hk s
  | true => exact hq

theorem sound_modEng_bind {f : Engine → Engine} {q : Unit → Proc β} (hf : (f s.eng).bw = s.eng.bw)
    (hq : Sound K (modEngine f s) (q () (modEngine f s))) : Sound K s ((modEng f >>= q) s) :=
  hq.of_calm (calm_modEngine hf)

/-! ### The calls -/

/-- What stops a procedure at a call that is not answered normally. -/
def stopOf : Answer → Option Stop
  | .normal => none
  | .ioErr => some (.raise .ioUnavailable)
  | .silent => some (.cut (.fault .environmentSilent))
  | .hwReset => some (.cut .hwReset)

theorem mem_answers_of_next {a : Answer} (h : nextAnswerOf s = a) (ha : a ≠ .normal) : a ∈ s.env.answers := by
  unfold nextAnswerOf at h
  cases hl : s.env.answers with
  | nil => rw [hl] at h; exact absurd h.symm ha
  | cons b rest => rw [hl] at h; exact h ▸ List.mem_cons_self

theorem stopped_of_call (h : stopOf (nextAnswerOf s) = some e)
    (hio : nextAnswerOf s = .ioErr → K .ioUnavailable = true) : Stopped K s e (asked s) := by
  refine ⟨(calm_asked s).toSinkKept, ?_⟩
  cases ha : nextAnswerOf s <;> rw [ha] at h <;> cases h
  case ioErr => exact hio ha
  case silent => exact mem_answers_of_next ha (by decide)
  case hwReset => exact mem_answers_of_next ha (by decide)

/-! ### The reader and the source -/

theorem bytesLeft_taken (s : State) (hlt : s.env.srcPos < s.env.src.length) :
    s.env.src.length - (s.env.srcPos + 1) < bytesLeft s := by
  unfold bytesLeft
  omega

/-- The end of HDR_RD (`45_decompress.md` R217), for any sum the total is compared with. -/
theorem loadTotal_sound (hcorrupt : K .corruptHeader = true) (sum : Engine → Nat) (w : U32) (s : State) :
    Sound K s ((do
      modEng (setTotal w)
      let e ← getEng
      require (sum e == w.toNat) .corruptHeader
      modEng (setDecRem w)
      pure w : Proc U32) s) :=
  sound_modEng_bind rfl <| sound_read <| sound_require_bind hcorrupt <| sound_modEng_bind rfl <| sound_done w _

section Reading

variable (hio : K .ioUnavailable = true)
include hio

theorem srcByte_sound (s : State) : Sound K s (srcByte s) := by
  rw [run_srcByte]
  split
  · cases ha : nextAnswerOf s with
    | normal =>
      cases hb : s.env.src[s.env.srcPos]? with
      | none => exact calm_asked s
      | some b => exact Calm.of_call rfl rfl (fun _ => rfl) rfl (Nat.sub_le_sub_left (Nat.le_succ _) _)
    | _ => exact stopped_of_call (congrArg stopOf ha) fun _ => hio
  · exact stopped_raise hio s

theorem readBit_sound (s : State) : Sound K s (readBit s) := by
  rw [run_readBit]
  split
  · exact Calm.refl s
  · split
    · split
      · cases ha : nextAnswerOf s with
        | normal =>
          cases hb : s.env.src[s.env.srcPos]? with
          | none => exact Calm.of_call rfl rfl (fun _ => rfl) rfl (Nat.le_refl _)
          | some b => exact Calm.of_call rfl rfl (fun _ => rfl) rfl (Nat.sub_le_sub_left (Nat.le_succ _) _)
        | _ => exact stopped_of_call (congrArg stopOf ha) fun _ => hio
      · exact stopped_raise hio s
    · exact Calm.of_env_eq rfl rfl

theorem pBrBit_sound (s : State) : Sound K s (pBrBit s) :=
  (readBit_sound hio s).bind fun _ t _ _ => sound_done _ t

theorem readBitsInto_sound (n : Nat) (w : U32) (s : State) : Sound K s (readBitsInto n w s) := by
  induction n generalizing w s with
  | zero => exact sound_done _ s
  | succ n ih =>
    refine (readBit_sound hio s).bind fun r t _ _ => ?_
    cases r with
    | none => exact sound_done _ t
    | some b => exact ih _ t

theorem read32_sound (s : State) : Sound K s (read32 s) := readBitsInto_sound hio 32 0#32 s

variable (hcorrupt : K .corruptHeader = true)
include hcorrupt

theorem readCounts_sound (xs : List Nat) (s : State) : Sound K s (readCounts xs s) := by
  induction xs generalizing s with
  | nil => exact sound_done () s
  | cons x xs ih =>
    refine (read32_sound hio s).bind fun r t _ _ => ?_
    cases r with
    | none => exact stopped_raise hcorrupt t
    | some w => exact sound_modEng_bind rfl (ih _)

theorem pHdrRd_sound (s : State) : Sound K s (pHdrRd s) := by
  refine sound_modEng_bind rfl <| (readCounts_sound hio hcorrupt _ _).bind fun _ t _ _ => ?_
  refine (read32_sound hio t).bind fun r u _ _ => ?_
  cases r with
  | none => exact stopped_raise hcorrupt u
  | some w =>
    -- The sum stays a name: comparing it would have Lean add up the 256 counts.
    generalize ftSum = sum
    exact loadTotal_sound hcorrupt sum w u

end Reading

/-- SRC_CLOSE raises no fault (`46_control.md` R244). -/
theorem pSrcClose_sound (s : State) : Sound K s (pSrcClose s) := by
  rw [run_pSrcClose]
  split
  · cases ha : nextAnswerOf s with
    | normal => exact Calm.of_call rfl rfl (fun _ => rfl) rfl (Nat.le_refl _)
    | ioErr => exact Calm.of_call rfl rfl (fun _ => rfl) rfl (Nat.le_refl _)
    | _ => exact stopped_of_call (congrArg stopOf ha) (by rw [ha]; exact nofun)
  · exact Calm.refl s

/-! ### The tables -/

theorem pFtClr_sound (s : State) : Sound K s (pFtClr s) := sound_modEng_bind rfl (sound_done _ _)

theorem pFtInc_sound (hover : K .countOverflow = true) (a : Byte) (s : State) : Sound K s (pFtInc a s) :=
  sound_read <| sound_require_bind hover <| sound_modEng_bind rfl <| sound_done _ _

theorem pHtInit_sound (s : State) : Sound K s (pHtInit s) :=
  sound_modEng_bind (loadQueue_treeOnly s.eng).bw <| sound_read <| sound_done _ _

theorem pHtStep_sound (hbad : K .badSequence = true) (s : State) : Sound K s (pHtStep s) :=
  sound_read <| sound_require_bind hbad <| sound_modEng_bind (mergeTwo_treeOnly s.eng).bw <| sound_done _ _

theorem pHtBuild_sound (s : State) : Sound K s (pHtBuild s) := by
  rw [run_pHtBuild]
  exact calm_modEngine (treeBuilt_treeOnly s.eng).bw

/-- CB_BUILD stops the model besides, where the arena is no tree. -/
theorem pCbBuild_ends (hbad : K .badSequence = true) (s : State) :
    EndsBy (Calm s) (fun e t => Stopped K s e t ∨ e = .cut (.fault .arenaNotATree)) (pCbBuild s) := by
  by_cases hp : s.eng.tree.phase = .done
  · cases hb : buildBook s.eng with
    | some b =>
      rw [run_pCbBuild hp hb]
      exact calm_modEngine rfl
    | none =>
      rw [pCbBuild, bind_of_ok (run_getEng s), bind_of_ok (require_done hp), hb]
      exact .inr rfl
  · rw [pCbBuild_not_done hp]
    exact .inl (stopped_raise hbad s)

/-- Every byte taken leaves fewer. -/
theorem srcByte_bytesLeft {b : Byte} (h : srcByte s = .ok (some b) t) : bytesLeft t < bytesLeft s := by
  rw [run_srcByte] at h
  split at h
  · cases ha : nextAnswerOf s with
    | normal =>
      rw [ha] at h
      cases hb : s.env.src[s.env.srcPos]? with
      | none => rw [hb] at h; cases h
      | some c =>
        rw [hb] at h
        cases h
        exact bytesLeft_taken s (List.getElem?_eq_some_iff.mp hb).1
    | _ => rw [ha] at h; cases h
  · cases h

/-- The bits left in the reader's buffer and the source; the position of a full buffer is 0, and one above 8 comes
back to 8 once it has wrapped around. -/
def bitsLeft (s : State) : Nat := 8 * bytesLeft s + (8#4 - s.eng.br.pos).toNat

theorem bitsLeft_lt_bitBound (s : State) : bitsLeft s < bitBound s + 1 := by
  have hpos := (8#4 - s.eng.br.pos).isLt
  unfold bitsLeft bitBound
  omega

/-- Every bit delivered leaves fewer. -/
theorem readBit_bitsLeft {b : Bool} (h : readBit s = .ok (some b) t) : bitsLeft t < bitsLeft s := by
  rw [run_readBit] at h
  split at h
  · cases h
  · split at h
    · split at h
      · cases ha : nextAnswerOf s with
        | normal =>
          rw [ha] at h
          cases hb : s.env.src[s.env.srcPos]? with
          | none => rw [hb] at h; cases h
          | some c =>
            rw [hb] at h
            cases h
            have hlt := bytesLeft_taken s (List.getElem?_eq_some_iff.mp hb).1
            have hfull : (8#4 - 1#4).toNat = 7 := by decide
            change 8 * (s.env.src.length - (s.env.srcPos + 1)) + (8#4 - 1#4).toNat < _
            unfold bitsLeft
            omega
        | _ => rw [ha] at h; cases h
      · cases h
    · rename_i h8
      cases h
      have hstep : (8#4 - (s.eng.br.pos + 1#4)).toNat < (8#4 - s.eng.br.pos).toNat := by bv_omega
      exact Nat.add_lt_add_left hstep _

section Counting

variable (hio : K .ioUnavailable = true) (hover : K .countOverflow = true)
include hio hover

theorem scanLoop_sound {n : Nat} (hn : bytesLeft s < n) : Sound K s (scanLoop n s) := by
  induction n generalizing s with
  | zero => exact absurd hn (Nat.not_lt_zero _)
  | succ n ih =>
    refine (srcByte_sound hio s).bind fun r t hr _ => ?_
    cases r with
    | none => exact sound_done () t
    | some b =>
      have hlt := srcByte_bytesLeft hr
      exact (pFtInc_sound hover b t).bind fun _ u _ hu => ih (by have := hu.left; omega)

theorem pFtScan_sound (s : State) : Sound K s (pFtScan s) :=
  Sound.bind (p := fun s => scanLoop (bytesLeft s + 1) s) (scanLoop_sound hio hover (Nat.lt_succ_self _))
    fun _ t _ _ => sound_read <| sound_done _ t

end Counting

/-! ### The writer and the sink -/

/-- Writing to a closed sink is allowed for. -/
def MayWrite (K : FaultKind → Bool) (s : State) : Prop := s.eng.bw.isOpen = false → K .streamClosed = true

theorem MayWrite.of_calm (hw : MayWrite K s) (h : Calm s t) : MayWrite K t := fun hc => hw (h.isOpen ▸ hc)

theorem mayWrite_of_open (ho : s.eng.bw.isOpen = true) : MayWrite K s :=
  fun hc => absurd ho (ne_true_of_eq_false hc)

/-- An open sink closed is a finished one (`20_memory.md` R65). -/
theorem sinkKept_sinkClosed (ho : s.eng.bw.isOpen = true) : SinkKept s (sinkClosed s) := by
  have hdue : sinkDue s = true := by simp [sinkDue, ho]
  exact ⟨hdue.symm ▸ rfl, fun h => absurd hdue (ne_true_of_eq_false h), List.drop_suffix 1 _⟩

section Writing

variable (hio : K .ioUnavailable = true)
include hio

theorem flushByte_sound (v : Byte) (ho : s.eng.bw.isOpen = true) : Sound K s (flushByte v s) := by
  rw [run_flushByte]
  cases ha : nextAnswerOf s with
  | normal => exact Calm.of_call rfl rfl (fun hc => absurd ho (ne_true_of_eq_false hc)) rfl (Nat.le_refl _)
  | _ => exact stopped_of_call (congrArg stopOf ha) fun _ => hio

theorem writeBit_sound (b : Bool) (hw : MayWrite K s) : Sound K s (writeBit b s) := by
  rw [run_writeBit]
  split
  · split
    · exact flushByte_sound hio _ ‹_›
    · exact Calm.of_env_eq rfl rfl
  · rename_i hc
    exact stopped_raise (hw (eq_false_of_ne_true hc)) s

theorem sinkByte_sound (b : Byte) (hw : MayWrite K s) : Sound K s (sinkByte b s) := by
  rw [run_sinkByte]
  split
  · rename_i ho
    cases ha : nextAnswerOf s with
    | normal => exact Calm.of_call rfl rfl (fun hc => absurd ho (ne_true_of_eq_false hc)) rfl (Nat.le_refl _)
    | _ => exact stopped_of_call (congrArg stopOf ha) fun _ => hio
  · rename_i hc
    exact stopped_raise (hw (eq_false_of_ne_true hc)) s

theorem writeBits_sound (bits : List Bool) (hw : MayWrite K s) : Sound K s (writeBits bits s) := by
  induction bits generalizing s with
  | nil => exact sound_done () s
  | cons b bits ih => exact (writeBit_sound hio b hw).bind fun _ _ _ ht => ih (hw.of_calm ht)

theorem writeWords_sound (ws : List U32) (hw : MayWrite K s) : Sound K s (writeWords ws s) := by
  induction ws generalizing s with
  | nil => exact sound_done () s
  | cons w ws ih => exact (writeBits_sound hio (wordBits w) hw).bind fun _ _ _ ht => ih (hw.of_calm ht)

theorem pBwBit_sound {a : BitVec 8} (ha : a.toNat ≤ 1) (hw : MayWrite K s) : Sound K s (pBwBit a s) := by
  obtain ⟨b, hb, -⟩ := bitOperand_of_le ha
  rw [pBwBit_eq hb]
  exact (writeBit_sound hio b hw).bind fun _ t _ _ => sound_done _ t

theorem pHdrWr_sound (hw : MayWrite K s) : Sound K s (pHdrWr s) :=
  sound_read <| (writeWords_sound hio _ hw).bind fun _ t _ _ => sound_done _ t

theorem flushPadded_sound (ho : s.eng.bw.isOpen = true) : Sound K s (flushPadded s) := by
  by_cases hc : s.eng.bw.cnt = 0#3
  · rw [flushPadded_of_empty hc]
    exact Calm.refl s
  · rw [flushPadded_of_waiting hc]
    cases ha : nextAnswerOf s with
    | normal => exact Calm.of_call rfl rfl (fun hc => absurd ho (ne_true_of_eq_false hc)) rfl (Nat.le_refl _)
    | _ => exact stopped_of_call (congrArg stopOf ha) fun _ => hio

theorem closeSink_settles (v : U32) (ho : s.eng.bw.isOpen = true) : Settles K s (closeSink v s) := by
  rw [run_closeSink]
  cases ha : nextAnswerOf s with
  | normal => exact sinkKept_sinkClosed ho
  | ioErr => exact ⟨sinkKept_sinkClosed ho, hio⟩
  | _ => exact stopped_of_call (congrArg stopOf ha) fun _ => hio

theorem pBwClose_settles (hw : MayWrite K s) : Settles K s (pBwClose s) := by
  cases ho : s.eng.bw.isOpen with
  | false =>
    rw [pBwClose_closed ho]
    exact stopped_raise (hw ho) s
  | true =>
    rw [pBwClose_of_open ho]
    exact EndsBy.bind (flushPadded_sound hio ho) fun v t _ ht =>
      (closeSink_settles hio v (ht.isOpen.trans ho)).of_kept ht.toSinkKept

theorem pSnkClose_settles (s : State) : Settles K s (pSnkClose s) := by
  cases ho : s.eng.bw.isOpen with
  | false =>
    rw [pSnkClose_of_closed ho]
    exact .refl s
  | true =>
    have hclear : Calm s (modEngine clearWriter s) := .of_env_eq rfl rfl
    have hclose := closeSink_settles hio 0#32 (s := modEngine clearWriter s) ho
    rw [pSnkClose, bind_of_ok (run_getEng s), if_pos ho, bind_of_ok (run_modEng _ s)]
    exact hclose.of_kept hclear.toSinkKept

/-! ### The encoder (`44_compress.md` R201, R203) -/

section Encoding

variable (hbad : K .badSequence = true)
include hbad

theorem pEncSym_sound (a : Byte) (hw : MayWrite K s) : Sound K s (pEncSym a s) :=
  sound_read <| sound_require_bind hbad <| (writeBits_sound hio _ hw).bind fun _ t _ _ => sound_done _ t

theorem encodeLoop_sound {n : Nat} (hn : bytesLeft s < n) (hw : MayWrite K s) : Sound K s (encodeLoop n s) := by
  induction n generalizing s with
  | zero => exact absurd hn (Nat.not_lt_zero _)
  | succ n ih =>
    refine (srcByte_sound hio s).bind fun r t hr ht => ?_
    cases r with
    | none => exact sound_done () t
    | some b =>
      have hlt := srcByte_bytesLeft hr
      have hwt := hw.of_calm ht
      refine (pEncSym_sound hio hbad b hwt).bind fun _ u _ hu => ih ?_ (hwt.of_calm hu)
      have hle := hu.left
      omega

theorem pEncRun_sound (hw : MayWrite K s) : Sound K s (pEncRun s) :=
  sound_read <| sound_require_bind hbad <|
    Sound.bind (p := fun s => encodeLoop (bytesLeft s + 1) s)
      (encodeLoop_sound hio hbad (Nat.lt_succ_self _) hw) fun _ t _ _ => sound_done _ t

end Encoding

/-! ### The decoder (`45_decompress.md` R223, R225) -/

section Decoding

variable (htrunc : K .truncatedStream = true)
include htrunc

/-- The walk of DEC_SYM ends before its turns do: each takes one of the bits left. -/
theorem walkToLeaf_sound {n : Nat} (hn : bitsLeft s < n) : Sound K s (walkToLeaf n s) := by
  induction n generalizing s with
  | zero => exact absurd hn (Nat.not_lt_zero _)
  | succ n ih =>
    refine sound_read ?_
    split
    · exact sound_done () s
    · refine (readBit_sound hio s).bind fun r t hr _ => ?_
      cases r with
      | none => exact stopped_raise htrunc t
      | some b =>
        have hlt := readBit_bitsLeft hr
        refine sound_modEng_bind rfl (ih ?_)
        change bitsLeft t < n
        omega

variable (hbad : K .badSequence = true)
include hbad

theorem pDecSym_sound (hw : MayWrite K s) : Sound K s (pDecSym s) := by
  refine sound_read <| sound_require_bind hbad <| sound_modEng_bind rfl ?_
  refine Sound.bind (p := fun s => walkToLeaf (bitBound s + 1) s)
    (walkToLeaf_sound hio htrunc (bitsLeft_lt_bitBound _)) fun _ t _ ht => ?_
  have hwt : MayWrite K t := hw.of_calm ((calm_modEngine rfl).trans ht)
  exact sound_read <| (sinkByte_sound hio _ hwt).bind fun _ u _ _ => sound_modEng_bind rfl <| sound_done _ _

theorem decodeLoop_sound (n : Nat) (hw : MayWrite K s) : Sound K s (decodeLoop n s) := by
  induction n generalizing s with
  | zero => exact sound_done () s
  | succ n ih => exact (pDecSym_sound hio htrunc hbad hw).bind fun _ _ _ ht => ih (hw.of_calm ht)

theorem pDecRun_sound (hw : MayWrite K s) : Sound K s (pDecRun s) :=
  sound_read <| sound_require_bind hbad <| (decodeLoop_sound hio htrunc hbad _ hw).bind fun _ t _ _ => sound_done _ t

end Decoding

end Writing

/-! ### Opening a stream (`46_control.md` R243, R245) -/

/-- An open whose call is not answered normally stops there. -/
theorem pSrcOpen_of_stop (hc : s.eng.br.isOpen = false) (h : stopOf (nextAnswerOf s) = some e) :
    pSrcOpen s = .error e (asked s) := by
  have hreq : require (!s.eng.br.isOpen) .badSequence s = .ok () s := by simp [hc]
  rw [pSrcOpen, bind_of_ok (run_getEng s), bind_of_ok hreq, run_bind, call, run_srcOpenCall]
  cases ha : nextAnswerOf s <;> rw [ha] at h <;> cases h <;> rfl

theorem pSnkOpen_of_stop (hc : s.eng.bw.isOpen = false) (h : stopOf (nextAnswerOf s) = some e) :
    pSnkOpen s = .error e (asked s) := by
  have hreq : require (!s.eng.bw.isOpen) .badSequence s = .ok () s := by simp [hc]
  rw [pSnkOpen, bind_of_ok (run_getEng s), bind_of_ok hreq, run_bind, call, run_snkOpenCall]
  cases ha : nextAnswerOf s <;> rw [ha] at h <;> cases h <;> rfl

section Opening

variable (hio : K .ioUnavailable = true) (hbad : K .badSequence = true)
include hio hbad

theorem pSrcOpen_ends (s : State) :
    EndsBy (fun t => SinkKept s t ∧ t.eng.bw.isOpen = s.eng.bw.isOpen) (Stopped K s) (pSrcOpen s) := by
  cases ho : s.eng.br.isOpen with
  | true =>
    rw [pSrcOpen_of_open ho]
    exact stopped_raise hbad s
  | false =>
    cases ha : nextAnswerOf s with
    | normal =>
      rw [pSrcOpen_of_normal ho ha]
      exact ⟨⟨rfl, fun _ => rfl, List.drop_suffix 1 _⟩, rfl⟩
    | _ =>
      rw [pSrcOpen_of_stop ho (congrArg stopOf ha)]
      exact stopped_of_call (congrArg stopOf ha) fun _ => hio

/-- SNK_OPEN stops, where it does, before it empties the sink. -/
theorem pSnkOpen_ends (s : State) : EndsBy (fun t => t = sinkOpened s) (Stopped K s) (pSnkOpen s) := by
  cases ho : s.eng.bw.isOpen with
  | true =>
    rw [pSnkOpen_of_open ho]
    exact stopped_raise hbad s
  | false =>
    cases ha : nextAnswerOf s with
    | normal =>
      rw [pSnkOpen_of_normal ho ha]
      exact rfl
    | _ =>
      rw [pSnkOpen_of_stop ho (congrArg stopOf ha)]
      exact stopped_of_call (congrArg stopOf ha) fun _ => hio

end Opening

/-! ### The composites (`44_compress.md` R207, `45_decompress.md` R227) -/

/-- What holds all through a composite that started in `s`: the sink has been opened, and so is due to be finished, or
it is kept. -/
structure Since (s t : State) : Prop where
  sink : sinkDue t = true ∨ (sinkDue t = sinkDue s ∧ (sinkDue s = false → t.env.snk = s.env.snk))
  answers : t.env.answers <:+ s.env.answers

theorem SinkKept.since (h : SinkKept s t) : Since s t := ⟨.inr ⟨h.due, h.snk⟩, h.answers⟩

theorem Since.of_kept (h : Since s t) (hk : SinkKept t u) : Since s u := by
  refine ⟨?_, hk.answers.trans h.answers⟩
  rcases h.sink with hdue | ⟨hdue, hsnk⟩
  · exact .inl (hk.due.trans hdue)
  · exact .inr ⟨hk.due.trans hdue, fun hs => (hk.snk (hdue.trans hs)).trans (hsnk hs)⟩

theorem Since.of_opened (h : Since s t) : Since s (sinkOpened t) :=
  ⟨.inl rfl, (List.drop_suffix 1 _).trans h.answers⟩

/-- From `s` a command stopped in `t`; a composite may have opened the sink. -/
def Halted (K : FaultKind → Bool) (s : State) (e : Stop) (t : State) : Prop := Since s t ∧ StopsWith K s e

theorem Stopped.halted (hs : Since s t) (h : Stopped K t e u) : Halted K s e u :=
  ⟨hs.of_kept h.1, h.2.of_answers hs.answers⟩

/-- A part of a composite that keeps the sink. -/
theorem Settles.since {r : EStateM.Result Stop State α} (hs : Since s t) (h : Settles K t r) :
    EndsBy (Since s) (Halted K s) r :=
  h.mono (fun _ hk => hs.of_kept hk) fun _ _ he => he.halted hs

/-- Since `s` the sink was opened. -/
structure OpenedSince (s t : State) : Prop where
  since : Since s t
  isOpen : t.eng.bw.isOpen = true

/-- A part of a composite with the sink open all through it. -/
theorem EndsBy.openedSince {P : State → Prop} {r : EStateM.Result Stop State α} (hs : OpenedSince s t)
    (hP : ∀ u, P u → SinkKept t u ∧ u.eng.bw.isOpen = t.eng.bw.isOpen) (h : EndsBy P (Stopped K t) r) :
    EndsBy (OpenedSince s) (Halted K s) r :=
  h.mono (fun u hu => ⟨hs.since.of_kept (hP u hu).1, (hP u hu).2.trans hs.isOpen⟩)
    fun _ _ he => he.halted hs.since

theorem Sound.openedSince {r : EStateM.Result Stop State α} (hs : OpenedSince s t) (h : Sound K t r) :
    EndsBy (OpenedSince s) (Halted K s) r :=
  EndsBy.openedSince hs (fun _ hu => ⟨hu.toSinkKept, hu.isOpen⟩) h

section Composites

variable (hio : K .ioUnavailable = true) (hbad : K .badSequence = true)
include hio hbad

/-- The sink opened within a composite. -/
theorem pSnkOpen_since (hs : Since s t) : EndsBy (OpenedSince s) (Halted K s) (pSnkOpen t) :=
  (pSnkOpen_ends hio hbad t).mono (by rintro _ rfl; exact ⟨hs.of_opened, rfl⟩) fun _ _ he => he.halted hs

theorem pSrcOpen_settles (s : State) : Settles K s (pSrcOpen s) :=
  (pSrcOpen_ends hio hbad s).mono (fun _ ht => ht.1) fun _ _ he => he

theorem countingPass_settles (hover : K .countOverflow = true) (s : State) : Settles K s (countingPass s) :=
  (pSrcOpen_settles hio hbad s).bind fun _ t _ => (pFtClr_sound t).settles.bind fun _ u _ =>
    (pFtScan_sound hio hover u).settles.bind fun _ v _ => (pSrcClose_sound v).settles

omit hio hbad in
/-- The tree's arena is in order after HT_BUILD, so its code book can be built. -/
theorem buildingPass_settles (s : State) : Settles K s (buildingPass s) := by
  obtain ⟨b, v, t, -, hrun, henv, -, heng⟩ := run_buildingPass s
  rw [hrun]
  exact (Calm.of_env_eq (by rw [heng]) henv).toSinkKept

theorem headerPass_since (hs : Since s t) : EndsBy (OpenedSince s) (Halted K s) (headerPass t) :=
  (pSnkOpen_since hio hbad hs).bind fun _ _ _ hu => (pHdrWr_sound hio (mayWrite_of_open hu.isOpen)).openedSince hu

theorem payloadPass_since (hs : OpenedSince s t) : EndsBy (Since s) (Halted K s) (payloadPass t) :=
  ((pSrcOpen_ends hio hbad t).openedSince hs fun _ hu => hu).bind fun _ _ _ hu =>
    ((pEncRun_sound hio hbad (mayWrite_of_open hu.isOpen)).openedSince hu).bind fun _ _ _ hv =>
    ((pSrcClose_sound _).openedSince hv).bind fun _ _ _ hw =>
    (pBwClose_settles hio (mayWrite_of_open hw.isOpen)).since hw.since

/-- COMPRESS writes to an open sink alone. -/
theorem pCompress_ends (hover : K .countOverflow = true) (s : State) :
    EndsBy (Since s) (Halted K s) (pCompress s) := by
  by_cases ho : s.eng.br.isOpen = true ∨ s.eng.bw.isOpen = true
  · rw [pCompress_of_open ho]
    exact (stopped_raise hbad s).halted (SinkKept.refl s).since
  · obtain ⟨hr, hw⟩ := not_or.mp ho
    rw [pCompress_of_closed (eq_false_of_ne_true hr) (eq_false_of_ne_true hw)]
    exact ((countingPass_settles hio hbad hover s).since (SinkKept.refl s).since).bind fun _ _ _ h1 =>
      ((buildingPass_settles _).since h1).bind fun _ _ _ h2 =>
      (headerPass_since hio hbad h2).bind fun _ _ _ h3 =>
      (payloadPass_since hio hbad h3).bind fun _ _ _ h4 => h4

theorem loadingPass_since (hcorrupt : K .corruptHeader = true) (hs : Since s t) :
    EndsBy (OpenedSince s) (Halted K s) (loadingPass t) :=
  ((pSrcOpen_settles hio hbad t).since hs).bind fun _ _ _ h1 =>
    ((pHdrRd_sound hio hcorrupt _).settles.since h1).bind fun _ _ _ h2 =>
    ((pHtBuild_sound _).settles.since h2).bind fun _ _ _ h3 => pSnkOpen_since hio hbad h3

omit hbad in
theorem closingPass_settles (s : State) : Settles K s (closingPass s) :=
  (pSnkClose_settles hio s).bind fun _ t _ => (pSrcClose_sound t).settles

/-- DECOMPRESS sends to an open sink alone. -/
theorem pDecompress_ends (hcorrupt : K .corruptHeader = true) (htrunc : K .truncatedStream = true) (s : State) :
    EndsBy (Since s) (Halted K s) (pDecompress s) := by
  by_cases ho : s.eng.br.isOpen = true ∨ s.eng.bw.isOpen = true
  · rw [pDecompress_of_open ho]
    exact (stopped_raise hbad s).halted (SinkKept.refl s).since
  · obtain ⟨hr, hw⟩ := not_or.mp ho
    rw [pDecompress_of_closed (eq_false_of_ne_true hr) (eq_false_of_ne_true hw)]
    exact (loadingPass_since hio hbad hcorrupt (SinkKept.refl s).since).bind fun _ _ _ h1 =>
      ((pDecRun_sound hio htrunc hbad (mayWrite_of_open h1.isOpen)).openedSince h1).bind fun _ _ _ h2 =>
      ((closingPass_settles hio _).since h2.since).bind fun _ _ _ h3 => h3

end Composites

/-! ### Every command -/

/-- CB_BUILD met an arena that is no tree. -/
def NoTree (i : Instr) (e : Stop) : Prop := i = .cbBuild ∧ e = .cut (.fault .arenaNotATree)

/-- A command that is no composite keeps the sink where it stops, and raises a fault of its row of the table
(`60_exceptions.md` R261). -/
theorem command_stopped {i : Instr} {p : Proc U32} (hp : procOf i = some p) (hwf : i.wellFormed = true)
    (hc : i ≠ .compress) (hd : i ≠ .decompress) (h : p s = .error e t) :
    Stopped (mayFault i) s e t ∨ NoTree i e := by
  cases i <;> cases hp
  case srcOpen => exact .inl ((pSrcOpen_ends rfl rfl s).of_error h)
  case srcClose => exact .inl ((pSrcClose_sound s).of_error h)
  case snkOpen => exact .inl ((pSnkOpen_ends rfl rfl s).of_error h)
  case snkClose => exact .inl ((pSnkClose_settles rfl s).of_error h)
  case ftClr => exact .inl ((pFtClr_sound s).of_error h)
  case ftInc a => exact .inl ((pFtInc_sound rfl a s).of_error h)
  case ftScan => exact .inl ((pFtScan_sound rfl rfl s).of_error h)
  case htInit => exact .inl ((pHtInit_sound s).of_error h)
  case htStep => exact .inl ((pHtStep_sound rfl s).of_error h)
  case htBuild => exact .inl ((pHtBuild_sound s).of_error h)
  case cbBuild => exact ((pCbBuild_ends rfl s).of_error h).imp_right fun he => ⟨rfl, he⟩
  case bwBit a => exact .inl ((pBwBit_sound rfl (of_decide_eq_true hwf) fun _ => rfl).of_error h)
  case bwClose => exact .inl ((pBwClose_settles rfl fun _ => rfl).of_error h)
  case brBit => exact .inl ((pBrBit_sound rfl s).of_error h)
  case hdrWr => exact .inl ((pHdrWr_sound rfl fun _ => rfl).of_error h)
  case hdrRd => exact .inl ((pHdrRd_sound rfl rfl s).of_error h)
  case encSym a => exact .inl ((pEncSym_sound rfl rfl a fun _ => rfl).of_error h)
  case encRun => exact .inl ((pEncRun_sound rfl rfl fun _ => rfl).of_error h)
  case decSym => exact .inl ((pDecSym_sound rfl rfl rfl fun _ => rfl).of_error h)
  case decRun => exact .inl ((pDecRun_sound rfl rfl rfl fun _ => rfl).of_error h)
  case compress => exact absurd rfl hc
  case decompress => exact absurd rfl hd

/-- A composite raises a fault of its row too, but it may have opened the sink before. -/
theorem command_halted {i : Instr} {p : Proc U32} (hp : procOf i = some p) (hwf : i.wellFormed = true)
    (h : p s = .error e t) : Halted (mayFault i) s e t ∨ NoTree i e := by
  by_cases hc : i = .compress
  · subst hc
    cases hp
    exact .inl ((pCompress_ends rfl rfl rfl s).of_error h)
  by_cases hd : i = .decompress
  · subst hd
    cases hp
    exact .inl ((pDecompress_ends rfl rfl rfl rfl s).of_error h)
  exact (command_stopped hp hwf hc hd h).imp_left fun he => he.halted (SinkKept.refl s).since

end Sys2Proof.Machine
end

-- ==== Proofs: faults, and the end of every command ====
section
namespace Sys2Proof.Machine

variable {s t u : State} {i : Instr} {p : Proc U32} {w : Command}

/-! ### The response `FAULT` (`60_exceptions.md` R261, R262) -/

/-- `FAULT` is the response to a procedure that raised, its release answered. -/
theorem procNext_faultResponse (hs : Ready s) (h : ProcNext p s u) (hrsp : u.host.rsp = some .fault) :
    ∃ k t, p s = .error (.raise k) t ∧ u = faultState k t := by
  rcases h with ⟨hf, -⟩ | ⟨-, v, t, -, rfl⟩ | ⟨-, k, t, hp, -, rfl⟩ | ⟨-, t, -, rfl⟩ | ⟨-, k, t, v, -, -, rfl⟩
  · exact absurd hf (ne_true_of_eq_false hs)
  · cases hrsp
  · exact ⟨k, t, hp, rfl⟩
  · cases hrsp
  · cases hrsp

theorem exec_faultResponse (hs : Ready s) (h : exec i s = .next u) (hrsp : u.host.rsp = some .fault) :
    ∃ p k t, procOf i = some p ∧ p s = .error (.raise k) t ∧ u = faultState k t := by
  rcases exec_next h with ⟨-, rfl⟩ | ⟨-, ⟨-, rfl⟩ | ⟨v, -, rfl⟩⟩ | ⟨p, hp, hn⟩
  · rw [if_neg (ne_true_of_eq_false hs)] at hrsp
    cases hrsp
  · cases hrsp
  · cases hrsp
  · obtain ⟨k, t, hrun, hu⟩ := procNext_faultResponse hs hn hrsp
    exact ⟨p, k, t, hp, hrun, hu⟩

/-- Settles O52: the table's row of a command allows all its procedure can raise. -/
theorem faultsAreThoseOfTheTable : Obligations.FaultsAreThoseOfTheTable := by
  intro i s u hwf hs h hrsp
  obtain ⟨p, k, t, hp, hrun, rfl⟩ := exec_faultResponse hs h hrsp
  rcases command_halted hp hwf hrun with ⟨-, hk⟩ | ⟨-, he⟩
  · exact ⟨k, hk, rfl⟩
  · cases he

/-- The release finishes an open sink (`20_memory.md` R89). -/
theorem faultState_snkDone (k : FaultKind) (s : State) : (faultState k s).env.snkDone = sinkDue s := Bool.or_comm _ _

/-- The fault flags, and both streams closed (`60_exceptions.md` R262). -/
theorem faultState_flags (k : FaultKind) (s : State) :
    (faultState k s).eng.stat.err ≠ 0#3 ∧
      ((faultState k s).eng.stat.incomplete = true ↔ (faultState k s).eng.stat.err = 3#3) ∧
      (faultState k s).eng.bw.isOpen = false := by
  have hcode : k.code ≠ 0#3 ∧ (decide (k = .truncatedStream) = true ↔ k.code = 3#3) := by
    cases k <;> decide
  exact ⟨hcode.1, hcode.2, releasedWriter_closed _⟩

/-- The words of the composites (`30_encoding.md` R92). -/
theorem not_composite (hi : decode w = .ok i) (hw : w ≠ 0xF000#16 ∧ w ≠ 0xF100#16) :
    i ≠ .compress ∧ i ≠ .decompress := by
  obtain ⟨rfl, -⟩ := decode_eq_ok_iff.mp hi
  constructor
  · rintro rfl
    exact hw.1 rfl
  · rintro rfl
    exact hw.2 rfl

/-- Where a command word raised its fault: the sink is kept, but that a composite may have opened it. -/
theorem runCommand_faultResponse (hs : Ready s) (h : runCommand w s = .next u) (hrsp : u.host.rsp = some .fault) :
    ∃ k t, u = faultState k t ∧ Since s t ∧ (w ≠ 0xF000#16 ∧ w ≠ 0xF100#16 → SinkKept s t) := by
  rcases runCommand_next h with ⟨i, hi, hexec⟩ | ⟨-, hillegal⟩
  · obtain ⟨p, k, t, hp, hrun, hu⟩ := exec_faultResponse hs hexec hrsp
    have hwf := (decode_eq_ok_iff.mp hi).2
    refine ⟨k, t, hu, ?_, fun hw => ?_⟩
    · rcases command_halted hp hwf hrun with ⟨hsince, -⟩ | ⟨-, he⟩
      · exact hsince
      · cases he
    · obtain ⟨hc, hd⟩ := not_composite hi hw
      rcases command_stopped hp hwf hc hd hrun with ⟨hkept, -⟩ | ⟨-, he⟩
      · exact hkept
      · cases he
  · obtain ⟨k, t, hraise, hu⟩ := procNext_faultResponse hs hillegal hrsp
    cases hraise
    exact ⟨_, s, hu, (SinkKept.refl s).since, fun _ => .refl s⟩

/-- A sink due before is due after. -/
theorem Since.due (h : Since s t) (hdue : sinkDue s = true) : sinkDue t = sinkDue s := by
  rcases h.sink with ht | ⟨ht, -⟩
  · exact ht.trans hdue.symm
  · exact ht

/-- The sink is due, or it is as it was. -/
theorem Since.due_or_untouched (h : Since s t) :
    sinkDue t = true ∨ (t.env.snk = s.env.snk ∧ sinkDue t = s.env.snkDone) := by
  rcases h.sink with ht | ⟨ht, hsnk⟩
  · exact .inl ht
  · cases hdue : sinkDue s with
    | true => exact .inl (ht.trans hdue)
    | false => exact .inr ⟨hsnk hdue, ht.trans (hdue.trans (Bool.or_eq_false_iff.mp hdue).1.symm)⟩

/-- Settles O53: the flags and the release of the fault's state, and the sink as the command left it for them. -/
theorem faultReleasesStreams : Obligations.FaultReleasesStreams := by
  intro w s u hs h hrsp
  obtain ⟨k, t, rfl, hsince, hkept⟩ := runCommand_faultResponse hs h hrsp
  obtain ⟨herr, hinc, hclosed⟩ := faultState_flags k t
  refine ⟨rfl, herr, rfl, hinc, hclosed, rfl, fun hw => ?_, fun _ => ?_⟩
  · rw [faultState_snkDone]
    rcases hw with hw | ho
    · exact (hkept hw).due
    · exact hsince.due (by rw [sinkDue, ho, Bool.or_true])
  · rw [faultState_snkDone]
    exact hsince.due_or_untouched

/-! ### Every command ends where every call is answered (`70_reset_and_hazards.md` R301) -/

/-- Under an oracle of R66 a procedure is cut by no call. -/
theorem Halted.raised {K : FaultKind → Bool} {e : Stop} (h : Halted K s e t) (ha : Answering s) :
    (∃ k, e = .raise k) ∧ Answering t := by
  obtain ⟨hsince, hstop⟩ := h
  refine ⟨?_, fun a hmem => ha a (hsince.answers.mem hmem)⟩
  cases e with
  | raise k => exact ⟨k, rfl⟩
  | cut c =>
    cases c with
    | hwReset => exact absurd (ha _ hstop) (by decide)
    | fault f =>
      cases f with
      | environmentSilent => exact absurd (ha _ hstop) (by decide)
      | arenaNotATree => exact hstop.elim
      | loopBoundExceeded => exact hstop.elim

/-- `Exec` answers where the procedure is not cut and the release of a fault is answered. -/
theorem execute_ends (h : ∀ e t, p s = .error e t → (∃ k, e = .raise k) ∧ Answering t) :
    ∃ u, execute (runProc p) s = .next u := by
  by_cases hs : Ready s
  · cases hp : p s with
    | ok v t => exact ⟨_, execute_of_ok hs hp⟩
    | error e t =>
      obtain ⟨⟨k, rfl⟩, ha⟩ := h e t hp
      exact ⟨_, execute_of_raise hs hp (releaseAnswered_of_answering ha)⟩
  · exact ⟨_, execute_refused _ (eq_true_of_ne_false hs)⟩

/-- CB_BUILD meets a tree where the tables hold together (`43_codebook.md` R181). -/
theorem pCbBuild_of_tablesInv (hs : Ready s) (h : TablesInv s.eng) :
    pCbBuild s ≠ .error (.cut (.fault .arenaNotATree)) t := by
  intro hrun
  by_cases hp : s.eng.tree.phase = .done
  · obtain ⟨u, hu, -⟩ := cbBuildRecordsPaths s hs h hp
    rw [exec_eq rfl, execute_of_fault hs hrun] at hu
    cases hu
  · rw [pCbBuild_not_done hp] at hrun
    cases hrun

theorem exec_ends (hwf : i.wellFormed = true) (ha : Answering s) (ht : TablesInv s.eng) :
    ∃ u, exec i s = .next u := by
  cases hp : procOf i with
  | none =>
    cases i <;> cases hp
    · exact ⟨_, exec_nop s⟩
    · exact ⟨_, exec_reset (releaseAnswered_of_answering ha)⟩
  | some p =>
    by_cases hs : Ready s
    · rw [exec_eq hp]
      refine execute_ends fun e t hrun => ?_
      rcases command_halted hp hwf hrun with hhalt | ⟨rfl, rfl⟩
      · exact hhalt.raised ha
      · cases hp
        exact absurd hrun (pCbBuild_of_tablesInv hs ht)
    · exact ⟨_, (exec_eq hp s).trans (execute_refused _ (eq_true_of_ne_false hs))⟩

theorem runCommand_ends (w : Command) (ha : Answering s) (ht : TablesInv s.eng) : ∃ u, runCommand w s = .next u := by
  unfold runCommand
  split
  · rename_i i hi
    exact exec_ends (decode_eq_ok_iff.mp hi).2 ha ht
  · exact execute_ends fun e t hrun => by
      cases hrun
      exact ⟨⟨_, rfl⟩, ha⟩

/-! ### Where the model stops (`70_reset_and_hazards.md` R300) -/

/-- `Exec` stops the model where the procedure does, or in the release at a call that is never answered. -/
theorem execute_fault {f : Fault} (h : execute (runProc p) s = .fault f) :
    f = .environmentSilent ∨ ∃ t, p s = .error (.cut (.fault f)) t := by
  by_cases hs : Ready s
  · cases hp : p s with
    | ok v t => rw [execute_of_ok hs hp] at h; cases h
    | error e t =>
      cases e with
      | raise k =>
        rw [execute_ready _ hs] at h
        simp only [runProc, hp] at h
        rcases release_cases (modEngine (setFaultFlags k) t) with ⟨-, hr⟩ | ⟨-, v, hr⟩ | ⟨-, v, hr, -⟩
        · rw [bind_of_ok ((faultEntry_eq k t).trans hr)] at h
          cases h
        · rw [bind_of_error ((faultEntry_eq k t).trans hr)] at h
          cases h
          exact .inl rfl
        · rw [bind_of_error ((faultEntry_eq k t).trans hr)] at h
          cases h
      | cut c =>
        cases c with
        | hwReset => rw [execute_of_hwReset hs hp] at h; cases h
        | fault g =>
          rw [execute_of_fault hs hp] at h
          cases h
          exact .inr ⟨t, rfl⟩
  · rw [execute_refused _ (eq_true_of_ne_false hs)] at h
    cases h

/-- RESET stops where its release does. -/
theorem exec_reset_of_error {c : Cut} (h : release s = .error c t) : exec .reset s = finish (.error c t) := by
  have hsoft : softReset s = .error c t := bind_of_error h _
  change finish ((do softReset; pure .ok : Prim Response) s) = _
  rw [bind_of_error hsoft]

theorem exec_reset_fault {f : Fault} (h : exec .reset s = .fault f) : f = .environmentSilent := by
  rcases release_cases s with ⟨hr, -⟩ | ⟨-, v, hr⟩ | ⟨-, v, hr, -⟩
  · rw [exec_reset hr] at h
    cases h
  · rw [exec_reset_of_error hr] at h
    cases h
    rfl
  · rw [exec_reset_of_error hr] at h
    cases h

theorem exec_fault_ne_loopBound (hwf : i.wellFormed = true) (s : State) : exec i s ≠ .fault .loopBoundExceeded := by
  intro h
  cases hp : procOf i with
  | none =>
    cases i <;> cases hp
    · rw [exec_nop] at h
      cases h
    · cases exec_reset_fault h
  | some p =>
    rw [exec_eq hp] at h
    rcases execute_fault h with he | ⟨t, hrun⟩
    · cases he
    · rcases command_halted hp hwf hrun with ⟨-, hstop⟩ | ⟨-, he⟩
      · exact hstop
      · cases he

/-- No loop of the model meets its bound, in any state. -/
theorem runCommand_ne_loopBound (w : Command) (s : State) : runCommand w s ≠ .fault .loopBoundExceeded := by
  unfold runCommand
  split
  · rename_i i hi
    exact exec_fault_ne_loopBound (decode_eq_ok_iff.mp hi).2 s
  · intro h
    rcases execute_fault h with he | ⟨t, hrun⟩
    · cases he
    · cases hrun

/-! ### Calls that are never answered (`70_reset_and_hazards.md` R300) -/

theorem exec_of_silent (hp : procOf i = some p) (hs : Ready s)
    (h : p s = .error (.cut (.fault .environmentSilent)) t) : exec i s = .fault .environmentSilent :=
  (exec_eq hp s).trans (execute_of_fault hs h)

section Silent

variable (hn : nextAnswerOf s = .silent)
include hn

theorem pSrcClose_silent (ho : s.eng.br.isOpen = true) :
    pSrcClose s = .error (.cut (.fault .environmentSilent)) (asked s) := by
  rw [run_pSrcClose, if_pos ho, hn]

theorem pBrBit_silent (ho : s.eng.br.isOpen = true) (he : s.eng.br.eos = false) (h8 : s.eng.br.pos = 8#4) :
    pBrBit s = .error (.cut (.fault .environmentSilent)) (asked s) := by
  have hread := run_readBit s
  rw [if_neg (ne_true_of_eq_false he), if_pos h8, if_pos ho, hn] at hread
  exact bind_of_error hread _

theorem pSnkClose_silent (ho : s.eng.bw.isOpen = true) :
    pSnkClose s = .error (.cut (.fault .environmentSilent)) (asked (modEngine clearWriter s)) := by
  have hclose := run_closeSink 0#32 (modEngine clearWriter s)
  rw [show nextAnswerOf (modEngine clearWriter s) = .silent from hn] at hclose
  rw [pSnkClose, bind_of_ok (run_getEng s), if_pos ho, bind_of_ok (run_modEng _ s)]
  exact hclose

theorem pBwBit_silent {a : BitVec 8} (ho : s.eng.bw.isOpen = true) (h7 : s.eng.bw.cnt = 7#3) (ha : a.toNat ≤ 1) :
    pBwBit a s = .error (.cut (.fault .environmentSilent)) (asked s) := by
  obtain ⟨b, hb, -⟩ := bitOperand_of_le ha
  have hwrite := run_writeBit b s
  rw [if_pos ho, if_pos h7, run_flushByte, hn] at hwrite
  rw [pBwBit_eq hb, bind_of_error hwrite]

/-- The first call of the release is the sink's, where it is open. -/
theorem release_sink_silent (ho : s.eng.bw.isOpen = true) :
    release s = .error (.fault .environmentSilent) (asked (modEngine clearWriter s)) := by
  have hsink := run_releaseSink s
  rw [if_pos ho, hn] at hsink
  exact bind_of_error hsink _

end Silent

/-- The source's call of the release comes after that of an open sink. -/
theorem release_source_silent (hw : s.eng.bw.isOpen = true → NextAnswered s) (ho : s.eng.br.isOpen = true)
    (hn : nextAnswerOf (sinkReleased s) = .silent) :
    release s = .error (.fault .environmentSilent) (asked (sinkReleased s)) := by
  rw [release_of_sink hw, run_releaseSource, if_pos (show (sinkReleased s).eng.br.isOpen = true from ho), hn]

theorem nextAnswerOf_sinkReleased_of_closed (hc : s.eng.bw.isOpen = false) :
    nextAnswerOf (sinkReleased s) = nextAnswerOf s := by
  simp [nextAnswerOf, sinkReleased, hc]

theorem nextAnswerOf_sinkReleased_of_open (ho : s.eng.bw.isOpen = true) :
    nextAnswerOf (sinkReleased s) = nextAnswerOf (asked s) := by
  simp [nextAnswerOf, sinkReleased, ho]

theorem exec_reset_silent (hn : nextAnswerOf s = .silent) (ho : s.eng.bw.isOpen = true ∨ s.eng.br.isOpen = true) :
    exec .reset s = .fault .environmentSilent := by
  cases hw : s.eng.bw.isOpen with
  | true => exact exec_reset_of_error (release_sink_silent hn hw)
  | false =>
    have hr := ho.resolve_left (ne_true_of_eq_false hw)
    exact exec_reset_of_error (release_source_silent (fun h => absurd h (ne_true_of_eq_false hw)) hr
      ((nextAnswerOf_sinkReleased_of_closed hw).trans hn))

/-- Settles O56: no call cuts a command under an oracle, the loops' bounds are never met, and a call that is never
answered is where each of the procedures stops. -/
theorem everyCommandEnds : Obligations.EveryCommandEnds := by
  refine ⟨fun w s => ⟨runCommand_ends w, runCommand_ne_loopBound w s⟩, ?_⟩
  intro s a hs never
  refine ⟨fun hn => ?_, fun ho hr ha hn => ?_⟩
  · refine ⟨fun hc => ?_, fun ho => ?_, fun ho he h8 => ?_, fun hc => ?_, fun ho => ?_, fun ho h7 ha => ?_,
      exec_reset_silent hn⟩
    · exact exec_of_silent rfl hs (pSrcOpen_of_stop hc (congrArg stopOf hn))
    · exact exec_of_silent rfl hs (pSrcClose_silent hn ho)
    · exact exec_of_silent rfl hs (pBrBit_silent hn ho he h8)
    · exact exec_of_silent rfl hs (pSnkOpen_of_stop hc (congrArg stopOf hn))
    · exact exec_of_silent rfl hs (pSnkClose_silent hn ho)
    · exact exec_of_silent rfl hs (pBwBit_silent hn ho h7 ha)
  · exact exec_reset_of_error (release_source_silent (fun _ => ha) hr
      ((nextAnswerOf_sinkReleased_of_open ho).trans hn))

end Sys2Proof.Machine
end
